-- ==== Sys2Proof/Word.lean ====
section
/-! DEFINITION. Words, identifiers and the plainest helpers on fixed-size tables. -/
namespace Sys2Proof

/-- One byte (a frame byte, a byte of a FIFO, of a burst or of the die). -/
abbrev Byte := BitVec 8

/-- One 16-bit word of a capture or play-out port (chapter 8), and the CRC of a frame (R166). -/
abbrev Word16 := BitVec 16

/-- The bits of a stored burst and of its check code: bits 0 to 255 are the 32 bytes (bit `8 i + j` is bit `j` of
byte `i`), bits 256 to 271 the 16-bit code (R2, R56). -/
abbrev BurstBits := BitVec 272

/-- CH0 to CH5. -/
abbrev ChannelId := Fin 6
/-- Region 0 to region 15. -/
abbrev RegionId := Fin 16
/-- MK0 to MK15. -/
abbrev MarkId := Fin 16
/-- CAP0 to CAP3. -/
abbrev CaptureId := Fin 4
/-- OUT0 and OUT1. -/
abbrev PlayoutId := Fin 2
/-- BK0 to BK7. -/
abbrev BankId := Fin 8
/-- An arbitration class, 0 highest (4.4). -/
abbrev ClassId := Fin 4

/-- A number as an index below `n`, if it is one. -/
def idx? (n k : Nat) : Option (Fin n) :=
  if h : k < n then some ⟨k, h⟩ else none

/-- A count that holds its largest value `top` (00_scope.md, Counters). -/
def satAdd (top k n : Nat) : Nat := min top (n + k)

/-- Entry `i` of a table. -/
def getAt {α : Type} {n : Nat} (v : Vector α n) (i : Fin n) : α := v[i.val]

/-- The table with entry `i` replaced. -/
def setAt {α : Type} {n : Nat} (v : Vector α n) (i : Fin n) (x : α) : Vector α n :=
  v.set i.val x i.isLt

/-- The table whose entry `i` is `f` of the old entry. -/
def mapTable {α β : Type} {n : Nat} (f : α → β) (v : Vector α n) : Vector β n :=
  Vector.ofFn fun i => f (getAt v i)

@[simp] theorem getAt_setAt_self {α : Type} {n : Nat} (v : Vector α n) (i : Fin n) (x : α) :
    getAt (setAt v i x) i = x := by
  simp [getAt, setAt]

theorem getAt_setAt_ne {α : Type} {n : Nat} (v : Vector α n) {i j : Fin n} (x : α) (h : j ≠ i) :
    getAt (setAt v i x) j = getAt v j := by
  have h' : i.val ≠ j.val := fun e => h (Fin.ext e.symm)
  simp [getAt, setAt, Vector.getElem_set_ne, h']

theorem getAt_setAt {α : Type} {n : Nat} (v : Vector α n) (i j : Fin n) (x : α) :
    getAt (setAt v i x) j = if j = i then x else getAt v j := by
  by_cases h : j = i
  · subst h; simp
  · simp [h, getAt_setAt_ne v x h]

@[simp] theorem getAt_mapTable {α β : Type} {n : Nat} (f : α → β) (v : Vector α n) (i : Fin n) :
    getAt (mapTable f v) i = f (getAt v i) := by
  simp [mapTable, getAt]

/-- Two tables with the same entries are the same. -/
theorem table_ext {α : Type} {n : Nat} {v w : Vector α n} (h : ∀ i, getAt v i = getAt w i) : v = w := by
  apply Vector.ext
  intro i hi
  exact h ⟨i, hi⟩

end Sys2Proof
end

