-- ==== Sys2Proof/Config.lean ====
section
/-! DEFINITION. What the part fixes (capacities, durations, codes) and the two values its manual leaves open. -/
namespace Sys2Proof.Config

/-- Bytes of the die (00_scope.md, "The part at a glance"; R178). -/
def dramBytes : Nat := 67108864
/-- Bytes of one burst, the unit of every access (R2). -/
def burstBytes : Nat := 32
/-- Alignment of region bases and lengths (R4). -/
def pageBytes : Nat := 1024
/-- Address of the clear sweep's last burst (R52). -/
def lastBurst : Nat := 67108832

/-- Places of the burst list, and of one requester in it (R22). -/
def listPlaces : Nat := 8
def requesterPlaces : Nat := 2
/-- Places of a channel's pending queue (R76). -/
def pendingPlaces : Nat := 4
/-- Outstanding requests (R169). -/
def tablePlaces : Nat := 8
/-- Notices held (R156). -/
def noticePlaces : Nat := 32
/-- Bytes of a port's FIFO (chapter 8). -/
def fifoBytes : Nat := 256
/-- Largest LEN of a frame, and smallest (R167). -/
def maxLen : Nat := 300
def minLen : Nat := 2
/-- Largest payload of a frame: LEN less KIND and TAG. -/
def maxPayload : Nat := 298
/-- Largest payload of ECHO (R178). -/
def maxEcho : Nat := 297
/-- Largest refresh debt (R44), the debt at which a refresh is urgent (R46). -/
def maxDebt : Nat := 8
def urgentDebt : Nat := 4
/-- Largest value of a mark (R117). -/
def maxMark : Nat := 255
/-- Largest value of a 16-bit and of a 32-bit count. -/
def max16 : Nat := 65535
def max32 : Nat := 4294967295
/-- Longest length of a descriptor's run (R77). -/
def maxRun : Nat := 16777216
/-- The value of runs that means "until stopped" (R77). -/
def endless : Nat := 255

/-! Durations of R20's table, in ns. -/
def openingNs : Nat := 14
def closingNs : Nat := 14
def accessNs : Nat := 10
def refreshNs : Nat := 260
def minOpenNs : Nat := 34
def recoveryNs : Nat := 15
def spacingNs : Nat := 6
def windowNs : Nat := 30
/-- Openings that may fall in one window (R29), and times the opening history keeps. -/
def windowOpenings : Nat := 4
/-- Refresh intervals of R44's table, in ns. -/
def normalIntervalNs : Nat := 7800
def doubleIntervalNs : Nat := 3900
/-- The inter-byte limit of R168, in ns. -/
def interByteNs : Nat := 1000000

/-- SYNC (11.2). -/
def sync : Byte := 0xA5#8

/-! Identity reported by IDENTIFY (R178). -/
def vendorCode : Nat := 0x5C
def familyCode : Nat := 0x06
def partNumber : Nat := 648
def revision : Nat := 1

/-- FREE VALUE. The 16-bit check code of 32 bytes: R56 says it is computed from them and not how. -/
opaque checkCode : List Byte → BitVec 16

/-- What the check unit makes of a stored burst in which three or more bits are wrong (R57): it detects the error;
or the bytes and code happen to agree; or they look like an error of the one bit named. -/
inductive WideOutcome where
  | detected
  | agrees
  | looksSingle (bit : Fin 272)
deriving DecidableEq, Repr, Inhabited

/-- FREE VALUE. The outcome for the bytes last written and the wrong bits, three or more: R57 leaves it to the code. -/
opaque wideErrorOutcome : List Byte → BurstBits → WideOutcome

end Sys2Proof.Config
end

