-- ==== Sys2Proof/Syntax.lean ====
section
/-! DEFINITION. The commands the part takes: one constructor for each row of spec/opcode_table.json.

A request command is the arrival of what is still to come of the good frame with that KIND, the given TAG and payload,
up to its second CRC byte, and its dispatch (R167, R170). The payload is the raw bytes, so that a payload of a wrong
length (BAD_LENGTH) is a command too. -/
namespace Sys2Proof

inductive Instr where
  | identify (tag : Byte) (payload : List Byte)
  | echo (tag : Byte) (payload : List Byte)
  | linkStats (tag : Byte) (payload : List Byte)
  | restart (tag : Byte) (payload : List Byte)
  | noticeAck (tag : Byte) (payload : List Byte)
  | noticeReplay (tag : Byte) (payload : List Byte)
  | regionDefine (tag : Byte) (payload : List Byte)
  | regionDelete (tag : Byte) (payload : List Byte)
  | regionQuery (tag : Byte) (payload : List Byte)
  | ringReset (tag : Byte) (payload : List Byte)
  | schedQuery (tag : Byte) (payload : List Byte)
  | rowPolicy (tag : Byte) (payload : List Byte)
  | retentionRate (tag : Byte) (payload : List Byte)
  | checkStats (tag : Byte) (payload : List Byte)
  | setClass (tag : Byte) (payload : List Byte)
  | arbQuery (tag : Byte) (payload : List Byte)
  | enqueue (tag : Byte) (payload : List Byte)
  | channelStop (tag : Byte) (payload : List Byte)
  | channelResume (tag : Byte) (payload : List Byte)
  | channelQuery (tag : Byte) (payload : List Byte)
  | markSet (tag : Byte) (payload : List Byte)
  | markAdd (tag : Byte) (payload : List Byte)
  | markQuery (tag : Byte) (payload : List Byte)
  | portEnable (tag : Byte) (payload : List Byte)
  | portDisable (tag : Byte) (payload : List Byte)
  | portBind (tag : Byte) (payload : List Byte)
  | portQuery (tag : Byte) (payload : List Byte)
  | put (tag : Byte) (payload : List Byte)
  | get (tag : Byte) (payload : List Byte)
  | append (tag : Byte) (payload : List Byte)
  | take (tag : Byte) (payload : List Byte)
  /-- BAD_KIND: a good frame whose KIND is not a request code (R170, check 3). -/
  | badKind (kind tag : Byte) (payload : List Byte)
  /-- CRC_ERROR: the bytes that arrive, the last of them the second CRC byte of a frame whose CRC disagrees (R167). -/
  | crcError (bytes : List Byte)
  /-- OVERSIZE: the bytes that arrive, the last of them the second LEN byte, LEN outside 2 to 300 (R167). -/
  | oversize (bytes : List Byte)
  | interByteTimeout
  /-- BREAK: RXD has been low for 20 bit times (R175). -/
  | linkBreak
  /-- PIN_RESET: RESET is asserted, or power is lost (R19). -/
  | pinReset
  /-- PIN_RESET_END: RESET is released with the straps SPD1 and SPD0 at these levels (true is high, R165). -/
  | pinResetEnd (spd1 spd0 : Bool)
  | settleExpiry
  /-- CALIBRATION_COMPLETION with its outcome, set by the die and the data path (R51). -/
  | calibrationCompletion (pass : Bool)
  | intervalExpiry
  | spacingExpiry
  | windowExpiry
  | minOpenExpiry (bank : BankId)
  | recoveryExpiry (bank : BankId)
  | idleExpiry (bank : BankId)
  | openingStart
  | openingCompletion (bank : BankId)
  | closingStart (bank : BankId)
  | closingCompletion (bank : BankId)
  | accessStart
  /-- ACCESS_COMPLETION, with the bits of the accessed burst and its code that have changed in the die since the
  burst was last accessed (R57); a WRITE replaces the burst, and they do not matter. -/
  | accessCompletion (flips : BurstBits)
  | refreshStart
  | refreshCompletion
  | admission
  /-- STROBE of a capture port with the word on its data inputs (R130). -/
  | strobe (port : CaptureId) (word : Word16)
  /-- PULL of a play-out port (R137). -/
  | pull (port : PlayoutId)
  | frameBegin
  | frameEnd
  | restartReset
  | byteTaken (byte : Byte)
  | rxdReturnedHigh
deriving DecidableEq, Repr

/-- The codes of the requests (R183). -/
def requestCodes : List Byte :=
  [0x01#8, 0x02#8, 0x03#8, 0x04#8, 0x08#8, 0x09#8, 0x10#8, 0x11#8, 0x12#8, 0x13#8, 0x14#8, 0x15#8, 0x16#8, 0x17#8,
   0x18#8, 0x19#8] ++
  [0x20#8, 0x21#8, 0x22#8, 0x23#8, 0x24#8, 0x25#8, 0x26#8, 0x28#8, 0x29#8, 0x2A#8, 0x2B#8, 0x30#8, 0x31#8, 0x32#8,
   0x33#8]

/-- The KIND, TAG and payload of the frame a command is, for the commands that are one good frame (R183). -/
def Instr.frame? : Instr → Option (Byte × Byte × List Byte)
  | .identify t p => some (0x01#8, t, p)
  | .echo t p => some (0x02#8, t, p)
  | .linkStats t p => some (0x03#8, t, p)
  | .restart t p => some (0x04#8, t, p)
  | .noticeAck t p => some (0x08#8, t, p)
  | .noticeReplay t p => some (0x09#8, t, p)
  | .regionDefine t p => some (0x10#8, t, p)
  | .regionDelete t p => some (0x11#8, t, p)
  | .regionQuery t p => some (0x12#8, t, p)
  | .ringReset t p => some (0x13#8, t, p)
  | .schedQuery t p => some (0x14#8, t, p)
  | .rowPolicy t p => some (0x15#8, t, p)
  | .retentionRate t p => some (0x16#8, t, p)
  | .checkStats t p => some (0x17#8, t, p)
  | .setClass t p => some (0x18#8, t, p)
  | .arbQuery t p => some (0x19#8, t, p)
  | .enqueue t p => some (0x20#8, t, p)
  | .channelStop t p => some (0x21#8, t, p)
  | .channelResume t p => some (0x22#8, t, p)
  | .channelQuery t p => some (0x23#8, t, p)
  | .markSet t p => some (0x24#8, t, p)
  | .markAdd t p => some (0x25#8, t, p)
  | .markQuery t p => some (0x26#8, t, p)
  | .portEnable t p => some (0x28#8, t, p)
  | .portDisable t p => some (0x29#8, t, p)
  | .portBind t p => some (0x2A#8, t, p)
  | .portQuery t p => some (0x2B#8, t, p)
  | .put t p => some (0x30#8, t, p)
  | .get t p => some (0x31#8, t, p)
  | .append t p => some (0x32#8, t, p)
  | .take t p => some (0x33#8, t, p)
  | .badKind k t p => some (k, t, p)
  | .crcError _ => none
  | .oversize _ => none
  | .interByteTimeout => none
  | .linkBreak => none
  | .pinReset => none
  | .pinResetEnd _ _ => none
  | .settleExpiry => none
  | .calibrationCompletion _ => none
  | .intervalExpiry => none
  | .spacingExpiry => none
  | .windowExpiry => none
  | .minOpenExpiry _ => none
  | .recoveryExpiry _ => none
  | .idleExpiry _ => none
  | .openingStart => none
  | .openingCompletion _ => none
  | .closingStart _ => none
  | .closingCompletion _ => none
  | .accessStart => none
  | .accessCompletion _ => none
  | .refreshStart => none
  | .refreshCompletion => none
  | .admission => none
  | .strobe _ _ => none
  | .pull _ => none
  | .frameBegin => none
  | .frameEnd => none
  | .restartReset => none
  | .byteTaken _ => none
  | .rxdReturnedHigh => none

end Sys2Proof
end

