-- ==== Sys2Proof/WellFormed.lean ====
section
/-! DEFINITION. Which command terms are commands: the checks that do not need the state. -/
namespace Sys2Proof

/-- Check 1: a frame's LEN is at most 300, so its payload is at most 298 bytes (11.2). -/
def payloadFits (payload : List Byte) : Bool := payload.length ≤ Config.maxPayload

/-- Check 2: BAD_KIND is a frame whose KIND is not a request code (R170, check 3; R183). -/
def kindIsNoRequest (kind : Byte) : Bool := !requestCodes.contains kind

/-- Check 3: a frame that is discarded was ended by at least one byte, and no frame has more than 305 (11.2). -/
def bytesFit (bytes : List Byte) : Bool := 1 ≤ bytes.length && bytes.length ≤ Config.maxLen + 5

/-- The well-formed commands. -/
def Instr.wellFormed (i : Instr) : Bool :=
  match i with
  | .badKind k _ p => kindIsNoRequest k && payloadFits p
  | .crcError bs => bytesFit bs
  | .oversize bs => bytesFit bs
  | i => match i.frame? with
    | some (_, _, p) => payloadFits p
    | none => true

end Sys2Proof
end

