-- ==== Sys2Proof/Decode.lean ====
section
/-! DEFINITION. No row of spec/opcode_table.json gives bits ("fields": [] in every row), so no word spells a command.
The frames of the control link are not words of the table: their assembly is Machine/Link.lean's receiver. -/
namespace Sys2Proof

/-- The command that a word spells by the table's bits: none, for the table gives none. -/
def decodeTableWord (_nbits _w : Nat) : Option Instr := none

end Sys2Proof
end

