-- ==== Sys2Proof/Machine/State.lean ====
section
/-! DEFINITION. The state of the part: every record the chapters give its blocks, as plain data, and its value at reset.

A field that a chapter says is present only in some states is an argument of the constructors of those states. -/
namespace Sys2Proof.Machine

/-! ## Requesters (4.4) -/

/-- A requester of the admission arbiter: a channel or the LAU. -/
inductive Requester where
  | ch (c : ChannelId)
  | lau
deriving DecidableEq, Repr

/-! ## The region table (chapter 1) -/

inductive OverwritePolicy where
  | stop
  | overwrite
deriving DecidableEq, Repr

/-- One reservation of a ring's write list (1.3). -/
structure WriteReservation where
  offset : Nat
  accessed : Bool
deriving DecidableEq, Repr

/-- The two roles of a ring (1.4). -/
inductive Role where
  | writer
  | reader
deriving DecidableEq, Repr

/-- The ring part of a RING region (1.3). -/
structure Ring where
  policy : OverwritePolicy
  front : Nat
  back : Nat
  committedFill : Nat
  readReserved : Nat
  writeList : List WriteReservation
  lostBytes : Nat
  thresholdKiB : Nat
  armed : Bool
  writerClaim : Option Requester
  readerClaim : Option Requester
  writerWaiters : List ChannelId
  readerWaiters : List ChannelId
deriving DecidableEq, Repr

/-- The kind of a DEFINED region; a RING carries its ring part. -/
inductive RegionKind where
  | linear
  | ring (r : Ring)
deriving DecidableEq, Repr

/-- What a DEFINED region slot holds (1.2). -/
structure RegionRecord where
  base : Nat
  length : Nat
  linkWrite : Bool
  kind : RegionKind
deriving DecidableEq, Repr

/-- A region slot: FREE where `record` is absent, else DEFINED (R3). -/
structure Region where
  refCount : Nat
  record : Option RegionRecord
deriving DecidableEq, Repr

/-! ## The memory scheduler (chapters 2 and 3) -/

inductive CopySlotId where
  | a
  | b
deriving DecidableEq, Repr

/-- Where a READ's data goes (R21, R88, R146): a copy slot; the play-out reservation made for a stream position; a
position of the LAU's response buffer. -/
inductive Target where
  | copySlot (slot : CopySlotId)
  | playout (port : PlayoutId) (pos : Nat)
  | lauBuffer (pos : Nat)
deriving DecidableEq, Repr

/-- The direction of an entry, with the 32 bytes of a WRITE or the delivery target of a READ (R21). -/
inductive Transfer where
  | write (data : List Byte)
  | read (target : Target)
deriving DecidableEq, Repr

/-- Who admitted an entry: a requester, or the scheduler itself in the clear sweep (R21). -/
inductive EntryOwner where
  | requester (r : Requester)
  | scheduler
deriving DecidableEq, Repr

inductive EntryState where
  | waitingBank
  | ready
  | accessing
deriving DecidableEq, Repr

/-- The ring reference of an entry: the region and the reservation's offset (R21). -/
structure RingRef where
  region : RegionId
  offset : Nat
deriving DecidableEq, Repr

/-- One entry of the burst list (R21). -/
structure BurstEntry where
  owner : EntryOwner
  transfer : Transfer
  addr : Nat
  closeAfter : Bool
  ringRef : Option RingRef
  state : EntryState
deriving DecidableEq, Repr

/-- The fields of an OPEN bank (2.4). -/
structure OpenRow where
  row : Nat
  openingStart : Nat
  recoveryEnd : Option Nat
  lastActivity : Nat
  closeAfterMark : Bool
deriving DecidableEq, Repr

/-- A bank record (2.4, R26). The start of a closing is the model's own, to time its completion (R20). -/
inductive Bank where
  | closed
  | opening (row start : Nat)
  | opened (o : OpenRow)
  | closing (start : Nat)
deriving DecidableEq, Repr

inductive SchedMode where
  | bringup
  | normal
  | draining
  | refreshing
  | failed
deriving DecidableEq, Repr

/-- The stages of bring-up (3.2). -/
inductive BringupStage where
  | settle
  | calibrate
  | clear
deriving DecidableEq, Repr

/-- The eight settings of the row idle limit (R38). -/
inductive RowIdleLimit where
  | off
  | quarterUs
  | halfUs
  | us1
  | us2
  | us4
  | us8
  | us16
deriving DecidableEq, Repr

inductive RetentionRate where
  | normal
  | double
deriving DecidableEq, Repr

/-- The refresh interval now being counted (3.1). -/
structure Interval where
  lengthNs : Nat
  endsAt : Nat
deriving DecidableEq, Repr

/-- The scheduler's records (2.1, 3.1, 3.2). -/
structure Scheduler where
  /-- The burst list, in order of admission (R21). -/
  list : List BurstEntry
  banks : Vector Bank 8
  /-- Start times of the latest openings, oldest first (R29). -/
  history : List Nat
  mode : SchedMode
  /-- The start of the running access: the data path busy flag is set where it is present (R32, R20). -/
  accessStart : Option Nat
  rowIdleLimit : RowIdleLimit
  refreshDebt : Nat
  retentionRate : RetentionRate
  interval : Option Interval
  missedRefreshes : Nat
  /-- The start of the refresh in progress (R48, R53). -/
  refreshStart : Option Nat
  /-- The stage of bring-up, absent while RESET is held and after bring-up (R50). -/
  stage : Option BringupStage
  sweepPos : Nat
deriving DecidableEq, Repr

/-- The check unit's items (3.3). -/
structure CheckUnit where
  corrected : Nat
  uncorrectable : Nat
  lastUncorrectable : Option Nat
deriving DecidableEq, Repr

/-! ## The admission arbiter (4.4) -/

inductive Readiness where
  | ready
  | inactive
  | limit
  | endpoint
deriving DecidableEq, Repr

/-- The arbiter's records. The seven requesters stand at indices 0 to 6, CH0 to CH5 and then the LAU. -/
structure Arbiter where
  classes : Vector ClassId 7
  readiness : Vector Readiness 7
  position : Vector Requester 4
  runCount : Vector Nat 4
  holdOwner : Option ChannelId
deriving DecidableEq, Repr

/-! ## The channels (chapters 5 and 6) -/

inductive Source where
  | capture (port : CaptureId)
  | region (r : RegionId) (offset : Nat)
  | pattern (value : BitVec 32)
deriving DecidableEq, Repr

inductive Destination where
  | playout (port : PlayoutId)
  | region (r : RegionId) (offset : Nat)
deriving DecidableEq, Repr

inductive GrantPolicy where
  | single
  | run
  | hold
deriving DecidableEq, Repr

inductive RowPolicy where
  | keepOpen
  | closeAfter
deriving DecidableEq, Repr

/-- The wait of a descriptor (R77). -/
structure MarkWait where
  mark : MarkId
  count : Nat
deriving DecidableEq, Repr

/-- A descriptor, as the host sent it (R77). -/
structure Descriptor where
  tag : Word16
  source : Source
  dest : Destination
  length : Nat
  runs : Nat
  grant : GrantPolicy
  runBurst : Nat
  rowPolicy : RowPolicy
  wait : Option MarkWait
  post : Option MarkId
  notify : Bool
deriving DecidableEq, Repr

/-- The progress record of a current descriptor (R84). -/
structure Progress where
  sourceAdmitted : Nat
  admitted : Nat
  done : Nat
  runsCompleted : Nat
  fault : Bool
deriving DecidableEq, Repr

structure Current where
  desc : Descriptor
  prog : Progress
deriving DecidableEq, Repr

/-- A copy slot (R89). -/
inductive CopySlot where
  | empty
  | reserved (pos : Nat)
  | full (pos : Nat) (data : List Byte)
deriving DecidableEq, Repr

inductive WaitReason where
  | mark
  | claim
deriving DecidableEq, Repr

inductive HaltReason where
  | stopped
  | fault
deriving DecidableEq, Repr

inductive ChannelState where
  | idle
  | waiting (why : WaitReason)
  | running
  | stopping
  | halted (why : HaltReason)
deriving DecidableEq, Repr

inductive StopRequest where
  | none
  | afterCurrent
  | now
  | flush
deriving DecidableEq, Repr

/-- A channel record (R75). -/
structure Channel where
  state : ChannelState
  current : Option Current
  pending : List Descriptor
  slotA : CopySlot
  slotB : CopySlot
  stop : StopRequest
deriving DecidableEq, Repr

/-! ## The mark table (7.1) -/

structure MarkWaiter where
  channel : ChannelId
  count : Nat
deriving DecidableEq, Repr

structure Mark where
  value : Nat
  saturated : Bool
  waiters : List MarkWaiter
deriving DecidableEq, Repr

/-! ## The ports (8.2, 8.3) -/

structure CapturePort where
  enabled : Bool
  fifo : List Byte
  binding : Option ChannelId
  overflowCount : Nat
  armed : Bool
deriving DecidableEq, Repr

/-- A reservation of play-out room, named by the stream position of its READ; `data` is present when the data-arrived
flag is set. -/
structure PlayoutReservation where
  pos : Nat
  data : Option (List Byte)
deriving DecidableEq, Repr

structure PlayoutPort where
  enabled : Bool
  fifo : List Byte
  reservations : List PlayoutReservation
  lastWord : Word16
  underrunCount : Nat
  armed : Bool
  binding : Option ChannelId
  /-- The word on the sixteen data outputs, held until the next pull (8.6). -/
  outputs : Word16
deriving DecidableEq, Repr

/-! ## The link access unit (9.1) -/

/-- What an accepted LAU request asks. -/
inductive LauOp where
  | put (offset : Nat) (data : List Byte)
  | get (offset length : Nat)
  | append (data : List Byte)
  | take (maximum : Nat)
deriving DecidableEq, Repr

structure LauRequest where
  tag : Byte
  region : RegionId
  op : LauOp
deriving DecidableEq, Repr

/-- The first failure of a service: stream position, and region or ring offset (9.1). -/
structure LauFailure where
  pos : Nat
  offset : Nat
deriving DecidableEq, Repr

/-- The request in service and its service record (9.1). -/
structure LauService where
  request : LauRequest
  base : Nat
  length : Nat
  toAdmit : Nat
  admitted : Nat
  completed : Nat
  claim : Option Role
  firstFailure : Option LauFailure
  discarded : Nat
  /-- Bytes the region table dropped for an APPEND (R149). -/
  dropped : Nat
  /-- Set where RESTART found bursts of the request not admitted (R154). -/
  cutShort : Bool
deriving DecidableEq, Repr

structure Lau where
  queue : List LauRequest
  service : Option LauService
  /-- The response buffer: eight positions of 32 bytes, each empty or filled. -/
  buffer : Vector (Option (List Byte)) 8
deriving DecidableEq, Repr

/-! ## The notice queue (10.1) -/

inductive ReadyCause where
  | powerOn
  | restart
deriving DecidableEq, Repr

inductive DoneStatus where
  | done
  | aborted
  | dataError
  | discarded
deriving DecidableEq, Repr

/-- The notice kinds with their fields (R159). -/
inductive NoticeBody where
  | ready (cause : ReadyCause)
  | dramFault
  | descriptorDone (channel : ChannelId) (tag : Word16) (status : DoneStatus) (done runs : Nat)
  | checkFault (addr : Nat) (requester : Requester)
  | portOverflow (port : CaptureId) (count : Nat)
  | portUnderrun (port : PlayoutId) (count : Nat)
  | ringHighWater (region : RegionId) (fill : Nat)
  | markSaturated (mark : MarkId)
  | refreshMissed (count : Nat)
  | noticesLost (count : Nat)
deriving DecidableEq, Repr

structure Notice where
  seq : Byte
  body : NoticeBody
deriving DecidableEq, Repr

structure NoticeQueue where
  held : List Notice
  nextSeq : Byte
  /-- The send position, as the number of held notices older than it; the tail where it equals `held.length`. -/
  sendPos : Nat
  lost : Nat
  isOpen : Bool
deriving DecidableEq, Repr

/-! ## The control link (chapter 11) -/

/-- The status codes (12.1). -/
inductive Status where
  | ok
  | busy
  | tagInUse
  | badKind
  | badLength
  | badValue
  | notReady
  | queueFull
  | noRegion
  | outOfBounds
  | alignment
  | overlap
  | inUse
  | portNotBound
  | regionBusy
  | ringFull
  | protected_
  | wrongState
  | dataError
  | notHeld
  | restarted
  | dramFault
deriving DecidableEq, Repr

/-- The receiver's state with its partial frame (11.3). `low` is the low byte of LEN, or of the received CRC. -/
inductive RxState where
  | hunt
  | length (low : Option Byte)
  | body (len : Nat) (got : List Byte)
  | check (got : List Byte) (low : Option Byte)
deriving DecidableEq, Repr

inductive Stage where
  | working
  | answered
  | sending
deriving DecidableEq, Repr

/-- An entry of the outstanding request table (11.4). -/
structure OutEntry where
  tag : Byte
  kind : Byte
  stage : Stage
  orphaned : Bool
deriving DecidableEq, Repr

/-- A complete response: the request's tag and KIND, the status, and the data that follows it. -/
structure Response where
  tag : Byte
  kind : Byte
  status : Status
  data : List Byte
deriving DecidableEq, Repr

/-- What the transmitter is sending (R174). -/
inductive TxSource where
  | refusal
  | response (tag : Byte)
  | notice (seq : Byte)
deriving DecidableEq, Repr

/-- The frame on the line: the transmitter's own copy, SYNC to CRC. -/
structure TxFrame where
  source : TxSource
  bytes : List Byte
deriving DecidableEq, Repr

/-- The six counters (R179). -/
structure LinkCounters where
  goodFrames : Nat
  crcErrors : Nat
  oversizes : Nat
  timeouts : Nat
  breaks : Nat
  refusalsDropped : Nat
deriving DecidableEq, Repr

inductive LineRate where
  | mbaud1
  | mbaud2
  | mbaud4
  | mbaud8
deriving DecidableEq, Repr

inductive PartReadiness where
  | bringup
  | ready
  | restarting
deriving DecidableEq, Repr

structure Link where
  lineRate : LineRate
  rx : RxState
  /-- The inter-byte timer: the time the receiver last took a byte, absent while the timer is stopped (R168). -/
  timer : Option Nat
  /-- RXD has not returned high since a break was detected (R175). -/
  rxdLow : Bool
  /-- The RESET line is held (R182). -/
  resetHeld : Bool
  table : List OutEntry
  readyList : List Response
  /-- The refusal slot: a refusal is a response without data (R172). -/
  refusal : Option Response
  tx : Option TxFrame
  counters : LinkCounters
  readiness : PartReadiness
  /-- The tag of the RESTART in progress (R181). -/
  restartTag : Option Byte
deriving DecidableEq, Repr

/-! ## The whole part -/

structure State where
  /-- The commands that are waiting, first in, first out. -/
  pending : List Instr
  /-- The time in ns (R20). -/
  now : Nat
  regions : Vector Region 16
  sched : Scheduler
  check : CheckUnit
  arb : Arbiter
  channels : Vector Channel 6
  marks : Vector Mark 16
  captures : Vector CapturePort 4
  playouts : Vector PlayoutPort 2
  lau : Lau
  notices : NoticeQueue
  link : Link
  /-- The die: the bytes the last WRITE to each burst stored (R56), as (address, byte) pairs in address order, with
  no pair whose byte is 0, the byte an unlisted address reads. -/
  mem : List Host.Cell
  /-- By burst address, the bits of the burst and its code that differ from what its last WRITE stored (R57): in
  address order, no entry without a differing bit. -/
  wrongBits : List (Nat × BurstBits)
deriving DecidableEq, Repr

/-- The reasons the part stops. -/
inductive Fault where
  /-- Raised by ACCESS_COMPLETION where the accessed burst is not one of the die's (R2: 32 bytes at a multiple of 32,
  inside 64 MiB). Safe: the spec makes no such access. -/
  | noSuchBurst (addr : Nat)
deriving DecidableEq, Repr

/-- The reasons a command has no meaning. -/
inductive Refusal where
  /-- Raised by exec for a command not modelled yet. Safe. No arm answers it. -/
  | notModelled (mnemonic : String)
deriving DecidableEq, Repr

/-! ## Reset values -/

/-- R3: after a pin reset a slot is FREE with reference count 0. -/
def Region.reset : Region := { refCount := 0, record := none }

/-- R19, R44, R50: the scheduler as a pin reset leaves it, with SETTLE begun. -/
def Scheduler.reset : Scheduler where
  list := []
  banks := Vector.replicate 8 .closed
  history := []
  mode := .bringup
  accessStart := none
  rowIdleLimit := .us1
  refreshDebt := 0
  retentionRate := .normal
  interval := none
  missedRefreshes := 0
  refreshStart := none
  stage := some .settle
  sweepPos := 0

/-- R60. -/
def CheckUnit.reset : CheckUnit := { corrected := 0, uncorrectable := 0, lastUncorrectable := none }

/-- R66: channels in class 2, the LAU (index 6) in class 1; positions CH0; nobody ready. -/
def Arbiter.reset : Arbiter where
  classes := (Vector.replicate 7 2).set 6 1
  readiness := Vector.replicate 7 .inactive
  position := Vector.replicate 4 (.ch 0)
  runCount := Vector.replicate 4 0
  holdOwner := none

/-- R75. -/
def Channel.reset : Channel where
  state := .idle
  current := none
  pending := []
  slotA := .empty
  slotB := .empty
  stop := .none

/-- R117. -/
def Mark.reset : Mark := { value := 0, saturated := false, waiters := [] }

/-- R129. -/
def CapturePort.reset : CapturePort where
  enabled := false
  fifo := []
  binding := none
  overflowCount := 0
  armed := true

/-- R133, with the outputs as 8.6 gives them. -/
def PlayoutPort.reset : PlayoutPort where
  enabled := false
  fifo := []
  reservations := []
  lastWord := 0
  underrunCount := 0
  armed := true
  binding := none
  outputs := 0

/-- R143. -/
def Lau.reset : Lau := { queue := [], service := none, buffer := Vector.replicate 8 none }

/-- R156, pin reset. -/
def NoticeQueue.reset : NoticeQueue where
  held := []
  nextSeq := 0
  sendPos := 0
  lost := 0
  isOpen := true

def LinkCounters.reset : LinkCounters where
  goodFrames := 0
  crcErrors := 0
  oversizes := 0
  timeouts := 0
  breaks := 0
  refusalsDropped := 0

/-- R182. The line rate is that of straps both low (DESIGN CHOICE, log entry 5): the spec has them sampled. -/
def Link.reset : Link where
  lineRate := .mbaud1
  rx := .hunt
  timer := none
  rxdLow := false
  resetHeld := false
  table := []
  readyList := []
  refusal := none
  tx := none
  counters := LinkCounters.reset
  readiness := .bringup
  restartTag := none

/-- The part right after a pin reset has ended: bring-up has begun its SETTLE stage (R50). The clock's origin
(log entry 2) and the die's contents (log entry 4) are the model's. -/
def State.reset : State where
  pending := []
  now := 0
  regions := Vector.replicate 16 Region.reset
  sched := Scheduler.reset
  check := CheckUnit.reset
  arb := Arbiter.reset
  channels := Vector.replicate 6 Channel.reset
  marks := Vector.replicate 16 Mark.reset
  captures := Vector.replicate 4 CapturePort.reset
  playouts := Vector.replicate 2 PlayoutPort.reset
  lau := Lau.reset
  notices := NoticeQueue.reset
  link := Link.reset
  mem := []
  wrongBits := []

end Sys2Proof.Machine
end

