-- ==== Sys2Proof/Machine/Operands.lean ====
section
/-! DEFINITION. Payloads and frames: how fields are written and read (R183, R184), the CRC (R166) and the frame (11.2). -/
namespace Sys2Proof.Machine

/-! ## Fields (R183): little-endian, no gaps -/

/-- One byte of a number. -/
def u8 (n : Nat) : List Byte := [BitVec.ofNat 8 n]

/-- Two bytes, the low one first. -/
def u16 (n : Nat) : List Byte := [BitVec.ofNat 8 n, BitVec.ofNat 8 (n / 256)]

/-- Four bytes, the low one first. -/
def u32 (n : Nat) : List Byte :=
  [BitVec.ofNat 8 n, BitVec.ofNat 8 (n / 256), BitVec.ofNat 8 (n / 65536), BitVec.ofNat 8 (n / 16777216)]

/-- A flag, 0 or 1. -/
def flagByte (b : Bool) : List Byte := if b then [1#8] else [0#8]

/-- A presence indication before the value it qualifies; an absent value of `w` bytes is reported as zero (R59,
R100, R125, R142; for NOTICE_ACK with an empty queue the model's choice, log entry 21). -/
def indicated {α : Type} (w : Nat) (f : α → List Byte) : Option α → List Byte
  | none => 0#8 :: List.replicate w 0#8
  | some x => 1#8 :: f x

/-- A two-byte field. -/
def nat16 (b0 b1 : Byte) : Nat := b0.toNat + 256 * b1.toNat

/-- A four-byte field. -/
def nat32 (b0 b1 b2 b3 : Byte) : Nat :=
  b0.toNat + 256 * b1.toNat + 65536 * b2.toNat + 16777216 * b3.toNat

/-- A yes/no, clear or flag field: 0 or 1, nothing else. -/
def readFlag (b : Byte) : Option Bool :=
  if b = 0#8 then some false else if b = 1#8 then some true else none

/-! ## Enumerated values (R183) -/

def Status.code : Status → Nat
  | .ok => 0
  | .busy => 1
  | .tagInUse => 2
  | .badKind => 3
  | .badLength => 4
  | .badValue => 5
  | .notReady => 6
  | .queueFull => 7
  | .noRegion => 8
  | .outOfBounds => 9
  | .alignment => 10
  | .overlap => 11
  | .inUse => 12
  | .portNotBound => 13
  | .regionBusy => 14
  | .ringFull => 15
  | .protected_ => 16
  | .wrongState => 17
  | .dataError => 18
  | .notHeld => 19
  | .restarted => 20
  | .dramFault => 21

/-- CH0 to CH5 as 0 to 5, LAU 6; also the place in the fixed cycle of 4.4. -/
def Requester.code : Requester → Nat
  | .ch c => c.val
  | .lau => 6

def Requester.index : Requester → Fin 7
  | .ch c => ⟨c.val, Nat.lt_trans c.isLt (by decide)⟩
  | .lau => 6

/-- The requester at a place of the cycle. -/
def Requester.at (k : Nat) : Requester :=
  match idx? 6 k with
  | some c => .ch c
  | none => .lau

/-- A requester field: 0 to 6. -/
def readRequester (b : Byte) : Option Requester :=
  if b.toNat < 7 then some (Requester.at b.toNat) else none

/-- A claim holder: the requester's code, none 0xFF. -/
def holderByte : Option Requester → List Byte
  | none => [0xFF#8]
  | some r => u8 r.code

/-- A hold owner or a binding: the channel's number, none 0xFF. -/
def ownerByte : Option ChannelId → List Byte
  | none => [0xFF#8]
  | some c => u8 c.val

/-- A binding field: CH0 to CH5 as 0 to 5, none 0xFF; the outer `none` is any other value. -/
def readBinding (b : Byte) : Option (Option ChannelId) :=
  if b = 0xFF#8 then some none else (idx? 6 b.toNat).map some

def RowIdleLimit.code : RowIdleLimit → Nat
  | .off => 0
  | .quarterUs => 1
  | .halfUs => 2
  | .us1 => 3
  | .us2 => 4
  | .us4 => 5
  | .us8 => 6
  | .us16 => 7

def readRowIdleLimit (b : Byte) : Option RowIdleLimit :=
  match b.toNat with
  | 0 => some .off
  | 1 => some .quarterUs
  | 2 => some .halfUs
  | 3 => some .us1
  | 4 => some .us2
  | 5 => some .us4
  | 6 => some .us8
  | 7 => some .us16
  | _ => none

/-- The limit in ns; OFF has none. -/
def RowIdleLimit.ns : RowIdleLimit → Option Nat
  | .off => none
  | .quarterUs => some 250
  | .halfUs => some 500
  | .us1 => some 1000
  | .us2 => some 2000
  | .us4 => some 4000
  | .us8 => some 8000
  | .us16 => some 16000

def RetentionRate.code : RetentionRate → Nat
  | .normal => 0
  | .double => 1

def readRetentionRate (b : Byte) : Option RetentionRate :=
  match b.toNat with
  | 0 => some .normal
  | 1 => some .double
  | _ => none

/-- The length of an interval begun at this rate (R44, R45). -/
def RetentionRate.intervalNs : RetentionRate → Nat
  | .normal => Config.normalIntervalNs
  | .double => Config.doubleIntervalNs

/-- A stop mode: AFTER_CURRENT 0, NOW 1, FLUSH 2. -/
def readStopMode (b : Byte) : Option StopRequest :=
  match b.toNat with
  | 0 => some .afterCurrent
  | 1 => some .now
  | 2 => some .flush
  | _ => none

/-- A port named by its kind and number (8.4): CAPTURE 0 with 0 to 3, PLAYOUT 1 with 0 to 1. -/
inductive PortName where
  | capture (p : CaptureId)
  | playout (p : PlayoutId)
deriving DecidableEq, Repr

def readPort (kind number : Byte) : Option PortName :=
  match kind.toNat with
  | 0 => (idx? 4 number.toNat).map .capture
  | 1 => (idx? 2 number.toNat).map .playout
  | _ => none

/-! States and modes: numbered from 0 in the order the owning chapter first lists them (R183). -/

def SchedMode.code : SchedMode → Nat
  | .bringup => 0
  | .normal => 1
  | .draining => 2
  | .refreshing => 3
  | .failed => 4

def Bank.code : Bank → Nat
  | .closed => 0
  | .opening _ _ => 1
  | .opened _ => 2
  | .closing _ => 3

def Readiness.code : Readiness → Nat
  | .ready => 0
  | .inactive => 1
  | .limit => 2
  | .endpoint => 3

def ChannelState.code : ChannelState → Nat
  | .idle => 0
  | .waiting _ => 1
  | .running => 2
  | .stopping => 3
  | .halted _ => 4

def WaitReason.code : WaitReason → Nat
  | .mark => 0
  | .claim => 1

def HaltReason.code : HaltReason → Nat
  | .stopped => 0
  | .fault => 1

def StopRequest.code : StopRequest → Nat
  | .none => 0
  | .afterCurrent => 1
  | .now => 2
  | .flush => 3

def CopySlot.code : CopySlot → Nat
  | .empty => 0
  | .reserved _ => 1
  | .full _ _ => 2

def PartReadiness.code : PartReadiness → Nat
  | .bringup => 0
  | .ready => 1
  | .restarting => 2

def OverwritePolicy.code : OverwritePolicy → Nat
  | .stop => 0
  | .overwrite => 1

def Role.code : Role → Nat
  | .writer => 0
  | .reader => 1

def LineRate.code : LineRate → Nat
  | .mbaud1 => 0
  | .mbaud2 => 1
  | .mbaud4 => 2
  | .mbaud8 => 3

/-- The line rate the straps select (11.1). -/
def LineRate.ofStraps (spd1 spd0 : Bool) : LineRate :=
  match spd1, spd0 with
  | false, false => .mbaud1
  | false, true => .mbaud2
  | true, false => .mbaud4
  | true, true => .mbaud8

/-! ## The descriptor (R184) -/

def readSource (kind index b0 b1 b2 b3 : Byte) : Option Source :=
  match kind.toNat with
  | 0 => (idx? 4 index.toNat).map .capture
  | 1 => (idx? 16 index.toNat).map fun r => .region r (nat32 b0 b1 b2 b3)
  | 2 => some (.pattern (BitVec.ofNat 32 (nat32 b0 b1 b2 b3)))
  | _ => none

def readDestination (kind index b0 b1 b2 b3 : Byte) : Option Destination :=
  match kind.toNat with
  | 0 => (idx? 2 index.toNat).map .playout
  | 1 => (idx? 16 index.toNat).map fun r => .region r (nat32 b0 b1 b2 b3)
  | _ => none

def readGrant (b : Byte) : Option GrantPolicy :=
  match b.toNat with
  | 0 => some .single
  | 1 => some .run
  | 2 => some .hold
  | _ => none

def readRowPolicy (b : Byte) : Option RowPolicy :=
  match b.toNat with
  | 0 => some .keepOpen
  | 1 => some .closeAfter
  | _ => none

/-- The wait fields: absent with mark 0xFF, whatever the count; else a mark 0 to 15 with a count 1 to 255. -/
def readWait (mark count : Byte) : Option (Option MarkWait) :=
  if mark = 0xFF#8 then some none
  else match idx? 16 mark.toNat with
    | some m => if count = 0#8 then none else some (some { mark := m, count := count.toNat })
    | none => none

/-- The post field: absent with 0xFF, else a mark 0 to 15. -/
def readPost (mark : Byte) : Option (Option MarkId) :=
  if mark = 0xFF#8 then some none else (idx? 16 mark.toNat).map some

/-- The length of a run: 32 to 16,777,216, a multiple of 32. -/
def runLengthOk (n : Nat) : Bool := 32 ≤ n && n ≤ Config.maxRun && n % 32 = 0

/-- The run burst count: 2 to 16 with RUN, ignored with the others. -/
def runBurstOk (g : GrantPolicy) (n : Nat) : Bool := g ≠ .run || (2 ≤ n && n ≤ 16)

/-- The ENQUEUE payload read under R184, with check 1 of R78; `none` is BAD_VALUE. -/
def readEnqueue : List Byte → Option (ChannelId × Descriptor)
  | [fmt, ch, t0, t1, sk, si, s0, s1, s2, s3, dk, di, d0, d1, d2, d3, l0, l1, l2, l3, runs, gr, rb, rp, wm, wc, pm, nt] =>
    if fmt ≠ 1#8 then none
    else do
      let c ← idx? 6 ch.toNat
      let source ← readSource sk si s0 s1 s2 s3
      let dest ← readDestination dk di d0 d1 d2 d3
      let grant ← readGrant gr
      let rowPolicy ← readRowPolicy rp
      let wait ← readWait wm wc
      let post ← readPost pm
      let notify ← readFlag nt
      if runLengthOk (nat32 l0 l1 l2 l3) && runs ≠ 0#8 && runBurstOk grant rb.toNat then
        some (c, Descriptor.mk (BitVec.ofNat 16 (nat16 t0 t1)) source dest (nat32 l0 l1 l2 l3) runs.toNat grant
          rb.toNat rowPolicy wait post notify)
      else none
  | _ => none

/-! ## The LAU requests (R183): region, offset, length, data -/

/-- PUT: region, offset, length field, data. -/
def readPut : List Byte → Option (Nat × Nat × Nat × List Byte)
  | r :: o0 :: o1 :: o2 :: o3 :: l0 :: l1 :: data => some (r.toNat, nat32 o0 o1 o2 o3, nat16 l0 l1, data)
  | _ => none

/-- GET: region, offset, length field. -/
def readGet : List Byte → Option (Nat × Nat × Nat)
  | [r, o0, o1, o2, o3, l0, l1] => some (r.toNat, nat32 o0 o1 o2 o3, nat16 l0 l1)
  | _ => none

/-- APPEND: region, length field, data. -/
def readAppend : List Byte → Option (Nat × Nat × List Byte)
  | r :: l0 :: l1 :: data => some (r.toNat, nat16 l0 l1, data)
  | _ => none

/-- TAKE: region, maximum length. -/
def readTake : List Byte → Option (Nat × Nat)
  | [r, l0, l1] => some (r.toNat, nat16 l0 l1)
  | _ => none

/-! ## The CRC (R166) -/

/-- `n` shifts of the register, most significant bit first. -/
def crcShift : Nat → BitVec 16 → BitVec 16
  | 0, c => c
  | n + 1, c => crcShift n (if c.msb then (c <<< 1) ^^^ 0x1021#16 else c <<< 1)

/-- One byte into the CRC. -/
def crcByte (c : BitVec 16) (b : Byte) : BitVec 16 := crcShift 8 (c ^^^ (b.zeroExtend 16 <<< 8))

/-- The CRC of bytes in the order they are sent. -/
def crc16 (bytes : List Byte) : BitVec 16 := bytes.foldl crcByte 0xFFFF#16

def lowByte (c : BitVec 16) : Byte := c.extractLsb' 0 8
def highByte (c : BitVec 16) : Byte := c.extractLsb' 8 8

/-- A 16-bit value of its low and high byte. -/
def word16 (lo hi : Byte) : BitVec 16 := hi ++ lo

/-! ## Frames (11.2) -/

/-- The bytes the CRC covers: LEN and the body. -/
def frameCore (kind tag : Byte) (payload : List Byte) : List Byte :=
  u16 (payload.length + 2) ++ kind :: tag :: payload

/-- The whole frame on the line: SYNC, LEN, body, CRC low byte first. -/
def frameBytes (kind tag : Byte) (payload : List Byte) : List Byte :=
  Config.sync :: (frameCore kind tag payload ++
    [lowByte (crc16 (frameCore kind tag payload)), highByte (crc16 (frameCore kind tag payload))])

/-- The KIND of the response to a request KIND: 0x80 added; 0xFF where it is not a request code (R174). -/
def responseKind (kind : Byte) : Byte := if requestCodes.contains kind then kind + 0x80#8 else 0xFF#8

/-- The payload of a response: its status, then its data. -/
def Response.payload (r : Response) : List Byte := u8 r.status.code ++ r.data

/-- The frame of a response (R174). -/
def Response.frame (r : Response) : List Byte := frameBytes (responseKind r.kind) r.tag r.payload

/-- The payload of a notice: its kind code and fields (12.1). -/
def NoticeBody.payload : NoticeBody → List Byte
  | .ready cause => u8 1 ++ u8 (match cause with | .powerOn => 0 | .restart => 1)
  | .dramFault => u8 2 ++ u8 1
  | .descriptorDone c tag st done runs =>
    u8 3 ++ u8 c.val ++ u16 tag.toNat ++
      u8 (match st with | .done => 0 | .aborted => 1 | .dataError => 2 | .discarded => 3) ++ u32 done ++ u16 runs
  | .checkFault addr r => u8 4 ++ u32 addr ++ u8 r.code
  | .portOverflow p n => u8 5 ++ u8 p.val ++ u16 n
  | .portUnderrun p n => u8 6 ++ u8 p.val ++ u16 n
  | .ringHighWater r fill => u8 7 ++ u8 r.val ++ u32 fill
  | .markSaturated m => u8 8 ++ u8 m.val
  | .refreshMissed n => u8 9 ++ u16 n
  | .noticesLost n => u8 10 ++ u16 n

/-- The frame of a notice: KIND 0xC0, TAG the sequence number (R160). -/
def Notice.frame (n : Notice) : List Byte := frameBytes 0xC0#8 n.seq n.body.payload

end Sys2Proof.Machine
end

