-- ==== Sys2Proof/Machine/Receiver.lean ====
section
/-! DEFINITION. The receiver (11.3): what one byte does to its state, and which bytes of the present frame it holds. -/
namespace Sys2Proof.Machine

/-- What taking a byte brings about beside the receiver's own move (R167). -/
inductive RxEvent where
  | none
  | oversize
  | crcError
  | good (kind tag : Byte) (payload : List Byte)
deriving DecidableEq, Repr

/-- The second LEN byte (R167): BODY with LEN bytes to come, or the frame is discarded. -/
def rxLenDone (len : Nat) : RxState × RxEvent :=
  if Config.minLen ≤ len && len ≤ Config.maxLen then (.body len [], .none) else (.hunt, .oversize)

/-- A body byte: CHECK when the last of the LEN bytes has arrived (R167). -/
def rxBodyByte (len : Nat) (got : List Byte) : RxState × RxEvent :=
  if got.length < len then (.body len got, .none) else (.check got none, .none)

/-- The second CRC byte (R167): the frame is good, or discarded. -/
def rxCheckDone (got : List Byte) (received : BitVec 16) : RxState × RxEvent :=
  if crc16 (u16 got.length ++ got) = received then
    match got with
    | kind :: tag :: payload => (.hunt, .good kind tag payload)
    | _ => (.hunt, .none)
  else (.hunt, .crcError)

/-- One byte taken (R167). -/
def RxState.takeByte (r : RxState) (b : Byte) : RxState × RxEvent :=
  match r with
  | .hunt => if b = Config.sync then (.length none, .none) else (.hunt, .none)
  | .length none => (.length (some b), .none)
  | .length (some lo) => rxLenDone (nat16 lo b)
  | .body len got => rxBodyByte len (got ++ [b])
  | .check got none => (.check got (some b), .none)
  | .check got (some lo) => rxCheckDone got (word16 lo b)

/-- Bytes taken one after another, up to the first that brings something about; the event of the last byte if none
before it brought anything about, else nothing. -/
def RxState.takeAll (r : RxState) : List Byte → RxState × RxEvent
  | [] => (r, .none)
  | [b] => r.takeByte b
  | b :: c :: rest =>
    match r.takeByte b with
    | (r', .none) => r'.takeAll (c :: rest)
    | (r', _) => (r', .none)

/-- The bytes of the present frame the receiver has taken, SYNC first; none in HUNT. -/
def RxState.taken : RxState → List Byte
  | .hunt => []
  | .length none => [Config.sync]
  | .length (some lo) => [Config.sync, lo]
  | .body len got => Config.sync :: (u16 len ++ got)
  | .check got none => Config.sync :: (u16 got.length ++ got)
  | .check got (some lo) => Config.sync :: (u16 got.length ++ got ++ [lo])

end Sys2Proof.Machine
end

