-- ==== Sys2Proof/Machine/Ops.lean ====
section
/-! DEFINITION. The named operations every block uses: accessors and setters, the die's memory, the clock, posting a
notice (R157), and the control link's table: accepting a frame (R170), answering (R169, R177), the return to READY
(R181). -/
namespace Sys2Proof.Machine

/-- The outcome of a command. -/
abbrev Out := Host.Outcome State Fault Refusal

/-! ## Accessors and setters -/

def State.region (s : State) (r : RegionId) : Region := getAt s.regions r
def State.channel (s : State) (c : ChannelId) : Channel := getAt s.channels c
def State.mark (s : State) (m : MarkId) : Mark := getAt s.marks m
def State.capture (s : State) (p : CaptureId) : CapturePort := getAt s.captures p
def State.playout (s : State) (p : PlayoutId) : PlayoutPort := getAt s.playouts p
def Scheduler.bank (d : Scheduler) (b : BankId) : Bank := getAt d.banks b

def State.setRegions (v : Vector Region 16) (s : State) : State := { s with regions := v }
def State.setRegion (r : RegionId) (x : Region) (s : State) : State := { s with regions := setAt s.regions r x }
def State.setSched (x : Scheduler) (s : State) : State := { s with sched := x }
def State.setCheck (x : CheckUnit) (s : State) : State := { s with check := x }
def State.setArb (x : Arbiter) (s : State) : State := { s with arb := x }
def State.setChannel (c : ChannelId) (x : Channel) (s : State) : State :=
  { s with channels := setAt s.channels c x }
def State.setMark (m : MarkId) (x : Mark) (s : State) : State := { s with marks := setAt s.marks m x }
def State.setCapture (p : CaptureId) (x : CapturePort) (s : State) : State :=
  { s with captures := setAt s.captures p x }
def State.setPlayout (p : PlayoutId) (x : PlayoutPort) (s : State) : State :=
  { s with playouts := setAt s.playouts p x }
def State.setLau (x : Lau) (s : State) : State := { s with lau := x }
def State.setNotices (x : NoticeQueue) (s : State) : State := { s with notices := x }
def State.setLink (x : Link) (s : State) : State := { s with link := x }
def State.setMem (x : List Host.Cell) (s : State) : State := { s with mem := x }
def State.setWrongBits (x : List (Nat × BurstBits)) (s : State) : State := { s with wrongBits := x }
def State.setNow (t : Nat) (s : State) : State := { s with now := t }

/-- The clock reaches the moment an event is due; it never goes back (log entry 2). -/
def State.clockTo (t : Nat) (s : State) : State := s.setNow (max s.now t)

def Scheduler.setBank (b : BankId) (x : Bank) (d : Scheduler) : Scheduler := { d with banks := setAt d.banks b x }

/-! ## Sparse tables and the die (R1, R2) -/

/-- The value at a key; `d` where it is not listed. -/
def lookup {α : Type} (d : α) : List (Nat × α) → Nat → α
  | [], _ => d
  | (k, v) :: rest, a => if k = a then v else lookup d rest a

/-- One entry, or none where the value is the one an unlisted key reads as. -/
def cell {α : Type} [DecidableEq α] (d : α) (a : Nat) (x : α) : List (Nat × α) :=
  if x = d then [] else [(a, x)]

/-- The table with key `a` reading `x`; the canonical form is kept. -/
def store {α : Type} [DecidableEq α] (d : α) : List (Nat × α) → Nat → α → List (Nat × α)
  | [], a, x => cell d a x
  | (k, v) :: rest, a, x =>
    if a < k then cell d a x ++ (k, v) :: rest
    else if a = k then cell d a x ++ rest
    else (k, v) :: store d rest a x

/-- The canonical form: keys strictly rising from `lo`, no entry equal to `d`. -/
def canonFrom {α : Type} [DecidableEq α] (d : α) : Nat → List (Nat × α) → Bool
  | _, [] => true
  | lo, (k, v) :: rest => decide (lo ≤ k) && decide (v ≠ d) && canonFrom d (k + 1) rest

/-- The byte an unlisted address reads as (log entry 4). -/
def unlistedByte : Byte := 0#8

/-- The form of the memory says equal memories are equal data. -/
abbrev Memory.wf (m : List Host.Cell) : Bool := canonFrom unlistedByte 0 m

/-- One byte of the die, as the last WRITE to its burst stored it. -/
def readByte (m : List Host.Cell) (a : Nat) : Byte := lookup unlistedByte m a

def writeByte (m : List Host.Cell) (a : Nat) (b : Byte) : List Host.Cell := store unlistedByte m a b

/-- `n` bytes from an address up. -/
def readBytes (m : List Host.Cell) (a : Nat) : Nat → List Byte
  | 0 => []
  | n + 1 => readByte m a :: readBytes m (a + 1) n

def writeBytes (m : List Host.Cell) (a : Nat) : List Byte → List Host.Cell
  | [] => m
  | b :: rest => writeBytes (writeByte m a b) (a + 1) rest

/-- Whether an address is that of a burst of the die (R2). -/
def isBurst (a : Nat) : Bool := a % Config.burstBytes = 0 && a + Config.burstBytes ≤ Config.dramBytes

/-- The column, bank and row of a byte address (R1). -/
def colOf (a : Nat) : Nat := a % 1024
def bankOf (a : Nat) : BankId := ⟨a / 1024 % 8, Nat.mod_lt _ (by decide)⟩
def rowOf (a : Nat) : Nat := a / 8192

/-- Bytes with the wrong bits of a burst applied, from byte `i` up. -/
def flipBytes (m : BurstBits) : Nat → List Byte → List Byte
  | _, [] => []
  | i, b :: rest => (b ^^^ m.extractLsb' (8 * i) 8) :: flipBytes m (i + 1) rest

/-- The 32 bytes the die holds at a burst now. -/
def State.storedBytes (s : State) (a : Nat) : List Byte :=
  flipBytes (lookup 0#272 s.wrongBits a) 0 (readBytes s.mem a Config.burstBytes)

/-- The 16-bit code the die holds with a burst now (R56): the code of the bytes last written, with its wrong bits. -/
def State.storedCode (s : State) (a : Nat) : BitVec 16 :=
  Config.checkCode (readBytes s.mem a Config.burstBytes) ^^^ (lookup 0#272 s.wrongBits a).extractLsb' 256 16

/-! ## Notices (chapter 10) -/

/-- A notice joins the tail with the next sequence number (R156). The send position, a count of the notices before it,
is the new notice if it was the tail. -/
def NoticeQueue.join (b : NoticeBody) (q : NoticeQueue) : NoticeQueue :=
  { q with held := q.held ++ [{ seq := q.nextSeq, body := b }], nextSeq := q.nextSeq + 1#8 }

/-- A notice is dropped and counted (R157). -/
def NoticeQueue.lose (q : NoticeQueue) : NoticeQueue := { q with lost := satAdd Config.max16 1 q.lost }

/-- A block posts a notice (R157). -/
def NoticeQueue.post (b : NoticeBody) (q : NoticeQueue) : NoticeQueue :=
  if q.isOpen && q.held.length < Config.noticePlaces then q.join b else q.lose

def State.post (b : NoticeBody) (s : State) : State := s.setNotices (s.notices.post b)

/-- The ATTN output: asserted while a notice is held (R163). -/
def State.attn (s : State) : Bool := !s.notices.held.isEmpty

/-! ## The outstanding request table and the ready-response list (11.4) -/

def Link.tagInUse (tag : Byte) (l : Link) : Bool := l.table.any fun e => e.tag = tag

def Link.addEntry (e : OutEntry) (l : Link) : Link := { l with table := l.table ++ [e] }

def Link.pushReady (r : Response) (l : Link) : Link := { l with readyList := l.readyList ++ [r] }

/-- The entry with this tag leaves the table; its tag is free again (R169). -/
def Link.dropEntry (tag : Byte) (l : Link) : Link := { l with table := l.table.filter fun e => e.tag ≠ tag }

/-- The entry with this tag passes to a stage (R169). -/
def Link.setStage (tag : Byte) (g : Stage) (l : Link) : Link :=
  { l with table := l.table.map fun e => if e.tag = tag then { e with stage := g } else e }

/-- The WORKING entry of a tag. -/
def Link.working? (tag : Byte) (l : Link) : Option OutEntry :=
  l.table.find? fun e => e.tag = tag && e.stage = .working

def Link.count (f : LinkCounters → LinkCounters) (l : Link) : Link := { l with counters := f l.counters }

/-- A refusal fills the empty refusal slot; at a full one it is dropped and counted (R172). -/
def Link.refuse (st : Status) (tag kind : Byte) (l : Link) : Link :=
  match l.refusal with
  | none => { l with refusal := some { tag := tag, kind := kind, status := st, data := [] } }
  | some _ => l.count fun c => { c with refusalsDropped := satAdd Config.max16 1 c.refusalsDropped }

/-- A response made at once by the control link (R170, checks 3 to 5): an ANSWERED entry and a ready response. -/
def Link.answerAtOnce (st : Status) (tag kind : Byte) (l : Link) : Link :=
  (l.addEntry { tag := tag, kind := kind, stage := .answered, orphaned := false }).pushReady
    { tag := tag, kind := kind, status := st, data := [] }

/-- The owner's response joins the ready-response list and its entry is ANSWERED (R169). -/
def Link.answer (e : OutEntry) (st : Status) (data : List Byte) (l : Link) : Link :=
  (l.setStage e.tag .answered).pushReady { tag := e.tag, kind := e.kind, status := st, data := data }

/-- The part leaves the not-ready condition (R51, R54). -/
def State.becomeReady (s : State) : State := s.setLink { s.link with readiness := .ready }

/-- The return to READY at the end of a RESTART (R181): the readiness becomes READY, the notice queue opens, and READY
with cause RESTART is posted. -/
def State.readyReturn (s : State) : State :=
  let t := s.setLink { s.link with readiness := .ready, restartTag := none }
  (t.setNotices { t.notices with isOpen := true }).post (.ready .restart)

/-- An entry leaves the table; the RESTART's entry takes the part back to READY (R169, R181). -/
def State.entryLeaves (tag : Byte) (s : State) : State :=
  let t := s.setLink (s.link.dropEntry tag)
  if s.link.restartTag = some tag then t.readyReturn else t

/-- An owner hands over its response (R169): it joins the ready-response list, or is discarded and its entry leaves
where the entry is orphaned (R177). -/
def State.handOver (tag : Byte) (st : Status) (data : List Byte) (s : State) : State :=
  match s.link.working? tag with
  | none => s
  | some e => if e.orphaned then s.entryLeaves tag else s.setLink (s.link.answer e st data)

/-! ## Taking a good frame (R167, R170) -/

/-- How a request is gated by the part's readiness (R173). -/
inductive Gate where
  | always
  | restart
  | whenReady
deriving DecidableEq, Repr

/-- The status of a gated request, where it is gated (R173). -/
def Gate.status (g : Gate) (p : PartReadiness) : Option Status :=
  match g, p with
  | .always, _ => none
  | _, .bringup => some .notReady
  | _, .ready => none
  | .restart, .restarting => some .wrongState
  | .whenReady, .restarting => some .notReady

/-- The dispatch of a good frame whose KIND is a request code (R170): the checks in their order, and then an entry in
stage WORKING and the owner takes the request. -/
def State.accept (kind tag : Byte) (lenOk : Bool) (g : Gate) (own : State → State) (s : State) : State :=
  if s.link.tagInUse tag then s.setLink (s.link.refuse .tagInUse tag kind)
  else if Config.tablePlaces ≤ s.link.table.length then s.setLink (s.link.refuse .busy tag kind)
  else if !lenOk then s.setLink (s.link.answerAtOnce .badLength tag kind)
  else match g.status s.link.readiness with
    | some st => s.setLink (s.link.answerAtOnce st tag kind)
    | none => own (s.setLink (s.link.addEntry { tag := tag, kind := kind, stage := .working, orphaned := false }))

/-- What an owner makes of a request: the status, the data that follow it, and the state with its effect. -/
abbrev Reply := Status × List Byte × State

/-- The owner takes a request and hands over its response in the same event. -/
def State.answerWith (tag : Byte) (f : State → Reply) (s : State) : State :=
  (f s).2.2.handOver tag (f s).1 (f s).2.1

/-- In FAILED the owning block refuses its request with DRAM_FAULT before any check of its own (R55). -/
def State.unlessFailed (tag : Byte) (own : State → State) (s : State) : State :=
  if s.sched.mode = .failed then s.handOver tag .dramFault [] else own s

/-- Whether the receiver takes bytes: not while RESET is held (R182), nor from a break until RXD returns high (R175). -/
def Link.receives (l : Link) : Bool := !l.resetHeld && !l.rxdLow

/-- Whether the rest of a frame can arrive: the receiver takes bytes, the payload fits a frame, and what the receiver
has taken of the present frame, if anything, is how this frame begins. -/
def Link.frameCompletes (kind tag : Byte) (payload : List Byte) (l : Link) : Bool :=
  l.receives && payloadFits payload && l.rx.taken.isPrefixOf (frameBytes kind tag payload)

/-- The receiver's own part of a good frame (R167): counted, and back to HUNT with the timer stopped. -/
def Link.frameReceived (l : Link) : Link :=
  { l with rx := .hunt, timer := none,
           counters := { l.counters with goodFrames := satAdd Config.max16 1 l.counters.goodFrames } }

/-- A request command: the rest of the frame arrives and the frame is dispatched; where it cannot arrive (no such
frame, or the receiver is inside another), nothing happens (log entry 1). -/
def onFrame (kind : Byte) (dispatch : Byte → List Byte → State → State) (tag : Byte) (payload : List Byte)
    (s : State) : Out :=
  .next (if s.link.frameCompletes kind tag payload then dispatch tag payload (s.setLink s.link.frameReceived) else s)

end Sys2Proof.Machine
end

