-- ==== Sys2Proof/Machine/Arbitration.lean ====
section
/-! DEFINITION. The arbiter's records: the choice (R67, R72), and what admissions, retirements and SET_CLASS do to them
(R68 to R73). -/
namespace Sys2Proof.Machine

def Arbiter.classOf (r : Requester) (a : Arbiter) : ClassId := getAt a.classes r.index
def Arbiter.readinessOf (r : Requester) (a : Arbiter) : Readiness := getAt a.readiness r.index
def Arbiter.positionOf (k : ClassId) (a : Arbiter) : Requester := getAt a.position k
def Arbiter.runOf (k : ClassId) (a : Arbiter) : Nat := getAt a.runCount k

def Arbiter.setPosition (k : ClassId) (r : Requester) (a : Arbiter) : Arbiter :=
  { a with position := setAt a.position k r }
def Arbiter.setRun (k : ClassId) (n : Nat) (a : Arbiter) : Arbiter := { a with runCount := setAt a.runCount k n }

/-- The requester after one in the fixed cycle (4.4). -/
def Requester.next (r : Requester) : Requester := Requester.at ((r.code + 1) % 7)

/-- The whole cycle, beginning at a requester (R67). -/
def cycleFrom (r : Requester) : List Requester := (List.range 7).map fun k => Requester.at ((r.code + k) % 7)

/-- Whether a hold lets a requester be admitted (R72). -/
def Arbiter.eligible (r : Requester) (a : Arbiter) : Bool :=
  match a.holdOwner with
  | none => true
  | some o => decide (r = .ch o) || decide (a.classOf r < a.classOf (.ch o))

/-- Ready and eligible (R67). -/
def Arbiter.choosable (r : Requester) (a : Arbiter) : Bool :=
  decide (a.readinessOf r = .ready) && a.eligible r

/-- The search of one class from its round-robin position (R67). -/
def Arbiter.chooseIn (k : ClassId) (a : Arbiter) : Option Requester :=
  (cycleFrom (a.positionOf k)).find? fun r => decide (a.classOf r = k) && a.choosable r

/-- The choice: the highest class with an eligible ready requester (R67). -/
def Arbiter.choose (a : Arbiter) : Option Requester :=
  [(0 : ClassId), 1, 2, 3].findSome? fun k => a.chooseIn k

/-- After an admission under SINGLE, and of the LAU (R69). -/
def Arbiter.afterSingle (r : Requester) (a : Arbiter) : Arbiter :=
  (a.setPosition (a.classOf r) r.next).setRun (a.classOf r) 0

/-- The run count of a channel's admission under RUN (R70). -/
def Arbiter.runAfter (r : Requester) (a : Arbiter) : Nat :=
  if a.positionOf (a.classOf r) = r then a.runOf (a.classOf r) + 1 else 1

/-- After an admission under RUN with this run burst count (R70). -/
def Arbiter.afterRun (r : Requester) (n : Nat) (a : Arbiter) : Arbiter :=
  if a.runAfter r = n then a.afterSingle r
  else (a.setPosition (a.classOf r) r).setRun (a.classOf r) (a.runAfter r)

/-- After an admission under HOLD (R69, R71). -/
def Arbiter.afterHold (c : ChannelId) (a : Arbiter) : Arbiter :=
  { a.afterSingle (.ch c) with holdOwner := some c }

/-- After an admission of a channel, by its current descriptor's grant policy (R69 to R71). -/
def Arbiter.afterChannel (c : ChannelId) (d : Descriptor) (a : Arbiter) : Arbiter :=
  match d.grant with
  | .single => a.afterSingle (.ch c)
  | .run => a.afterRun (.ch c) d.runBurst
  | .hold => a.afterHold c

/-- At a retirement: the channel's hold ends, and its class's run count is cleared where it stands at its class's
position (R70, R73, R96). -/
def Arbiter.onRetire (c : ChannelId) (a : Arbiter) : Arbiter :=
  let t := if a.holdOwner = some c then { a with holdOwner := none } else a
  if t.positionOf (t.classOf (.ch c)) = .ch c then t.setRun (t.classOf (.ch c)) 0 else t

/-- SET_CLASS (R68). -/
def Arbiter.setClass (r : Requester) (k : ClassId) (a : Arbiter) : Arbiter :=
  if a.classOf r = k then a
  else
    let t := if a.positionOf (a.classOf r) = r then a.setRun (a.classOf r) 0 else a
    { t with classes := setAt t.classes r.index k }

/-- A requester's readiness is recorded; a hold owner that is INACTIVE or at ENDPOINT loses the hold (R73). -/
def Arbiter.record (v : Vector Readiness 7) (a : Arbiter) : Arbiter :=
  let t := { a with readiness := v }
  match t.holdOwner with
  | none => t
  | some c =>
    if t.readinessOf (.ch c) = .inactive || t.readinessOf (.ch c) = .endpoint then { t with holdOwner := none } else t

end Sys2Proof.Machine
end

