-- ==== Sys2Proof/Machine/Rings.lean ====
section
/-! DEFINITION. The ring part's accounting (R8 to R15), and a ring's claims as records (R17, R18). -/
namespace Sys2Proof.Machine

/-- The next 32-byte offset of a ring of this length, wrapping at it (R9, R11). -/
def ringNext (len off : Nat) : Nat := if off + 32 = len then 0 else off + 32

/-- The free space (R8). -/
def Ring.space (len : Nat) (r : Ring) : Nat := len - r.committedFill - r.readReserved - 32 * r.writeList.length

/-- The high-water threshold in bytes (R15). -/
def Ring.threshold (r : Ring) : Nat := r.thresholdKiB * 1024

/-- After committed fill has fallen: the armed flag is set again below the threshold (R15). -/
def Ring.rearm (r : Ring) : Ring := if r.committedFill < r.threshold then { r with armed := true } else r

/-- Whether a rise of committed fill posts RING_HIGH_WATER (R15). -/
def Ring.highWater (r : Ring) : Bool := r.thresholdKiB ≠ 0 && r.threshold ≤ r.committedFill && r.armed

/-- After committed fill has risen: the flag is cleared where the notice is posted (R15). -/
def Ring.disarm (r : Ring) : Ring := if r.highWater then { r with armed := false } else r

/-- The readiness of a ring's writer (R9). -/
def Ring.canWrite (len : Nat) (who : Requester) (r : Ring) : Bool :=
  decide (r.writerClaim = some who) && decide (r.writeList.length < 2) &&
    (decide (32 ≤ r.space len) || (decide (r.policy = .overwrite) && decide (32 ≤ r.committedFill)))

/-- The readiness of a ring's reader (R11). -/
def Ring.canRead (who : Requester) (r : Ring) : Bool :=
  decide (r.readerClaim = some who) && decide (32 ≤ r.committedFill)

/-- The drop of the 32 committed bytes at front (R12). -/
def Ring.drop (len : Nat) (r : Ring) : Ring :=
  { r with front := ringNext len r.front, committedFill := r.committedFill - 32,
           lostBytes := satAdd Config.max32 32 r.lostBytes }.rearm

/-- Whether a write admission drops bytes (R9, R12). -/
def Ring.mustDrop (len : Nat) (r : Ring) : Bool := r.space len < 32

/-- A write reservation at back, after the drop where one is needed (R9). -/
def Ring.reserveWrite (len : Nat) (r : Ring) : Ring :=
  let t := if r.mustDrop len then r.drop len else r
  { t with writeList := t.writeList ++ [{ offset := t.back, accessed := false }], back := ringNext len t.back }

/-- A read reservation at front (R11). -/
def Ring.reserveRead (len : Nat) (r : Ring) : Ring :=
  { r with front := ringNext len r.front, committedFill := r.committedFill - 32,
           readReserved := r.readReserved + 32 }.rearm

/-- The reservation with this offset is accessed (R10). -/
def markAccessed (off : Nat) (l : List WriteReservation) : List WriteReservation :=
  l.map fun w => if w.offset = off then { w with accessed := true } else w

/-- The accessed reservations at the oldest end of a write list: how many, and the rest (R10). -/
def commitRun : List WriteReservation → Nat × List WriteReservation
  | [] => (0, [])
  | w :: rest => if w.accessed then ((commitRun rest).1 + 1, (commitRun rest).2) else (0, w :: rest)

/-- Reservations committed by the completion of the write at this offset (R10). -/
def Ring.committing (off : Nat) (r : Ring) : Nat := (commitRun (markAccessed off r.writeList)).1

/-- The ring after the completion of the write at this offset, before the high-water test (R10). -/
def Ring.commit (off : Nat) (r : Ring) : Ring :=
  { r with writeList := (commitRun (markAccessed off r.writeList)).2,
           committedFill := r.committedFill + 32 * r.committing off }

/-- A completed read is consumed (R13). -/
def Ring.consume (r : Ring) : Ring := { r with readReserved := r.readReserved - 32 }

/-- Whether a completed read at this offset can be given back (R14). -/
def Ring.canGiveBack (len off : Nat) (r : Ring) : Bool := ringNext len off = r.front

/-- A completed read is given back (R14). -/
def Ring.giveBack (off : Nat) (r : Ring) : Ring :=
  { r with readReserved := r.readReserved - 32, committedFill := r.committedFill + 32, front := off }

/-- The ring part REGION_DEFINE creates (R4). -/
def Ring.fresh (policy : OverwritePolicy) (thresholdKiB : Nat) : Ring where
  policy := policy
  front := 0
  back := 0
  committedFill := 0
  readReserved := 0
  writeList := []
  lostBytes := 0
  thresholdKiB := thresholdKiB
  armed := true
  writerClaim := none
  readerClaim := none
  writerWaiters := []
  readerWaiters := []

/-- RING_RESET's ring (R16). -/
def Ring.emptied (r : Ring) : Ring :=
  { r with front := 0, back := 0, committedFill := 0, lostBytes := 0, armed := true }

/-- Whether a ring has a claim held, or bytes reserved (R5, R16). -/
def Ring.busy (r : Ring) : Bool :=
  r.writerClaim.isSome || r.readerClaim.isSome || decide (r.readReserved ≠ 0) || !r.writeList.isEmpty

/-- RESTART releases every claim and empties every waiter list, and keeps the rest (R3). -/
def Ring.unclaimed (r : Ring) : Ring :=
  { r with writerClaim := none, readerClaim := none, writerWaiters := [], readerWaiters := [] }

/-! ## Claims (R17, R18) -/

def Ring.holder (role : Role) (r : Ring) : Option Requester :=
  match role with
  | .writer => r.writerClaim
  | .reader => r.readerClaim

def Ring.waiters (role : Role) (r : Ring) : List ChannelId :=
  match role with
  | .writer => r.writerWaiters
  | .reader => r.readerWaiters

def Ring.setHolder (role : Role) (h : Option Requester) (r : Ring) : Ring :=
  match role with
  | .writer => { r with writerClaim := h }
  | .reader => { r with readerClaim := h }

def Ring.setWaiters (role : Role) (l : List ChannelId) (r : Ring) : Ring :=
  match role with
  | .writer => { r with writerWaiters := l }
  | .reader => { r with readerWaiters := l }

/-- A release: the claim passes to the oldest waiter, or becomes none (R18). -/
def Ring.release (role : Role) (r : Ring) : Ring :=
  match r.waiters role with
  | [] => r.setHolder role none
  | c :: rest => (r.setHolder role (some (.ch c))).setWaiters role rest

/-! ## Rings in the region table -/

/-- The record and ring part of a DEFINED RING region. -/
def State.ring? (r : RegionId) (s : State) : Option (RegionRecord × Ring) :=
  match (s.region r).record with
  | some d => match d.kind with
    | .ring g => some (d, g)
    | .linear => none
  | none => none

/-- The region with its ring part replaced. -/
def Region.setRing (g : Ring) (x : Region) : Region :=
  match x.record with
  | some d => { x with record := some { d with kind := .ring g } }
  | none => x

def State.setRing (r : RegionId) (g : Ring) (s : State) : State := s.setRegion r ((s.region r).setRing g)

/-- A ring whose fill has risen: the high-water test and its notice (R15). -/
def State.ringRose (r : RegionId) (g : Ring) (s : State) : State :=
  let t := s.setRing r g.disarm
  if g.highWater then t.post (.ringHighWater r g.committedFill) else t

end Sys2Proof.Machine
end

