-- ==== Sys2Proof/Machine/Work.lean ====
section
/-! DEFINITION. The life of a descriptor, as the blocks share it: claims (R17, R18, R82), marks (R118 to R122), promotion
(R80, R81), runs (R93 to R95), retirement (R96 to R98), faults (R112), discards (R109). -/
namespace Sys2Proof.Machine

def State.modChannel (c : ChannelId) (f : Channel → Channel) (s : State) : State := s.setChannel c (f (s.channel c))

/-- Entries of a requester in the burst list (R22). -/
def State.entriesOf (r : Requester) (s : State) : Nat :=
  s.sched.list.countP fun e => e.owner = .requester r

/-! ## Claims -/

/-- The ring at the endpoint of a role: the source for the reader, the destination for the writer (R17). -/
def Descriptor.endpointRegion (role : Role) (d : Descriptor) : Option RegionId :=
  match role with
  | .reader => match d.source with
    | .region r _ => some r
    | .capture _ => none
    | .pattern _ => none
  | .writer => match d.dest with
    | .region r _ => some r
    | .playout _ => none

/-- The ring whose role a channel's current descriptor names, with its ring part. -/
def State.roleRing (role : Role) (c : ChannelId) (s : State) : Option (RegionId × Ring) :=
  match (s.channel c).current with
  | none => none
  | some cur => match cur.desc.endpointRegion role with
    | none => none
    | some r => (s.ring? r).map fun g => (r, g.2)

/-- The channel becomes RUNNING (R82). -/
def State.enterRunning (c : ChannelId) (s : State) : State := s.modChannel c fun x => { x with state := .running }

/-- A channel asks for the claim of a role, if its descriptor needs one it does not hold, and goes on to `next` where it
has it; else it joins the role's waiter list (R17, R82). -/
def State.takeClaim (role : Role) (c : ChannelId) (next : State → State) (s : State) : State :=
  match s.roleRing role c with
  | none => next s
  | some (r, g) =>
    if g.holder role = some (.ch c) then next s
    else if (g.holder role).isNone then next (s.setRing r (g.setHolder role (some (.ch c))))
    else (s.setRing r (g.setWaiters role (g.waiters role ++ [c]))).modChannel c fun x =>
      { x with state := .waiting .claim }

/-- The claims a promoted channel needs, reader first (R17, R82). -/
def State.takeClaims (c : ChannelId) (s : State) : State :=
  s.takeClaim .reader c fun t => t.takeClaim .writer c fun u => u.enterRunning c

/-- A claim is released: it passes to the oldest waiter, which continues its promotion, or becomes none (R18). -/
def State.releaseClaim (role : Role) (r : RegionId) (s : State) : State :=
  match s.ring? r with
  | none => s
  | some (_, g) =>
    let t := s.setRing r (g.release role)
    match g.waiters role with
    | [] => t
    | c :: _ => t.takeClaims c

/-- A channel releases the claim of a role if it holds it (R96, step 1). -/
def State.releaseHeld (role : Role) (c : ChannelId) (s : State) : State :=
  match s.roleRing role c with
  | none => s
  | some (r, g) => if g.holder role = some (.ch c) then s.releaseClaim role r else s

/-- A channel leaves the claim waiter list of a role (R18). -/
def State.leaveClaimList (role : Role) (c : ChannelId) (s : State) : State :=
  match s.roleRing role c with
  | none => s
  | some (r, g) => s.setRing r (g.setWaiters role ((g.waiters role).filter fun x => x ≠ c))

/-! ## Marks -/

/-- Serving a waiter list with a value, oldest first: the value left, the list left, the channels satisfied (R119). -/
def serveWaiters : Nat → List MarkWaiter → Nat × List MarkWaiter × List ChannelId
  | v, [] => (v, [], [])
  | v, w :: rest =>
    if w.count ≤ v then
      let q := serveWaiters (v - w.count) rest
      (q.1, q.2.1, w.channel :: q.2.2)
    else (v, w :: rest, [])

/-- The channels a serving of the mark satisfies, in order (R119). -/
def Mark.satisfied (k : Mark) : List ChannelId := (serveWaiters k.value k.waiters).2.2

/-- The mark after serving its list (R119). -/
def Mark.served (k : Mark) : Mark :=
  { k with value := (serveWaiters k.value k.waiters).1, waiters := (serveWaiters k.value k.waiters).2.1 }

/-- A mark serves its list; each channel satisfied continues its promotion in order (R119, R120). -/
def State.serveMark (m : MarkId) (s : State) : State :=
  (s.mark m).satisfied.foldl (fun t c => t.takeClaims c) (s.setMark m (s.mark m).served)

/-- The mark after an addition, before serving (R121). -/
def Mark.raised (k : Nat) (x : Mark) : Mark :=
  if x.value + k ≤ Config.maxMark then { x with value := x.value + k }
  else { x with value := Config.maxMark, saturated := true }

/-- Whether an addition posts MARK_SATURATED (R122). -/
def Mark.saturates (k : Nat) (x : Mark) : Bool := decide (Config.maxMark < x.value + k) && !x.saturated

/-- An addition to a mark, with saturation (R121, R122), before serving. -/
def State.raiseMark (m : MarkId) (k : Nat) (s : State) : State :=
  let t := s.setMark m ((s.mark m).raised k)
  if (s.mark m).saturates k then t.post (.markSaturated m) else t

/-- An addition to a mark, which then serves its list (R121). -/
def State.addMark (m : MarkId) (k : Nat) (s : State) : State := (s.raiseMark m k).serveMark m

/-- A channel joins a mark's waiter list at the tail, and the mark serves (R118). -/
def State.joinMark (m : MarkId) (c : ChannelId) (n : Nat) (s : State) : State :=
  (s.setMark m { s.mark m with waiters := (s.mark m).waiters ++ [{ channel := c, count := n }] }).serveMark m

/-- A channel leaves a mark's waiter list unsatisfied; the mark serves if it was the oldest (R126). -/
def State.leaveMark (m : MarkId) (c : ChannelId) (s : State) : State :=
  let k := s.mark m
  let t := s.setMark m { k with waiters := k.waiters.filter fun w => w.channel ≠ c }
  match k.waiters with
  | [] => t
  | w :: _ => if w.channel = c then t.serveMark m else t

/-! ## Promotion -/

/-- The progress record a promotion starts (R81). -/
def Progress.fresh : Progress := { sourceAdmitted := 0, admitted := 0, done := 0, runsCompleted := 0, fault := false }

/-- The channel with the head of its queue current (R80, R81). -/
def Channel.promoted (d : Descriptor) (rest : List Descriptor) (x : Channel) : Channel :=
  { x with current := some { desc := d, prog := Progress.fresh }, pending := rest, slotA := .empty, slotB := .empty }

/-- The head of the pending queue is promoted: its mark wait first, then its claims (R80 to R82). -/
def State.promote (c : ChannelId) (s : State) : State :=
  match (s.channel c).pending with
  | [] => s
  | d :: rest =>
    let t := s.modChannel c (Channel.promoted d rest)
    match d.wait with
    | none => t.takeClaims c
    | some w => (t.modChannel c fun x => { x with state := .waiting .mark }).joinMark w.mark c w.count

/-! ## Reference counts (R7) -/

/-- The distinct regions a descriptor names. -/
def Descriptor.regions (d : Descriptor) : List RegionId :=
  match d.endpointRegion .reader, d.endpointRegion .writer with
  | none, none => []
  | some a, none => [a]
  | none, some b => [b]
  | some a, some b => if a = b then [a] else [a, b]

def State.addRef (r : RegionId) (s : State) : State :=
  s.setRegion r { s.region r with refCount := (s.region r).refCount + 1 }

def State.dropRef (r : RegionId) (s : State) : State :=
  s.setRegion r { s.region r with refCount := (s.region r).refCount - 1 }

def State.addRefs (d : Descriptor) (s : State) : State := d.regions.foldl (fun t r => t.addRef r) s
def State.dropRefs (d : Descriptor) (s : State) : State := d.regions.foldl (fun t r => t.dropRef r) s

/-! ## Retirement -/

/-- The channel with no current descriptor and its copy buffer empty. -/
def Channel.cleared (x : Channel) : Channel := { x with current := none, slotA := .empty, slotB := .empty }

/-- Steps 1 to 4 of a retirement, and the descriptor ceases to be current (R96): claims released, references lowered,
hold and run ended, DESCRIPTOR_DONE posted (for DONE only where notify is yes, R97). -/
def State.retire (c : ChannelId) (st : DoneStatus) (s : State) : State :=
  match (s.channel c).current with
  | none => s
  | some cur =>
    let t := ((s.releaseHeld .reader c).releaseHeld .writer c).dropRefs cur.desc
    let u := t.setArb (t.arb.onRetire c)
    let v := if st ≠ .done || cur.desc.notify then
        u.post (.descriptorDone c cur.desc.tag st cur.prog.done cur.prog.runsCompleted)
      else u
    v.modChannel c Channel.cleared

/-- The channel moves on after a retirement DONE, or ABORTED from STOPPING (R98). -/
def State.moveOn (c : ChannelId) (s : State) : State :=
  match (s.channel c).stop with
  | .afterCurrent => s.modChannel c fun x => { x with state := .halted .stopped, stop := .none }
  | .now => s.modChannel c fun x => { x with state := .halted .stopped, stop := .none }
  | .none => (s.modChannel c fun x => { x with state := .idle }).promote c
  | .flush => (s.modChannel c fun x => { x with state := .idle, stop := .none }).promote c

/-! ## Runs -/

def Current.modProg (f : Progress → Progress) (x : Current) : Current := { x with prog := f x.prog }

def State.modProg (c : ChannelId) (f : Progress → Progress) (s : State) : State :=
  s.modChannel c fun x => { x with current := x.current.map (Current.modProg f) }

/-- A completed run is counted, holding at 65,535 (R84, R93). -/
def Progress.runDone (p : Progress) : Progress := { p with runsCompleted := satAdd Config.max16 1 p.runsCompleted }

/-- The next run: the three byte counts return to 0 (R95). -/
def Progress.nextRun (p : Progress) : Progress := { p with sourceAdmitted := 0, admitted := 0, done := 0 }

/-- The post of a descriptor's mark, if it names one, and the run counted (R93, steps 1 and 2). -/
def State.endRun (c : ChannelId) (d : Descriptor) (s : State) : State :=
  (match d.post with
    | some m => s.addMark m 1
    | none => s).modProg c Progress.runDone

/-- Whether a run follows the one that has just been counted as `runs` completed (R93, step 3). -/
def Descriptor.goesOn (runs : Nat) (stop : StopRequest) (d : Descriptor) : Bool :=
  (decide (d.runs = Config.endless) || decide (runs < d.runs)) && decide (stop = .none)

/-- A run completes in RUNNING (R93). -/
def State.completeRun (c : ChannelId) (cur : Current) (s : State) : State :=
  let t := s.endRun c cur.desc
  if cur.desc.goesOn cur.prog.runDone.runsCompleted (s.channel c).stop then t.modProg c Progress.nextRun
  else (t.retire c .done).moveOn c

/-- A STOPPING channel's retirement (R106): a run whose last byte is done counts as completed; then ABORTED. -/
def State.retireStopped (c : ChannelId) (cur : Current) (s : State) : State :=
  let t := if cur.prog.done = cur.desc.length then s.endRun c cur.desc else s
  (t.retire c .aborted).moveOn c

/-- After a completion has been counted: the end of a run in RUNNING (R93), the last entry's retirement in STOPPING
(R106) and after a fault (R114). -/
def State.afterCompletion (c : ChannelId) (s : State) : State :=
  match (s.channel c).current with
  | none => s
  | some cur => match (s.channel c).state with
    | .running => if cur.prog.done = cur.desc.length then s.completeRun c cur else s
    | .stopping => if s.entriesOf (.ch c) = 0 then s.retireStopped c cur else s
    | .halted _ => if s.entriesOf (.ch c) = 0 then s.retire c .dataError else s
    | .idle => s
    | .waiting _ => s

/-! ## Faults and discards -/

/-- The play-out port a descriptor names releases its reservations (R112 step 4, R136). -/
def State.releaseReservations (d : Descriptor) (s : State) : State :=
  match d.dest with
  | .playout p => s.setPlayout p { s.playout p with reservations := [] }
  | .region _ _ => s

/-- The channel at the fault event (R112, steps 1 to 3). -/
def Channel.faulted (x : Channel) : Channel :=
  { x with state := .halted .fault, stop := .none, slotA := .empty, slotB := .empty,
           current := x.current.map (Current.modProg fun p => { p with fault := true }) }

/-- A channel faults at an uncorrectable read of its own (R112); where it holds no entry its descriptor retires at once
(R114, by `afterCompletion`). -/
def State.channelFault (c : ChannelId) (cur : Current) (s : State) : State :=
  ((s.modChannel c Channel.faulted).releaseReservations cur.desc).afterCompletion c

/-- A pending descriptor is thrown away (R109). -/
def State.discardOne (c : ChannelId) (s : State) (d : Descriptor) : State :=
  (s.dropRefs d).post (.descriptorDone c d.tag .discarded 0 0)

/-- FLUSH throws the pending queue away, oldest first (R109). -/
def State.discardPending (c : ChannelId) (s : State) : State :=
  ((s.channel c).pending.foldl (State.discardOne c) s).modChannel c fun x => { x with pending := [] }

end Sys2Proof.Machine
end

