-- ==== Sys2Proof/Machine/LauService.lean ====
section
/-! DEFINITION. The service of LAU requests: acceptance into the queue, service start (R145), completions (R147 to R151),
the end of service (R152), and RESTART (R154). -/
namespace Sys2Proof.Machine

/-- The length, or maximum length, of a request. -/
def LauOp.length : LauOp → Nat
  | .put _ data => data.length
  | .get _ n => n
  | .append data => data.length
  | .take n => n

/-- The claim a request's service holds (R145). -/
def LauOp.role : LauOp → Option Role
  | .put _ _ => none
  | .get _ _ => none
  | .append _ => some .writer
  | .take _ => some .reader

/-! ## Service start (R145) -/

/-- Checks 3 and 4 of PUT and GET, on a LINEAR record. -/
def lauLinearCheck (op : LauOp) (d : RegionRecord) : Option Status :=
  match op with
  | .put off data =>
    if !d.linkWrite then some .protected_
    else if d.length < off + data.length then some .outOfBounds else none
  | .get off n => if d.length < off + n then some .outOfBounds else none
  | .append _ => some .badValue
  | .take _ => some .badValue

/-- Checks 3, 5 and 6 of APPEND and TAKE, on a RING record. -/
def lauRingCheck (op : LauOp) (d : RegionRecord) (g : Ring) : Option Status :=
  match op with
  | .append data =>
    if !d.linkWrite then some .protected_
    else if g.writerClaim.isSome then some .regionBusy
    else if g.policy = .stop && g.space d.length < data.length then some .ringFull else none
  | .take _ => if g.readerClaim.isSome then some .regionBusy else none
  | .put _ _ => some .badValue
  | .get _ _ => some .badValue

/-- The checks of service start in their order; `none` where all pass. -/
def lauCheck (r : LauRequest) (s : State) : Option Status :=
  match (s.region r.region).record with
  | none => some .noRegion
  | some d => match d.kind with
    | .linear => lauLinearCheck r.op d
    | .ring g => lauRingCheck r.op d g

/-- The bytes to admit: the length, or for TAKE at most the committed fill (R145, R150). -/
def lauToAdmit (op : LauOp) (kind : RegionKind) : Nat :=
  match op, kind with
  | .take n, .ring g => min n g.committedFill
  | op, _ => op.length

/-- The service record as service start sets it (R145). -/
def lauNewService (r : LauRequest) (d : RegionRecord) : LauService where
  request := r
  base := d.base
  length := d.length
  toAdmit := lauToAdmit r.op d.kind
  admitted := 0
  completed := 0
  claim := r.op.role
  firstFailure := none
  discarded := 0
  dropped := 0
  cutShort := false

/-- The claim of a request in service is given to the LAU (R17, R145). -/
def State.lauTakeClaim (r : LauRequest) (s : State) : State :=
  match r.op.role, s.ring? r.region with
  | some role, some (_, g) => s.setRing r.region (g.setHolder role (some .lau))
  | _, _ => s

def Lau.noBuffer : Vector (Option (List Byte)) 8 := Vector.replicate 8 none

/-- Service starts for a request that passed its checks (R145). -/
def State.lauBegin (r : LauRequest) (s : State) : State :=
  match (s.region r.region).record with
  | none => s
  | some d => (s.lauTakeClaim r).setLau { s.lau with service := some (lauNewService r d), buffer := Lau.noBuffer }

/-! ## End of service (R152) -/

/-- The filled positions of the response buffer below a stream position, in position order. -/
def bufferBytes (v : Vector (Option (List Byte)) 8) (below : Nat) : List Byte :=
  (List.finRange 8).flatMap fun i => if 32 * i.val < below then (getAt v i).getD [] else []

/-- The response of a service (R147 to R151, R154). -/
def LauService.response (sv : LauService) (v : Vector (Option (List Byte)) 8) : Status × List Byte :=
  match sv.request.op, sv.firstFailure with
  | .put _ _, _ => if sv.cutShort then (.restarted, u32 sv.completed) else (.ok, [])
  | .append _, _ =>
    if sv.cutShort then (.restarted, u32 sv.completed ++ u32 sv.dropped) else (.ok, u32 sv.dropped)
  | .get _ _, some f => (.dataError, u32 f.offset ++ bufferBytes v f.pos)
  | .take _, some f => (.dataError, u32 f.offset ++ bufferBytes v f.pos ++ u32 sv.discarded)
  | _, none => (if sv.cutShort then .restarted else .ok, bufferBytes v Config.fifoBytes)

/-- Steps 1 to 3 of the end of service (R152): the claim released, the response handed over, the record dropped. -/
def State.lauFinish (s : State) : State :=
  match s.lau.service with
  | none => s
  | some sv =>
    let t := match sv.claim with
      | some role => s.releaseClaim role sv.request.region
      | none => s
    let u := t.handOver sv.request.tag (sv.response s.lau.buffer).1 (sv.response s.lau.buffer).2
    u.setLau { u.lau with service := none, buffer := Lau.noBuffer }

/-- Requests are taken into service from the head of the queue, until one has bursts to admit or none is left (R145,
R152 step 4). -/
def State.serveQueue : List LauRequest → State → State
  | [], s => s.setLau { s.lau with queue := [] }
  | r :: rest, s =>
    let t := s.setLau { s.lau with queue := rest }
    match lauCheck r t with
    | some st => State.serveQueue rest (t.handOver r.tag st [])
    | none =>
      let u := t.lauBegin r
      if (u.lau.service.map LauService.toAdmit) = some 0 then State.serveQueue rest u.lauFinish else u

/-- The end of service (R152). -/
def State.endService (s : State) : State :=
  let t := s.lauFinish
  State.serveQueue t.lau.queue t

/-- A request that passed acceptance joins the queue, and is taken into service if none is (R144). -/
def State.lauEnqueue (r : LauRequest) (s : State) : State :=
  match s.lau.service with
  | some _ => s.setLau { s.lau with queue := s.lau.queue ++ [r] }
  | none => State.serveQueue (s.lau.queue ++ [r]) s

/-! ## Completions -/

def State.setService (sv : LauService) (s : State) : State := s.setLau { s.lau with service := some sv }

/-- The service ends at the completion that makes bytes completed equal bytes to admit. -/
def State.lauCounted (sv : LauService) (s : State) : State :=
  let t := s.setService sv
  if sv.completed = sv.toAdmit then t.endService else t

/-- A write completion: the bytes written, or committed to the ring (R147, R149). -/
def State.lauWriteDone (bytes : Nat) (s : State) : State :=
  match s.lau.service with
  | none => s
  | some sv => s.lauCounted { sv with completed := sv.completed + bytes }

/-- A position of the response buffer is filled. -/
def fillBuffer (v : Vector (Option (List Byte)) 8) (pos : Nat) (data : List Byte) : Vector (Option (List Byte)) 8 :=
  match idx? 8 (pos / 32) with
  | some i => setAt v i (some data)
  | none => v

/-- Filled positions after a stream position. -/
def filledAfter (v : Vector (Option (List Byte)) 8) (pos : Nat) : Nat :=
  (List.finRange 8).countP fun i => decide (pos < 32 * i.val) && (getAt v i).isSome

/-- The buffer with the positions after a stream position emptied. -/
def emptyAfter (v : Vector (Option (List Byte)) 8) (pos : Nat) : Vector (Option (List Byte)) 8 :=
  Vector.ofFn fun i : Fin 8 => if pos < 32 * i.val then none else getAt v i

/-- Whether a stream position lies after the first failure. -/
def LauService.afterFailure (pos : Nat) (sv : LauService) : Bool :=
  match sv.firstFailure with
  | none => false
  | some f => f.pos < pos

/-- An uncorrectable burst of a GET or TAKE: the earliest failed position is the first failure, and no further burst is
admitted (R148, R151). -/
def LauService.fail (pos off : Nat) (sv : LauService) : LauService :=
  if sv.afterFailure pos then { sv with toAdmit := sv.admitted }
  else { sv with firstFailure := some { pos := pos, offset := off }, toAdmit := sv.admitted }

/-- Bytes a TAKE has consumed and will not deliver because of an uncorrectable burst at this position (R151): the good
bursts after it that had completed, the burst that was the first failure until now, or the burst itself where it lies
after the first failure. -/
def LauService.newlyDiscarded (pos : Nat) (v : Vector (Option (List Byte)) 8) (sv : LauService) : Nat :=
  if sv.afterFailure pos then 32
  else 32 * filledAfter v pos + (if sv.firstFailure.isSome then 32 else 0)

/-- A GET's read completion (R148); the offset is the burst's in the region. -/
def State.lauGetDone (pos off : Nat) (data : Option (List Byte)) (s : State) : State :=
  match s.lau.service with
  | none => s
  | some sv => match data with
    | some bytes =>
      (s.setLau { s.lau with buffer := fillBuffer s.lau.buffer pos bytes }).lauCounted
        { sv with completed := sv.completed + 32 }
    | none => s.lauCounted { sv.fail pos off with completed := sv.completed + 32 }

/-- A TAKE's read completion (R150, R151); the offset is the burst's in the ring, and `givenBack` says whether the
region table gave the burst back. -/
def State.lauTakeDone (pos off : Nat) (data : Option (List Byte)) (givenBack : Bool) (s : State) : State :=
  match s.lau.service with
  | none => s
  | some sv => match data with
    | some bytes =>
      if sv.afterFailure pos then
        s.lauCounted { sv with completed := sv.completed + 32,
                               discarded := sv.discarded + (if givenBack then 0 else 32) }
      else
        (s.setLau { s.lau with buffer := fillBuffer s.lau.buffer pos bytes }).lauCounted
          { sv with completed := sv.completed + 32 }
    | none =>
      (s.setLau { s.lau with buffer := if sv.afterFailure pos then s.lau.buffer else emptyAfter s.lau.buffer pos }).lauCounted
        { sv.fail pos off with completed := sv.completed + 32,
                               discarded := sv.discarded + sv.newlyDiscarded pos s.lau.buffer }

/-- Whether the LAU asks that a completing read be given back (R151): a good burst of a TAKE after its first failure. -/
def State.lauAsksBack (pos : Nat) (good : Bool) (s : State) : Bool :=
  match s.lau.service with
  | none => false
  | some sv => match sv.request.op with
    | .take _ => good && sv.afterFailure pos
    | .put _ _ => false
    | .get _ _ => false
    | .append _ => false

/-! ## Readiness and shortening -/

/-- A TAKE that reports with bytes still to admit and finds committed fill under 32 is shortened to what it has
reserved, and ends if it holds no entry (R150). -/
def State.lauShorten (s : State) : State :=
  match s.lau.service with
  | none => s
  | some sv => match sv.request.op, s.ring? sv.request.region with
    | .take _, some (_, g) =>
      if sv.admitted < sv.toAdmit && g.committedFill < 32 then
        let t := s.setService { sv with toAdmit := sv.admitted }
        if s.entriesOf .lau = 0 then t.endService else t
      else s
    | _, _ => s

/-- The LAU's part of RESTART (R154): the queued requests are answered RESTARTED in order; the one in service admits
nothing more, and ends at once if it holds no entry. That its response then comes after those of the queue is the model's
choice (log entry 20). -/
def State.lauRestart (s : State) : State :=
  let t := s.lau.queue.foldl (fun u r => u.handOver r.tag .restarted []) (s.setLau { s.lau with queue := [] })
  match t.lau.service with
  | none => t
  | some sv =>
    let u := t.setService { sv with cutShort := sv.admitted < sv.toAdmit, toAdmit := sv.admitted }
    if t.entriesOf .lau = 0 then u.endService else u

end Sys2Proof.Machine
end

