-- ==== Sys2Proof/Machine/Scheduling.lean ====
section
/-! DEFINITION. The scheduler's records: entry states (R23), bank moves (R26 to R31, R36, R37), the opening history
(R29), modes and refresh tests (R39 to R41, R46 to R48), the clear sweep's admissions (R52). -/
namespace Sys2Proof.Machine

def BurstEntry.bank (e : BurstEntry) : BankId := bankOf e.addr
def BurstEntry.row (e : BurstEntry) : Nat := rowOf e.addr
def BurstEntry.isWrite (e : BurstEntry) : Bool :=
  match e.transfer with
  | .write _ => true
  | .read _ => false

/-- The head of a bank: the oldest entry that addresses it (R24). -/
def Scheduler.head? (b : BankId) (d : Scheduler) : Option BurstEntry := d.list.find? fun e => e.bank = b

/-- Whether a bank is OPEN on a row. -/
def Bank.isOpenOn (row : Nat) : Bank → Bool
  | .opened o => o.row = row
  | .closed => false
  | .opening _ _ => false
  | .closing _ => false

/-- The state R23 gives an entry that is not being accessed: READY when it is the head of its bank and the bank is OPEN
on its row. `seen` holds the banks older entries address. -/
def entryStateOf (banks : Vector Bank 8) (seen : List BankId) (e : BurstEntry) : EntryState :=
  if e.state = .accessing then .accessing
  else if !seen.contains e.bank && (getAt banks e.bank).isOpenOn e.row then .ready
  else .waitingBank

/-- Every entry in the state R23 gives it. -/
def settleList (banks : Vector Bank 8) : List BankId → List BurstEntry → List BurstEntry
  | _, [] => []
  | seen, e :: rest => { e with state := entryStateOf banks seen e } :: settleList banks (e.bank :: seen) rest

def Scheduler.settle (d : Scheduler) : Scheduler := { d with list := settleList d.banks [] d.list }

/-- A bank moves (R26), and its entries' states follow (R23). -/
def Scheduler.moveBank (b : BankId) (x : Bank) (d : Scheduler) : Scheduler := (d.setBank b x).settle

def Scheduler.busy (d : Scheduler) : Bool := d.accessStart.isSome
def Scheduler.allClosed (d : Scheduler) : Bool := d.banks.toList.all fun x => decide (x = .closed)

/-! ## Admission to the list (R21, R36) -/

/-- An admission that makes a new head of an OPEN bank addressing its open row clears the close-after mark (R36). -/
def Bank.admitHead (row : Nat) : Bank → Bank
  | .opened o => if o.row = row then .opened { o with closeAfterMark := false } else .opened o
  | .closed => .closed
  | .opening r t => .opening r t
  | .closing t => .closing t

/-- The scheduler appends an entry (R21); it takes its state under R23. -/
def Scheduler.admitEntry (e : BurstEntry) (d : Scheduler) : Scheduler :=
  let t := match d.head? e.bank with
    | none => d.setBank e.bank ((d.bank e.bank).admitHead e.row)
    | some _ => d
  { t with list := t.list ++ [{ e with state := .waitingBank }] }.settle

/-- Modes with an admission opportunity for the channels and the LAU (R22). -/
def SchedMode.admits : SchedMode → Bool
  | .normal => true
  | .draining => true
  | .refreshing => true
  | .bringup => false
  | .failed => false

/-- Whether an admission opportunity exists (R22, R61). -/
def Scheduler.opportunity (d : Scheduler) : Bool := d.mode.admits && d.list.length < Config.listPlaces

/-! ## Openings (R27 to R29) -/

/-- Whether the opening history permits an opening at a time (R29): spacing, then window. -/
def historyPermits (now : Nat) (h : List Nat) : Bool :=
  (match h.getLast? with
    | none => true
    | some t => t + Config.spacingNs ≤ now) &&
  h.countP (fun t => now < t + Config.windowNs) < Config.windowOpenings

/-- An opening's start joins the history, which keeps at most four times (R29). -/
def pushOpening (now : Nat) (h : List Nat) : List Nat :=
  if Config.windowOpenings ≤ h.length then h.tail ++ [now] else h ++ [now]

/-- Whether openings and accesses start for an entry (R27, R32, R39): in NORMAL, and in CLEAR for the scheduler's own
entries; not while a refresh runs (R48). -/
def Scheduler.serves (e : BurstEntry) (d : Scheduler) : Bool :=
  (decide (d.mode = .normal) ||
    decide (d.mode = .bringup) && decide (d.stage = some .clear) && decide (e.owner = .scheduler)) &&
  d.refreshStart.isNone

/-- The head to open for: the oldest head whose bank is CLOSED (R27). -/
def Scheduler.openingHead? (d : Scheduler) : Option BurstEntry := d.list.find? fun e => d.bank e.bank = .closed

/-- The opening start R27 allows now, if any (R28). -/
def Scheduler.startOpening (now : Nat) (d : Scheduler) : Option Scheduler :=
  match d.openingHead? with
  | none => none
  | some e =>
    if d.serves e && historyPermits now d.history then
      some ({ d with history := pushOpening now d.history }.moveBank e.bank (.opening e.row now))
    else none

/-- The bank as an opening completion leaves it (R28). -/
def Bank.openedAt (row start now : Nat) : Bank :=
  .opened { row := row, openingStart := start, recoveryEnd := none, lastActivity := now, closeAfterMark := false }

/-! ## Closings (R30, R31, R36, R37, R40) -/

/-- Whether the access running is on a bank. -/
def Scheduler.accessingOn (b : BankId) (d : Scheduler) : Bool :=
  d.list.any fun e => e.bank = b && decide (e.state = .accessing)

/-- Whether a bank's idle expiry has come (R37): OPEN with no entry addressing it, the limit not OFF and passed. Passed for
however long: an expiry that RESTART's limit of 1 µs put into the past is a cause to close at once, log entry 22. -/
def Scheduler.idleExpired (now : Nat) (b : BankId) (o : OpenRow) (d : Scheduler) : Bool :=
  (d.head? b).isNone &&
    match d.rowIdleLimit.ns with
    | none => false
    | some n => o.lastActivity + n ≤ now

/-- A head that wants another row (R31). -/
def Scheduler.conflicting (b : BankId) (o : OpenRow) (d : Scheduler) : Bool :=
  match d.head? b with
  | none => false
  | some e => e.row ≠ o.row

/-- A cause to close an OPEN bank (R30). -/
def Scheduler.closingCause (now : Nat) (b : BankId) (o : OpenRow) (d : Scheduler) : Bool :=
  d.conflicting b o || o.closeAfterMark || d.idleExpired now b o || decide (d.mode = .draining)

/-- Whether an OPEN bank may start closing (R30): min-open, write recovery, no access running on it. -/
def Scheduler.mayClose (now : Nat) (b : BankId) (o : OpenRow) (d : Scheduler) : Bool :=
  decide (o.openingStart + Config.minOpenNs ≤ now) &&
    (match o.recoveryEnd with
      | none => true
      | some t => t ≤ now) &&
    !d.accessingOn b

/-- Modes in which closings are made (R39). -/
def SchedMode.closes : SchedMode → Bool
  | .bringup => true
  | .normal => true
  | .draining => true
  | .refreshing => false
  | .failed => false

/-! ## Refresh (R46 to R48, R53) -/

/-- The mode becomes DRAINING; close-after marks are cleared (R36, R40). -/
def Scheduler.enterDraining (d : Scheduler) : Scheduler :=
  { d with mode := .draining,
           banks := mapTable (fun x => match x with
             | .opened o => .opened { o with closeAfterMark := false }
             | y => y) d.banks }

/-- An urgent refresh is due (R46). -/
def Scheduler.urgent (d : Scheduler) : Bool := Config.urgentDebt ≤ d.refreshDebt

/-- A lazy refresh is due (R47). -/
def Scheduler.lazyDue (d : Scheduler) : Bool := 1 ≤ d.refreshDebt && d.list.isEmpty && !d.busy

/-- The refresh tests in NORMAL at an interval expiry (R46, R47). -/
def Scheduler.testRefresh (d : Scheduler) : Scheduler :=
  if decide (d.mode = .normal) && (d.urgent || d.lazyDue) then d.enterDraining else d

/-- The lazy test at an access completion in NORMAL (R47). -/
def Scheduler.testLazy (d : Scheduler) : Scheduler :=
  if decide (d.mode = .normal) && d.lazyDue then d.enterDraining else d

/-- Whether a refresh can start (R48; R53 during CLEAR, where the entries in the list are accessed first, log entry 8). -/
def Scheduler.refreshCanStart (d : Scheduler) : Bool :=
  d.allClosed && !d.busy && d.refreshStart.isNone &&
    (decide (d.mode = .draining) ||
      decide (d.mode = .bringup) && decide (d.stage = some .clear) && decide (1 ≤ d.refreshDebt) && d.list.isEmpty)

/-- The mode while a refresh runs: REFRESHING, but BRINGUP stays (R48, R53). -/
def Scheduler.beginRefresh (now : Nat) (d : Scheduler) : Scheduler :=
  { d with refreshStart := some now, mode := if d.mode = .bringup then .bringup else .refreshing }

/-! ## The clear sweep (R52, R53) -/

/-- The sweep's entry at its position. -/
def sweepEntry (pos : Nat) : BurstEntry where
  owner := .scheduler
  transfer := .write (List.replicate 32 0#8)
  addr := pos
  closeAfter := true
  ringRef := none
  state := .waitingBank

/-- The scheduler's own entries in the list. -/
def Scheduler.sweepEntries (d : Scheduler) : Nat := d.list.countP fun e => e.owner = .scheduler

/-- The sweep admits one entry, where it is not paused, addresses remain and it holds fewer than two (R52, R53, R22). -/
def Scheduler.sweepAdmit (d : Scheduler) : Scheduler :=
  if decide (d.refreshDebt = 0) && decide (d.sweepPos < Config.dramBytes) && decide (d.sweepEntries < Config.requesterPlaces) &&
      decide (d.list.length < Config.listPlaces) then
    { d with sweepPos := d.sweepPos + 32 }.admitEntry (sweepEntry d.sweepPos)
  else d

/-- The mode and refresh state after a refresh completion (R48, R53), the debt already lowered. -/
def Scheduler.afterRefresh (now : Nat) (d : Scheduler) : Scheduler :=
  if d.mode = .bringup then
    if 1 ≤ d.refreshDebt then { d with refreshStart := some now }
    else { d with refreshStart := none }.sweepAdmit.sweepAdmit
  else if d.urgent || (decide (1 ≤ d.refreshDebt) && d.list.isEmpty) then
    { d with refreshStart := some now, mode := .refreshing }
  else { d with refreshStart := none, mode := .normal }

end Sys2Proof.Machine
end

