-- ==== Sys2Proof/Machine/Flags.lean ====
section
/-! DEFINITION. The conditions the requesters report to the arbiter: which burst a channel can form (R85, R89), the
readiness of channels and LAU with its causes (R64, R65), and the report (R63 step 5, R73). -/
namespace Sys2Proof.Machine

/-- The next burst a channel can form, by its form (R83). -/
inductive Burst where
  | captureWrite (p : CaptureId)
  | patternWrite (v : BitVec 32)
  | playoutRead (p : PlayoutId)
  | copyWrite (slot : CopySlotId) (pos : Nat) (data : List Byte)
  | copyRead (slot : CopySlotId)
deriving DecidableEq, Repr

/-- The room of a play-out port (R133). -/
def PlayoutPort.room (p : PlayoutPort) : Nat := Config.fifoBytes - p.fifo.length - 32 * p.reservations.length

/-- Whether a region's end allows a WRITE of this requester (R85: LINEAR always; RING by R9). -/
def RegionRecord.writable (who : Requester) (d : RegionRecord) : Bool :=
  match d.kind with
  | .linear => true
  | .ring g => g.canWrite d.length who

/-- Whether a region's end allows a READ of this requester (R85: LINEAR always; RING by R11). -/
def RegionRecord.readable (who : Requester) (d : RegionRecord) : Bool :=
  match d.kind with
  | .linear => true
  | .ring g => g.canRead who

def State.regionWritable (who : Requester) (r : RegionId) (s : State) : Bool :=
  match (s.region r).record with
  | none => false
  | some d => d.writable who

def State.regionReadable (who : Requester) (r : RegionId) (s : State) : Bool :=
  match (s.region r).record with
  | none => false
  | some d => d.readable who

/-- The oldest occupied copy slot where it is FULL, with its position and data (R89). -/
def Channel.oldestFull (x : Channel) : Option (CopySlotId × Nat × List Byte) :=
  match x.slotA, x.slotB with
  | .full p d, .empty => some (.a, p, d)
  | .full p d, .reserved q => if p < q then some (.a, p, d) else none
  | .full p d, .full q e => if p < q then some (.a, p, d) else some (.b, q, e)
  | .empty, .full q e => some (.b, q, e)
  | .reserved p, .full q e => if q < p then some (.b, q, e) else none
  | .empty, .empty => none
  | .empty, .reserved _ => none
  | .reserved _, .empty => none
  | .reserved _, .reserved _ => none

/-- An EMPTY copy slot, A before B (R89). -/
def Channel.emptySlot (x : Channel) : Option CopySlotId :=
  if x.slotA = .empty then some .a else if x.slotB = .empty then some .b else none

/-- The WRITE of a copy (R85, R89). -/
def State.copyWriteBurst (c : ChannelId) (cur : Current) (r : RegionId) (s : State) : Option Burst :=
  match (s.channel c).oldestFull with
  | none => none
  | some (slot, pos, data) =>
    if cur.prog.admitted < cur.desc.length && s.regionWritable (.ch c) r then some (.copyWrite slot pos data) else none

/-- The READ of a copy (R85, R89). -/
def State.copyReadBurst (c : ChannelId) (cur : Current) (r : RegionId) (s : State) : Option Burst :=
  match (s.channel c).emptySlot with
  | none => none
  | some slot =>
    if cur.prog.sourceAdmitted < cur.desc.length && s.regionReadable (.ch c) r then some (.copyRead slot) else none

/-- The burst a channel can form next, as its endpoints stand; for a copy the WRITE in preference (R85, R89). -/
def State.nextBurst (c : ChannelId) (cur : Current) (s : State) : Option Burst :=
  match cur.desc.source, cur.desc.dest with
  | .capture p, .region r _ =>
    if cur.prog.admitted < cur.desc.length && 32 ≤ (s.capture p).fifo.length && s.regionWritable (.ch c) r then
      some (.captureWrite p)
    else none
  | .pattern v, .region r _ =>
    if cur.prog.admitted < cur.desc.length && s.regionWritable (.ch c) r then some (.patternWrite v) else none
  | .region r _, .playout p =>
    if cur.prog.admitted < cur.desc.length && 32 ≤ (s.playout p).room && s.regionReadable (.ch c) r then
      some (.playoutRead p)
    else none
  | .region r _, .region q _ =>
    match s.copyWriteBurst c cur q with
    | some b => some b
    | none => s.copyReadBurst c cur r
  | .capture _, .playout _ => none
  | .pattern _, .playout _ => none

/-- A channel's readiness, or the first cause that applies (R64). -/
def State.channelReadiness (c : ChannelId) (s : State) : Readiness :=
  match (s.channel c).current with
  | none => .inactive
  | some cur =>
    if (s.channel c).state ≠ .running || cur.prog.fault then .inactive
    else if Config.requesterPlaces ≤ s.entriesOf (.ch c) || cur.desc.length ≤ cur.prog.admitted then .limit
    else if (s.nextBurst c cur).isSome then .ready
    else .endpoint

/-- Whether the region of the request in service allows the LAU's next burst (R146). -/
def State.lauAllows (sv : LauService) (s : State) : Bool :=
  match sv.request.op with
  | .put _ _ => true
  | .get _ _ => true
  | .append _ => s.regionWritable .lau sv.request.region
  | .take _ => s.regionReadable .lau sv.request.region

/-- The LAU's readiness (R65, R146). -/
def State.lauReadiness (s : State) : Readiness :=
  match s.lau.service with
  | none => .inactive
  | some sv =>
    if Config.requesterPlaces ≤ s.entriesOf .lau || sv.toAdmit ≤ sv.admitted then .limit
    else if s.lauAllows sv then .ready
    else .endpoint

def State.readinessOf (r : Requester) (s : State) : Readiness :=
  match r with
  | .ch c => s.channelReadiness c
  | .lau => s.lauReadiness

/-- The readiness of all seven, as they stand. -/
def State.readinessTable (s : State) : Vector Readiness 7 :=
  Vector.ofFn fun i : Fin 7 => s.readinessOf (Requester.at i.val)

/-- One channel reports its readiness afresh (R63 step 5, R64, R73). -/
def State.reportChannel (c : ChannelId) (s : State) : State :=
  s.setArb (s.arb.record (setAt s.arb.readiness (Requester.ch c).index (s.channelReadiness c)))

/-- The channel a port is bound to, if any, reports afresh (R130, R137). -/
def State.reportBound (b : Option ChannelId) (s : State) : State :=
  match b with
  | none => s
  | some c => s.reportChannel c

/-- At the end of an event every requester whose answer has changed has reported it (R63 step 5, R64, R65); a hold
owner's report may end the hold (R73). -/
def State.reportAll (s : State) : State := s.setArb (s.arb.record s.readinessTable)

/-- The same at the events of the LAU's own burst work, where its report may shorten a TAKE first (R150). -/
def State.report (s : State) : State := s.lauShorten.reportAll

end Sys2Proof.Machine
end

