-- ==== Sys2Proof/Machine/Ports.lean ====
section
/-! DEFINITION. The ports (chapter 8): their records' operations (R132, R134 to R136), STROBE (R130, R131), PULL (R137,
R138), and PORT_ENABLE, PORT_DISABLE, PORT_BIND, PORT_QUERY (R139 to R142). In FAILED each request is refused with
DRAM_FAULT (R55). -/
namespace Sys2Proof.Machine

/-! ## Capture ports -/

/-- The two bytes of a word, the low one first (R130). -/
def wordBytes (w : Word16) : List Byte := [lowByte w, highByte w]

/-- A word strobed into a port (R130). -/
def CapturePort.strobed (w : Word16) (p : CapturePort) : CapturePort :=
  if !p.enabled then p
  else if p.fifo.length < Config.fifoBytes then { p with fifo := p.fifo ++ wordBytes w }
  else { p with overflowCount := satAdd Config.max16 1 p.overflowCount, armed := false }

/-- Whether a strobe overflows the FIFO (R130). -/
def CapturePort.overflows (p : CapturePort) : Bool := p.enabled && Config.fifoBytes ≤ p.fifo.length

/-- The notice of an overflow, with the count after the rise (R131). -/
def State.postOverflow (k : CaptureId) (before : CapturePort) (s : State) : State :=
  if before.overflows && before.armed then s.post (.portOverflow k (s.capture k).overflowCount) else s

/-- STROBE (R130, R131). -/
def execStrobe (k : CaptureId) (w : Word16) (s : State) : Out :=
  .next (((s.setCapture k ((s.capture k).strobed w)).postOverflow k (s.capture k)).reportBound (s.capture k).binding)

/-- The oldest 32 bytes leave the FIFO for an admitted entry (R132). -/
def CapturePort.taken (p : CapturePort) : CapturePort := { p with fifo := p.fifo.drop Config.burstBytes }

/-! ## Play-out ports -/

/-- A reservation joins the list at the admission of its READ (R134). -/
def PlayoutPort.reserve (pos : Nat) (p : PlayoutPort) : PlayoutPort :=
  { p with reservations := p.reservations ++ [{ pos := pos, data := none }] }

/-- The data of a reservation arrives (R135). -/
def arriveAt (pos : Nat) (data : List Byte) (l : List PlayoutReservation) : List PlayoutReservation :=
  l.map fun r => if r.pos = pos then { r with data := some data } else r

/-- From the head of the list, the bytes of the reservations that have their data, and the rest (R135). -/
def arrivedRun : List PlayoutReservation → List Byte × List PlayoutReservation
  | [] => ([], [])
  | r :: rest => match r.data with
    | none => ([], r :: rest)
    | some d => (d ++ (arrivedRun rest).1, (arrivedRun rest).2)

/-- The underrun flag is set again where the FIFO holds a burst (R135). -/
def PlayoutPort.rearm (p : PlayoutPort) : PlayoutPort :=
  if Config.burstBytes ≤ p.fifo.length then { p with armed := true } else p

/-- A delivery (R135). -/
def PlayoutPort.delivered (pos : Nat) (data : List Byte) (p : PlayoutPort) : PlayoutPort :=
  { p with fifo := p.fifo ++ (arrivedRun (arriveAt pos data p.reservations)).1,
           reservations := (arrivedRun (arriveAt pos data p.reservations)).2 }.rearm

/-- The bytes a delivery appends to the FIFO (R135). -/
def PlayoutPort.appended (pos : Nat) (data : List Byte) (p : PlayoutPort) : Nat :=
  (arrivedRun (arriveAt pos data p.reservations)).1.length

/-- A pull (R137): the word driven is on the outputs. -/
def PlayoutPort.pulled (p : PlayoutPort) : PlayoutPort :=
  if !p.enabled then { p with outputs := 0 }
  else match p.fifo with
    | lo :: hi :: rest => { p with fifo := rest, lastWord := word16 lo hi, outputs := word16 lo hi }
    | _ => { p with outputs := p.lastWord, underrunCount := satAdd Config.max16 1 p.underrunCount, armed := false }

/-- Whether a pull underruns (R137); the FIFO holds whole words. -/
def PlayoutPort.underruns (p : PlayoutPort) : Bool := p.enabled && p.fifo.length < 2

/-- The notice of an underrun, with the count after the rise (R138). -/
def State.postUnderrun (k : PlayoutId) (before : PlayoutPort) (s : State) : State :=
  if before.underruns && before.armed then s.post (.portUnderrun k (s.playout k).underrunCount) else s

/-- PULL (R137, R138). -/
def execPull (k : PlayoutId) (s : State) : Out :=
  .next (((s.setPlayout k (s.playout k).pulled).postUnderrun k (s.playout k)).reportBound (s.playout k).binding)

/-! ## PORT_ENABLE (R139) -/

/-- A DISABLED capture port is emptied as it is enabled (R139). -/
def CapturePort.enable (p : CapturePort) : CapturePort :=
  if p.enabled then p else { p with enabled := true, fifo := [] }

def PlayoutPort.enable (p : PlayoutPort) : PlayoutPort := { p with enabled := true }

/-- PORT_ENABLE at the port (R139); the response carries the bytes the FIFO then holds. -/
def portEnable (p : List Byte) (s : State) : Reply :=
  match p with
  | [kind, number] => match readPort kind number with
    | some (.capture k) =>
      (.ok, u32 (s.capture k).enable.fifo.length,
        (s.setCapture k (s.capture k).enable).reportBound (s.capture k).binding)
    | some (.playout k) => (.ok, u32 (s.playout k).fifo.length, s.setPlayout k (s.playout k).enable)
    | none => (.badValue, [], s)
  | _ => (.badValue, [], s)

def dispatchPortEnable (tag : Byte) (p : List Byte) (s : State) : State :=
  s.accept 0x28#8 tag (p.length = 2) .whenReady fun t => t.unlessFailed tag fun u => u.answerWith tag (portEnable p)

/-- PORT_ENABLE. -/
def execPortEnable (tag : Byte) (p : List Byte) (s : State) : Out := onFrame 0x28#8 dispatchPortEnable tag p s

/-! ## PORT_DISABLE (R140) -/

/-- PORT_DISABLE at the port (R140); the response carries the bytes the FIFO holds. -/
def portDisable (p : List Byte) (s : State) : Reply :=
  match p with
  | [kind, number] => match readPort kind number with
    | some (.capture k) =>
      (.ok, u32 (s.capture k).fifo.length, s.setCapture k { s.capture k with enabled := false })
    | some (.playout k) =>
      (.ok, u32 (s.playout k).fifo.length, s.setPlayout k { s.playout k with enabled := false })
    | none => (.badValue, [], s)
  | _ => (.badValue, [], s)

def dispatchPortDisable (tag : Byte) (p : List Byte) (s : State) : State :=
  s.accept 0x29#8 tag (p.length = 2) .whenReady fun t => t.unlessFailed tag fun u => u.answerWith tag (portDisable p)

/-- PORT_DISABLE. -/
def execPortDisable (tag : Byte) (p : List Byte) (s : State) : Out := onFrame 0x29#8 dispatchPortDisable tag p s

/-! ## PORT_BIND (R141) -/

/-- Whether a descriptor names a port. -/
def Descriptor.names (n : PortName) (d : Descriptor) : Bool :=
  match n with
  | .capture k => decide (d.source = .capture k)
  | .playout k => decide (d.dest = .playout k)

/-- Whether a descriptor of a channel, current or pending, names a port (R141). -/
def Channel.names (n : PortName) (x : Channel) : Bool :=
  (match x.current with
    | some cur => cur.desc.names n
    | none => false) || x.pending.any fun d => d.names n

/-- Whether the channel a port is bound to still needs it (R141). -/
def State.portInUse (n : PortName) (b : Option ChannelId) (s : State) : Bool :=
  match b with
  | none => false
  | some c => (s.channel c).names n

/-- A port's binding moves, with `move` (R141); the response carries the binding before. -/
def bindPort (n : PortName) (old new : Option ChannelId) (move : State → State) (s : State) : Reply :=
  if old = new then (.ok, ownerByte old, s)
  else if s.portInUse n old then (.inUse, [], s)
  else (.ok, ownerByte old, move s)

/-- PORT_BIND at the port (R141). -/
def portBind (p : List Byte) (s : State) : Reply :=
  match p with
  | [kind, number, b] => match readPort kind number, readBinding b with
    | some (.capture k), some new =>
      bindPort (.capture k) (s.capture k).binding new (fun t => t.setCapture k { t.capture k with binding := new }) s
    | some (.playout k), some new =>
      bindPort (.playout k) (s.playout k).binding new (fun t => t.setPlayout k { t.playout k with binding := new }) s
    | _, _ => (.badValue, [], s)
  | _ => (.badValue, [], s)

def dispatchPortBind (tag : Byte) (p : List Byte) (s : State) : State :=
  s.accept 0x2A#8 tag (p.length = 3) .whenReady fun t => t.unlessFailed tag fun u => u.answerWith tag (portBind p)

/-- PORT_BIND. -/
def execPortBind (tag : Byte) (p : List Byte) (s : State) : Out := onFrame 0x2A#8 dispatchPortBind tag p s

/-! ## PORT_QUERY (R142) -/

def bindingReport (b : Option ChannelId) : List Byte := indicated 1 (fun c => u8 c.val) b

def CapturePort.report (p : CapturePort) : List Byte :=
  flagByte p.enabled ++ bindingReport p.binding ++ u32 p.fifo.length ++ u16 p.overflowCount ++ flagByte p.armed

def PlayoutPort.report (p : PlayoutPort) : List Byte :=
  flagByte p.enabled ++ bindingReport p.binding ++ u32 p.fifo.length ++ u8 p.reservations.length ++
    u8 (p.reservations.countP fun r => r.data.isSome) ++ u32 p.room ++ u16 p.lastWord.toNat ++ u16 p.underrunCount ++
    flagByte p.armed

/-- A clear of the loss count, which sets the armed flag (R142). -/
def CapturePort.cleared (p : CapturePort) : CapturePort := { p with overflowCount := 0, armed := true }
def PlayoutPort.cleared (p : PlayoutPort) : PlayoutPort := { p with underrunCount := 0, armed := true }

/-- PORT_QUERY at the port (R142): the values before any clearing are reported. -/
def portQuery (p : List Byte) (s : State) : Reply :=
  match p with
  | [kind, number, b] => match readPort kind number, readFlag b with
    | some (.capture k), some clear =>
      (.ok, (s.capture k).report, if clear then s.setCapture k (s.capture k).cleared else s)
    | some (.playout k), some clear =>
      (.ok, (s.playout k).report, if clear then s.setPlayout k (s.playout k).cleared else s)
    | _, _ => (.badValue, [], s)
  | _ => (.badValue, [], s)

def dispatchPortQuery (tag : Byte) (p : List Byte) (s : State) : State :=
  s.accept 0x2B#8 tag (p.length = 3) .whenReady fun t => t.unlessFailed tag fun u => u.answerWith tag (portQuery p)

/-- PORT_QUERY. -/
def execPortQuery (tag : Byte) (p : List Byte) (s : State) : Out := onFrame 0x2B#8 dispatchPortQuery tag p s

end Sys2Proof.Machine
end

