-- ==== Sys2Proof/Machine/Admission.lean ====
section
/-! DEFINITION. The arbiter's commands: SET_CLASS (R68), ARB_QUERY (R74) and ADMISSION (R63), with the entry a requester
forms (R21, R86 to R90, R132, R134, R146). -/
namespace Sys2Proof.Machine

/-! ## SET_CLASS (R68) -/

/-- SET_CLASS at the arbiter (R68); the response carries the class before. -/
def setClass (p : List Byte) (s : State) : Reply :=
  match p with
  | [r, k] => match readRequester r, idx? 4 k.toNat with
    | some who, some cls => (.ok, u8 (s.arb.classOf who).val, s.setArb (s.arb.setClass who cls))
    | _, _ => (.badValue, [], s)
  | _ => (.badValue, [], s)

def dispatchSetClass (tag : Byte) (p : List Byte) (s : State) : State :=
  s.accept 0x18#8 tag (p.length = 2) .whenReady fun t => t.unlessFailed tag fun u => u.answerWith tag (setClass p)

/-- SET_CLASS. -/
def execSetClass (tag : Byte) (p : List Byte) (s : State) : Out := onFrame 0x18#8 dispatchSetClass tag p s

/-! ## ARB_QUERY (R74) -/

/-- The data of ARB_QUERY: classes, readiness, position and run count of each class, hold owner (R74). -/
def Arbiter.report (a : Arbiter) : List Byte :=
  (List.finRange 7).flatMap (fun i => u8 (getAt a.classes i).val) ++
    (List.finRange 7).flatMap (fun i => u8 (getAt a.readiness i).code) ++
    (List.finRange 4).flatMap (fun k => u8 (a.positionOf k).code ++ u8 (a.runOf k)) ++ ownerByte a.holdOwner

def dispatchArbQuery (tag : Byte) (p : List Byte) (s : State) : State :=
  s.accept 0x19#8 tag (p.length = 0) .whenReady fun t =>
    t.unlessFailed tag fun u => u.answerWith tag fun v => (.ok, v.arb.report, v)

/-- ARB_QUERY. -/
def execArbQuery (tag : Byte) (p : List Byte) (s : State) : Out := onFrame 0x19#8 dispatchArbQuery tag p s

/-! ## Forming an entry (R63, step 2) -/

/-- Where a burst goes: its address, its ring reference, and the state with the ring's reservation made. -/
structure Place where
  addr : Nat
  ref : Option RingRef
  after : State
deriving DecidableEq, Repr

/-- The place of a WRITE: a LINEAR region's base plus the offset, or the ring's back with its reservation (R86, R9). -/
def State.writePlace (r : RegionId) (offset : Nat) (s : State) : Option Place :=
  match (s.region r).record with
  | none => none
  | some d => match d.kind with
    | .linear => some { addr := d.base + offset, ref := none, after := s }
    | .ring g => some { addr := d.base + g.back, ref := some { region := r, offset := g.back },
                        after := s.setRing r (g.reserveWrite d.length) }

/-- The place of a READ: a LINEAR region's base plus the offset, or the ring's front with its reservation (R86, R11). -/
def State.readPlace (r : RegionId) (offset : Nat) (s : State) : Option Place :=
  match (s.region r).record with
  | none => none
  | some d => match d.kind with
    | .linear => some { addr := d.base + offset, ref := none, after := s }
    | .ring g => some { addr := d.base + g.front, ref := some { region := r, offset := g.front },
                        after := s.setRing r (g.reserveRead d.length) }

/-- Whether a WRITE to a region drops a burst (R12). -/
def State.dropsAt (r : RegionId) (s : State) : Bool :=
  match s.ring? r with
  | some (d, g) => g.mustDrop d.length
  | none => false

/-- The entry of a place. -/
def Place.entry (who : Requester) (t : Transfer) (closeAfter : Bool) (p : Place) : BurstEntry where
  owner := .requester who
  transfer := t
  addr := p.addr
  closeAfter := closeAfter
  ringRef := p.ref
  state := .waitingBank

/-- The four bytes of a pattern, least significant first, repeated eight times (R87). -/
def patternBytes (v : BitVec 32) : List Byte := (List.replicate 8 (u32 v.toNat)).flatten

/-- The offset of an endpoint in its region; 0 where it names none. -/
def Descriptor.sourceOffset (d : Descriptor) : Nat :=
  match d.source with
  | .region _ off => off
  | .capture _ => 0
  | .pattern _ => 0

def Descriptor.destOffset (d : Descriptor) : Nat :=
  match d.dest with
  | .region _ off => off
  | .playout _ => 0

def Progress.addAdmitted (p : Progress) : Progress := { p with admitted := p.admitted + 32 }
def Progress.addSource (p : Progress) : Progress := { p with sourceAdmitted := p.sourceAdmitted + 32 }

def Channel.setSlot (slot : CopySlotId) (v : CopySlot) (x : Channel) : Channel :=
  match slot with
  | .a => { x with slotA := v }
  | .b => { x with slotB := v }

def Descriptor.closeAfter (d : Descriptor) : Bool := decide (d.rowPolicy = .closeAfter)

/-- A WRITE of a channel at a stream position, with the data taken from its source (R86, R87, R90). -/
def State.channelWrite (c : ChannelId) (d : Descriptor) (pos : Nat) (data : List Byte) (s : State) :
    Option (BurstEntry × State) :=
  match d.endpointRegion .writer with
  | none => none
  | some r => (s.writePlace r (d.destOffset + pos)).map fun p =>
    (p.entry (.ch c) (.write data) d.closeAfter, p.after.modProg c Progress.addAdmitted)

/-- A READ of a channel at a stream position, with its delivery target and the count it raises (R86, R88, R90). -/
def State.channelRead (c : ChannelId) (d : Descriptor) (pos : Nat) (t : Target) (f : Progress → Progress) (s : State) :
    Option (BurstEntry × State) :=
  match d.endpointRegion .reader with
  | none => none
  | some r => (s.readPlace r (d.sourceOffset + pos)).map fun p =>
    (p.entry (.ch c) (.read t) d.closeAfter, p.after.modProg c f)

/-- The entry a channel forms for a burst, and the state with what it takes from the endpoints (R63, R86 to R90). -/
def State.formChannel (c : ChannelId) (cur : Current) (b : Burst) (s : State) : Option (BurstEntry × State) :=
  match b with
  | .captureWrite p =>
    (s.setCapture p (s.capture p).taken).channelWrite c cur.desc cur.prog.admitted
      ((s.capture p).fifo.take Config.burstBytes)
  | .patternWrite v => s.channelWrite c cur.desc cur.prog.admitted (patternBytes v)
  | .playoutRead p =>
    (s.setPlayout p ((s.playout p).reserve cur.prog.admitted)).channelRead c cur.desc cur.prog.admitted
      (.playout p cur.prog.admitted) Progress.addAdmitted
  | .copyWrite slot pos data =>
    (s.modChannel c (Channel.setSlot slot .empty)).channelWrite c cur.desc pos data
  | .copyRead slot =>
    (s.modChannel c (Channel.setSlot slot (.reserved cur.prog.sourceAdmitted))).channelRead c cur.desc
      cur.prog.sourceAdmitted (.copySlot slot) Progress.addSource

/-- 32 more bytes are admitted for the request in service; `dropped` where a drop made room (R146, R149). -/
def LauService.admitOne (dropped : Bool) (sv : LauService) : LauService :=
  { sv with admitted := sv.admitted + 32, dropped := sv.dropped + (if dropped then 32 else 0) }

/-- The entry the LAU forms (R146). -/
def State.formLau (sv : LauService) (s : State) : Option (BurstEntry × State) :=
  match sv.request.op with
  | .put off data =>
    some ((Place.mk (sv.base + off + sv.admitted) none s).entry .lau
        (.write ((data.drop sv.admitted).take Config.burstBytes)) false, s.setService (sv.admitOne false))
  | .get off _ =>
    some ((Place.mk (sv.base + off + sv.admitted) none s).entry .lau (.read (.lauBuffer sv.admitted)) false,
      s.setService (sv.admitOne false))
  | .append data => (s.writePlace sv.request.region 0).map fun p =>
      (p.entry .lau (.write ((data.drop sv.admitted).take Config.burstBytes)) false,
        p.after.setService (sv.admitOne (s.dropsAt sv.request.region)))
  | .take _ => (s.readPlace sv.request.region 0).map fun p =>
      (p.entry .lau (.read (.lauBuffer sv.admitted)) false, p.after.setService (sv.admitOne false))

/-! ## ADMISSION (R63) -/

/-- Steps 3 to 5 of an admission: the entry joins the burst list, the arbiter's records move, readiness is reported. -/
def State.admitted (e : BurstEntry) (f : Arbiter → Arbiter) (s : State) : State :=
  ((s.setSched (s.sched.admitEntry e)).setArb (f s.arb)).report

/-- A channel's admission. -/
def State.admitChannel (c : ChannelId) (s : State) : State :=
  match (s.channel c).current with
  | none => s
  | some cur => match s.nextBurst c cur with
    | none => s
    | some b => match s.formChannel c cur b with
      | none => s
      | some (e, t) => t.admitted e (Arbiter.afterChannel c cur.desc)

/-- The LAU's admission, where its request has a burst that can be formed now (R65, R146; log entry 15). -/
def State.admitLau (s : State) : State :=
  if s.lauReadiness = .ready then
    match s.lau.service with
    | none => s
    | some sv => match s.formLau sv with
      | none => s
      | some (e, t) => t.admitted e (Arbiter.afterSingle .lau)
  else s

/-- Whether the arbiter may admit: an opportunity (R22, R61), and no RESTART in progress (R62). -/
def State.admissionOpen (s : State) : Bool := s.sched.opportunity && decide (s.link.readiness = .ready)

/-- The requester the arbiter admits now, if any (R61, R67), with fewer than two entries in the list (R22). -/
def State.chosen (s : State) : Option Requester :=
  if s.admissionOpen then s.arb.choose.filter fun r => s.entriesOf r < Config.requesterPlaces else none

/-- ADMISSION (R61, R63). -/
def execAdmission (s : State) : Out :=
  .next (match s.chosen with
    | none => s
    | some (.ch c) => s.admitChannel c
    | some .lau => s.admitLau)

end Sys2Proof.Machine
end

