-- ==== Sys2Proof/Machine/Channels.lean ====
section
/-! DEFINITION. The channels' requests: ENQUEUE (R78, R79), CHANNEL_STOP (R102 to R109), CHANNEL_RESUME (R111),
CHANNEL_QUERY (R100). In FAILED each is refused with DRAM_FAULT (R55). -/
namespace Sys2Proof.Machine

/-! ## ENQUEUE -/

/-- The REGION endpoints of a descriptor with their offsets, source first. -/
def Descriptor.endpoints (d : Descriptor) : List (RegionId × Nat) :=
  (match d.source with
    | .region r off => [(r, off)]
    | .capture _ => []
    | .pattern _ => []) ++
  (match d.dest with
    | .region r off => [(r, off)]
    | .playout _ => [])

/-- Check 3: the region is DEFINED. -/
def State.isDefined (r : RegionId) (s : State) : Bool := (s.region r).record.isSome

/-- Check 4: the offset of a RING endpoint is 0. -/
def State.ringOffsetOk (e : RegionId × Nat) (s : State) : Bool := (s.ring? e.1).isNone || e.2 = 0

/-- Check 4: a RING region named as both source and destination. -/
def Descriptor.sameRing (d : Descriptor) (s : State) : Bool :=
  match d.endpointRegion .reader, d.endpointRegion .writer with
  | some a, some b => decide (a = b) && (s.ring? a).isSome
  | _, _ => false

/-- Check 5: the offset of a LINEAR endpoint is a multiple of 32. -/
def State.linearAligned (e : RegionId × Nat) (s : State) : Bool := (s.ring? e.1).isSome || e.2 % 32 = 0

/-- Check 6: a run of a LINEAR endpoint stays in the region. -/
def State.linearInside (length : Nat) (e : RegionId × Nat) (s : State) : Bool :=
  match (s.region e.1).record with
  | none => false
  | some r => match r.kind with
    | .linear => e.2 + length ≤ r.length
    | .ring _ => true

/-- The first byte address of a LINEAR endpoint. -/
def State.linearStart (e : RegionId × Nat) (s : State) : Option Nat :=
  match (s.region e.1).record with
  | none => none
  | some r => match r.kind with
    | .linear => some (r.base + e.2)
    | .ring _ => none

/-- Check 7: the bytes of a copy between LINEAR endpoints meet. -/
def Descriptor.copyOverlaps (d : Descriptor) (s : State) : Bool :=
  match d.endpoints with
  | [a, b] => match s.linearStart a, s.linearStart b with
    | some x, some y => x < y + d.length && y < x + d.length
    | _, _ => false
  | _ => false

/-- Check 8: the ports named are bound to the channel. -/
def Descriptor.portsBound (c : ChannelId) (d : Descriptor) (s : State) : Bool :=
  (match d.source with
    | .capture p => decide ((s.capture p).binding = some c)
    | .region _ _ => true
    | .pattern _ => true) &&
  (match d.dest with
    | .playout p => decide ((s.playout p).binding = some c)
    | .region _ _ => true)

/-- Checks 2 to 9 of ENQUEUE, in order (R78). -/
def enqueueCheck (c : ChannelId) (d : Descriptor) (s : State) : Option Status :=
  if d.endpoints.isEmpty then some .badValue
  else if !(d.endpoints.all fun e => s.isDefined e.1) then some .noRegion
  else if !(d.endpoints.all fun e => s.ringOffsetOk e) || d.sameRing s then some .badValue
  else if !(d.endpoints.all fun e => s.linearAligned e) then some .alignment
  else if !(d.endpoints.all fun e => s.linearInside d.length e) then some .outOfBounds
  else if d.copyOverlaps s then some .overlap
  else if !d.portsBound c s then some .portNotBound
  else if (s.channel c).state ≠ .idle && Config.pendingPlaces ≤ (s.channel c).pending.length then some .queueFull
  else none

/-- A descriptor is accepted: references raised, at the tail of the queue, and promoted at once in IDLE (R79). -/
def State.acceptDescriptor (c : ChannelId) (d : Descriptor) (s : State) : State :=
  let t := (s.addRefs d).modChannel c fun x => { x with pending := x.pending ++ [d] }
  (if (t.channel c).state = .idle then t.promote c else t).reportAll

/-- ENQUEUE at the channel (R78, R79); the response carries the descriptors then pending. -/
def enqueue (p : List Byte) (s : State) : Reply :=
  match readEnqueue p with
  | none => (.badValue, [], s)
  | some (c, d) => match enqueueCheck c d s with
    | some st => (st, [], s)
    | none => (.ok, u8 ((s.acceptDescriptor c d).channel c).pending.length, s.acceptDescriptor c d)

def dispatchEnqueue (tag : Byte) (p : List Byte) (s : State) : State :=
  s.accept 0x20#8 tag (p.length = 28) .whenReady fun t => t.unlessFailed tag fun u => u.answerWith tag (enqueue p)

/-- ENQUEUE. -/
def execEnqueue (tag : Byte) (p : List Byte) (s : State) : Out := onFrame 0x20#8 dispatchEnqueue tag p s

/-! ## CHANNEL_STOP -/

def State.setStop (c : ChannelId) (r : StopRequest) (s : State) : State := s.modChannel c fun x => { x with stop := r }

/-- The channel is HALTED with reason STOPPED, and its stop request none (R101). -/
def State.haltStopped (c : ChannelId) (s : State) : State :=
  s.modChannel c fun x => { x with state := .halted .stopped, stop := .none }

/-- AFTER_CURRENT (R103). -/
def State.stopAfterCurrent (c : ChannelId) (s : State) : State :=
  match (s.channel c).state with
  | .idle => s.haltStopped c
  | .running => if (s.channel c).stop = .none then s.setStop c .afterCurrent else s
  | .waiting _ => s.setStop c .afterCurrent
  | .stopping => s
  | .halted _ => s

/-- The last-burst test (R104). -/
def Current.lastBurst (x : Current) : Bool :=
  decide (x.prog.admitted = x.desc.length) && decide (x.desc.runs ≠ Config.endless) &&
    decide (x.prog.runsCompleted + 1 = x.desc.runs)

/-- The channel enters STOPPING, and retires at once where it holds no entry (R105). -/
def State.enterStopping (c : ChannelId) (r : StopRequest) (s : State) : State :=
  (s.modChannel c fun x => { x with state := .stopping, stop := r }).afterCompletion c

/-- NOW or FLUSH in RUNNING: the last-burst test, and STOPPING where it fails (R104, R105, R109). -/
def State.stopRunning (c : ChannelId) (r : StopRequest) (s : State) : State :=
  match (s.channel c).current with
  | none => s
  | some cur => if cur.lastBurst then s.setStop c r else s.enterStopping c r

/-- A WAITING channel leaves the list it is on (R107). -/
def State.leaveWait (c : ChannelId) (why : WaitReason) (s : State) : State :=
  match why with
  | .claim => (s.leaveClaimList .reader c).leaveClaimList .writer c
  | .mark => match (s.channel c).current with
    | none => s
    | some cur => match cur.desc.wait with
      | none => s
      | some w => s.leaveMark w.mark c

/-- The end of a wait by NOW or FLUSH: ABORTED with 0 bytes (R107). -/
def State.abortWait (c : ChannelId) (why : WaitReason) (s : State) : State := (s.leaveWait c why).retire c .aborted

/-- NOW (R104, R107, R108). -/
def State.stopNow (c : ChannelId) (s : State) : State :=
  match (s.channel c).state with
  | .idle => s.haltStopped c
  | .waiting why => (s.abortWait c why).haltStopped c
  | .running =>
    if (s.channel c).stop = .now || (s.channel c).stop = .flush then s else s.stopRunning c .now
  | .stopping => s
  | .halted _ => s

/-- The channel is IDLE with no stop request. -/
def State.becomeIdle (c : ChannelId) (s : State) : State :=
  s.modChannel c fun x => { x with state := .idle, stop := .none }

/-- FLUSH (R109). -/
def State.stopFlush (c : ChannelId) (s : State) : State :=
  match (s.channel c).state with
  | .idle => s
  | .waiting why => ((s.abortWait c why).discardPending c).becomeIdle c
  | .running => (s.discardPending c).stopRunning c .flush
  | .stopping => (s.discardPending c).setStop c .flush
  | .halted _ =>
    if (s.channel c).current.isSome then s.discardPending c else (s.discardPending c).becomeIdle c

/-- CHANNEL_STOP's effect by its mode (R102). -/
def State.stopChannel (c : ChannelId) (m : StopRequest) (s : State) : State :=
  match m with
  | .none => s
  | .afterCurrent => s.stopAfterCurrent c
  | .now => s.stopNow c
  | .flush => s.stopFlush c

/-- How many pending descriptors a CHANNEL_STOP discards (R102, R109). -/
def Channel.discards (m : StopRequest) (x : Channel) : Nat := if m = .flush then x.pending.length else 0

/-- CHANNEL_STOP at the channel (R102): the state after, and the number discarded. -/
def channelStop (p : List Byte) (s : State) : Reply :=
  match p with
  | [b, m] => match idx? 6 b.toNat, readStopMode m with
    | some c, some mode =>
      (.ok, u8 ((s.stopChannel c mode).channel c).state.code ++ u8 ((s.channel c).discards mode),
        (s.stopChannel c mode).reportAll)
    | _, _ => (.badValue, [], s)
  | _ => (.badValue, [], s)

def dispatchChannelStop (tag : Byte) (p : List Byte) (s : State) : State :=
  s.accept 0x21#8 tag (p.length = 2) .whenReady fun t => t.unlessFailed tag fun u => u.answerWith tag (channelStop p)

/-- CHANNEL_STOP. -/
def execChannelStop (tag : Byte) (p : List Byte) (s : State) : Out := onFrame 0x21#8 dispatchChannelStop tag p s

/-! ## CHANNEL_RESUME (R111) -/

/-- Whether a channel is HALTED with no current descriptor. -/
def Channel.resumable (x : Channel) : Bool :=
  match x.state with
  | .halted _ => x.current.isNone
  | .idle => false
  | .waiting _ => false
  | .running => false
  | .stopping => false

/-- The halt reason is cleared, and the head of the queue, if any, is promoted (R111). -/
def State.resume (c : ChannelId) (s : State) : State :=
  (s.modChannel c fun x => { x with state := .idle }).promote c

/-- A request whose payload is one channel number: BAD_VALUE for a number outside 0 to 5. -/
def onChannel (p : List Byte) (f : ChannelId → State → Reply) (s : State) : Reply :=
  match p with
  | [b] => match idx? 6 b.toNat with
    | some c => f c s
    | none => (.badValue, [], s)
  | _ => (.badValue, [], s)

/-- CHANNEL_RESUME at the channel (R111). -/
def channelResume (c : ChannelId) (s : State) : Reply :=
  if (s.channel c).resumable then (.ok, u8 ((s.resume c).channel c).state.code, (s.resume c).reportAll)
  else (.wrongState, [], s)

def dispatchChannelResume (tag : Byte) (p : List Byte) (s : State) : State :=
  s.accept 0x22#8 tag (p.length = 1) .whenReady fun t =>
    t.unlessFailed tag fun u => u.answerWith tag (onChannel p channelResume)

/-- CHANNEL_RESUME. -/
def execChannelResume (tag : Byte) (p : List Byte) (s : State) : Out := onFrame 0x22#8 dispatchChannelResume tag p s

/-! ## CHANNEL_QUERY (R100) -/

def ChannelState.waitReason? : ChannelState → Option WaitReason
  | .waiting why => some why
  | .idle => none
  | .running => none
  | .stopping => none
  | .halted _ => none

def ChannelState.haltReason? : ChannelState → Option HaltReason
  | .halted why => some why
  | .idle => none
  | .waiting _ => none
  | .running => none
  | .stopping => none

/-- A channel's place on a waiter list, 1 for the oldest. -/
def Mark.placeOf (c : ChannelId) (k : Mark) : Nat := (k.waiters.findIdx fun w => w.channel = c) + 1

/-- The mark a channel WAITING with reason MARK waits on, and its place (R100). -/
def State.markWait? (c : ChannelId) (s : State) : Option (MarkId × Nat) :=
  if (s.channel c).state = .waiting .mark then
    ((s.channel c).current.bind fun cur => cur.desc.wait).map fun w => (w.mark, (s.mark w.mark).placeOf c)
  else none

/-- The region and role a channel WAITING with reason CLAIM waits for (R100). -/
def State.claimWait? (c : ChannelId) (s : State) : Option (RegionId × Role) :=
  if (s.channel c).state = .waiting .claim then
    [Role.reader, Role.writer].findSome? fun role =>
      match s.roleRing role c with
      | none => none
      | some (r, g) => if (g.waiters role).contains c then some (r, role) else none
  else none

/-- The current descriptor's part of CHANNEL_QUERY: tag, the three byte counts, runs completed, fault flag. -/
def Current.report (x : Current) : List Byte :=
  u16 x.desc.tag.toNat ++ u32 x.prog.sourceAdmitted ++ u32 x.prog.admitted ++ u32 x.prog.done ++
    u16 x.prog.runsCompleted ++ flagByte x.prog.fault

/-- The data of CHANNEL_QUERY (R100, log entry 9). -/
def State.channelReport (c : ChannelId) (s : State) : List Byte :=
  u8 (s.channel c).state.code ++ indicated 1 (fun w => u8 w.code) (s.channel c).state.waitReason? ++
    indicated 2 (fun w => u8 w.1.val ++ u8 w.2) (s.markWait? c) ++
    indicated 2 (fun w => u8 w.1.val ++ u8 w.2.code) (s.claimWait? c) ++
    indicated 1 (fun w => u8 w.code) (s.channel c).state.haltReason? ++ u8 (s.channel c).stop.code ++
    indicated 17 Current.report (s.channel c).current ++ u8 (s.entriesOf (.ch c)) ++
    u8 (s.channel c).slotA.code ++ u8 (s.channel c).slotB.code ++ u8 (s.channel c).pending.length ++
    (s.channel c).pending.flatMap fun d => u16 d.tag.toNat

/-- CHANNEL_QUERY at the channel (R100). -/
def channelQuery (c : ChannelId) (s : State) : Reply := (.ok, s.channelReport c, s)

def dispatchChannelQuery (tag : Byte) (p : List Byte) (s : State) : State :=
  s.accept 0x23#8 tag (p.length = 1) .whenReady fun t =>
    t.unlessFailed tag fun u => u.answerWith tag (onChannel p channelQuery)

/-- CHANNEL_QUERY. -/
def execChannelQuery (tag : Byte) (p : List Byte) (s : State) : Out := onFrame 0x23#8 dispatchChannelQuery tag p s

end Sys2Proof.Machine
end

