-- ==== Sys2Proof/Machine/Completion.lean ====
section
/-! DEFINITION. ACCESS_COMPLETION: the scheduler's records (R34, R36), the die and the check unit (R56 to R58), the region
table (R10, R13, R14), the requester (R91, R92, R112, R113, R147 to R151), and the clear sweep (R52, R54). -/
namespace Sys2Proof.Machine

/-! ## The scheduler's records (R34) -/

/-- The entry being accessed. -/
def Scheduler.accessing? (d : Scheduler) : Option BurstEntry := d.list.find? fun e => e.state = .accessing

/-- The accessing entry leaves the list. -/
def dropAccessing : List BurstEntry → List BurstEntry
  | [] => []
  | e :: rest => if e.state = .accessing then rest else e :: dropAccessing rest

/-- The bank's activity and write recovery at a completion (R34, steps 1 and 2). -/
def Bank.accessed (now : Nat) (write : Bool) : Bank → Bank
  | .opened o => .opened { o with lastActivity := now,
                                  recoveryEnd := if write then some (now + Config.recoveryNs) else none }
  | .closed => .closed
  | .opening r t => .opening r t
  | .closing t => .closing t

/-- The close-after mark is set (R36). -/
def Bank.marked : Bank → Bank
  | .opened o => .opened { o with closeAfterMark := true }
  | .closed => .closed
  | .opening r t => .opening r t
  | .closing t => .closing t

/-- Whether a bank's head addresses the row it is OPEN on. -/
def Scheduler.headOnOpenRow (b : BankId) (d : Scheduler) : Bool :=
  match d.head? b with
  | none => false
  | some e => (d.bank b).isOpenOn e.row

/-- A close-after entry has left the list (R34 step 5, R36). -/
def Scheduler.applyCloseAfter (e : BurstEntry) (d : Scheduler) : Scheduler :=
  if e.closeAfter && !d.headOnOpenRow e.bank then d.setBank e.bank (d.bank e.bank).marked else d

/-- The scheduler's records at an access completion (R34). -/
def Scheduler.completeAccess (e : BurstEntry) (now : Nat) (d : Scheduler) : Scheduler :=
  ({ d.setBank e.bank ((d.bank e.bank).accessed now e.isWrite) with
      list := dropAccessing d.list, accessStart := none }.applyCloseAfter e).settle

/-! ## The die and the check unit (R56 to R58) -/

/-- The outcome of a READ, with the data delivered (R57). -/
inductive ReadOutcome where
  | good (data : List Byte)
  | corrected (data : List Byte)
  | uncorrectable
deriving DecidableEq, Repr

def ReadOutcome.data? : ReadOutcome → Option (List Byte)
  | .good d => some d
  | .corrected d => some d
  | .uncorrectable => none

/-- How many bits of a burst and its code are wrong. -/
def wrongCount (m : BurstBits) : Nat := (List.range 272).countP fun i => m.getLsbD i

/-- The bits with one more wrong, or right again. -/
def flipBit (m : BurstBits) (bit : Fin 272) : BurstBits := m ^^^ (1#272 <<< bit.val)

/-- The outcome where three or more bits are wrong: the check code's own (R57, log entry 6). -/
def wideOutcome (written : List Byte) (m : BurstBits) : ReadOutcome :=
  match Config.wideErrorOutcome written m with
  | .detected => .uncorrectable
  | .agrees => .good (flipBytes m 0 written)
  | .looksSingle bit => .corrected (flipBytes (flipBit m bit) 0 written)

/-- The outcome of reading a burst of which these bytes were written and these bits are wrong now (R57). -/
def readOutcome (written : List Byte) (m : BurstBits) : ReadOutcome :=
  if wrongCount m = 0 then .good written
  else if wrongCount m = 1 then .corrected written
  else if wrongCount m = 2 then .uncorrectable
  else wideOutcome written m

/-- The wrong bits of a burst, once those that have changed since its last access are counted in. -/
def State.wrongAt (a : Nat) (flips : BurstBits) (s : State) : BurstBits := lookup 0#272 s.wrongBits a ^^^ flips

/-- A WRITE stores the 32 bytes and their code (R56). -/
def State.dieWrite (a : Nat) (data : List Byte) (s : State) : State :=
  (s.setMem (writeBytes s.mem a data)).setWrongBits (store 0#272 s.wrongBits a 0#272)

/-- A READ leaves the burst with the error it has (R57). -/
def State.dieRead (a : Nat) (flips : BurstBits) (s : State) : State :=
  s.setWrongBits (store 0#272 s.wrongBits a (s.wrongAt a flips))

/-- The outcome of a READ of a burst. -/
def State.outcomeAt (a : Nat) (flips : BurstBits) (s : State) : ReadOutcome :=
  readOutcome (readBytes s.mem a Config.burstBytes) (s.wrongAt a flips)

def CheckUnit.countCorrected (c : CheckUnit) : CheckUnit :=
  { c with corrected := satAdd Config.max32 1 c.corrected }

def CheckUnit.countUncorrectable (a : Nat) (c : CheckUnit) : CheckUnit :=
  { c with uncorrectable := satAdd Config.max32 1 c.uncorrectable, lastUncorrectable := some a }

/-- CHECK_FAULT names the entry's requester (R58); a READ always has one. -/
def State.postCheckFault (a : Nat) (o : EntryOwner) (s : State) : State :=
  match o with
  | .requester r => s.post (.checkFault a r)
  | .scheduler => s

/-- The check unit counts the outcome of a READ (R57, R58). -/
def State.countOutcome (a : Nat) (o : EntryOwner) (out : ReadOutcome) (s : State) : State :=
  match out with
  | .good _ => s
  | .corrected _ => s.setCheck s.check.countCorrected
  | .uncorrectable => (s.setCheck (s.check.countUncorrectable a)).postCheckFault a o

/-! ## The region table (R35, step 2) -/

/-- A ring write completes: commits, and the high-water test where fill rose (R10, R15). -/
def State.ringWriteDone (ref : RingRef) (s : State) : State :=
  match s.ring? ref.region with
  | none => s
  | some (_, g) =>
    if g.committing ref.offset = 0 then s.setRing ref.region (g.commit ref.offset)
    else s.ringRose ref.region (g.commit ref.offset)

/-- The bytes a write completion commits at its destination: 32 for a LINEAR region, what the ring commits for a ring
(R91, R10). -/
def State.committedBy (ref : Option RingRef) (s : State) : Nat :=
  match ref with
  | none => 32
  | some r => match s.ring? r.region with
    | none => 0
    | some (_, g) => 32 * g.committing r.offset

/-- Whether a completed ring read is given back: it is asked for, and the burst lies just behind front (R14). -/
def State.givesBack (ref : RingRef) (ask : Bool) (s : State) : Bool :=
  match s.ring? ref.region with
  | none => false
  | some (d, g) => ask && g.canGiveBack d.length ref.offset

/-- A ring read completes: consumed, or given back (R13, R14). -/
def State.ringReadDone (ref : RingRef) (back : Bool) (s : State) : State :=
  match s.ring? ref.region with
  | none => s
  | some (_, g) =>
    if back then s.ringRose ref.region (g.giveBack ref.offset) else s.setRing ref.region g.consume

def State.onRef (ref : Option RingRef) (f : RingRef → State → State) (s : State) : State :=
  match ref with
  | none => s
  | some r => f r s

/-! ## The requester (R35, step 3) -/

def Progress.addDone (n : Nat) (p : Progress) : Progress := { p with done := p.done + n }

/-- The RESERVED slot of a READ becomes FULL (R89, R92). -/
def Channel.fillSlot (slot : CopySlotId) (data : List Byte) (x : Channel) : Channel :=
  match slot, x.slotA, x.slotB with
  | .a, .reserved pos, _ => { x with slotA := .full pos data }
  | .b, _, .reserved pos => { x with slotB := .full pos data }
  | _, _, _ => x

/-- Good data of a channel's READ is placed at its target (R92). -/
def State.deliver (c : ChannelId) (t : Target) (data : List Byte) (s : State) : State :=
  match t with
  | .copySlot slot => s.modChannel c (Channel.fillSlot slot data)
  | .playout p pos =>
    (s.setPlayout p ((s.playout p).delivered pos data)).modProg c
      (Progress.addDone ((s.playout p).appended pos data))
  | .lauBuffer _ => s

/-- A channel's WRITE has completed, with the bytes committed (R91, R113). -/
def State.channelWriteDone (c : ChannelId) (n : Nat) (s : State) : State :=
  (s.modProg c (Progress.addDone n)).afterCompletion c

/-- Whether a channel can fault: RUNNING or STOPPING (R112). -/
def ChannelState.active : ChannelState → Bool
  | .running => true
  | .stopping => true
  | .idle => false
  | .waiting _ => false
  | .halted _ => false

/-- A channel's READ has completed (R92, R112, R113): a faulted channel discards what it brings. -/
def State.channelReadDone (c : ChannelId) (t : Target) (out : ReadOutcome) (s : State) : State :=
  match (s.channel c).current with
  | none => s
  | some cur =>
    if cur.prog.fault then s.afterCompletion c
    else match out.data? with
      | some data => (s.deliver c t data).afterCompletion c
      | none => if (s.channel c).state.active then s.channelFault c cur else s.afterCompletion c

/-- The offset a READ of the LAU reports at a failure: the ring offset, or the offset in the LINEAR region. -/
def lauOffset (sv : LauService) (e : BurstEntry) : Nat :=
  match e.ringRef with
  | some r => r.offset
  | none => e.addr - sv.base

/-- The LAU's READ has completed (R148, R150, R151). -/
def State.lauReadDone (e : BurstEntry) (pos : Nat) (out : ReadOutcome) (back : Bool) (s : State) : State :=
  match s.lau.service with
  | none => s
  | some sv => match sv.request.op with
    | .get _ _ => s.lauGetDone pos (lauOffset sv e) out.data?
    | .take _ => s.lauTakeDone pos (lauOffset sv e) out.data? back
    | .put _ _ => s
    | .append _ => s

/-- Bring-up ends (R54). -/
def State.endBringup (s : State) : State :=
  ((s.setSched { s.sched with mode := .normal, stage := none }).post (.ready .powerOn)).becomeReady

/-- A sweep entry has completed: the next is admitted, or bring-up ends (R52, R54). -/
def State.sweepDone (addr : Nat) (s : State) : State :=
  if addr = Config.lastBurst then s.endBringup else s.setSched s.sched.sweepAdmit

/-- A WRITE's report to its requester, with the bytes committed. -/
def State.reportWrite (o : EntryOwner) (addr n : Nat) (s : State) : State :=
  match o with
  | .scheduler => s.sweepDone addr
  | .requester (.ch c) => s.channelWriteDone c n
  | .requester .lau => s.lauWriteDone n

/-- A READ's report to its requester. -/
def State.reportRead (e : BurstEntry) (t : Target) (out : ReadOutcome) (back : Bool) (s : State) : State :=
  match e.owner, t with
  | .requester (.ch c), t => s.channelReadDone c t out
  | .requester .lau, .lauBuffer pos => s.lauReadDone e pos out back
  | _, _ => s

/-- A WRITE completes: check unit, region table, requester, in this order (R35). -/
def State.writeCompletes (e : BurstEntry) (data : List Byte) (s : State) : State :=
  let t := s.dieWrite e.addr data
  (t.onRef e.ringRef State.ringWriteDone).reportWrite e.owner e.addr (t.committedBy e.ringRef)

/-- Whether the requester asks for a give-back at this completion (R14, R151). -/
def State.asksBack (e : BurstEntry) (t : Target) (good : Bool) (s : State) : Bool :=
  match e.owner, t with
  | .requester .lau, .lauBuffer pos => s.lauAsksBack pos good
  | _, _ => false

/-- A READ completes: check unit, region table, requester, in this order (R35). -/
def State.readCompletes (e : BurstEntry) (t : Target) (flips : BurstBits) (s : State) : State :=
  let out := s.outcomeAt e.addr flips
  let u := (s.dieRead e.addr flips).countOutcome e.addr e.owner out
  let ask := u.asksBack e t out.data?.isSome
  let back := match e.ringRef with
    | some r => u.givesBack r ask
    | none => false
  (u.onRef e.ringRef fun r v => v.ringReadDone r back).reportRead e t out back

/-- An access completion, the entry and its start known (R34, R35, R47). -/
def State.completeAccess (e : BurstEntry) (start : Nat) (flips : BurstBits) (s : State) : State :=
  let t := s.clockTo (start + Config.accessNs)
  let u := t.setSched (t.sched.completeAccess e t.now)
  let v := match e.transfer with
    | .write data => u.writeCompletes e data
    | .read target => u.readCompletes e target flips
  (v.setSched v.sched.testLazy).report

/-- ACCESS_COMPLETION (R34). -/
def execAccessCompletion (flips : BurstBits) (s : State) : Out :=
  match s.sched.accessStart, s.sched.accessing? with
  | some start, some e =>
    if isBurst e.addr then .next (s.completeAccess e start flips) else .fault (.noSuchBurst e.addr)
  | _, _ => .next s

end Sys2Proof.Machine
end

