-- ==== Sys2Proof/Machine/Lau.lean ====
section
/-! DEFINITION. The LAU's requests: PUT (R147), GET (R148), APPEND (R149), TAKE (R150). Acceptance (R144) is here, service
in LauService.lean. In FAILED each is refused with DRAM_FAULT (R55). -/
namespace Sys2Proof.Machine

/-- Checks 1 to 3 of acceptance (R144); PUT and GET have an offset to check. -/
def lauAcceptance (region length : Nat) (offset : Option Nat) : Option Status :=
  if 16 ≤ region then some .badValue
  else if length < 32 || 256 < length || length % 32 ≠ 0 then some .badValue
  else if (offset.getD 0) % 32 ≠ 0 then some .alignment
  else none

/-- A request that passes acceptance is queued, and answered later; one that fails is answered at once (R144). -/
def State.lauTake (tag : Byte) (region length : Nat) (offset : Option Nat) (op : LauOp) (s : State) : State :=
  match lauAcceptance region length offset, idx? 16 region with
  | none, some r => (s.lauEnqueue { tag := tag, region := r, op := op }).report
  | some st, _ => s.handOver tag st []
  | none, none => s.handOver tag .badValue []

/-- PUT at the LAU. -/
def lauPut (tag : Byte) (p : List Byte) (s : State) : State :=
  match readPut p with
  | some (r, off, len, data) => s.lauTake tag r len (some off) (.put off data)
  | none => s.handOver tag .badValue []

/-- The length check of PUT: the fixed fields and as many data bytes as its length field states (R170). -/
def putLengthOk (p : List Byte) : Bool :=
  match readPut p with
  | some (_, _, len, data) => data.length = len
  | none => false

def dispatchPut (tag : Byte) (p : List Byte) (s : State) : State :=
  s.accept 0x30#8 tag (putLengthOk p) .whenReady fun t => t.unlessFailed tag (lauPut tag p)

/-- PUT. -/
def execPut (tag : Byte) (p : List Byte) (s : State) : Out := onFrame 0x30#8 dispatchPut tag p s

/-- GET at the LAU. -/
def lauGet (tag : Byte) (p : List Byte) (s : State) : State :=
  match readGet p with
  | some (r, off, len) => s.lauTake tag r len (some off) (.get off len)
  | none => s.handOver tag .badValue []

def dispatchGet (tag : Byte) (p : List Byte) (s : State) : State :=
  s.accept 0x31#8 tag (p.length = 7) .whenReady fun t => t.unlessFailed tag (lauGet tag p)

/-- GET. -/
def execGet (tag : Byte) (p : List Byte) (s : State) : Out := onFrame 0x31#8 dispatchGet tag p s

/-- APPEND at the LAU. -/
def lauAppend (tag : Byte) (p : List Byte) (s : State) : State :=
  match readAppend p with
  | some (r, len, data) => s.lauTake tag r len none (.append data)
  | none => s.handOver tag .badValue []

/-- The length check of APPEND (R170). -/
def appendLengthOk (p : List Byte) : Bool :=
  match readAppend p with
  | some (_, len, data) => data.length = len
  | none => false

def dispatchAppend (tag : Byte) (p : List Byte) (s : State) : State :=
  s.accept 0x32#8 tag (appendLengthOk p) .whenReady fun t => t.unlessFailed tag (lauAppend tag p)

/-- APPEND. -/
def execAppend (tag : Byte) (p : List Byte) (s : State) : Out := onFrame 0x32#8 dispatchAppend tag p s

/-- TAKE at the LAU. -/
def lauTakeRequest (tag : Byte) (p : List Byte) (s : State) : State :=
  match readTake p with
  | some (r, n) => s.lauTake tag r n none (.take n)
  | none => s.handOver tag .badValue []

def dispatchTake (tag : Byte) (p : List Byte) (s : State) : State :=
  s.accept 0x33#8 tag (p.length = 3) .whenReady fun t => t.unlessFailed tag (lauTakeRequest tag p)

/-- TAKE. -/
def execTake (tag : Byte) (p : List Byte) (s : State) : Out := onFrame 0x33#8 dispatchTake tag p s

end Sys2Proof.Machine
end

