-- ==== Sys2Proof/Machine/Marks.lean ====
section
/-! DEFINITION. The mark table's requests: MARK_SET (R123), MARK_ADD (R124), MARK_QUERY (R125). In FAILED each is refused
with DRAM_FAULT (R55). -/
namespace Sys2Proof.Machine

/-- The mark MARK_SET makes, before serving (R123). -/
def Mark.assigned (v : Nat) (k : Mark) : Mark := { k with value := v, saturated := false }

/-- MARK_SET at the mark table (R123): the value before, the value after serving, the number satisfied. -/
def markSet (p : List Byte) (s : State) : Reply :=
  match p with
  | [b, v] => match idx? 16 b.toNat with
    | some m =>
      (.ok, u8 (s.mark m).value ++ u8 ((s.mark m).assigned v.toNat).served.value ++
          u8 ((s.mark m).assigned v.toNat).satisfied.length,
        ((s.setMark m ((s.mark m).assigned v.toNat)).serveMark m).reportAll)
    | none => (.badValue, [], s)
  | _ => (.badValue, [], s)

def dispatchMarkSet (tag : Byte) (p : List Byte) (s : State) : State :=
  s.accept 0x24#8 tag (p.length = 2) .whenReady fun t => t.unlessFailed tag fun u => u.answerWith tag (markSet p)

/-- MARK_SET. -/
def execMarkSet (tag : Byte) (p : List Byte) (s : State) : Out := onFrame 0x24#8 dispatchMarkSet tag p s

/-- MARK_ADD at the mark table (R124): the value after serving, the saturated flag, the number satisfied. -/
def markAdd (p : List Byte) (s : State) : Reply :=
  match p with
  | [b, k] => match idx? 16 b.toNat with
    | some m =>
      if k = 0#8 then (.badValue, [], s)
      else
        (.ok, u8 ((s.mark m).raised k.toNat).served.value ++ flagByte ((s.mark m).raised k.toNat).saturated ++
            u8 ((s.mark m).raised k.toNat).satisfied.length,
          (s.addMark m k.toNat).reportAll)
    | none => (.badValue, [], s)
  | _ => (.badValue, [], s)

def dispatchMarkAdd (tag : Byte) (p : List Byte) (s : State) : State :=
  s.accept 0x25#8 tag (p.length = 2) .whenReady fun t => t.unlessFailed tag fun u => u.answerWith tag (markAdd p)

/-- MARK_ADD. -/
def execMarkAdd (tag : Byte) (p : List Byte) (s : State) : Out := onFrame 0x25#8 dispatchMarkAdd tag p s

/-- One mark's part of MARK_QUERY (R125). -/
def Mark.report (k : Mark) : List Byte :=
  u8 k.value ++ flagByte k.saturated ++ u8 k.waiters.length ++
    indicated 2 (fun w => u8 w.channel.val ++ u8 w.count) k.waiters.head?

def dispatchMarkQuery (tag : Byte) (p : List Byte) (s : State) : State :=
  s.accept 0x26#8 tag (p.length = 0) .whenReady fun t =>
    t.unlessFailed tag fun u => u.answerWith tag fun v => (.ok, v.marks.toList.flatMap Mark.report, v)

/-- MARK_QUERY. -/
def execMarkQuery (tag : Byte) (p : List Byte) (s : State) : Out := onFrame 0x26#8 dispatchMarkQuery tag p s

end Sys2Proof.Machine
end

