-- ==== Sys2Proof/Machine/Notices.lean ====
section
/-! DEFINITION. The notice queue's requests: NOTICE_ACK (R162, R158), NOTICE_REPLAY (R161). Both are taken in every
readiness and in FAILED (R173, R55). -/
namespace Sys2Proof.Machine

/-- The place of a held sequence number, 0 for the oldest notice. -/
def NoticeQueue.placeOf (seq : Byte) (q : NoticeQueue) : Option Nat := q.held.findIdx? fun n => n.seq = seq

/-- The notices up to and including a place are removed (R162). -/
def NoticeQueue.removeThrough (k : Nat) (q : NoticeQueue) : NoticeQueue :=
  { q with held := q.held.drop (k + 1), sendPos := q.sendPos - (k + 1) }

/-- NOTICES_LOST is queued where notices have been lost (R158). -/
def NoticeQueue.reportLost (q : NoticeQueue) : NoticeQueue :=
  if q.lost = 0 then q else { q.join (.noticesLost q.lost) with lost := 0 }

/-- NOTICE_ACK at the notice queue (R162). NOT_HELD with an empty queue carries a sequence number byte of 0 after the
clear indication: the model's choice, log entry 21. -/
def noticeAck (p : List Byte) (s : State) : Reply :=
  match p with
  | [seq] => match s.notices.placeOf seq with
    | none => (.notHeld, u8 s.notices.held.length ++ indicated 1 (fun n => [n.seq]) s.notices.held.head?, s)
    | some k =>
      (.ok, u8 (k + 1) ++ u8 (s.notices.removeThrough k).reportLost.held.length,
        s.setNotices (s.notices.removeThrough k).reportLost)
  | _ => (.badValue, [], s)

def dispatchNoticeAck (tag : Byte) (p : List Byte) (s : State) : State :=
  s.accept 0x08#8 tag (p.length = 1) .always fun t => t.answerWith tag (noticeAck p)

/-- NOTICE_ACK. -/
def execNoticeAck (tag : Byte) (p : List Byte) (s : State) : Out := onFrame 0x08#8 dispatchNoticeAck tag p s

/-- The send position moves back to a place, never forward (R161). -/
def NoticeQueue.rewind (k : Nat) (q : NoticeQueue) : NoticeQueue := { q with sendPos := min k q.sendPos }

/-- The data of NOTICE_REPLAY: the send position, and the notices from it to the tail (R161). -/
def NoticeQueue.replayReport (q : NoticeQueue) : List Byte :=
  indicated 1 (fun n => [n.seq]) q.held[q.sendPos]? ++ u8 (q.held.length - q.sendPos)

/-- NOTICE_REPLAY at the notice queue (R161). -/
def noticeReplay (p : List Byte) (s : State) : Reply :=
  match p with
  | [seq] => match s.notices.placeOf seq with
    | none => (.notHeld, [], s)
    | some k => (.ok, (s.notices.rewind k).replayReport, s.setNotices (s.notices.rewind k))
  | _ => (.badValue, [], s)

def dispatchNoticeReplay (tag : Byte) (p : List Byte) (s : State) : State :=
  s.accept 0x09#8 tag (p.length = 1) .always fun t => t.answerWith tag (noticeReplay p)

/-- NOTICE_REPLAY. -/
def execNoticeReplay (tag : Byte) (p : List Byte) (s : State) : Out := onFrame 0x09#8 dispatchNoticeReplay tag p s

end Sys2Proof.Machine
end

