-- ==== Sys2Proof/Machine/Regions.lean ====
section
/-! DEFINITION. The region table's requests: REGION_DEFINE (R4), REGION_DELETE (R5), REGION_QUERY (R6), RING_RESET
(R16). In FAILED each is refused with DRAM_FAULT (R55). -/
namespace Sys2Proof.Machine

/-! ## REGION_DEFINE (R4) -/

/-- The fields of REGION_DEFINE, as read. -/
structure DefineFields where
  region : RegionId
  base : Nat
  length : Nat
  linkWrite : Bool
  kind : RegionKind
deriving DecidableEq, Repr

def readPolicy (b : Byte) : Option OverwritePolicy :=
  match b.toNat with
  | 0 => some .stop
  | 1 => some .overwrite
  | _ => none

/-- The kind with the ring part it creates: for a RING, policy STOP or OVERWRITE and the threshold no more than the
length; for a LINEAR region both fields are ignored. -/
def readKind (kind policy : Byte) (length threshold : Nat) : Option RegionKind :=
  match kind.toNat with
  | 0 => some .linear
  | 1 => match readPolicy policy with
    | some p => if threshold * 1024 ≤ length then some (.ring (Ring.fresh p threshold)) else none
    | none => none
  | _ => none

/-- Check 1 of REGION_DEFINE; `none` is BAD_VALUE. -/
def readDefine : List Byte → Option DefineFields
  | [r, b0, b1, b2, b3, l0, l1, l2, l3, k, lw, pol, t0, t1] =>
    match idx? 16 r.toNat, readFlag lw, readKind k pol (nat32 l0 l1 l2 l3) (nat16 t0 t1) with
    | some region, some linkWrite, some kind =>
      if nat32 l0 l1 l2 l3 = 0 then none
      else some (DefineFields.mk region (nat32 b0 b1 b2 b3) (nat32 l0 l1 l2 l3) linkWrite kind)
    | _, _, _ => none
  | _ => none

/-- Whether a byte range shares a byte with a region. -/
def RegionRecord.overlaps (base length : Nat) (d : RegionRecord) : Bool :=
  base < d.base + d.length && d.base < base + length

def Region.overlaps (base length : Nat) (x : Region) : Bool :=
  match x.record with
  | some d => d.overlaps base length
  | none => false

/-- Checks 2 to 5 of REGION_DEFINE, in order. -/
def defineCheck (f : DefineFields) (s : State) : Option Status :=
  if f.base % Config.pageBytes ≠ 0 || f.length % Config.pageBytes ≠ 0 then some .alignment
  else if Config.dramBytes < f.base + f.length then some .outOfBounds
  else if (s.region f.region).record.isSome then some .inUse
  else if s.regions.toList.any fun x => x.overlaps f.base f.length then some .overlap
  else none

/-- The slot REGION_DEFINE makes. -/
def DefineFields.slot (f : DefineFields) : Region where
  refCount := 0
  record := some { base := f.base, length := f.length, linkWrite := f.linkWrite, kind := f.kind }

/-- REGION_DEFINE at the region table (R4). -/
def regionDefine (p : List Byte) (s : State) : Reply :=
  match readDefine p with
  | none => (.badValue, [], s)
  | some f => match defineCheck f s with
    | some st => (st, [], s)
    | none => (.ok, [], s.setRegion f.region f.slot)

def dispatchRegionDefine (tag : Byte) (p : List Byte) (s : State) : State :=
  s.accept 0x10#8 tag (p.length = 14) .whenReady fun t => t.unlessFailed tag fun u => u.answerWith tag (regionDefine p)

/-- REGION_DEFINE. -/
def execRegionDefine (tag : Byte) (p : List Byte) (s : State) : Out := onFrame 0x10#8 dispatchRegionDefine tag p s

/-! ## REGION_DELETE (R5) -/

/-- Why a DEFINED region cannot be deleted: a reference, a claim, or reserved bytes (R5). -/
def Region.inUse (x : Region) (d : RegionRecord) : Bool :=
  x.refCount ≠ 0 ||
    match d.kind with
    | .linear => false
    | .ring g => g.busy

/-- A request whose payload is one region number: BAD_VALUE for a number outside 0 to 15. -/
def onRegion (p : List Byte) (f : RegionId → State → Reply) (s : State) : Reply :=
  match p with
  | [b] => match idx? 16 b.toNat with
    | some r => f r s
    | none => (.badValue, [], s)
  | _ => (.badValue, [], s)

/-- REGION_DELETE at the region table (R5). -/
def regionDelete (r : RegionId) (s : State) : Reply :=
  match (s.region r).record with
  | none => (.noRegion, [], s)
  | some d => if (s.region r).inUse d then (.inUse, [], s) else (.ok, [], s.setRegion r Region.reset)

def dispatchRegionDelete (tag : Byte) (p : List Byte) (s : State) : State :=
  s.accept 0x11#8 tag (p.length = 1) .whenReady fun t =>
    t.unlessFailed tag fun u => u.answerWith tag (onRegion p regionDelete)

/-- REGION_DELETE. -/
def execRegionDelete (tag : Byte) (p : List Byte) (s : State) : Out := onFrame 0x11#8 dispatchRegionDelete tag p s

/-! ## REGION_QUERY (R6) -/

/-- The ring fields of REGION_QUERY (R6); all zero, the holders none, where there is no ring part. -/
def ringReport : RegionKind → List Byte
  | .linear => u8 0 ++ u32 0 ++ u32 0 ++ u32 0 ++ u32 0 ++ u8 0 ++ u32 0 ++ u16 0 ++ flagByte false ++
      holderByte none ++ holderByte none ++ u8 0 ++ u8 0
  | .ring g => u8 g.policy.code ++ u32 g.front ++ u32 g.back ++ u32 g.committedFill ++ u32 g.readReserved ++
      u8 g.writeList.length ++ u32 g.lostBytes ++ u16 g.thresholdKiB ++ flagByte g.armed ++
      holderByte g.writerClaim ++ holderByte g.readerClaim ++ u8 g.writerWaiters.length ++ u8 g.readerWaiters.length

def RegionKind.code : RegionKind → Nat
  | .linear => 0
  | .ring _ => 1

/-- The data of REGION_QUERY (R6). -/
def Region.report (x : Region) : List Byte :=
  match x.record with
  | none => u8 0 ++ u8 x.refCount ++ u32 0 ++ u32 0 ++ u8 0 ++ flagByte false ++ ringReport .linear
  | some d => u8 1 ++ u8 x.refCount ++ u32 d.base ++ u32 d.length ++ u8 d.kind.code ++ flagByte d.linkWrite ++
      ringReport d.kind

/-- REGION_QUERY at the region table (R6). -/
def regionQuery (r : RegionId) (s : State) : Reply := (.ok, (s.region r).report, s)

def dispatchRegionQuery (tag : Byte) (p : List Byte) (s : State) : State :=
  s.accept 0x12#8 tag (p.length = 1) .whenReady fun t =>
    t.unlessFailed tag fun u => u.answerWith tag (onRegion p regionQuery)

/-- REGION_QUERY. -/
def execRegionQuery (tag : Byte) (p : List Byte) (s : State) : Out := onFrame 0x12#8 dispatchRegionQuery tag p s

/-! ## RING_RESET (R16) -/

/-- RING_RESET at the region table (R16): IN_USE while a claim is held, bytes are reserved to be read or the write list is
not empty, else the ring is emptied. R99's row on RING_RESET names R16 for its refusal and is read so, log entry 19: it is
this condition that refuses, which a RUNNING channel's claim meets, and a channel that only WAITS, with no claim, does not. -/
def ringReset (r : RegionId) (s : State) : Reply :=
  match (s.region r).record with
  | none => (.noRegion, [], s)
  | some d => match d.kind with
    | .linear => (.badValue, [], s)
    | .ring g => if g.busy then (.inUse, [], s) else (.ok, [], s.setRing r g.emptied)

def dispatchRingReset (tag : Byte) (p : List Byte) (s : State) : State :=
  s.accept 0x13#8 tag (p.length = 1) .whenReady fun t =>
    t.unlessFailed tag fun u => u.answerWith tag (onRegion p ringReset)

/-- RING_RESET. -/
def execRingReset (tag : Byte) (p : List Byte) (s : State) : Out := onFrame 0x13#8 dispatchRingReset tag p s

end Sys2Proof.Machine
end

