-- ==== Sys2Proof/Machine/Scheduler.lean ====
section
/-! DEFINITION. The scheduler's and the check unit's own commands: SCHED_QUERY (R43), ROW_POLICY (R38), RETENTION_RATE
(R49), CHECK_STATS (R59), bring-up's ends (R51), the expiries (R20, R29, R30, R37, R45), and the starts and completions
of openings, closings, accesses and refreshes (R28, R30, R32, R48). The completion of an access is in Completion.lean.

An event that has nothing to happen to (no operation running, no condition met) leaves the state as it is (log entry 1). -/
namespace Sys2Proof.Machine

/-! ## SCHED_QUERY (R43) -/

/-- The row a bank reports: 0 unless OPENING or OPEN. -/
def Bank.reportedRow : Bank → Nat
  | .closed => 0
  | .opening row _ => row
  | .opened o => o.row
  | .closing _ => 0

def Scheduler.entriesAt (b : BankId) (d : Scheduler) : Nat := d.list.countP fun e => e.bank = b

def Scheduler.bankReport (d : Scheduler) (b : BankId) : List Byte :=
  u8 (d.bank b).code ++ u16 (d.bank b).reportedRow ++ u8 (d.entriesAt b)

def Scheduler.entriesOf (r : Requester) (d : Scheduler) : Nat := d.list.countP fun e => e.owner = .requester r

/-- The data of SCHED_QUERY (R43). -/
def Scheduler.report (d : Scheduler) : List Byte :=
  u8 d.mode.code ++ flagByte d.busy ++ u8 d.rowIdleLimit.code ++ u8 d.refreshDebt ++ u8 d.retentionRate.code ++
    u16 d.missedRefreshes ++ u8 d.list.length ++
    (List.range 7).flatMap (fun k => u8 (d.entriesOf (Requester.at k))) ++ (List.finRange 8).flatMap d.bankReport

def dispatchSchedQuery (tag : Byte) (p : List Byte) (s : State) : State :=
  s.accept 0x14#8 tag (p.length = 0) .whenReady fun t => t.answerWith tag fun u => (.ok, u.sched.report, u)

/-- SCHED_QUERY. -/
def execSchedQuery (tag : Byte) (p : List Byte) (s : State) : Out := onFrame 0x14#8 dispatchSchedQuery tag p s

/-! ## ROW_POLICY (R38) -/

/-- Idle timing runs afresh from now on an OPEN bank. -/
def Bank.touched (now : Nat) : Bank → Bank
  | .opened o => .opened { o with lastActivity := now }
  | .closed => .closed
  | .opening r t => .opening r t
  | .closing t => .closing t

def Scheduler.setIdleLimit (l : RowIdleLimit) (now : Nat) (d : Scheduler) : Scheduler :=
  { d with rowIdleLimit := l, banks := mapTable (Bank.touched now) d.banks }

/-- ROW_POLICY at the scheduler (R38); taken in every mode, FAILED included. -/
def rowPolicy (p : List Byte) (s : State) : Reply :=
  match p with
  | [b] => match readRowIdleLimit b with
    | some l => (.ok, [], s.setSched (s.sched.setIdleLimit l s.now))
    | none => (.badValue, [], s)
  | _ => (.badValue, [], s)

def dispatchRowPolicy (tag : Byte) (p : List Byte) (s : State) : State :=
  s.accept 0x15#8 tag (p.length = 1) .whenReady fun t => t.answerWith tag (rowPolicy p)

/-- ROW_POLICY. -/
def execRowPolicy (tag : Byte) (p : List Byte) (s : State) : Out := onFrame 0x15#8 dispatchRowPolicy tag p s

/-! ## RETENTION_RATE (R49) -/

/-- RETENTION_RATE at the scheduler (R49); the running interval is not changed, and FAILED answers OK too. -/
def retentionRate (p : List Byte) (s : State) : Reply :=
  match p with
  | [b] => match readRetentionRate b with
    | some r => (.ok, [], s.setSched { s.sched with retentionRate := r })
    | none => (.badValue, [], s)
  | _ => (.badValue, [], s)

def dispatchRetentionRate (tag : Byte) (p : List Byte) (s : State) : State :=
  s.accept 0x16#8 tag (p.length = 1) .whenReady fun t => t.answerWith tag (retentionRate p)

/-- RETENTION_RATE. -/
def execRetentionRate (tag : Byte) (p : List Byte) (s : State) : Out :=
  onFrame 0x16#8 dispatchRetentionRate tag p s

/-! ## CHECK_STATS (R59) -/

def CheckUnit.report (c : CheckUnit) : List Byte :=
  u32 c.corrected ++ u32 c.uncorrectable ++ indicated 4 u32 c.lastUncorrectable

/-- CHECK_STATS at the check unit (R59): the values before any clearing are reported. -/
def checkStats (p : List Byte) (s : State) : Reply :=
  match p with
  | [b] => match readFlag b with
    | some clear => (.ok, s.check.report, if clear then s.setCheck CheckUnit.reset else s)
    | none => (.badValue, [], s)
  | _ => (.badValue, [], s)

def dispatchCheckStats (tag : Byte) (p : List Byte) (s : State) : State :=
  s.accept 0x17#8 tag (p.length = 1) .whenReady fun t => t.answerWith tag (checkStats p)

/-- CHECK_STATS. -/
def execCheckStats (tag : Byte) (p : List Byte) (s : State) : Out := onFrame 0x17#8 dispatchCheckStats tag p s

/-! ## Bring-up (R51) -/

/-- SETTLE_EXPIRY: CALIBRATE begins (R51). -/
def execSettleExpiry (s : State) : Out :=
  .next (if s.sched.stage = some .settle then s.setSched { s.sched with stage := some .calibrate } else s)

/-- CLEAR begins: the sweep position is 0, the first refresh interval starts, two entries are admitted (R44, R52). -/
def Scheduler.beginClear (now : Nat) (d : Scheduler) : Scheduler :=
  { d with stage := some .clear, sweepPos := 0,
           interval := some { lengthNs := d.retentionRate.intervalNs,
                              endsAt := now + d.retentionRate.intervalNs } }.sweepAdmit.sweepAdmit

/-- Calibration fails: FAILED, DRAM_FAULT, and requests reach their owners (R51). -/
def State.failBringup (s : State) : State :=
  ((s.setSched { s.sched with stage := none, mode := .failed }).post .dramFault).becomeReady

/-- CALIBRATION_COMPLETION (R51). -/
def execCalibrationCompletion (pass : Bool) (s : State) : Out :=
  .next (if s.sched.stage = some .calibrate then
      if pass then s.setSched (s.sched.beginClear s.now) else s.failBringup
    else s)

/-! ## Expiries -/

/-- The debt and the missed-refresh count after an interval expiry, and the next interval (R45). -/
def Scheduler.expireInterval (now : Nat) (d : Scheduler) : Scheduler :=
  { d with refreshDebt := min Config.maxDebt (d.refreshDebt + 1),
           missedRefreshes :=
             if Config.maxDebt ≤ d.refreshDebt then satAdd Config.max16 1 d.missedRefreshes else d.missedRefreshes,
           interval := some { lengthNs := d.retentionRate.intervalNs,
                              endsAt := now + d.retentionRate.intervalNs } }

/-- The notice of an expiry that found the debt at 8 (R45). -/
def State.postMissed (found : Nat) (s : State) : State :=
  if Config.maxDebt ≤ found then s.post (.refreshMissed s.sched.missedRefreshes) else s

/-- A refresh interval ends (R45), and in NORMAL the refresh tests follow (R46, R47). -/
def State.intervalEnds (s : State) : State :=
  let t := (s.setSched (s.sched.expireInterval s.now)).postMissed s.sched.refreshDebt
  t.setSched t.sched.testRefresh

/-- INTERVAL_EXPIRY (R45). -/
def execIntervalExpiry (s : State) : Out :=
  .next (match s.sched.interval with
    | none => s
    | some i => (s.clockTo i.endsAt).intervalEnds)

/-- SPACING_EXPIRY: the newest opening start becomes 6 ns old (R29). -/
def execSpacingExpiry (s : State) : Out :=
  .next (match s.sched.history.getLast? with
    | none => s
    | some t => s.clockTo (t + Config.spacingNs))

/-- WINDOW_EXPIRY: the oldest opening start younger than 30 ns becomes 30 ns old (R29). -/
def execWindowExpiry (s : State) : Out :=
  .next (match s.sched.history.find? fun t => s.now < t + Config.windowNs with
    | none => s
    | some t => s.clockTo (t + Config.windowNs))

/-- MIN_OPEN_EXPIRY: the row of an OPEN bank has been open for 34 ns since its opening start (R20, R30). -/
def execMinOpenExpiry (b : BankId) (s : State) : Out :=
  .next (match s.sched.bank b with
    | .opened o => s.clockTo (o.openingStart + Config.minOpenNs)
    | .closed => s
    | .opening _ _ => s
    | .closing _ => s)

/-- RECOVERY_EXPIRY: the write recovery end of an OPEN bank passes (R20, R30). -/
def execRecoveryExpiry (b : BankId) (s : State) : Out :=
  .next (match s.sched.bank b with
    | .opened o => match o.recoveryEnd with
      | some t => s.clockTo t
      | none => s
    | .closed => s
    | .opening _ _ => s
    | .closing _ => s)

/-! ## Closings (R30) -/

/-- The closing start: the bank becomes CLOSING and its fields are cleared (R30). -/
def State.startClosing (b : BankId) (s : State) : State := s.setSched (s.sched.moveBank b (.closing s.now))

/-- A closing of an OPEN bank for a cause, in a mode that closes and at a moment R30 allows. -/
def State.closeFor (b : BankId) (o : OpenRow) (cause : Bool) (s : State) : State :=
  if cause && s.sched.mode.closes && s.sched.mayClose s.now b o then s.startClosing b else s

/-- IDLE_EXPIRY: at the expiry an OPEN bank that is still idle starts closing (R37). -/
def execIdleExpiry (b : BankId) (s : State) : Out :=
  .next (match s.sched.bank b, s.sched.rowIdleLimit.ns with
    | .opened o, some n =>
      let t := s.clockTo (o.lastActivity + n)
      t.closeFor b o (t.sched.idleExpired t.now b o)
    | _, _ => s)

/-- CLOSING_START (R30). -/
def execClosingStart (b : BankId) (s : State) : Out :=
  .next (match s.sched.bank b with
    | .opened o => s.closeFor b o (s.sched.closingCause s.now b o)
    | .closed => s
    | .opening _ _ => s
    | .closing _ => s)

/-- CLOSING_COMPLETION (R30). -/
def execClosingCompletion (b : BankId) (s : State) : Out :=
  .next (match s.sched.bank b with
    | .closing start =>
      let t := s.clockTo (start + Config.closingNs)
      t.setSched (t.sched.moveBank b .closed)
    | .closed => s
    | .opening _ _ => s
    | .opened _ => s)

/-! ## Openings (R27, R28) -/

/-- OPENING_START (R27, R28). -/
def execOpeningStart (s : State) : Out :=
  .next (match s.sched.startOpening s.now with
    | some d => s.setSched d
    | none => s)

/-- OPENING_COMPLETION (R28). -/
def execOpeningCompletion (b : BankId) (s : State) : Out :=
  .next (match s.sched.bank b with
    | .opening row start =>
      let t := s.clockTo (start + Config.openingNs)
      t.setSched (t.sched.moveBank b (Bank.openedAt row start t.now))
    | .closed => s
    | .opened _ => s
    | .closing _ => s)

/-! ## The start of an access (R32) -/

/-- The oldest READY entry (R32). -/
def Scheduler.readyHead? (d : Scheduler) : Option BurstEntry := d.list.find? fun e => e.state = .ready

/-- The oldest READY entry becomes ACCESSING (R32). -/
def startOldest : List BurstEntry → List BurstEntry
  | [] => []
  | e :: rest => if e.state = .ready then { e with state := .accessing } :: rest else e :: startOldest rest

/-- ACCESS_START (R32). -/
def execAccessStart (s : State) : Out :=
  .next (match s.sched.readyHead? with
    | none => s
    | some e =>
      if !s.sched.busy && s.sched.serves e then
        s.setSched { s.sched with list := startOldest s.sched.list, accessStart := some s.now }
      else s)

/-! ## Refresh (R48, R53) -/

/-- REFRESH_START (R48, R53). -/
def execRefreshStart (s : State) : Out :=
  .next (if s.sched.refreshCanStart then s.setSched (s.sched.beginRefresh s.now) else s)

/-- The debt falls by 1 at a refresh completion (R48). -/
def Scheduler.payDebt (d : Scheduler) : Scheduler := { d with refreshDebt := d.refreshDebt - 1 }

/-- REFRESH_COMPLETION (R48, R53). -/
def execRefreshCompletion (s : State) : Out :=
  .next (match s.sched.refreshStart with
    | none => s
    | some start =>
      let t := s.clockTo (start + Config.refreshNs)
      t.setSched (t.sched.payDebt.afterRefresh t.now))

end Sys2Proof.Machine
end

