-- ==== Sys2Proof/Machine/Link.lean ====
section
/-! DEFINITION. The control link's own commands (chapter 11): IDENTIFY, ECHO (R178), LINK_STATS (R179), RESTART (R180,
R181), the discards of the receiver (R167, R168), BREAK (R176), the transmitter (R174), PIN_RESET and its end (R19, R50,
R165, R182), and BYTE_TAKEN (R167) with the dispatch by KIND (R170). -/
namespace Sys2Proof.Machine

/-! ## IDENTIFY and ECHO (R178) -/

/-- The data of IDENTIFY (R178, log entry 9). -/
def identity (l : LineRate) : List Byte :=
  u8 Config.vendorCode ++ u8 Config.familyCode ++ u16 Config.partNumber ++ u8 Config.revision ++ u8 6 ++ u8 16 ++
    u8 16 ++ u8 4 ++ u8 2 ++ u32 Config.dramBytes ++ u8 Config.tablePlaces ++ u8 Config.noticePlaces ++ u8 l.code

def dispatchIdentify (tag : Byte) (p : List Byte) (s : State) : State :=
  s.accept 0x01#8 tag (p.length = 0) .always fun t => t.answerWith tag fun u => (.ok, identity u.link.lineRate, u)

/-- IDENTIFY. -/
def execIdentify (tag : Byte) (p : List Byte) (s : State) : Out := onFrame 0x01#8 dispatchIdentify tag p s

def dispatchEcho (tag : Byte) (p : List Byte) (s : State) : State :=
  s.accept 0x02#8 tag (p.length ≤ Config.maxEcho) .always fun t => t.answerWith tag fun u => (.ok, p, u)

/-- ECHO. -/
def execEcho (tag : Byte) (p : List Byte) (s : State) : Out := onFrame 0x02#8 dispatchEcho tag p s

/-! ## LINK_STATS (R179) -/

/-- The data of LINK_STATS (R179). -/
def Link.report (l : Link) : List Byte :=
  u16 l.counters.goodFrames ++ u16 l.counters.crcErrors ++ u16 l.counters.oversizes ++ u16 l.counters.timeouts ++
    u16 l.counters.breaks ++ u16 l.counters.refusalsDropped ++ u8 l.table.length ++
    u8 (l.table.countP fun e => e.orphaned) ++ u8 l.readiness.code

/-- LINK_STATS at the control link (R179): the values before any clearing are reported. -/
def linkStats (p : List Byte) (s : State) : Reply :=
  match p with
  | [b] => match readFlag b with
    | some clear =>
      (.ok, s.link.report, if clear then s.setLink { s.link with counters := LinkCounters.reset } else s)
    | none => (.badValue, [], s)
  | _ => (.badValue, [], s)

def dispatchLinkStats (tag : Byte) (p : List Byte) (s : State) : State :=
  s.accept 0x03#8 tag (p.length = 1) .always fun t => t.answerWith tag (linkStats p)

/-- LINK_STATS. -/
def execLinkStats (tag : Byte) (p : List Byte) (s : State) : Out := onFrame 0x03#8 dispatchLinkStats tag p s

/-! ## RESTART (R180, R181) -/

/-- A region after RESTART: its record kept but for the ring's claims, its reference count 0 (R3, R7). -/
def Region.restarted (x : Region) : Region where
  refCount := 0
  record := x.record.map fun d => match d.kind with
    | .linear => d
    | .ring g => { d with kind := .ring g.unclaimed }

/-- A play-out port after RESTART (R133); its outputs hold the word driven until the next pull (8.6). -/
def PlayoutPort.restarted (p : PlayoutPort) : PlayoutPort := { PlayoutPort.reset with outputs := p.outputs }

/-- The blocks are reset (R181, steps 1 and 2). The row idle limit becomes 1 µs and the bank table keeps its state (R19),
the last activity times with it: a bank idle for longer than that has its idle expiry behind it, log entry 22. -/
def State.resetBlocks (s : State) : State :=
  { s with regions := mapTable Region.restarted s.regions,
           sched := { s.sched with rowIdleLimit := .us1, retentionRate := .normal },
           check := CheckUnit.reset,
           arb := Arbiter.reset,
           channels := Vector.replicate 6 Channel.reset,
           marks := Vector.replicate 16 Mark.reset,
           captures := Vector.replicate 4 CapturePort.reset,
           playouts := mapTable PlayoutPort.restarted s.playouts,
           notices := { NoticeQueue.reset with isOpen := false } }

/-- RESTART completes: the blocks are reset and its response handed over (R181). -/
def State.completeRestart (tag : Byte) (s : State) : State := s.resetBlocks.handOver tag .ok []

/-- RESTART at the control link (R180); with the burst list empty the sequence goes on at once. -/
def State.beginRestart (tag : Byte) (s : State) : State :=
  let t := (s.setLink { s.link with readiness := .restarting, restartTag := some tag }).lauRestart.reportAll
  if t.sched.list.isEmpty then t.completeRestart tag else t

def dispatchRestart (tag : Byte) (p : List Byte) (s : State) : State :=
  s.accept 0x04#8 tag (p.length = 0) .restart fun t => t.unlessFailed tag (State.beginRestart tag)

/-- RESTART. -/
def execRestart (tag : Byte) (p : List Byte) (s : State) : Out := onFrame 0x04#8 dispatchRestart tag p s

/-- Whether the RESTART can complete now: RESTARTING, the burst list empty, its entry still WORKING (R181). -/
def State.restartDue (tag : Byte) (s : State) : Bool :=
  decide (s.link.readiness = .restarting) && s.sched.list.isEmpty && (s.link.working? tag).isSome

/-- RESTART_RESET (R181). -/
def execRestartReset (s : State) : Out :=
  .next (match s.link.restartTag with
    | none => s
    | some tag => if s.restartDue tag then s.completeRestart tag else s)

/-! ## BAD_KIND (R170, check 3) -/

/-- The dispatch of a good frame whose KIND is not a request code (R170). -/
def dispatchBadKind (kind tag : Byte) (_ : List Byte) (s : State) : State :=
  if s.link.tagInUse tag then s.setLink (s.link.refuse .tagInUse tag kind)
  else if Config.tablePlaces ≤ s.link.table.length then s.setLink (s.link.refuse .busy tag kind)
  else s.setLink (s.link.answerAtOnce .badKind tag kind)

/-- BAD_KIND. A KIND that is a request code makes no such frame, and nothing happens. -/
def execBadKind (kind tag : Byte) (p : List Byte) (s : State) : Out :=
  if kindIsNoRequest kind then onFrame kind (dispatchBadKind kind) tag p s else .next s

/-! ## Discards of the receiver (R167, R168) -/

/-- The partial frame is discarded: HUNT, the timer stopped. -/
def Link.discardFrame (l : Link) : Link := { l with rx := .hunt, timer := none }

def LinkCounters.countCrc (c : LinkCounters) : LinkCounters := { c with crcErrors := satAdd Config.max16 1 c.crcErrors }
def LinkCounters.countOversize (c : LinkCounters) : LinkCounters :=
  { c with oversizes := satAdd Config.max16 1 c.oversizes }
def LinkCounters.countTimeout (c : LinkCounters) : LinkCounters :=
  { c with timeouts := satAdd Config.max16 1 c.timeouts }
def LinkCounters.countBreak (c : LinkCounters) : LinkCounters := { c with breaks := satAdd Config.max16 1 c.breaks }

/-- CRC_ERROR: these bytes arrive, and the last of them ends a frame whose CRC disagrees (R167). -/
def execCrcError (bytes : List Byte) (s : State) : Out :=
  .next (if s.link.receives && decide ((s.link.rx.takeAll bytes).2 = .crcError) then
      s.setLink (s.link.discardFrame.count LinkCounters.countCrc)
    else s)

/-- OVERSIZE: these bytes arrive, and the last of them ends a LEN outside 2 to 300 (R167). -/
def execOversize (bytes : List Byte) (s : State) : Out :=
  .next (if s.link.receives && decide ((s.link.rx.takeAll bytes).2 = .oversize) then
      s.setLink (s.link.discardFrame.count LinkCounters.countOversize)
    else s)

/-- INTER_BYTE_TIMEOUT: 1 ms has passed since the last byte of a partial frame (R168). -/
def execInterByteTimeout (s : State) : Out :=
  .next (match s.link.timer with
    | none => s
    | some t =>
      let u := s.clockTo (t + Config.interByteNs)
      u.setLink (u.link.discardFrame.count LinkCounters.countTimeout))

/-! ## BREAK (R175, R176) and the return of RXD -/

/-- Whether an entry survives a break: it is still WORKING (R176). -/
def OutEntry.survives (e : OutEntry) : Bool := decide (e.stage = .working)

/-- The table after a break: the entries SENDING or ANSWERED have left, the WORKING ones are orphaned (R176). -/
def breakTable (l : List OutEntry) : List OutEntry :=
  (l.filter OutEntry.survives).map fun e => { e with orphaned := true }

/-- The link at a break (R176). -/
def Link.broken (l : Link) : Link :=
  { l.discardFrame.count LinkCounters.countBreak with
      rxdLow := true, tx := none, refusal := none, readyList := [], table := breakTable l.table }

/-- Whether a break makes the RESTART's entry leave the table (R181). -/
def Link.breakEndsRestart (l : Link) : Bool :=
  l.table.any fun e => decide (l.restartTag = some e.tag) && !e.survives

/-- The break in one event (R176, R164, R181). -/
def State.takeBreak (s : State) : State :=
  let t := (s.setLink s.link.broken).setNotices { s.notices with sendPos := 0 }
  if s.link.breakEndsRestart then t.readyReturn else t

/-- BREAK: RXD has been low for 20 bit times (R175). While RESET is held the receiver takes nothing (R182), and a break
once detected is one event however long the line stays low. -/
def execLinkBreak (s : State) : Out := .next (if s.link.receives then s.takeBreak else s)

/-- RXD_RETURNED_HIGH (R175). -/
def execRxdReturnedHigh (s : State) : Out := .next (s.setLink { s.link with rxdLow := false })

/-! ## The transmitter (R174) -/

/-- Whether the transmitter may begin a frame: IDLE, RESET not held (R174, R182). -/
def Link.idleTx (l : Link) : Bool := l.tx.isNone && !l.resetHeld

/-- The frame of a refusal begins (R174). -/
def Link.beginRefusal (r : Response) (l : Link) : Link :=
  { l with refusal := none, tx := some { source := .refusal, bytes := r.frame } }

/-- The frame of the oldest ready response begins (R174). -/
def Link.beginResponse (r : Response) (rest : List Response) (l : Link) : Link :=
  { l.setStage r.tag .sending with readyList := rest, tx := some { source := .response r.tag, bytes := r.frame } }

/-- The frame of the notice at the send position begins (R160). -/
def State.beginNotice (n : Notice) (s : State) : State :=
  (s.setLink { s.link with tx := some { source := .notice n.seq, bytes := n.frame } }).setNotices
    { s.notices with sendPos := s.notices.sendPos + 1 }

/-- The first available frame begins: refusal, oldest ready response, notice at the send position (R174). -/
def State.beginFrame (s : State) : State :=
  match s.link.refusal, s.link.readyList, s.notices.held[s.notices.sendPos]? with
  | some r, _, _ => s.setLink (s.link.beginRefusal r)
  | none, r :: rest, _ => s.setLink (s.link.beginResponse r rest)
  | none, [], some n => s.beginNotice n
  | none, [], none => s

/-- FRAME_BEGIN (R174, R160). -/
def execFrameBegin (s : State) : Out := .next (if s.link.idleTx then s.beginFrame else s)

/-- The last byte of a frame has been sent (R174, R169). -/
def State.endFrame (f : TxFrame) (s : State) : State :=
  let t := s.setLink { s.link with tx := none }
  match f.source with
  | .response tag => t.entryLeaves tag
  | .refusal => t
  | .notice _ => t

/-- FRAME_END (R174). -/
def execFrameEnd (s : State) : Out :=
  .next (match s.link.tx with
    | none => s
    | some f => s.endFrame f)

/-! ## Pin reset (R19, R50, R165, R182) -/

/-- The state while RESET is held: every block at its pin reset value (R3, R19, R44, R60, R66, R75, R117, R129, R133, R143,
R156, R182); the die, the clock, the commands that wait and the line rate are kept. -/
def State.pinReset (s : State) : State :=
  { State.reset with pending := s.pending, now := s.now, mem := s.mem, wrongBits := s.wrongBits,
                     sched := { Scheduler.reset with stage := none },
                     link := { Link.reset with lineRate := s.link.lineRate, resetHeld := true } }

/-- PIN_RESET (R19). -/
def execPinReset (s : State) : Out := .next s.pinReset

/-- PIN_RESET_END: the straps are sampled and bring-up begins its SETTLE stage (R50, R165, R182). -/
def execPinResetEnd (spd1 spd0 : Bool) (s : State) : Out :=
  .next (if s.link.resetHeld then
      (s.setSched { s.sched with stage := some .settle }).setLink
        { s.link with resetHeld := false, lineRate := LineRate.ofStraps spd1 spd0 }
    else s)

/-! ## BYTE_TAKEN (R167) -/

/-- The dispatch of a good frame by its KIND (R170, R171, R183). -/
def dispatchFrame (kind tag : Byte) (p : List Byte) (s : State) : State :=
  match kind.toNat with
  | 0x01 => dispatchIdentify tag p s
  | 0x02 => dispatchEcho tag p s
  | 0x03 => dispatchLinkStats tag p s
  | 0x04 => dispatchRestart tag p s
  | 0x08 => dispatchNoticeAck tag p s
  | 0x09 => dispatchNoticeReplay tag p s
  | 0x10 => dispatchRegionDefine tag p s
  | 0x11 => dispatchRegionDelete tag p s
  | 0x12 => dispatchRegionQuery tag p s
  | 0x13 => dispatchRingReset tag p s
  | 0x14 => dispatchSchedQuery tag p s
  | 0x15 => dispatchRowPolicy tag p s
  | 0x16 => dispatchRetentionRate tag p s
  | 0x17 => dispatchCheckStats tag p s
  | 0x18 => dispatchSetClass tag p s
  | 0x19 => dispatchArbQuery tag p s
  | 0x20 => dispatchEnqueue tag p s
  | 0x21 => dispatchChannelStop tag p s
  | 0x22 => dispatchChannelResume tag p s
  | 0x23 => dispatchChannelQuery tag p s
  | 0x24 => dispatchMarkSet tag p s
  | 0x25 => dispatchMarkAdd tag p s
  | 0x26 => dispatchMarkQuery tag p s
  | 0x28 => dispatchPortEnable tag p s
  | 0x29 => dispatchPortDisable tag p s
  | 0x2A => dispatchPortBind tag p s
  | 0x2B => dispatchPortQuery tag p s
  | 0x30 => dispatchPut tag p s
  | 0x31 => dispatchGet tag p s
  | 0x32 => dispatchAppend tag p s
  | 0x33 => dispatchTake tag p s
  | _ => dispatchBadKind kind tag p s

/-- The receiver moves on inside a frame, its timer restarted; in HUNT the timer does not run (R167, R168). -/
def Link.moveReceiver (r : RxState) (now : Nat) (l : Link) : Link :=
  { l with rx := r, timer := if r = .hunt then none else some now }

/-- What a byte brings about (R167). -/
def State.onByte (m : RxState × RxEvent) (s : State) : State :=
  match m.2 with
  | .none => s.setLink (s.link.moveReceiver m.1 s.now)
  | .oversize => s.setLink (s.link.discardFrame.count LinkCounters.countOversize)
  | .crcError => s.setLink (s.link.discardFrame.count LinkCounters.countCrc)
  | .good kind tag p => dispatchFrame kind tag p (s.setLink s.link.frameReceived)

/-- BYTE_TAKEN (R167, R168). A byte that completes or discards a frame does what CRC_ERROR, OVERSIZE and the requests do
(log entry 16). -/
def execByteTaken (b : Byte) (s : State) : Out :=
  .next (if s.link.receives then s.onByte (s.link.rx.takeByte b) else s)

end Sys2Proof.Machine
end

