-- ==== Sys2Proof/Machine/Dispatch.lean ====
section
/-! DEFINITION. One arm per command: the command's effect on everything but the queue. -/
namespace Sys2Proof.Machine

def exec (i : Instr) (s : State) : Host.Outcome State Fault Refusal :=
  match i with
  | .identify tag payload => Sys2Proof.Machine.execIdentify tag payload s
  | .echo tag payload => Sys2Proof.Machine.execEcho tag payload s
  | .linkStats tag payload => Sys2Proof.Machine.execLinkStats tag payload s
  | .restart tag payload => Sys2Proof.Machine.execRestart tag payload s
  | .noticeAck tag payload => Sys2Proof.Machine.execNoticeAck tag payload s
  | .noticeReplay tag payload => Sys2Proof.Machine.execNoticeReplay tag payload s
  | .regionDefine tag payload => Sys2Proof.Machine.execRegionDefine tag payload s
  | .regionDelete tag payload => Sys2Proof.Machine.execRegionDelete tag payload s
  | .regionQuery tag payload => Sys2Proof.Machine.execRegionQuery tag payload s
  | .ringReset tag payload => Sys2Proof.Machine.execRingReset tag payload s
  | .schedQuery tag payload => Sys2Proof.Machine.execSchedQuery tag payload s
  | .rowPolicy tag payload => Sys2Proof.Machine.execRowPolicy tag payload s
  | .retentionRate tag payload => Sys2Proof.Machine.execRetentionRate tag payload s
  | .checkStats tag payload => Sys2Proof.Machine.execCheckStats tag payload s
  | .setClass tag payload => Sys2Proof.Machine.execSetClass tag payload s
  | .arbQuery tag payload => Sys2Proof.Machine.execArbQuery tag payload s
  | .enqueue tag payload => Sys2Proof.Machine.execEnqueue tag payload s
  | .channelStop tag payload => Sys2Proof.Machine.execChannelStop tag payload s
  | .channelResume tag payload => Sys2Proof.Machine.execChannelResume tag payload s
  | .channelQuery tag payload => Sys2Proof.Machine.execChannelQuery tag payload s
  | .markSet tag payload => Sys2Proof.Machine.execMarkSet tag payload s
  | .markAdd tag payload => Sys2Proof.Machine.execMarkAdd tag payload s
  | .markQuery tag payload => Sys2Proof.Machine.execMarkQuery tag payload s
  | .portEnable tag payload => Sys2Proof.Machine.execPortEnable tag payload s
  | .portDisable tag payload => Sys2Proof.Machine.execPortDisable tag payload s
  | .portBind tag payload => Sys2Proof.Machine.execPortBind tag payload s
  | .portQuery tag payload => Sys2Proof.Machine.execPortQuery tag payload s
  | .put tag payload => Sys2Proof.Machine.execPut tag payload s
  | .get tag payload => Sys2Proof.Machine.execGet tag payload s
  | .append tag payload => Sys2Proof.Machine.execAppend tag payload s
  | .take tag payload => Sys2Proof.Machine.execTake tag payload s
  | .badKind kind tag payload => Sys2Proof.Machine.execBadKind kind tag payload s
  | .crcError bytes => Sys2Proof.Machine.execCrcError bytes s
  | .oversize bytes => Sys2Proof.Machine.execOversize bytes s
  | .interByteTimeout => Sys2Proof.Machine.execInterByteTimeout s
  | .linkBreak => Sys2Proof.Machine.execLinkBreak s
  | .pinReset => Sys2Proof.Machine.execPinReset s
  | .pinResetEnd spd1 spd0 => Sys2Proof.Machine.execPinResetEnd spd1 spd0 s
  | .settleExpiry => Sys2Proof.Machine.execSettleExpiry s
  | .calibrationCompletion pass => Sys2Proof.Machine.execCalibrationCompletion pass s
  | .intervalExpiry => Sys2Proof.Machine.execIntervalExpiry s
  | .spacingExpiry => Sys2Proof.Machine.execSpacingExpiry s
  | .windowExpiry => Sys2Proof.Machine.execWindowExpiry s
  | .minOpenExpiry bank => Sys2Proof.Machine.execMinOpenExpiry bank s
  | .recoveryExpiry bank => Sys2Proof.Machine.execRecoveryExpiry bank s
  | .idleExpiry bank => Sys2Proof.Machine.execIdleExpiry bank s
  | .openingStart => Sys2Proof.Machine.execOpeningStart s
  | .openingCompletion bank => Sys2Proof.Machine.execOpeningCompletion bank s
  | .closingStart bank => Sys2Proof.Machine.execClosingStart bank s
  | .closingCompletion bank => Sys2Proof.Machine.execClosingCompletion bank s
  | .accessStart => Sys2Proof.Machine.execAccessStart s
  | .accessCompletion flips => Sys2Proof.Machine.execAccessCompletion flips s
  | .refreshStart => Sys2Proof.Machine.execRefreshStart s
  | .refreshCompletion => Sys2Proof.Machine.execRefreshCompletion s
  | .admission => Sys2Proof.Machine.execAdmission s
  | .strobe port word => Sys2Proof.Machine.execStrobe port word s
  | .pull port => Sys2Proof.Machine.execPull port s
  | .frameBegin => Sys2Proof.Machine.execFrameBegin s
  | .frameEnd => Sys2Proof.Machine.execFrameEnd s
  | .restartReset => Sys2Proof.Machine.execRestartReset s
  | .byteTaken byte => Sys2Proof.Machine.execByteTaken byte s
  | .rxdReturnedHigh => Sys2Proof.Machine.execRxdReturnedHigh s

end Sys2Proof.Machine
end

