-- ==== Sys2Proof/Machine/Step.lean ====
section
/-! DEFINITION. One step: the command at the front of the queue takes effect; with nothing waiting, the clock goes on. -/
namespace Sys2Proof.Machine

/-- With no command waiting the part is idle for 1 ns (log entry 2). -/
def State.idle (s : State) : State := s.setNow (s.now + 1)

def State.setPending (l : List Instr) (s : State) : State := { s with pending := l }

def step (s : State) : Host.Outcome State Fault Refusal :=
  match s.pending with
  | [] => .next s.idle
  | c :: rest => exec c (s.setPending rest)

/-- The command a word spells at the front of the queue; no row of the table gives bits, so no word spells one. -/
def State.withFetchWord (s : State) (nbits w : Nat) : State :=
  match Sys2Proof.decodeTableWord nbits w with
  | some c => s.setPending (c :: s.pending)
  | none => s

end Sys2Proof.Machine
end

