-- ==== Sys2Proof/Safety.lean ====
section
/-! DEFINITION. The laws the blocks keep, as properties of a state, and the words the statements are made of. -/
namespace Sys2Proof.Machine

/-! ## Laws -/

/-- R22: at most 8 entries in the burst list, at most 2 of one requester (or of the sweep). -/
def Scheduler.ListLaw (d : Scheduler) : Prop :=
  d.list.length ≤ 8 ∧ ∀ o : EntryOwner, (d.list.countP fun e => e.owner = o) ≤ 2

/-- R23: an entry that is not ACCESSING is READY exactly when no older entry addresses its bank and the bank is OPEN on
its row. -/
def Scheduler.EntryLaw (d : Scheduler) : Prop :=
  ∀ (k : Nat) (h : k < d.list.length), d.list[k].state ≠ .accessing →
    (d.list[k].state = .ready ↔
      (∀ (j : Nat) (hj : j < k), d.list[j].bank ≠ d.list[k].bank) ∧
        (d.bank d.list[k].bank).isOpenOn d.list[k].row = true)

/-- R32: the busy flag is set exactly while one entry is ACCESSING, and never more than one is. -/
def Scheduler.DataPathLaw (d : Scheduler) : Prop :=
  (d.list.countP fun e => e.state = .accessing) = if d.accessStart.isSome then 1 else 0

/-- R29: the opening history holds at most four times, each at least 6 ns after the one before, none to come. -/
def Scheduler.HistoryLaw (now : Nat) (d : Scheduler) : Prop :=
  d.history.length ≤ 4 ∧ d.history.Pairwise (fun t u => t + 6 ≤ u) ∧ ∀ t ∈ d.history, t ≤ now

/-- R44: the refresh debt lies between 0 and 8. -/
def Scheduler.DebtLaw (d : Scheduler) : Prop := d.refreshDebt ≤ 8

/-- R48: a refresh runs only while every bank is CLOSED and no access is in progress. -/
def Scheduler.RefreshLaw (d : Scheduler) : Prop :=
  d.refreshStart ≠ none → (∀ b, d.bank b = .closed) ∧ d.accessStart = none

/-- R117: every mark value lies between 0 and 255. -/
def State.MarkLaw (s : State) : Prop := ∀ m, (s.mark m).value ≤ 255

/-- R156: at most 32 notices held, their sequence numbers consecutive modulo 256 up to the next one, and the send
position one of them or the tail. -/
def NoticeQueue.QueueLaw (q : NoticeQueue) : Prop :=
  q.held.length ≤ 32 ∧ q.sendPos ≤ q.held.length ∧
    ∀ (k : Nat) (h : k < q.held.length), q.held[k].seq + BitVec.ofNat 8 (q.held.length - k) = q.nextSeq

/-- R169: at most 8 outstanding requests, no two with one tag. -/
def Link.TableLaw (l : Link) : Prop := l.table.length ≤ 8 ∧ (l.table.map fun e => e.tag).Nodup

/-- The die's two tables are in their canonical form (log entry 4). -/
def State.MemoryLaw (s : State) : Prop :=
  Memory.wf s.mem = true ∧ canonFrom (0#272) 0 s.wrongBits = true

/-- The capture FIFOs (8.2): 0 to 256 bytes, a whole number of words. -/
def State.CaptureLaw (s : State) : Prop :=
  ∀ k, (s.capture k).fifo.length ≤ 256 ∧ (s.capture k).fifo.length % 2 = 0

/-- The law of R8: the bytes of a ring that are committed or reserved do not exceed its length, and all are multiples of
32. -/
def Ring.SpaceLaw (len : Nat) (r : Ring) : Prop :=
  r.committedFill + r.readReserved + 32 * r.writeList.length ≤ len ∧ r.committedFill % 32 = 0 ∧
    r.readReserved % 32 = 0

/-- How many READ entries of the burst list refer to a ring (R21). -/
def State.readRefs (r : RegionId) (s : State) : Nat :=
  s.sched.list.countP fun e => !e.isWrite && decide (e.ringRef.map RingRef.region = some r)

/-- R8, R11, R13: every ring keeps the law of its space, its read-reserved bytes are 32 for each READ entry that refers to
it, and no READ entry refers to a region that is no ring. -/
def State.RingLaw (s : State) : Prop :=
  ∀ r, match s.ring? r with
    | none => s.readRefs r = 0
    | some (d, g) => g.SpaceLaw d.length ∧ g.readReserved = 32 * s.readRefs r

/-- Whether a descriptor names a region, as its source or its destination. -/
def Descriptor.namesRegion (r : RegionId) (d : Descriptor) : Bool :=
  (match d.source with
    | .region q _ => decide (q = r)
    | .capture _ => false
    | .pattern _ => false) ||
  (match d.dest with
    | .region q _ => decide (q = r)
    | .playout _ => false)

/-- How many descriptors of a channel, current or pending, name a region. -/
def Channel.references (r : RegionId) (x : Channel) : Nat :=
  (match x.current with
    | some cur => if cur.desc.namesRegion r then 1 else 0
    | none => 0) + x.pending.countP fun d => d.namesRegion r

/-- R76: at most 4 descriptors pending, and an IDLE channel has neither a current nor a pending descriptor. -/
def State.ChannelLaw (s : State) : Prop :=
  ∀ c, (s.channel c).pending.length ≤ 4 ∧
    ((s.channel c).state = .idle → (s.channel c).current = none ∧ (s.channel c).pending = [])

/-- R7: a reference count is the number of descriptors, current or pending, that name the region; a FREE slot has none. -/
def State.ReferenceLaw (s : State) : Prop :=
  ∀ r, (s.region r).refCount = ((List.finRange 6).map fun c => (s.channel c).references r).sum ∧
    ((s.region r).record = none → (s.region r).refCount = 0)

/-- R133 and R134: a play-out port's bytes and its reserved room do not exceed its FIFO; the FIFO holds whole words, and
data that has arrived is one burst. -/
def State.PlayoutLaw (s : State) : Prop :=
  ∀ k, (s.playout k).fifo.length + 32 * (s.playout k).reservations.length ≤ 256 ∧ (s.playout k).fifo.length % 2 = 0 ∧
    ∀ r ∈ (s.playout k).reservations, ∀ d, r.data = some d → d.length = 32

/-! ## Requests -/

/-- The part is READY and not FAILED: gated requests reach owners that take them (R55, R173). -/
def State.serving (s : State) : Bool := decide (s.link.readiness = .ready) && decide (s.sched.mode ≠ .failed)

/-- A frame can arrive and be given an entry: its tag is free and the table has a place (R170, checks 1 and 2). -/
def State.takes (kind tag : Byte) (p : List Byte) (s : State) : Bool :=
  s.link.frameCompletes kind tag p && !s.link.tagInUse tag && decide (s.link.table.length < 8)

/-- The frame has been received: counted, the receiver in HUNT. -/
def State.received (s : State) : State := s.setLink s.link.frameReceived

/-- The frame has been received, and its request is with its owner: an entry in stage WORKING (R170, check 6). -/
def State.working (kind tag : Byte) (s : State) : State :=
  s.setLink (s.link.frameReceived.addEntry { tag := tag, kind := kind, stage := .working, orphaned := false })

/-- The link of a part that has received a frame and answered it in the same event: an entry in stage ANSWERED, its
response at the tail of the ready-response list (R169). -/
def Link.answered (kind tag : Byte) (st : Status) (data : List Byte) (l : Link) : Link :=
  { l.frameReceived with
      table := l.table ++ [{ tag := tag, kind := kind, stage := .answered, orphaned := false }],
      readyList := l.readyList ++ [{ tag := tag, kind := kind, status := st, data := data }] }

/-- The part has received a frame and answered it; nothing else has changed. -/
def State.answered (kind tag : Byte) (st : Status) (data : List Byte) (s : State) : State :=
  s.setLink (s.link.answered kind tag st data)

/-- The payload lengths a kind requires (R183); a KIND that is not a request code has none. -/
def lengthOk (kind : Byte) (p : List Byte) : Bool :=
  match kind.toNat with
  | 0x01 => p.length = 0
  | 0x02 => p.length ≤ 297
  | 0x03 => p.length = 1
  | 0x04 => p.length = 0
  | 0x08 => p.length = 1
  | 0x09 => p.length = 1
  | 0x10 => p.length = 14
  | 0x11 => p.length = 1
  | 0x12 => p.length = 1
  | 0x13 => p.length = 1
  | 0x14 => p.length = 0
  | 0x15 => p.length = 1
  | 0x16 => p.length = 1
  | 0x17 => p.length = 1
  | 0x18 => p.length = 2
  | 0x19 => p.length = 0
  | 0x20 => p.length = 28
  | 0x21 => p.length = 2
  | 0x22 => p.length = 1
  | 0x23 => p.length = 1
  | 0x24 => p.length = 2
  | 0x25 => p.length = 2
  | 0x26 => p.length = 0
  | 0x28 => p.length = 2
  | 0x29 => p.length = 2
  | 0x2A => p.length = 3
  | 0x2B => p.length = 3
  | 0x30 => 7 ≤ p.length && p.length = 7 + nat16 (p.getD 5 0#8) (p.getD 6 0#8)
  | 0x31 => p.length = 7
  | 0x32 => 3 ≤ p.length && p.length = 3 + nat16 (p.getD 1 0#8) (p.getD 2 0#8)
  | 0x33 => p.length = 3
  | _ => false

/-- The five requests that are dispatched in every readiness (R173). -/
def alwaysDispatched : List Byte := [0x01#8, 0x02#8, 0x03#8, 0x08#8, 0x09#8]

/-- The requests that are answered in FAILED as in any mode (R55). -/
def takenInFailed : List Byte := alwaysDispatched ++ [0x14#8, 0x15#8, 0x16#8, 0x17#8]

/-- The bytes taken one after another by the receiver, each as BYTE_TAKEN. -/
def takeBytes : List Byte → State → Host.Outcome State Fault Refusal
  | [], s => .next s
  | b :: rest, s => match exec (.byteTaken b) s with
    | .next t => takeBytes rest t
    | .fault f => .fault f
    | .refused r => .refused r

/-- What RESTART's reset leaves of a region: its record but for a ring's claims and waiter lists, nothing named (R3). -/
def RestartedRegion (x y : Region) : Prop :=
  y.refCount = 0 ∧ y.record = x.record.map fun d => match d.kind with
    | .linear => d
    | .ring g => { d with kind := .ring ({ g with
        writerClaim := none, readerClaim := none, writerWaiters := [], readerWaiters := [] }) }

/-- The blocks are reset (R181, steps 1 and 2; R3, R19, R44, R60, R66, R75, R117, R129, R133, R143): the state after, of the
state before. The die, the clock, the burst list, the banks and the refreshes go on as they were. -/
structure BlocksReset (s t : State) : Prop where
  regions : ∀ r, RestartedRegion (s.region r) (t.region r)
  sched : t.sched = { s.sched with rowIdleLimit := .us1, retentionRate := .normal }
  check : t.check = { corrected := 0, uncorrectable := 0, lastUncorrectable := none }
  arb : t.arb = State.reset.arb
  channels : ∀ c, t.channel c =
    { state := .idle, current := none, pending := [], slotA := .empty, slotB := .empty, stop := .none }
  marks : ∀ m, t.mark m = { value := 0, saturated := false, waiters := [] }
  captures : ∀ k, t.capture k = { enabled := false, fifo := [], binding := none, overflowCount := 0, armed := true }
  playouts : ∀ k, t.playout k =
    { enabled := false, fifo := [], reservations := [], lastWord := 0, underrunCount := 0, armed := true,
      binding := none, outputs := (s.playout k).outputs }
  queue : t.lau.queue = []
  service : t.lau.service = none
  die : t.mem = s.mem ∧ t.wrongBits = s.wrongBits
  clock : t.now = s.now

/-! ## Admissions -/

/-- Whether a burst is a WRITE (R83). -/
def Burst.writes : Burst → Bool
  | .captureWrite _ => true
  | .patternWrite _ => true
  | .copyWrite _ _ _ => true
  | .playoutRead _ => false
  | .copyRead _ => false

/-- The region a burst addresses, and the place of its first byte from the region's base where the region is LINEAR: the
endpoint's offset plus the burst's stream position (R86). -/
def Burst.place (cur : Current) (b : Burst) : Option (RegionId × Nat) :=
  let pos := match b with
    | .copyWrite _ pos _ => pos
    | .copyRead _ => cur.prog.sourceAdmitted
    | .captureWrite _ => cur.prog.admitted
    | .patternWrite _ => cur.prog.admitted
    | .playoutRead _ => cur.prog.admitted
  if b.writes then
    match cur.desc.dest with
    | .region r off => some (r, off + pos)
    | .playout _ => none
  else
    match cur.desc.source with
    | .region r off => some (r, off + pos)
    | .capture _ => none
    | .pattern _ => none

/-- Whether a region takes a WRITE of a requester now (R85, R9): a LINEAR region does; a ring does where the requester
holds the writer claim, fewer than two write reservations wait, and there are 32 bytes of space or, in an OVERWRITE ring,
32 committed bytes to drop. -/
def State.MayWrite (who : Requester) (r : RegionId) (s : State) : Prop :=
  ∃ d, (s.region r).record = some d ∧ ∀ g, d.kind = .ring g → g.writerClaim = some who ∧ g.writeList.length < 2 ∧
    (32 ≤ d.length - g.committedFill - g.readReserved - 32 * g.writeList.length ∨
      (g.policy = .overwrite ∧ 32 ≤ g.committedFill))

/-- Whether a region gives a READ of a requester its bytes now (R85, R11): a LINEAR region does; a ring does where the
requester holds the reader claim and 32 bytes are committed. -/
def State.MayRead (who : Requester) (r : RegionId) (s : State) : Prop :=
  ∃ d, (s.region r).record = some d ∧ ∀ g, d.kind = .ring g → g.readerClaim = some who ∧ 32 ≤ g.committedFill

/-- The oldest occupied copy slot is this one, FULL, with this position and data (R89). -/
def Channel.OldestFull (slot : CopySlotId) (pos : Nat) (data : List Byte) (x : Channel) : Prop :=
  match slot with
  | .a => x.slotA = .full pos data ∧ (∀ q, x.slotB = .reserved q → pos < q) ∧ ∀ q other, x.slotB = .full q other → pos < q
  | .b => x.slotB = .full pos data ∧ (∀ q, x.slotA = .reserved q → pos < q) ∧ ∀ q other, x.slotA = .full q other → pos ≤ q

/-- What a channel's next burst is (R83, R85, R89), by the form its descriptor's endpoints give it. -/
def State.NextBurst (c : ChannelId) (cur : Current) (s : State) (b : Option Burst) : Prop :=
  (∀ p r off, cur.desc.source = .capture p → cur.desc.dest = .region r off →
    ∀ can : Prop, (can ↔ cur.prog.admitted < cur.desc.length ∧ 32 ≤ (s.capture p).fifo.length ∧ s.MayWrite (.ch c) r) →
      (can → b = some (.captureWrite p)) ∧ (¬ can → b = none)) ∧
  (∀ v r off, cur.desc.source = .pattern v → cur.desc.dest = .region r off →
    ∀ can : Prop, (can ↔ cur.prog.admitted < cur.desc.length ∧ s.MayWrite (.ch c) r) →
      (can → b = some (.patternWrite v)) ∧ (¬ can → b = none)) ∧
  (∀ r off p, cur.desc.source = .region r off → cur.desc.dest = .playout p →
    ∀ can : Prop, (can ↔ cur.prog.admitted < cur.desc.length ∧
        32 ≤ 256 - (s.playout p).fifo.length - 32 * (s.playout p).reservations.length ∧ s.MayRead (.ch c) r) →
      (can → b = some (.playoutRead p)) ∧ (¬ can → b = none)) ∧
  (∀ r off q away, cur.desc.source = .region r off → cur.desc.dest = .region q away →
    ∀ writes reads : Prop,
      (writes ↔ (∃ slot pos data, (s.channel c).OldestFull slot pos data) ∧ cur.prog.admitted < cur.desc.length ∧
        s.MayWrite (.ch c) q) →
      (reads ↔ cur.prog.sourceAdmitted < cur.desc.length ∧ s.MayRead (.ch c) r) →
      (writes → ∀ slot pos data, (s.channel c).OldestFull slot pos data → b = some (.copyWrite slot pos data)) ∧
      (¬ writes → reads → (s.channel c).slotA = .empty → b = some (.copyRead .a)) ∧
      (¬ writes → reads → (s.channel c).slotA ≠ .empty → (s.channel c).slotB = .empty → b = some (.copyRead .b)) ∧
      (¬ writes → ¬ reads ∨ ((s.channel c).slotA ≠ .empty ∧ (s.channel c).slotB ≠ .empty) → b = none)) ∧
  ((∀ r off, cur.desc.source ≠ .region r off ∧ cur.desc.dest ≠ .region r off) → b = none)

/-- A channel with bytes counted as admitted. -/
def Channel.counts (cur : Current) (admitted sourceAdmitted : Nat) (x : Channel) : Channel :=
  { x with current := some { cur with prog := { cur.prog with
      admitted := cur.prog.admitted + admitted, sourceAdmitted := cur.prog.sourceAdmitted + sourceAdmitted } } }

/-- The LAU with a burst more admitted for the request in service, and the bytes a drop made room with. -/
def Lau.admits (sv : LauService) (dropped : Nat) (l : Lau) : Lau :=
  { l with service := some { sv with admitted := sv.admitted + 32, dropped := sv.dropped + dropped } }

/-- An entry of the LAU (R146). -/
def lauEntry (transfer : Transfer) (addr : Nat) (ringRef : Option RingRef) : BurstEntry where
  owner := .requester .lau
  transfer := transfer
  addr := addr
  closeAfter := false
  ringRef := ringRef
  state := .waitingBank

end Sys2Proof.Machine
end

