-- ==== Sys2Proof/Certificates/Slice0/Obligations.lean ====
section
/-! DEFINITION. The statements for the provers. A statement that rests on a choice of the model names its log entry. -/

open Sys2Proof Sys2Proof.Machine

/-! ## The part as a machine -/

/-- A step takes the command at the front of the queue and answers what it does to the state with the queue's rest. -/
def Obligations.StepTakesFront : Prop :=
  ∀ (c : Instr) (rest : List Instr) (s : State), s.pending = c :: rest → step s = exec c (s.setPending rest)

/-- No command touches the queue, and none turns the clock back; with nothing waiting a step only lets 1 ns pass (the clock
is the model's, log entry 2). -/
def Obligations.QueueKeptClockForward : Prop :=
  (∀ (i : Instr) (s t : State), exec i s = .next t → t.pending = s.pending ∧ s.now ≤ t.now) ∧
  (∀ s : State, s.pending = [] → step s = .next { s with now := s.now + 1 })

/-- Every command completes in every state, also where its event cannot happen (the model's choice, log entry 1), but an
access completion whose burst is not one of the die's. -/
def Obligations.CommandsComplete : Prop :=
  ∀ (i : Instr) (s : State), (∃ t : State, exec i s = .next t) ∨
    ∃ flips e, i = .accessCompletion flips ∧ s.sched.accessing? = some e ∧ isBurst e.addr = false ∧
      exec i s = .fault (.noSuchBurst e.addr)

/-- Only an access completion changes the die: a WRITE stores at its completion (log entry 4), bits that have changed by
themselves come with the access that meets them (log entry 6), and a pin reset keeps the die (log entry 14). -/
def Obligations.DieKeptByOtherCommands : Prop :=
  ∀ (i : Instr) (s t : State), exec i s = .next t → (∀ flips, i ≠ .accessCompletion flips) →
    t.mem = s.mem ∧ t.wrongBits = s.wrongBits

/-- The requests that belong neither to the scheduler nor to the check unit, RESTART apart, leave both, the die and the
clock (the model's, log entry 2) as they are: the frame of the channels', marks', ports', arbiter's, region table's, LAU's, notice queue's and
control link's requests. -/
def Obligations.RequestsLeaveTheMemorySide : Prop :=
  ∀ (i : Instr) (kind tag : Byte) (p : List Byte) (s t : State), i.wellFormed = true →
    i.frame? = some (kind, tag, p) → kind ∉ [0x04#8, 0x15#8, 0x16#8, 0x17#8] → exec i s = .next t →
    t.sched = s.sched ∧ t.check = s.check ∧ t.mem = s.mem ∧ t.wrongBits = s.wrongBits ∧ t.now = s.now

/-! ## Resets -/

/-- The part right after a pin reset. -/
def Obligations.ResetState : Prop :=
  (∀ r, State.reset.region r = { refCount := 0, record := none }) ∧
  (State.reset.sched.list = [] ∧ (∀ b, State.reset.sched.bank b = .closed) ∧ State.reset.sched.history = [] ∧
    State.reset.sched.mode = .bringup ∧ State.reset.sched.accessStart = none ∧
    State.reset.sched.rowIdleLimit = .us1 ∧ State.reset.sched.refreshDebt = 0 ∧
    State.reset.sched.retentionRate = .normal ∧ State.reset.sched.interval = none ∧
    State.reset.sched.missedRefreshes = 0 ∧ State.reset.sched.refreshStart = none ∧
    State.reset.sched.stage = some .settle) ∧
  State.reset.check = { corrected := 0, uncorrectable := 0, lastUncorrectable := none } ∧
  ((∀ c, State.reset.arb.classOf (.ch c) = 2) ∧ State.reset.arb.classOf .lau = 1 ∧
    (∀ k, State.reset.arb.positionOf k = .ch 0 ∧ State.reset.arb.runOf k = 0) ∧
    (∀ r, State.reset.arb.readinessOf r = .inactive) ∧ State.reset.arb.holdOwner = none) ∧
  (∀ c, State.reset.channel c =
    { state := .idle, current := none, pending := [], slotA := .empty, slotB := .empty, stop := .none }) ∧
  (∀ m, State.reset.mark m = { value := 0, saturated := false, waiters := [] }) ∧
  (∀ k, State.reset.capture k = { enabled := false, fifo := [], binding := none, overflowCount := 0, armed := true }) ∧
  (∀ k, State.reset.playout k =
    { enabled := false, fifo := [], reservations := [], lastWord := 0, underrunCount := 0, armed := true,
      binding := none, outputs := 0 }) ∧
  State.reset.lau = { queue := [], service := none, buffer := Vector.replicate 8 none } ∧
  State.reset.notices = { held := [], nextSeq := 0, sendPos := 0, lost := 0, isOpen := true } ∧
  (State.reset.link.rx = .hunt ∧ State.reset.link.timer = none ∧ State.reset.link.table = [] ∧
    State.reset.link.readyList = [] ∧ State.reset.link.refusal = none ∧ State.reset.link.tx = none ∧
    State.reset.link.counters =
      { goodFrames := 0, crcErrors := 0, oversizes := 0, timeouts := 0, breaks := 0, refusalsDropped := 0 } ∧
    State.reset.link.readiness = .bringup) ∧ State.reset.attn = false

/-- A pin reset, in any state: while RESET is held the link takes and sends nothing; at its end, with the straps sampled,
the part is as State.reset has it, but for the die, the clock and the commands that wait (kept, log entry 14). -/
def Obligations.PinReset : Prop :=
  ∀ (s : State) (spd1 spd0 : Bool), ∃ t : State, exec .pinReset s = .next t ∧ t.link.resetHeld = true ∧
    (∀ b, exec (.byteTaken b) t = .next t) ∧ exec .frameBegin t = .next t ∧
    exec (.pinResetEnd spd1 spd0) t = .next { State.reset with
      pending := s.pending, now := s.now, mem := s.mem, wrongBits := s.wrongBits,
      link := { State.reset.link with lineRate := match spd1, spd0 with
        | false, false => .mbaud1
        | false, true => .mbaud2
        | true, false => .mbaud4
        | true, true => .mbaud8 } }

/-! ## Frames -/

/-- R1: column, bank and row of an address; a burst and a page lie in one bank and one row; the next page lies in the
next bank; the manual's examples. -/
def Obligations.AddressMap : Prop :=
  (∀ a, colOf a = a % 1024 ∧ (bankOf a).val = a / 1024 % 8 ∧ rowOf a = a / 8192) ∧
  (∀ a i, a % 32 = 0 → i < 32 → bankOf (a + i) = bankOf a ∧ rowOf (a + i) = rowOf a) ∧
  (∀ a i, a % 1024 = 0 → i < 1024 → bankOf (a + i) = bankOf a ∧ rowOf (a + i) = rowOf a) ∧
  (∀ a, a % 1024 = 0 → (bankOf (a + 1024)).val = ((bankOf a).val + 1) % 8 ∧
    rowOf (a + 1024) = if (bankOf a).val = 7 then rowOf a + 1 else rowOf a) ∧
  [0, 1023, 1024, 7200, 8192, 67108863].map (fun a => ((bankOf a).val, rowOf a, colOf a)) =
    [(0, 0, 0), (0, 0, 1023), (1, 0, 0), (7, 0, 32), (0, 1, 0), (7, 8191, 1023)]

/-- R166: the CRC is the remainder by 0x1021 from 0xFFFF, each byte most significant bit first, with no final inversion,
over LEN and body and not SYNC; its check value; in frames sent and in frames received. -/
def Obligations.FrameCrc : Prop :=
  crc16 [] = 0xFFFF#16 ∧
  (∀ bytes b, crc16 (bytes ++ [b]) =
    ([7, 6, 5, 4, 3, 2, 1, 0].map b.getLsbD).foldl
      (fun (c : BitVec 16) (bit : Bool) => if c.msb ^^ bit then (c <<< 1) ^^^ 0x1021#16 else c <<< 1) (crc16 bytes)) ∧
  crc16 [0x31#8, 0x32#8, 0x33#8, 0x34#8, 0x35#8, 0x36#8, 0x37#8, 0x38#8, 0x39#8] = 0x29B1#16 ∧
  (∀ kind tag p, ∃ lo hi, frameBytes kind tag p = [0xA5#8] ++ u16 (p.length + 2) ++ [kind, tag] ++ p ++ [lo, hi] ∧
    hi ++ lo = crc16 (u16 (p.length + 2) ++ [kind, tag] ++ p)) ∧
  (∀ r : Response, r.frame = frameBytes (responseKind r.kind) r.tag (u8 r.status.code ++ r.data)) ∧
  (∀ n : Notice, n.frame = frameBytes 0xC0#8 n.seq n.body.payload) ∧
  (∀ (kind tag lo hi : Byte) (p : List Byte), ((RxState.check (kind :: tag :: p) (some lo)).takeByte hi).2 =
    if crc16 (u16 (p.length + 2) ++ [kind, tag] ++ p) = hi ++ lo then .good kind tag p else .crcError)

/-- A receiver in HUNT that takes the bytes of a frame, one after another, reads back its KIND, TAG and payload at the
last of them and is in HUNT again, for every frame that can be sent. -/
def Obligations.FrameRoundTrip : Prop :=
  ∀ (kind tag : Byte) (p : List Byte), p.length ≤ 298 →
    RxState.hunt.takeAll (frameBytes kind tag p) = (.hunt, .good kind tag p)

/-- A request command is the arrival of its frame's bytes (log entries 1 and 16): taken one by one by a receiver in HUNT,
they do what the command does. -/
def Obligations.BytesAreTheRequest : Prop :=
  ∀ (i : Instr) (kind tag : Byte) (p : List Byte) (s : State), i.wellFormed = true →
    i.frame? = some (kind, tag, p) → s.link.rx = .hunt → s.link.receives = true →
    takeBytes (frameBytes kind tag p) s = exec i s

/-- Each byte a receiving link takes, in each state of the receiver (R167), with the inter-byte timer (R168). The last byte
of a good frame does what the command of that frame does (log entry 16); every other byte changes only the link. -/
def Obligations.ByteMoves : Prop :=
  ∀ (s : State) (b : Byte), s.link.receives = true →
    (s.link.rx = .hunt → b ≠ 0xA5#8 →
      exec (.byteTaken b) s = .next (s.setLink { s.link with rx := .hunt, timer := none })) ∧
    (s.link.rx = .hunt → b = 0xA5#8 →
      exec (.byteTaken b) s = .next (s.setLink { s.link with rx := .length none, timer := some s.now })) ∧
    (s.link.rx = .length none →
      exec (.byteTaken b) s = .next (s.setLink { s.link with rx := .length (some b), timer := some s.now })) ∧
    (∀ lo, s.link.rx = .length (some lo) → 2 ≤ lo.toNat + 256 * b.toNat ∧ lo.toNat + 256 * b.toNat ≤ 300 →
      exec (.byteTaken b) s = .next
        (s.setLink { s.link with rx := .body (lo.toNat + 256 * b.toNat) [], timer := some s.now })) ∧
    (∀ lo, s.link.rx = .length (some lo) → lo.toNat + 256 * b.toNat < 2 ∨ 300 < lo.toNat + 256 * b.toNat →
      exec (.byteTaken b) s = .next (s.setLink { s.link with
        rx := .hunt, timer := none,
        counters := { s.link.counters with oversizes := satAdd 65535 1 s.link.counters.oversizes } })) ∧
    (∀ len got, s.link.rx = .body len got → got.length + 1 < len →
      exec (.byteTaken b) s = .next (s.setLink { s.link with rx := .body len (got ++ [b]), timer := some s.now })) ∧
    (∀ len got, s.link.rx = .body len got → len ≤ got.length + 1 →
      exec (.byteTaken b) s = .next (s.setLink { s.link with rx := .check (got ++ [b]) none, timer := some s.now })) ∧
    (∀ got, s.link.rx = .check got none →
      exec (.byteTaken b) s = .next (s.setLink { s.link with rx := .check got (some b), timer := some s.now })) ∧
    (∀ got lo, s.link.rx = .check got (some lo) → crc16 (u16 got.length ++ got) ≠ b ++ lo →
      exec (.byteTaken b) s = .next (s.setLink { s.link with
        rx := .hunt, timer := none,
        counters := { s.link.counters with crcErrors := satAdd 65535 1 s.link.counters.crcErrors } })) ∧
    (∀ kind tag p lo i, s.link.rx = .check (kind :: tag :: p) (some lo) →
      crc16 (u16 (p.length + 2) ++ kind :: tag :: p) = b ++ lo → i.wellFormed = true →
      i.frame? = some (kind, tag, p) → exec (.byteTaken b) s = exec i s)

/-- The receiver's discards (11.3): CRC_ERROR, OVERSIZE and INTER_BYTE_TIMEOUT count one, drop the partial frame and
stop the timer. The expiry is due 1 ms after the last byte (log entry 11); where nothing is discarded nothing changes (log
entry 1). -/
def Obligations.ReceiverDiscards : Prop :=
  (∀ (s : State) (bytes : List Byte), s.link.receives = true →
    ((s.link.rx.takeAll bytes).2 = .crcError → exec (.crcError bytes) s = .next (s.setLink { s.link with
      rx := .hunt, timer := none,
      counters := { s.link.counters with crcErrors := satAdd 65535 1 s.link.counters.crcErrors } })) ∧
    ((s.link.rx.takeAll bytes).2 ≠ .crcError → exec (.crcError bytes) s = .next s) ∧
    ((s.link.rx.takeAll bytes).2 = .oversize → exec (.oversize bytes) s = .next (s.setLink { s.link with
      rx := .hunt, timer := none,
      counters := { s.link.counters with oversizes := satAdd 65535 1 s.link.counters.oversizes } })) ∧
    ((s.link.rx.takeAll bytes).2 ≠ .oversize → exec (.oversize bytes) s = .next s)) ∧
  (∀ (s : State) (bytes : List Byte), s.link.receives = false →
    exec (.crcError bytes) s = .next s ∧ exec (.oversize bytes) s = .next s) ∧
  (∀ (s : State) (last : Nat), s.link.timer = some last →
    exec .interByteTimeout s = .next ((s.setNow (max s.now (last + 1000000))).setLink { s.link with
      rx := .hunt, timer := none,
      counters := { s.link.counters with timeouts := satAdd 65535 1 s.link.counters.timeouts } })) ∧
  (∀ s : State, s.link.timer = none → exec .interByteTimeout s = .next s)

/-- A break, in one event (R176, R175, R164, R169): the receiver in HUNT, the frame on the line cut off, the response list
and the refusal slot empty, the entries not WORKING gone and the others orphaned, the send position at the head; where the entry of a RESTART leaves with it, the part returns to READY (R181).
Until RXD has returned high no byte is taken and no second break is seen. -/
def Obligations.BreakAtTheLink : Prop :=
  ∀ s : State, s.link.receives = true → ∃ t,
    t = (s.setLink { s.link with
        rx := .hunt, timer := none, rxdLow := true, tx := none, refusal := none, readyList := [],
        table := (s.link.table.filter fun e => e.stage = .working).map fun e => { e with orphaned := true },
        counters := { s.link.counters with breaks := satAdd 65535 1 s.link.counters.breaks } }).setNotices
      { s.notices with sendPos := 0 } ∧
    ((∀ e ∈ s.link.table, s.link.restartTag = some e.tag → e.stage = .working) → exec .linkBreak s = .next t) ∧
    ((∃ e ∈ s.link.table, s.link.restartTag = some e.tag ∧ e.stage ≠ .working) →
      exec .linkBreak s = .next t.readyReturn) ∧
    (∀ b, exec (.byteTaken b) t = .next t) ∧ exec .linkBreak t = .next t ∧
    exec .rxdReturnedHigh t = .next (t.setLink { t.link with rxdLow := false })

/-! ## Dispatch -/

/-- A request whose frame cannot arrive (the receiver takes nothing, or is inside another frame, or no frame can hold the
payload) leaves the part as it is: the model's choice, log entry 1. -/
def Obligations.RequestNeedsItsFrame : Prop :=
  ∀ (i : Instr) (kind tag : Byte) (p : List Byte) (s : State), i.frame? = some (kind, tag, p) →
    s.link.frameCompletes kind tag p = false → exec i s = .next s

/-- R172: TAG_IN_USE, and BUSY at a full table, fill the refusal slot, or are dropped and counted where it is full; the
slot empties when the transmitter begins its frame, at a break and at a pin reset. -/
def Obligations.RefusalSlot : Prop :=
  (∀ (i : Instr) (kind tag : Byte) (p : List Byte) (s : State) (st : Status), i.wellFormed = true →
    i.frame? = some (kind, tag, p) → s.link.frameCompletes kind tag p = true →
    (s.link.tagInUse tag = true ∧ st = .tagInUse) ∨
      (s.link.tagInUse tag = false ∧ 8 ≤ s.link.table.length ∧ st = .busy) →
    (s.link.refusal = none → exec i s = .next (s.setLink { s.link.frameReceived with
      refusal := some { tag := tag, kind := kind, status := st, data := [] } })) ∧
    (s.link.refusal ≠ none → exec i s = .next (s.setLink { s.link.frameReceived with
      counters := { s.link.frameReceived.counters with
        refusalsDropped := satAdd 65535 1 s.link.counters.refusalsDropped } }))) ∧
  (∀ (s : State) (r : Response), s.link.refusal = some r → s.link.tx = none → s.link.resetHeld = false →
    exec .frameBegin s = .next (s.setLink { s.link with
      refusal := none, tx := some { source := .refusal, bytes := r.frame } })) ∧
  (∀ s t, exec .pinReset s = .next t → t.link.refusal = none) ∧
  (∀ s t, s.link.receives = true → exec .linkBreak s = .next t → t.link.refusal = none)

/-- Checks 3 to 5 of the dispatch (R170, R173): BAD_KIND, BAD_LENGTH, and NOT_READY or WRONG_STATE by the part's
readiness; each answered at once and changing nothing else. -/
def Obligations.ChecksBeforeTheOwner : Prop :=
  ∀ (i : Instr) (kind tag : Byte) (p : List Byte) (s : State), i.wellFormed = true →
    i.frame? = some (kind, tag, p) → s.takes kind tag p = true →
    (kind ∉ requestCodes → exec i s = .next (s.answered kind tag .badKind [])) ∧
    (kind ∈ requestCodes → lengthOk kind p = false → exec i s = .next (s.answered kind tag .badLength [])) ∧
    (kind ∈ requestCodes → lengthOk kind p = true → kind ∉ alwaysDispatched → s.link.readiness = .bringup →
      exec i s = .next (s.answered kind tag .notReady [])) ∧
    (kind ∈ requestCodes → lengthOk kind p = true → kind ∉ alwaysDispatched → s.link.readiness = .restarting →
      exec i s = .next (s.answered kind tag (if kind = 0x04#8 then .wrongState else .notReady) []))

/-- In FAILED every request but IDENTIFY, ECHO, LINK_STATS, NOTICE_ACK, NOTICE_REPLAY, SCHED_QUERY, ROW_POLICY,
RETENTION_RATE and CHECK_STATS is refused with DRAM_FAULT before any check of its owner's, and changes nothing (R55). -/
def Obligations.FailedRefuses : Prop :=
  ∀ (i : Instr) (kind tag : Byte) (p : List Byte) (s : State), i.wellFormed = true →
    i.frame? = some (kind, tag, p) → s.takes kind tag p = true → s.link.readiness = .ready →
    s.sched.mode = .failed → kind ∈ requestCodes → lengthOk kind p = true → kind ∉ takenInFailed →
    exec i s = .next (s.answered kind tag .dramFault [])

/-! ## The control link's own requests -/

/-- IDENTIFY and ECHO, in every readiness and every mode, change nothing (R178). The widths of IDENTIFY's fields are read
from R183 (log entry 9). -/
def Obligations.IdentifyAndEcho : Prop :=
  (∀ (tag : Byte) (s : State), s.takes 0x01#8 tag [] = true →
    exec (.identify tag []) s = .next (s.answered 0x01#8 tag .ok
      ([0x5C#8, 0x06#8] ++ [0x88#8, 0x02#8] ++ [1#8] ++ [6#8, 16#8, 16#8, 4#8, 2#8] ++ [0#8, 0#8, 0#8, 4#8] ++
        [8#8, 32#8] ++ match s.link.lineRate with
          | .mbaud1 => [0#8]
          | .mbaud2 => [1#8]
          | .mbaud4 => [2#8]
          | .mbaud8 => [3#8]))) ∧
  (∀ (tag : Byte) (p : List Byte) (s : State), s.takes 0x02#8 tag p = true → p.length ≤ 297 →
    exec (.echo tag p) s = .next (s.answered 0x02#8 tag .ok p)) ∧
  (∀ (tag : Byte) (p : List Byte) (s : State), s.takes 0x02#8 tag p = true → p.length = 298 →
    exec (.echo tag p) s = .next (s.answered 0x02#8 tag .badLength []))

/-- LINK_STATS (R179): the values after the frame's own acceptance, before any clearing; any clear but 0 and 1 is
BAD_VALUE. The code of the readiness is read from R183 (log entry 9). -/
def Obligations.LinkStats : Prop :=
  ∀ (tag b : Byte) (s : State), s.takes 0x03#8 tag [b] = true → ∃ data,
    data = u16 (satAdd 65535 1 s.link.counters.goodFrames) ++ u16 s.link.counters.crcErrors ++
      u16 s.link.counters.oversizes ++ u16 s.link.counters.timeouts ++ u16 s.link.counters.breaks ++
      u16 s.link.counters.refusalsDropped ++ u8 (s.link.table.length + 1) ++
      u8 (s.link.table.countP fun e => e.orphaned) ++ u8 s.link.readiness.code ∧
    (b = 0#8 → exec (.linkStats tag [b]) s = .next (s.answered 0x03#8 tag .ok data)) ∧
    (b = 1#8 → exec (.linkStats tag [b]) s = .next (s.setLink { s.link.answered 0x03#8 tag .ok data with
      counters :=
        { goodFrames := 0, crcErrors := 0, oversizes := 0, timeouts := 0, breaks := 0, refusalsDropped := 0 } })) ∧
    (b ≠ 0#8 → b ≠ 1#8 → exec (.linkStats tag [b]) s = .next (s.answered 0x03#8 tag .badValue []))

/-- A new notice joins the tail with the next sequence number where the queue is open and holds fewer than 32; else it is
dropped and counted (R157). The send position, kept as the number of notices before it, is the new notice where it was
the tail. -/
def Obligations.PostingANotice : Prop :=
  ∀ (q : NoticeQueue) (b : NoticeBody),
    (q.isOpen = true → q.held.length < 32 →
      q.post b = { q with held := q.held ++ [{ seq := q.nextSeq, body := b }], nextSeq := q.nextSeq + 1#8 }) ∧
    (q.isOpen = false ∨ 32 ≤ q.held.length → q.post b = { q with lost := satAdd 65535 1 q.lost })

/-- NOTICE_ACK (R162, R158), in every readiness and mode: NOT_HELD with how the queue stands and nothing changed; else
the notices up to the named one are removed, the send position moves to the oldest left where it was among them,
NOTICES_LOST joins where notices were lost, and ATTN is released where the queue is then empty. With an empty queue the
number that NOT_HELD carries after the clear presence flag is 0 (log entry 21). -/
def Obligations.NoticeAck : Prop :=
  ∀ (tag seq : Byte) (s : State), s.takes 0x08#8 tag [seq] = true →
    ((∀ n ∈ s.notices.held, n.seq ≠ seq) →
      exec (.noticeAck tag [seq]) s = .next (s.answered 0x08#8 tag .notHeld
        (u8 s.notices.held.length ++ match s.notices.held with
          | [] => [0#8, 0#8]
          | n :: _ => [1#8, n.seq]))) ∧
    (∀ older n younger, s.notices.held = older ++ n :: younger → n.seq = seq → (∀ m ∈ older, m.seq ≠ seq) →
      ∃ q t, exec (.noticeAck tag [seq]) s = .next t ∧
        t = (s.setNotices q).answered 0x08#8 tag .ok (u8 (older.length + 1) ++ u8 q.held.length) ∧
        q.isOpen = s.notices.isOpen ∧ q.sendPos = s.notices.sendPos - (older.length + 1) ∧ q.lost = 0 ∧
        (s.notices.lost = 0 → q.held = younger ∧ q.nextSeq = s.notices.nextSeq) ∧
        (s.notices.lost ≠ 0 →
          q.held = younger ++ [{ seq := s.notices.nextSeq, body := .noticesLost s.notices.lost }] ∧
          q.nextSeq = s.notices.nextSeq + 1#8) ∧
        t.attn = decide (q.held ≠ []))

/-- NOTICE_REPLAY (R161), in every readiness and mode: NOT_HELD and nothing changed; else the send position moves back to
the named notice, never forward, and is reported with the number of notices from it to the tail. -/
def Obligations.NoticeReplay : Prop :=
  ∀ (tag seq : Byte) (s : State), s.takes 0x09#8 tag [seq] = true →
    ((∀ n ∈ s.notices.held, n.seq ≠ seq) →
      exec (.noticeReplay tag [seq]) s = .next (s.answered 0x09#8 tag .notHeld [])) ∧
    (∀ older n younger, s.notices.held = older ++ n :: younger → n.seq = seq → (∀ m ∈ older, m.seq ≠ seq) →
      ∃ k m, k = min older.length s.notices.sendPos ∧ s.notices.held[k]? = some m ∧
        exec (.noticeReplay tag [seq]) s = .next ((s.setNotices { s.notices with sendPos := k }).answered 0x09#8 tag .ok
          ([1#8, m.seq] ++ u8 (s.notices.held.length - k))))

/-- The transmitter (R174, R160): IDLE and out of reset it begins the refusal, else the oldest ready response, whose
entry passes to SENDING, else the notice at the send position, which moves on; at the end of a frame it is IDLE, and a
response's entry leaves the table, the RESTART's entry taking the part back to READY (R181). A busy transmitter begins
nothing, and with nothing to send nothing changes (log entry 1). The frames: a response's KIND is its request's and 0x80, or
0xFF for a KIND that is no request code (R174), its payload the status code and the data; a notice's KIND is 0xC0, its TAG
the sequence number, its payload the kind code and the fields (R183). -/
def Obligations.Transmitter : Prop :=
  (∀ (r : Response) (k : Nat),
    [Status.ok, .busy, .tagInUse, .badKind, .badLength, .badValue, .notReady, .queueFull, .noRegion, .outOfBounds, .alignment,
      .overlap, .inUse, .portNotBound, .regionBusy, .ringFull, .protected_, .wrongState, .dataError, .notHeld, .restarted,
      .dramFault][k]? = some r.status →
    r.frame = frameBytes
      (if r.kind ∈ [0x01#8, 0x02#8, 0x03#8, 0x04#8, 0x08#8, 0x09#8, 0x10#8, 0x11#8, 0x12#8, 0x13#8, 0x14#8, 0x15#8, 0x16#8,
        0x17#8, 0x18#8, 0x19#8, 0x20#8, 0x21#8, 0x22#8, 0x23#8, 0x24#8, 0x25#8, 0x26#8, 0x28#8, 0x29#8, 0x2A#8, 0x2B#8,
        0x30#8, 0x31#8, 0x32#8, 0x33#8] then r.kind + 0x80#8 else 0xFF#8) r.tag (u8 k ++ r.data)) ∧
  (∀ n : Notice, n.frame = frameBytes 0xC0#8 n.seq (match n.body with
    | .ready .powerOn => [1#8, 0#8]
    | .ready .restart => [1#8, 1#8]
    | .dramFault => [2#8, 1#8]
    | .descriptorDone c tag st done runs => [3#8] ++ u8 c.val ++ u16 tag.toNat ++
        (match st with
          | .done => [0#8]
          | .aborted => [1#8]
          | .dataError => [2#8]
          | .discarded => [3#8]) ++ u32 done ++ u16 runs
    | .checkFault a (.ch c) => [4#8] ++ u32 a ++ u8 c.val
    | .checkFault a .lau => [4#8] ++ u32 a ++ [6#8]
    | .portOverflow p k => [5#8] ++ u8 p.val ++ u16 k
    | .portUnderrun p k => [6#8] ++ u8 p.val ++ u16 k
    | .ringHighWater r fill => [7#8] ++ u8 r.val ++ u32 fill
    | .markSaturated m => [8#8] ++ u8 m.val
    | .refreshMissed k => [9#8] ++ u16 k
    | .noticesLost k => [10#8] ++ u16 k)) ∧
  (∀ s : State, s.link.tx = none → s.link.resetHeld = false →
    (∀ r, s.link.refusal = some r → exec .frameBegin s = .next (s.setLink { s.link with
      refusal := none, tx := some { source := .refusal, bytes := r.frame } })) ∧
    (∀ r rest, s.link.refusal = none → s.link.readyList = r :: rest →
      exec .frameBegin s = .next (s.setLink { s.link with
        readyList := rest, tx := some { source := .response r.tag, bytes := r.frame },
        table := s.link.table.map fun e => if e.tag = r.tag then { e with stage := .sending } else e })) ∧
    (∀ n, s.link.refusal = none → s.link.readyList = [] → s.notices.held[s.notices.sendPos]? = some n →
      exec .frameBegin s = .next ((s.setLink { s.link with
        tx := some { source := .notice n.seq, bytes := n.frame } }).setNotices
          { s.notices with sendPos := s.notices.sendPos + 1 })) ∧
    (s.link.refusal = none → s.link.readyList = [] → s.notices.held[s.notices.sendPos]? = none →
      exec .frameBegin s = .next s)) ∧
  (∀ (s : State) (f : TxFrame), s.link.tx = some f →
    exec .frameBegin s = .next s ∧
    ((∀ tag, f.source ≠ .response tag) → exec .frameEnd s = .next (s.setLink { s.link with tx := none })) ∧
    (∀ tag, f.source = .response tag → ∃ l, l = { s.link with
        tx := none, table := s.link.table.filter fun e => e.tag ≠ tag } ∧
      (s.link.restartTag ≠ some tag → exec .frameEnd s = .next (s.setLink l)) ∧
      (s.link.restartTag = some tag → exec .frameEnd s = .next
        (((s.setLink { l with readiness := .ready, restartTag := none }).setNotices
          { s.notices with isOpen := true }).post (.ready .restart)))))

/-! ## RESTART -/

/-- RESTART, taken in READY (R180): the queued LAU requests leave and are answered RESTARTED, in order and before the one in
service (log entry 20), which admits nothing more and ends at once where it holds no entry (R154). No admission is made
until the part is ready again. With entries in the burst list nothing else changes, but what the end of that service
changes and the readiness the requesters report (log entry 15); with none the blocks are reset at once (log entries 13, 14),
the notice queue is closed and empty, and the response OK is ready. State.handOver and State.endService are what
Obligations.LauCompletions says. (The RESTART's tag is free, so no request of the LAU carries it: R169.) -/
def Obligations.RestartTaken : Prop :=
  (∀ (s w : State), w = s.lau.queue.foldl (fun x r => x.handOver r.tag .restarted []) (s.setLau { s.lau with queue := [] }) →
    (s.lau.service = none → s.lauRestart = w) ∧
    (∀ (sv : LauService) (x : State), s.lau.service = some sv →
      x = w.setLau { w.lau with
        service := some { sv with toAdmit := sv.admitted, cutShort := decide (sv.admitted < sv.toAdmit) } } →
      ((s.sched.list.countP fun e => e.owner = .requester .lau) ≠ 0 → s.lauRestart = x) ∧
      ((s.sched.list.countP fun e => e.owner = .requester .lau) = 0 → s.lauRestart = x.endService))) ∧
  (∀ (tag : Byte) (s : State), s.takes 0x04#8 tag [] = true → s.serving = true →
    ∃ u t : State, exec (.restart tag []) s = .next t ∧ t.link.readiness = .restarting ∧ t.link.restartTag = some tag ∧
      t.lau.queue = [] ∧ exec .admission t = .next t ∧
      u = (s.working 0x04#8 tag).setLink { (s.working 0x04#8 tag).link with
        readiness := .restarting, restartTag := some tag } ∧
      (s.sched.list ≠ [] → t = u.lauRestart.reportAll ∧
        t.sched = s.sched ∧ t.check = s.check ∧ t.marks = s.marks ∧ t.captures = s.captures ∧
        t.playouts = s.playouts ∧ t.notices = s.notices ∧ t.mem = s.mem ∧ t.wrongBits = s.wrongBits ∧ t.now = s.now ∧
        (s.lau.service = none ∨ (s.sched.list.countP fun e => e.owner = .requester .lau) ≠ 0 →
          t.regions = s.regions ∧ t.channels = s.channels ∧ t.arb = s.arb.record t.readinessTable ∧
          t.lau = { s.lau with queue := [], service := s.lau.service.map fun sv =>
            { sv with toAdmit := sv.admitted, cutShort := decide (sv.admitted < sv.toAdmit) } } ∧
          ∀ kind : LauRequest → Byte, (s.lau.queue.map fun r => r.tag).Nodup →
            (∀ r ∈ s.lau.queue, s.link.working? r.tag =
              some { tag := r.tag, kind := kind r, stage := .working, orphaned := false }) →
            t.link.readyList = s.link.readyList ++ s.lau.queue.map fun r =>
              { tag := r.tag, kind := kind r, status := .restarted, data := [] })) ∧
      (s.sched.list = [] → BlocksReset s t ∧
        t.notices = { held := [], nextSeq := 0, sendPos := 0, lost := 0, isOpen := false } ∧
        ((∀ r ∈ s.lau.queue, r.tag ≠ tag) → (∀ sv, s.lau.service = some sv → sv.request.tag ≠ tag) →
          (∃ older, t.link.readyList = older ++ [{ tag := tag, kind := 0x04#8, status := .ok, data := [] }]) ∧
          { tag := tag, kind := 0x04#8, stage := .answered, orphaned := false } ∈ t.link.table)))

/-- RESTART_RESET (R181): RESTARTING, the burst list empty and the RESTART's entry WORKING, the blocks are reset and the
response is handed over; where the entry is orphaned it leaves, and the part returns to READY with READY the first
notice. Otherwise, and once the entry is no longer WORKING, nothing changes (log entry 7). What the reset leaves of the
reference counts, the LAU and the outputs is log entries 13 and 14. -/
def Obligations.RestartCompletes : Prop :=
  (∀ (s : State) (tag : Byte) (e : OutEntry), s.link.restartTag = some tag → s.link.readiness = .restarting →
    s.sched.list = [] → s.link.working? tag = some e → s.lau.queue = [] → s.lau.service = none →
    ∃ t : State, exec .restartReset s = .next t ∧ BlocksReset s t ∧
      (e.orphaned = false → t.link = { s.link with
          table := s.link.table.map fun x => if x.tag = e.tag then { x with stage := .answered } else x,
          readyList := s.link.readyList ++ [{ tag := e.tag, kind := e.kind, status := .ok, data := [] }] } ∧
        t.notices = { held := [], nextSeq := 0, sendPos := 0, lost := 0, isOpen := false }) ∧
      (e.orphaned = true → t.link = { s.link with
          table := s.link.table.filter fun x => x.tag ≠ tag, readiness := .ready, restartTag := none } ∧
        t.notices =
          { held := [{ seq := 0, body := .ready .restart }], nextSeq := 1, sendPos := 0, lost := 0, isOpen := true })) ∧
  (∀ s : State, s.link.restartTag = none ∨ s.link.readiness ≠ .restarting ∨ s.sched.list ≠ [] ∨
      (∃ tag, s.link.restartTag = some tag ∧ s.link.working? tag = none) → exec .restartReset s = .next s)

/-! ## Regions -/

/-- REGION_DEFINE (R4, its fields as R183 lays them out): the checks in their order, a flag for link writes other than 0
and 1 among the first (log entry 12), and the slot it makes. -/
def Obligations.RegionDefine : Prop :=
  ∀ (tag : Byte) (s : State) (r base length threshold : Nat) (kind lw policy : Byte),
    r < 256 → base < 4294967296 → length < 4294967296 → threshold < 65536 →
    ∀ p, p = u8 r ++ u32 base ++ u32 length ++ [kind, lw, policy] ++ u16 threshold →
    s.takes 0x10#8 tag p = true → s.serving = true →
    ((15 < r ∨ 1 < kind.toNat ∨ 1 < lw.toNat ∨ length = 0 ∨
        (kind = 1#8 ∧ (1 < policy.toNat ∨ length < threshold * 1024)) →
      exec (.regionDefine tag p) s = .next (s.answered 0x10#8 tag .badValue [])) ∧
    (∀ id : RegionId, id.val = r → kind.toNat ≤ 1 → lw.toNat ≤ 1 → length ≠ 0 →
      (kind = 1#8 → policy.toNat ≤ 1 ∧ threshold * 1024 ≤ length) →
      (base % 1024 ≠ 0 ∨ length % 1024 ≠ 0 →
        exec (.regionDefine tag p) s = .next (s.answered 0x10#8 tag .alignment [])) ∧
      (base % 1024 = 0 → length % 1024 = 0 →
        (67108864 < base + length →
          exec (.regionDefine tag p) s = .next (s.answered 0x10#8 tag .outOfBounds [])) ∧
        (base + length ≤ 67108864 → (s.region id).record ≠ none →
          exec (.regionDefine tag p) s = .next (s.answered 0x10#8 tag .inUse [])) ∧
        (base + length ≤ 67108864 → (s.region id).record = none →
          ((∃ q d, (s.region q).record = some d ∧ base < d.base + d.length ∧ d.base < base + length) →
            exec (.regionDefine tag p) s = .next (s.answered 0x10#8 tag .overlap [])) ∧
          ((∀ q d, (s.region q).record = some d → d.base + d.length ≤ base ∨ base + length ≤ d.base) →
            exec (.regionDefine tag p) s = .next ((s.setRegion id
              { refCount := 0,
                record := some
                  { base := base, length := length, linkWrite := decide (lw = 1#8),
                    kind := if kind = 0#8 then .linear else .ring
                      { policy := if policy = 0#8 then .stop else .overwrite, front := 0, back := 0,
                        committedFill := 0, readReserved := 0, writeList := [], lostBytes := 0,
                        thresholdKiB := threshold, armed := true, writerClaim := none, readerClaim := none,
                        writerWaiters := [], readerWaiters := [] } } }).answered 0x10#8 tag .ok []))))))

/-- REGION_DELETE (R5) and RING_RESET (R16): their answers, and what each leaves of the slot. RING_RESET goes by R16's
condition alone, whatever channels WAIT with a descriptor that names the ring (R99 read as naming R16, log entry 19). -/
def Obligations.RegionDeleteAndRingReset : Prop :=
  (∀ (tag b : Byte) (s : State), s.takes 0x11#8 tag [b] = true → s.serving = true →
    (15 < b.toNat → exec (.regionDelete tag [b]) s = .next (s.answered 0x11#8 tag .badValue [])) ∧
    (∀ r : RegionId, r.val = b.toNat →
      ((s.region r).record = none → exec (.regionDelete tag [b]) s = .next (s.answered 0x11#8 tag .noRegion [])) ∧
      (∀ d, (s.region r).record = some d →
        ((s.region r).refCount ≠ 0 ∨ (∃ g, d.kind = .ring g ∧ (g.writerClaim ≠ none ∨ g.readerClaim ≠ none ∨
            g.readReserved ≠ 0 ∨ g.writeList ≠ [])) →
          exec (.regionDelete tag [b]) s = .next (s.answered 0x11#8 tag .inUse [])) ∧
        ((s.region r).refCount = 0 → (∀ g, d.kind = .ring g → g.writerClaim = none ∧ g.readerClaim = none ∧
            g.readReserved = 0 ∧ g.writeList = []) →
          exec (.regionDelete tag [b]) s =
            .next ((s.setRegion r { refCount := 0, record := none }).answered 0x11#8 tag .ok []))))) ∧
  (∀ (tag b : Byte) (s : State), s.takes 0x13#8 tag [b] = true → s.serving = true →
    (15 < b.toNat → exec (.ringReset tag [b]) s = .next (s.answered 0x13#8 tag .badValue [])) ∧
    (∀ r : RegionId, r.val = b.toNat →
      ((s.region r).record = none → exec (.ringReset tag [b]) s = .next (s.answered 0x13#8 tag .noRegion [])) ∧
      (∀ d, (s.region r).record = some d →
        (d.kind = .linear → exec (.ringReset tag [b]) s = .next (s.answered 0x13#8 tag .badValue [])) ∧
        (∀ g, d.kind = .ring g →
          (g.writerClaim ≠ none ∨ g.readerClaim ≠ none ∨ g.readReserved ≠ 0 ∨ g.writeList ≠ [] →
            exec (.ringReset tag [b]) s = .next (s.answered 0x13#8 tag .inUse [])) ∧
          (g.writerClaim = none → g.readerClaim = none → g.readReserved = 0 → g.writeList = [] →
            exec (.ringReset tag [b]) s = .next ((s.setRegion r { s.region r with record := some { d with
              kind := .ring { g with front := 0, back := 0, committedFill := 0, lostBytes := 0, armed := true } } }).answered
                0x13#8 tag .ok []))))))

/-- REGION_QUERY (R6, encoded under R183): the fields of the slot as they stand, those that are absent zero, absent claim
holders none; nothing changes. -/
def Obligations.RegionQuery : Prop :=
  ∀ (tag b : Byte) (s : State), s.takes 0x12#8 tag [b] = true → s.serving = true →
    (15 < b.toNat → exec (.regionQuery tag [b]) s = .next (s.answered 0x12#8 tag .badValue [])) ∧
    (∀ r : RegionId, r.val = b.toNat →
      ((s.region r).record = none → exec (.regionQuery tag [b]) s = .next (s.answered 0x12#8 tag .ok
        ([0#8] ++ u8 (s.region r).refCount ++ List.replicate 35 0#8 ++ [0xFF#8, 0xFF#8] ++ [0#8, 0#8]))) ∧
      (∀ d, (s.region r).record = some d → d.kind = .linear →
        exec (.regionQuery tag [b]) s = .next (s.answered 0x12#8 tag .ok
          ([1#8] ++ u8 (s.region r).refCount ++ u32 d.base ++ u32 d.length ++ [0#8] ++ flagByte d.linkWrite ++
            List.replicate 25 0#8 ++ [0xFF#8, 0xFF#8] ++ [0#8, 0#8]))) ∧
      (∀ d g, (s.region r).record = some d → d.kind = .ring g →
        exec (.regionQuery tag [b]) s = .next (s.answered 0x12#8 tag .ok
          ([1#8] ++ u8 (s.region r).refCount ++ u32 d.base ++ u32 d.length ++ [1#8] ++ flagByte d.linkWrite ++
            (match g.policy with
              | .stop => [0#8]
              | .overwrite => [1#8]) ++
            u32 g.front ++ u32 g.back ++ u32 g.committedFill ++ u32 g.readReserved ++ u8 g.writeList.length ++
            u32 g.lostBytes ++ u16 g.thresholdKiB ++ flagByte g.armed ++
            [g.writerClaim, g.readerClaim].flatMap (fun h => match h with
              | none => [0xFF#8]
              | some (.ch c) => u8 c.val
              | some .lau => [6#8]) ++
            u8 g.writerWaiters.length ++ u8 g.readerWaiters.length))))

/-- The ring's accounting (R9 to R14): what a write reservation, a drop, a commit, a read reservation, a consumption and a
give-back do to a ring that keeps R8's law, and that they keep it. -/
def Obligations.RingAccounting : Prop :=
  ∀ (len : Nat) (g : Ring), g.SpaceLaw len → len % 32 = 0 →
    (32 ≤ g.space len → g.reserveWrite len = { g with
        writeList := g.writeList ++ [{ offset := g.back, accessed := false }],
        back := if g.back + 32 = len then 0 else g.back + 32 } ∧ (g.reserveWrite len).SpaceLaw len) ∧
    (g.space len < 32 → 32 ≤ g.committedFill → ∃ h, h = g.reserveWrite len ∧ h.SpaceLaw len ∧
      h.front = (if g.front + 32 = len then 0 else g.front + 32) ∧ h.committedFill = g.committedFill - 32 ∧
      h.back = (if g.back + 32 = len then 0 else g.back + 32) ∧ h.readReserved = g.readReserved ∧
      h.lostBytes = satAdd 4294967295 32 g.lostBytes ∧
      h.writeList = g.writeList ++ [{ offset := g.back, accessed := false }] ∧
      h.armed = (g.armed || decide (g.committedFill - 32 < g.thresholdKiB * 1024))) ∧
    (32 ≤ g.committedFill → ∃ h, h = g.reserveRead len ∧ h.SpaceLaw len ∧
      h.front = (if g.front + 32 = len then 0 else g.front + 32) ∧ h.committedFill = g.committedFill - 32 ∧
      h.readReserved = g.readReserved + 32 ∧ h.writeList = g.writeList ∧ h.back = g.back ∧
      h.armed = (g.armed || decide (g.committedFill - 32 < g.thresholdKiB * 1024))) ∧
    (∀ w rest, g.writeList = w :: rest → (∀ x ∈ rest, x.offset ≠ w.offset) →
      (g.commit w.offset).SpaceLaw len ∧
      ((∀ x y, rest = x :: y → x.accessed = false) → g.commit w.offset =
        { g with writeList := rest, committedFill := g.committedFill + 32 }) ∧
      (∀ x, rest = [x] → x.accessed = true → g.commit w.offset =
        { g with writeList := [], committedFill := g.committedFill + 64 }) ∧
      (∀ x, rest = [x] → w.accessed = false → g.commit x.offset =
        { g with writeList := [w, { x with accessed := true }] })) ∧
    (32 ≤ g.readReserved →
      g.consume = { g with readReserved := g.readReserved - 32 } ∧ g.consume.SpaceLaw len ∧
      (∀ off, g.giveBack off = { g with
          readReserved := g.readReserved - 32, committedFill := g.committedFill + 32, front := off } ∧
        (g.giveBack off).SpaceLaw len ∧
        (g.canGiveBack len off = true ↔ (if off + 32 = len then 0 else off + 32) = g.front)))

/-! ## The scheduler and the check unit -/

/-- ROW_POLICY (R38) and RETENTION_RATE (R49), in every mode, FAILED included: the settings, BAD_VALUE for any other
value, the last activity times of OPEN banks; the running interval is not changed, and the interval that begins at an
expiry has the length of the rate in force. -/
def Obligations.RowPolicyAndRetentionRate : Prop :=
  ([RowIdleLimit.off, .quarterUs, .halfUs, .us1, .us2, .us4, .us8, .us16].map RowIdleLimit.ns =
    [none, some 250, some 500, some 1000, some 2000, some 4000, some 8000, some 16000]) ∧
  State.reset.sched.rowIdleLimit = .us1 ∧ (∀ s : State, s.resetBlocks.sched.rowIdleLimit = .us1) ∧
  (∀ (tag b : Byte) (s : State), s.takes 0x15#8 tag [b] = true → s.link.readiness = .ready →
    (∀ l, [RowIdleLimit.off, .quarterUs, .halfUs, .us1, .us2, .us4, .us8, .us16][b.toNat]? = some l →
      ∃ v : Vector Bank 8, (∀ k, getAt v k = match s.sched.bank k with
          | .opened o => .opened { o with lastActivity := s.now }
          | x => x) ∧
        exec (.rowPolicy tag [b]) s =
          .next ((s.setSched { s.sched with rowIdleLimit := l, banks := v }).answered 0x15#8 tag .ok [])) ∧
    (8 ≤ b.toNat → exec (.rowPolicy tag [b]) s = .next (s.answered 0x15#8 tag .badValue []))) ∧
  (∀ (tag b : Byte) (s : State), s.takes 0x16#8 tag [b] = true → s.link.readiness = .ready →
    (∀ r, [RetentionRate.normal, .double][b.toNat]? = some r → exec (.retentionRate tag [b]) s =
      .next ((s.setSched { s.sched with retentionRate := r }).answered 0x16#8 tag .ok [])) ∧
    (2 ≤ b.toNat → exec (.retentionRate tag [b]) s = .next (s.answered 0x16#8 tag .badValue []))) ∧
  (∀ (d : Scheduler) (now : Nat),
    (d.retentionRate = .normal → (d.expireInterval now).interval = some { lengthNs := 7800, endsAt := now + 7800 }) ∧
    (d.retentionRate = .double → (d.expireInterval now).interval = some { lengthNs := 3900, endsAt := now + 3900 }))

/-- CHECK_STATS (R59), in every mode: the counts and the last uncorrectable address as they stand before any clearing. -/
def Obligations.CheckStats : Prop :=
  ∀ (tag b : Byte) (s : State), s.takes 0x17#8 tag [b] = true → s.link.readiness = .ready → ∃ data,
    data = u32 s.check.corrected ++ u32 s.check.uncorrectable ++ (match s.check.lastUncorrectable with
      | none => [0#8, 0#8, 0#8, 0#8, 0#8]
      | some a => [1#8] ++ u32 a) ∧
    (b = 0#8 → exec (.checkStats tag [b]) s = .next (s.answered 0x17#8 tag .ok data)) ∧
    (b = 1#8 → exec (.checkStats tag [b]) s = .next
      ((s.setCheck { corrected := 0, uncorrectable := 0, lastUncorrectable := none }).answered 0x17#8 tag .ok data)) ∧
    (1 < b.toNat → exec (.checkStats tag [b]) s = .next (s.answered 0x17#8 tag .badValue []))

/-- The queries SCHED_QUERY (R43), ARB_QUERY (R74), MARK_QUERY (R125), CHANNEL_QUERY (R100): answered OK with the block's
records as they stand, and nothing changed. The layouts are read from R183, CHANNEL_QUERY's by log entry 9. -/
def Obligations.Queries : Prop :=
  (∀ (tag : Byte) (s : State), s.takes 0x14#8 tag [] = true → s.link.readiness = .ready →
    exec (.schedQuery tag []) s = .next (s.answered 0x14#8 tag .ok
      (u8 s.sched.mode.code ++ flagByte s.sched.accessStart.isSome ++ u8 s.sched.rowIdleLimit.code ++
        u8 s.sched.refreshDebt ++ u8 s.sched.retentionRate.code ++ u16 s.sched.missedRefreshes ++
        u8 s.sched.list.length ++
        [Requester.ch 0, .ch 1, .ch 2, .ch 3, .ch 4, .ch 5, .lau].flatMap (fun r =>
          u8 (s.sched.list.countP fun e => e.owner = .requester r)) ++
        [(0 : BankId), 1, 2, 3, 4, 5, 6, 7].flatMap (fun b =>
          (match s.sched.bank b with
            | .closed => u8 0 ++ u16 0
            | .opening row _ => u8 1 ++ u16 row
            | .opened o => u8 2 ++ u16 o.row
            | .closing _ => u8 3 ++ u16 0) ++ u8 (s.sched.list.countP fun e => bankOf e.addr = b))))) ∧
  (∀ (tag : Byte) (s : State), s.takes 0x19#8 tag [] = true → s.serving = true →
    exec (.arbQuery tag []) s = .next (s.answered 0x19#8 tag .ok
      ([Requester.ch 0, .ch 1, .ch 2, .ch 3, .ch 4, .ch 5, .lau].flatMap (fun r => u8 (s.arb.classOf r).val) ++
        [Requester.ch 0, .ch 1, .ch 2, .ch 3, .ch 4, .ch 5, .lau].flatMap (fun r => u8 (s.arb.readinessOf r).code) ++
        [(0 : ClassId), 1, 2, 3].flatMap (fun k => u8 (s.arb.positionOf k).code ++ u8 (s.arb.runOf k)) ++
        match s.arb.holdOwner with
          | none => [0xFF#8]
          | some c => u8 c.val))) ∧
  (∀ (tag : Byte) (s : State), s.takes 0x26#8 tag [] = true → s.serving = true →
    exec (.markQuery tag []) s = .next (s.answered 0x26#8 tag .ok
      ((List.finRange 16).flatMap fun m => u8 (s.mark m).value ++ flagByte (s.mark m).saturated ++
        u8 (s.mark m).waiters.length ++ match (s.mark m).waiters with
          | [] => [0#8, 0#8, 0#8]
          | w :: _ => [1#8] ++ u8 w.channel.val ++ u8 w.count))) ∧
  (∀ (tag b : Byte) (s : State), s.takes 0x23#8 tag [b] = true → s.serving = true →
    (5 < b.toNat → exec (.channelQuery tag [b]) s = .next (s.answered 0x23#8 tag .badValue [])) ∧
    (∀ (c : ChannelId) (x : Channel), c.val = b.toNat → x = s.channel c →
      ∀ (waits : Role → RegionId → Prop) (claim : List Byte),
      (∀ role r, waits role r ↔ x.state = .waiting .claim ∧ ∃ cur off d g, x.current = some cur ∧
        s.ring? r = some (d, g) ∧ ((role = .reader ∧ cur.desc.source = .region r off ∧ c ∈ g.readerWaiters) ∨
          (role = .writer ∧ cur.desc.dest = .region r off ∧ c ∈ g.writerWaiters))) →
      ((∃ r, waits .reader r ∧ claim = [1#8] ++ u8 r.val ++ [1#8]) ∨
        (∃ r, waits .writer r ∧ (∀ q, ¬ waits .reader q) ∧ claim = [1#8] ++ u8 r.val ++ [0#8]) ∨
        ((∀ role r, ¬ waits role r) ∧ claim = [0#8, 0#8, 0#8])) →
      exec (.channelQuery tag [b]) s = .next (s.answered 0x23#8 tag .ok
        ((match x.state with
          | .idle => [0#8]
          | .waiting _ => [1#8]
          | .running => [2#8]
          | .stopping => [3#8]
          | .halted _ => [4#8]) ++
        (match x.state with
          | .waiting .mark => [1#8, 0#8]
          | .waiting .claim => [1#8, 1#8]
          | _ => [0#8, 0#8]) ++
        (match x.state, x.current.bind fun cur => cur.desc.wait with
          | .waiting .mark, some w =>
            [1#8] ++ u8 w.mark.val ++ u8 (((s.mark w.mark).waiters.takeWhile fun k => k.channel ≠ c).length + 1)
          | _, _ => [0#8, 0#8, 0#8]) ++ claim ++
        (match x.state with
          | .halted .stopped => [1#8, 0#8]
          | .halted .fault => [1#8, 1#8]
          | _ => [0#8, 0#8]) ++
        (match x.stop with
          | .none => [0#8]
          | .afterCurrent => [1#8]
          | .now => [2#8]
          | .flush => [3#8]) ++
        (match x.current with
          | none => List.replicate 18 0#8
          | some cur => [1#8] ++ u16 cur.desc.tag.toNat ++ u32 cur.prog.sourceAdmitted ++ u32 cur.prog.admitted ++
              u32 cur.prog.done ++ u16 cur.prog.runsCompleted ++ flagByte cur.prog.fault) ++
        u8 (s.sched.list.countP fun e => e.owner = .requester (.ch c)) ++
        [x.slotA, x.slotB].flatMap (fun k => match k with
          | .empty => [0#8]
          | .reserved _ => [1#8]
          | .full _ _ => [2#8]) ++
        u8 x.pending.length ++ x.pending.flatMap fun d => u16 d.tag.toNat))))

/-- Bring-up (R51): SETTLE ends in CALIBRATE; CALIBRATE passes into CLEAR, with the first interval begun and the sweep's
first two entries in the list, or fails into FAILED, with DRAM_FAULT posted and requests reaching their owners. In
another stage neither event does anything (log entry 1). The sweep admits its next entry (R52, R53) unless a refresh is
owed (log entry 8), no address is left, or the list has no place for it; Scheduler.admitEntry is what
Obligations.Admission says. -/
def Obligations.BringUp : Prop :=
  (∀ s : State, s.sched.stage = some .settle →
    exec .settleExpiry s = .next (s.setSched { s.sched with stage := some .calibrate })) ∧
  (∀ s : State, s.sched.stage ≠ some .settle → exec .settleExpiry s = .next s) ∧
  (∀ s : State, s.sched.stage = some .calibrate →
    exec (.calibrationCompletion false) s = .next ((((s.setSched { s.sched with
      stage := none, mode := .failed }).post .dramFault)).setLink { s.link with readiness := .ready }) ∧
    (s.sched.list = [] → s.sched.refreshDebt = 0 → (∀ b, s.sched.bank b = .closed) →
      ∃ d : Scheduler, exec (.calibrationCompletion true) s = .next (s.setSched d) ∧ d.mode = s.sched.mode ∧
        d.stage = some .clear ∧ d.sweepPos = 64 ∧
        d.interval = some
          { lengthNs := s.sched.retentionRate.intervalNs, endsAt := s.now + s.sched.retentionRate.intervalNs } ∧
        d.list = [0, 32].map (fun a =>
          { owner := .scheduler, transfer := .write (List.replicate 32 0#8), addr := a, closeAfter := true,
            ringRef := none, state := .waitingBank }))) ∧
  (∀ (s : State) (pass : Bool), s.sched.stage ≠ some .calibrate →
    exec (.calibrationCompletion pass) s = .next s) ∧
  (∀ d : Scheduler,
    (d.refreshDebt = 0 → d.sweepPos < 67108864 → (d.list.countP fun e => e.owner = .scheduler) < 2 → d.list.length < 8 →
      d.sweepAdmit = Scheduler.admitEntry
        { owner := .scheduler, transfer := .write (List.replicate 32 0#8), addr := d.sweepPos, closeAfter := true,
          ringRef := none, state := .waitingBank }
        { d with sweepPos := d.sweepPos + 32 }) ∧
    (1 ≤ d.refreshDebt ∨ 67108864 ≤ d.sweepPos ∨ 2 ≤ (d.list.countP fun e => e.owner = .scheduler) ∨
      8 ≤ d.list.length → d.sweepAdmit = d))

/-- An interval expiry (R45), and in NORMAL the refresh tests that follow it (R46, R47). With no interval running nothing
changes (log entry 1). The moment of the expiry is the clock's (log entry 2). -/
def Obligations.IntervalExpiry : Prop :=
  (∀ s : State, s.sched.interval = none → exec .intervalExpiry s = .next s) ∧
  (∀ (s : State) (iv : Interval), s.sched.interval = some iv → ∃ (t : State) (d : Scheduler), exec .intervalExpiry s = .next t ∧
    t.now = max s.now iv.endsAt ∧
    d = { s.sched with
      refreshDebt := min 8 (s.sched.refreshDebt + 1),
      missedRefreshes := if 8 ≤ s.sched.refreshDebt then satAdd 65535 1 s.sched.missedRefreshes
        else s.sched.missedRefreshes,
      interval := some
        { lengthNs := s.sched.retentionRate.intervalNs, endsAt := t.now + s.sched.retentionRate.intervalNs } } ∧
    (s.sched.refreshDebt < 8 → t.notices = s.notices) ∧
    (8 ≤ s.sched.refreshDebt → t.notices = s.notices.post (.refreshMissed d.missedRefreshes)) ∧
    (s.sched.mode = .normal ∧
        (4 ≤ d.refreshDebt ∨ (1 ≤ d.refreshDebt ∧ s.sched.list = [] ∧ s.sched.accessStart = none)) →
      t.sched.mode = .draining ∧ t.sched.list = d.list ∧ t.sched.refreshDebt = d.refreshDebt ∧
        t.sched.interval = d.interval ∧ t.sched.missedRefreshes = d.missedRefreshes ∧
        ∀ b, t.sched.bank b = match s.sched.bank b with
          | .opened o => .opened { o with closeAfterMark := false }
          | x => x) ∧
    (¬ (s.sched.mode = .normal ∧
        (4 ≤ d.refreshDebt ∨ (1 ≤ d.refreshDebt ∧ s.sched.list = [] ∧ s.sched.accessStart = none))) → t.sched = d) ∧
    t = ((s.setNow t.now).setNotices t.notices).setSched t.sched)

/-- The expiries that only let a waiting rule act (R20): the clock reaches the moment each is due, if it is not past, and
nothing else changes (log entries 2 and 7); with no opening in the history, for the window none younger than 30 ns, a bank
that is not OPEN or no recovery end there is nothing to expire, and nothing changes (log entry 1). -/
def Obligations.Expiries : Prop :=
  (∀ (s : State) (older : List Nat) (t : Nat), s.sched.history = older ++ [t] →
    exec .spacingExpiry s = .next (s.setNow (max s.now (t + 6)))) ∧
  (∀ s : State, s.sched.history = [] → exec .spacingExpiry s = .next s) ∧
  (∀ s : State, (∀ u ∈ s.sched.history, u + 30 ≤ s.now) → exec .windowExpiry s = .next s) ∧
  (∀ (s : State) (older younger : List Nat) (t : Nat), s.sched.history = older ++ t :: younger →
    (∀ u ∈ older, u + 30 ≤ s.now) → s.now < t + 30 → exec .windowExpiry s = .next (s.setNow (t + 30))) ∧
  (∀ (s : State) (b : BankId) (o : OpenRow), s.sched.bank b = .opened o →
    exec (.minOpenExpiry b) s = .next (s.setNow (max s.now (o.openingStart + 34))) ∧
    (∀ t, o.recoveryEnd = some t → exec (.recoveryExpiry b) s = .next (s.setNow (max s.now t))) ∧
    (o.recoveryEnd = none → exec (.recoveryExpiry b) s = .next s)) ∧
  (∀ (s : State) (b : BankId), (∀ o, s.sched.bank b ≠ .opened o) →
    exec (.minOpenExpiry b) s = .next s ∧ exec (.recoveryExpiry b) s = .next s)

/-- Openings (R27 to R29): in NORMAL, and in CLEAR for the sweep's entries (R52), for the oldest entry whose bank is CLOSED,
where spacing and window permit, the bank becomes OPENING on its row and the time joins the history; after 14 ns it is
OPEN. Where no opening may start nothing changes (log entry 1); the moments are the clock's (log entry 2). -/
def Obligations.Openings : Prop :=
  (∀ (s : State) (older younger : List BurstEntry) (e : BurstEntry), s.sched.list = older ++ e :: younger →
    (∀ x ∈ older, s.sched.bank x.bank ≠ .closed) → s.sched.bank e.bank = .closed →
    s.sched.mode = .normal ∨ (s.sched.mode = .bringup ∧ s.sched.stage = some .clear ∧ e.owner = .scheduler) →
    s.sched.refreshStart = none → (∀ u, s.sched.history.getLast? = some u → u + 6 ≤ s.now) →
    (s.sched.history.countP fun u => s.now < u + 30) < 4 → ∃ d : Scheduler,
      exec .openingStart s = .next (s.setSched d) ∧ d.bank e.bank = .opening e.row s.now ∧
      (∀ b, b ≠ e.bank → d.bank b = s.sched.bank b) ∧
      (s.sched.history.length < 4 → d.history = s.sched.history ++ [s.now]) ∧
      (4 ≤ s.sched.history.length → d.history = s.sched.history.tail ++ [s.now]) ∧
      d.list.map (fun x => { x with state := .ready }) = s.sched.list.map (fun x => { x with state := .ready }) ∧
      d.mode = s.sched.mode ∧ d.accessStart = s.sched.accessStart ∧ d.refreshDebt = s.sched.refreshDebt ∧
      d.interval = s.sched.interval) ∧
  (∀ s : State, (∀ e ∈ s.sched.list, s.sched.bank e.bank ≠ .closed) ∨
      (s.sched.mode = .bringup ∧ s.sched.stage ≠ some .clear) ∨ s.sched.mode = .draining ∨
      s.sched.mode = .refreshing ∨ s.sched.mode = .failed ∨ s.sched.refreshStart ≠ none ∨
      (∃ u, s.sched.history.getLast? = some u ∧ s.now < u + 6) ∨
      4 ≤ (s.sched.history.countP fun u => s.now < u + 30) → exec .openingStart s = .next s) ∧
  (∀ (s : State) (b : BankId) (row start : Nat), s.sched.bank b = .opening row start → ∃ d : Scheduler,
    exec (.openingCompletion b) s = .next ((s.setNow (max s.now (start + 14))).setSched d) ∧
    (∃ o : OpenRow, d.bank b = .opened o ∧ o.row = row ∧ o.openingStart = start ∧ o.recoveryEnd = none ∧
      o.lastActivity = max s.now (start + 14) ∧ o.closeAfterMark = false) ∧
    (∀ c, c ≠ b → d.bank c = s.sched.bank c) ∧ d.history = s.sched.history ∧
    (∀ older e younger, s.sched.list = older ++ e :: younger → (∀ x ∈ older, x.bank ≠ b) → e.bank = b → e.row = row →
      e.state ≠ .accessing → d.list[older.length]? = some { e with state := .ready })) ∧
  (∀ (s : State) (b : BankId), (∀ row start, s.sched.bank b ≠ .opening row start) →
    exec (.openingCompletion b) s = .next s)

/-- Closings (R30, R31, R36, R37, R40): an OPEN bank with min-open and write recovery past and no access on it closes for
a cause; in REFRESHING and FAILED, or where one of these fails, nothing changes (log entry 1); after 14 ns the bank is
CLOSED. At its idle expiry an OPEN bank without entries closes, in a mode that makes closings and with min-open and write
recovery past; else only the clock moves. The moments are the clock's (log entries 2 and 7), and an idle expiry that is
past stays a cause to close, also one that a RESTART put into the past (log entry 22). -/
def Obligations.Closings : Prop :=
  (∀ (s : State) (b : BankId) (o : OpenRow), s.sched.bank b = .opened o →
    ∀ free cause : Prop, (free ↔ o.openingStart + 34 ≤ s.now ∧ (∀ t, o.recoveryEnd = some t → t ≤ s.now) ∧
        ∀ e ∈ s.sched.list, e.bank = b → e.state ≠ .accessing) →
      (cause ↔ (∃ e, s.sched.head? b = some e ∧ e.row ≠ o.row) ∨ o.closeAfterMark = true ∨ s.sched.mode = .draining ∨
        (s.sched.head? b = none ∧ ∃ n, s.sched.rowIdleLimit.ns = some n ∧ o.lastActivity + n ≤ s.now)) →
      (free → cause → s.sched.mode ≠ .refreshing → s.sched.mode ≠ .failed → ∃ d : Scheduler,
        exec (.closingStart b) s = .next (s.setSched d) ∧ d.bank b = .closing s.now ∧
        (∀ c, c ≠ b → d.bank c = s.sched.bank c) ∧
        (∀ e ∈ d.list, e.bank = b → e.state = .waitingBank) ∧
        d.list.map (fun x => { x with state := .ready }) = s.sched.list.map (fun x => { x with state := .ready })) ∧
      (¬ free ∨ ¬ cause ∨ s.sched.mode = .refreshing ∨ s.sched.mode = .failed →
        exec (.closingStart b) s = .next s)) ∧
  (∀ (s : State) (b : BankId) (start : Nat), s.sched.bank b = .closing start → ∃ d : Scheduler,
    exec (.closingCompletion b) s = .next ((s.setNow (max s.now (start + 14))).setSched d) ∧ d.bank b = .closed ∧
    (∀ c, c ≠ b → d.bank c = s.sched.bank c)) ∧
  (∀ (s : State) (b : BankId), ((∀ o, s.sched.bank b ≠ .opened o) → exec (.closingStart b) s = .next s ∧
      exec (.idleExpiry b) s = .next s) ∧
    ((∀ start, s.sched.bank b ≠ .closing start) → exec (.closingCompletion b) s = .next s) ∧
    (s.sched.rowIdleLimit = .off → exec (.idleExpiry b) s = .next s)) ∧
  (∀ (s : State) (b : BankId) (o : OpenRow) (n : Nat), s.sched.bank b = .opened o → s.sched.rowIdleLimit.ns = some n →
    ∀ (due : Nat) (closes : Prop), due = max s.now (o.lastActivity + n) →
      (closes ↔ (∀ e ∈ s.sched.list, e.bank ≠ b) ∧ s.sched.mode ≠ .refreshing ∧ s.sched.mode ≠ .failed ∧
        o.openingStart + 34 ≤ due ∧ ∀ t, o.recoveryEnd = some t → t ≤ due) →
      (¬ closes → exec (.idleExpiry b) s = .next (s.setNow due)) ∧
      (closes → ∃ d : Scheduler, exec (.idleExpiry b) s = .next ((s.setNow due).setSched d) ∧ d.bank b = .closing due ∧
        (∀ c, c ≠ b → d.bank c = s.sched.bank c) ∧
        d.list.map (fun x => { x with state := .ready }) = s.sched.list.map (fun x => { x with state := .ready })))

/-- An access starts for the oldest READY entry with the data path free (R32) in NORMAL, and in CLEAR where it is the
sweep's (R52); in DRAINING, REFRESHING, FAILED and before CLEAR, with the data path busy, or with no entry READY, none
does (log entry 1). -/
def Obligations.AccessStart : Prop :=
  (∀ (s : State) (older younger : List BurstEntry) (e : BurstEntry), s.sched.list = older ++ e :: younger →
    (∀ x ∈ older, x.state ≠ .ready) → e.state = .ready → s.sched.accessStart = none →
    s.sched.mode = .normal ∨ (s.sched.mode = .bringup ∧ s.sched.stage = some .clear ∧ e.owner = .scheduler) →
    s.sched.refreshStart = none → exec .accessStart s = .next (s.setSched { s.sched with
      list := older ++ { e with state := .accessing } :: younger, accessStart := some s.now })) ∧
  (∀ s : State, s.sched.accessStart ≠ none ∨ s.sched.mode = .draining ∨ s.sched.mode = .refreshing ∨
      s.sched.mode = .failed ∨ (s.sched.mode = .bringup ∧ s.sched.stage ≠ some .clear) ∨
      s.sched.refreshStart ≠ none ∨ (∀ e ∈ s.sched.list, e.state ≠ .ready) → exec .accessStart s = .next s)

/-- Refreshes (R48, R53): one starts with every bank CLOSED and the data path free, in DRAINING, or in CLEAR with a refresh
owed and the burst list empty (log entry 8); at its completion the debt falls by 1 and the tests of R48 are made in their
order, or in CLEAR the next refresh starts or the sweep goes on. The moment of the completion is the clock's (log entry
2); where no refresh can start, or none runs, nothing changes (log entry 1). -/
def Obligations.Refreshes : Prop :=
  (∀ s : State, s.sched.mode = .draining → (∀ b, s.sched.bank b = .closed) → s.sched.accessStart = none →
    s.sched.refreshStart = none → exec .refreshStart s =
      .next (s.setSched { s.sched with refreshStart := some s.now, mode := .refreshing })) ∧
  (∀ s : State, s.sched.mode = .bringup → s.sched.stage = some .clear → 1 ≤ s.sched.refreshDebt → s.sched.list = [] →
    (∀ b, s.sched.bank b = .closed) → s.sched.accessStart = none → s.sched.refreshStart = none →
    exec .refreshStart s = .next (s.setSched { s.sched with refreshStart := some s.now })) ∧
  (∀ s : State, s.sched.mode = .normal ∨ s.sched.mode = .refreshing ∨ s.sched.mode = .failed ∨
      (s.sched.mode = .bringup ∧ (s.sched.stage ≠ some .clear ∨ s.sched.refreshDebt = 0 ∨ s.sched.list ≠ [])) ∨
      (∃ b, s.sched.bank b ≠ .closed) ∨ s.sched.accessStart ≠ none ∨ s.sched.refreshStart ≠ none →
    exec .refreshStart s = .next s) ∧
  (∀ (s : State) (start now : Nat), s.sched.refreshStart = some start → s.sched.mode = .bringup →
    now = max s.now (start + 260) →
    (2 ≤ s.sched.refreshDebt → exec .refreshCompletion s = .next ((s.setNow now).setSched { s.sched with
      refreshDebt := s.sched.refreshDebt - 1, refreshStart := some now })) ∧
    (s.sched.refreshDebt ≤ 1 → exec .refreshCompletion s = .next ((s.setNow now).setSched
      (Scheduler.sweepAdmit (Scheduler.sweepAdmit { s.sched with refreshDebt := 0, refreshStart := none }))))) ∧
  (∀ (s : State) (start : Nat), s.sched.refreshStart = some start → s.sched.mode = .refreshing → ∃ now,
    now = max s.now (start + 260) ∧
    (4 ≤ s.sched.refreshDebt - 1 ∨ (1 ≤ s.sched.refreshDebt - 1 ∧ s.sched.list = []) →
      exec .refreshCompletion s = .next ((s.setNow now).setSched { s.sched with
        refreshDebt := s.sched.refreshDebt - 1, refreshStart := some now })) ∧
    (s.sched.refreshDebt - 1 < 4 → (s.sched.refreshDebt - 1 = 0 ∨ s.sched.list ≠ []) →
      exec .refreshCompletion s = .next ((s.setNow now).setSched { s.sched with
        refreshDebt := s.sched.refreshDebt - 1, refreshStart := none, mode := .normal }))) ∧
  (∀ s : State, s.sched.refreshStart = none → exec .refreshCompletion s = .next s)

/-! ## Access completions -/

/-- The scheduler's records at an access completion (R34, R36): the entry leaves, the data path is free, its bank's last
activity and write recovery are set, and its close-after flag sets the mark where no head waits on the open row. The lazy
refresh test that follows (R47) finds the list without the entry. -/
def Obligations.AccessRecords : Prop :=
  ∀ (d : Scheduler) (now : Nat) (older younger : List BurstEntry) (e : BurstEntry) (o : OpenRow),
    d.list = older ++ e :: younger → (∀ x ∈ older, x.state ≠ .accessing) → e.state = .accessing →
    d.bank e.bank = .opened o →
    (d.completeAccess e now).accessStart = none ∧
    (d.completeAccess e now).list.map (fun x => { x with state := .ready }) =
      (older ++ younger).map (fun x => { x with state := .ready }) ∧
    (d.completeAccess e now).bank e.bank = .opened { o with
      lastActivity := now, recoveryEnd := (if e.isWrite then some (now + 15) else none),
      closeAfterMark := o.closeAfterMark || (e.closeAfter &&
        match (older ++ younger).find? (fun x => x.bank = e.bank) with
        | none => true
        | some x => decide (x.row ≠ o.row)) } ∧
    (∀ b, b ≠ e.bank → (d.completeAccess e now).bank b = d.bank b) ∧
    (d.completeAccess e now).history = d.history ∧ (d.completeAccess e now).mode = d.mode ∧
    (d.completeAccess e now).refreshDebt = d.refreshDebt ∧ (d.completeAccess e now).interval = d.interval ∧
    ((d.completeAccess e now).testLazy =
      if d.mode = .normal ∧ 1 ≤ d.refreshDebt ∧ older ++ younger = [] then (d.completeAccess e now).enterDraining
      else d.completeAccess e now)

/-- A WRITE is made (R34, R56): after 10 ns its 32 bytes are in the die at its address and no other byte has changed;
its burst holds no error, and every other burst the errors it had. The sweep's last WRITE ends bring-up (R54); after any
other one the sweep admits the next (R52, as Obligations.BringUp says). The moment is the clock's (log entry 2), the time
of storing is log entry 4's. -/
def Obligations.WriteCompletion : Prop :=
  ∀ (s : State) (start : Nat) (e : BurstEntry) (data : List Byte) (flips : BurstBits),
    s.sched.accessStart = some start → s.sched.list.find? (fun x => x.state = .accessing) = some e →
    e.transfer = .write data → data.length = 32 → e.addr % 32 = 0 → e.addr + 32 ≤ 67108864 → s.MemoryLaw →
    ∃ (t : State) (d : Scheduler), exec (.accessCompletion flips) s = .next t ∧ t.now = max s.now (start + 10) ∧
      d = s.sched.completeAccess e t.now ∧
      (∀ (i : Nat) (h : i < data.length), readByte t.mem (e.addr + i) = data[i]) ∧
      (∀ a, a < e.addr ∨ e.addr + 32 ≤ a → readByte t.mem a = readByte s.mem a) ∧
      lookup 0#272 t.wrongBits e.addr = 0#272 ∧
      (∀ a, a ≠ e.addr → lookup 0#272 t.wrongBits a = lookup 0#272 s.wrongBits a) ∧ t.check = s.check ∧
      (e.owner ≠ .scheduler → t.sched = d.testLazy) ∧
      (e.owner = .scheduler → e.addr = 67108832 → e.ringRef = none → s.lau.service = none →
        t.sched = { d with mode := .normal, stage := none }.testLazy ∧
        t.notices = s.notices.post (.ready .powerOn) ∧ t.link = { s.link with readiness := .ready }) ∧
      (e.owner = .scheduler → e.addr ≠ 67108832 → t.sched = d.sweepAdmit.testLazy)

/-- A READ is made (R57, R58): the bytes of the die do not change; the errors the burst has are those it had and those
that have arisen. With no wrong bit the read is GOOD; with one it is CORRECTED and counted; with two it is UNCORRECTABLE,
counted, its address kept. Three or more are the check code's (log entry 6). The scheduler's records are those of
Obligations.AccessRecords, with the lazy refresh test after them (R34, R47); the moment is the clock's (log entry 2). -/
def Obligations.ReadCompletion : Prop :=
  ∀ (s : State) (start : Nat) (e : BurstEntry) (tgt : Target) (flips m : BurstBits),
    s.sched.accessStart = some start → s.sched.list.find? (fun x => x.state = .accessing) = some e →
    e.transfer = .read tgt → e.addr % 32 = 0 → e.addr + 32 ≤ 67108864 → s.MemoryLaw →
    m = lookup 0#272 s.wrongBits e.addr ^^^ flips →
    ∃ t : State, exec (.accessCompletion flips) s = .next t ∧ t.now = max s.now (start + 10) ∧ t.mem = s.mem ∧
      t.sched = (s.sched.completeAccess e t.now).testLazy ∧ lookup 0#272 t.wrongBits e.addr = m ∧
      (∀ a, a ≠ e.addr → lookup 0#272 t.wrongBits a = lookup 0#272 s.wrongBits a) ∧
      (wrongCount m = 0 → t.check = s.check) ∧
      (wrongCount m = 1 → t.check = { s.check with corrected := satAdd 4294967295 1 s.check.corrected }) ∧
      (wrongCount m = 2 → t.check = { s.check with
        uncorrectable := satAdd 4294967295 1 s.check.uncorrectable, lastUncorrectable := some e.addr })

/-- A channel's completions. A WRITE adds the bytes committed at its destination to bytes done (R91): 32 into a LINEAR
region, what the ring commits (R10, R15) into a ring. A READ from a ring is consumed (R13); its data fills its copy slot, or
goes to its play-out reservation, and from there to the FIFO as far as all older reservations have theirs (R92, R135); an
uncorrectable one faults the channel (R112, R136), CHECK_FAULT first of the notices, and after a fault data is discarded
(R113). Then, after each completion: at the end of a run in RUNNING the mark is posted, the run counted, and the next begins
or the descriptor retires DONE (R93 to R95); a STOPPING channel retires ABORTED at its last entry (R105, R106), a faulted one
DATA_ERROR (R114). The changed bits are an operand, and three or more wrong bits the check code's (log entry 6, R57); the
moment is the clock's (log entry 2); the part's report ends the event (log entry 15). State.retire is what
Obligations.ChannelStop says, State.moveOn Obligations.ChannelResume, State.addMark Obligations.Marks, Ring.commit
Obligations.RingAccounting, State.report Obligations.LauCompletions. The last two clauses give results for the channel alone,
where it is on no waiter list of a claim of its own descriptor: it is past its claims. -/
def Obligations.ChannelCompletions : Prop :=
  (∀ (s u ended goesOn : State) (c : ChannelId) (cur : Current) (entries : Nat) (p : Progress),
    (s.channel c).current = some cur → entries = (s.sched.list.countP fun e => e.owner = .requester (.ch c)) →
    u = (match cur.desc.post with
      | some m => s.addMark m 1
      | none => s) →
    p = { cur.prog with runsCompleted := satAdd 65535 1 cur.prog.runsCompleted } →
    ended = u.setChannel c { u.channel c with current := some { cur with prog := p } } →
    goesOn = u.setChannel c { u.channel c with
      current := some { cur with prog := { p with sourceAdmitted := 0, admitted := 0, done := 0 } } } →
    ((s.channel c).state = .running →
      (cur.prog.done ≠ cur.desc.length → s.afterCompletion c = s) ∧
      (cur.prog.done = cur.desc.length →
        (cur.desc.runs = 255 ∨ satAdd 65535 1 cur.prog.runsCompleted < cur.desc.runs → (s.channel c).stop = .none →
          s.afterCompletion c = goesOn) ∧
        (¬ (cur.desc.runs = 255 ∨ satAdd 65535 1 cur.prog.runsCompleted < cur.desc.runs) ∨ (s.channel c).stop ≠ .none →
          s.afterCompletion c = (ended.retire c .done).moveOn c))) ∧
    ((s.channel c).state = .stopping →
      (entries ≠ 0 → s.afterCompletion c = s) ∧
      (entries = 0 → cur.prog.done ≠ cur.desc.length → s.afterCompletion c = (s.retire c .aborted).moveOn c) ∧
      (entries = 0 → cur.prog.done = cur.desc.length → s.afterCompletion c = (ended.retire c .aborted).moveOn c)) ∧
    (∀ why, (s.channel c).state = .halted why →
      (entries ≠ 0 → s.afterCompletion c = s) ∧ (entries = 0 → s.afterCompletion c = s.retire c .dataError))) ∧
  (∀ (s : State) (start : Nat) (e : BurstEntry) (data : List Byte) (flips : BurstBits) (c : ChannelId) (cur : Current),
    s.sched.accessStart = some start → s.sched.list.find? (fun x => x.state = .accessing) = some e →
    e.transfer = .write data → e.addr % 32 = 0 → e.addr + 32 ≤ 67108864 → e.owner = .requester (.ch c) →
    (s.channel c).current = some cur → ∃ base : State,
      base = { s with
        now := max s.now (start + 10), sched := s.sched.completeAccess e (max s.now (start + 10)), mem := base.mem,
        wrongBits := base.wrongBits } ∧
      ∀ out : State → Nat → Prop, (∀ (w : State) (n : Nat), out w n ↔ ∃ v, v = (w.setChannel c { s.channel c with
          current := some { cur with prog := { cur.prog with done := cur.prog.done + n } } }).afterCompletion c ∧
        exec (.accessCompletion flips) s = .next (v.setSched v.sched.testLazy).report) →
      (e.ringRef = none → out base 32) ∧
      (∀ ref x g h, e.ringRef = some ref → s.ring? ref.region = some (x, g) → h = g.commit ref.offset →
        ∀ high : Prop, (high ↔ g.committedFill < h.committedFill ∧ g.thresholdKiB ≠ 0 ∧
          g.thresholdKiB * 1024 ≤ h.committedFill ∧ g.armed = true) →
        (high → out ((base.setRing ref.region { h with armed := false }).setNotices
          (s.notices.post (.ringHighWater ref.region h.committedFill))) (h.committedFill - g.committedFill)) ∧
        (¬ high → out (base.setRing ref.region h) (h.committedFill - g.committedFill)))) ∧
  (∀ (s : State) (start : Nat) (e : BurstEntry) (tgt : Target) (flips m : BurstBits) (read : ReadOutcome) (c : ChannelId)
      (cur : Current),
    s.sched.accessStart = some start → s.sched.list.find? (fun x => x.state = .accessing) = some e →
    e.transfer = .read tgt → e.addr % 32 = 0 → e.addr + 32 ≤ 67108864 → e.owner = .requester (.ch c) →
    (s.channel c).current = some cur → m = lookup 0#272 s.wrongBits e.addr ^^^ flips →
    read = readOutcome (readBytes s.mem e.addr 32) m →
    (wrongCount m ≤ 1 → read.data? = some (readBytes s.mem e.addr 32)) ∧ (wrongCount m = 2 → read.data? = none) ∧
    ∃ base : State,
      base = { s with
        now := max s.now (start + 10), sched := s.sched.completeAccess e (max s.now (start + 10)), check := base.check,
        wrongBits := base.wrongBits, notices := base.notices } ∧
      (read.data? ≠ none → base.notices = s.notices) ∧
      (read.data? = none → base.notices = s.notices.post (.checkFault e.addr (.ch c))) ∧
      ∀ w : State, (e.ringRef = none → w = base) →
        (∀ ref, e.ringRef = some ref → (s.ring? ref.region = none → w = base) ∧
          ∀ x g, s.ring? ref.region = some (x, g) →
            w = base.setRing ref.region { g with readReserved := g.readReserved - 32 }) →
        ∀ out : State → Prop, (∀ u, out u ↔ exec (.accessCompletion flips) s =
          .next ((u.afterCompletion c).setSched (u.afterCompletion c).sched.testLazy).report) →
        (cur.prog.fault = true → out w) ∧
        (∀ bytes, cur.prog.fault = false → read.data? = some bytes →
          (∀ pos, tgt = .copySlot .a → (s.channel c).slotA = .reserved pos →
            out (w.setChannel c { s.channel c with slotA := .full pos bytes })) ∧
          (∀ pos, tgt = .copySlot .b → (s.channel c).slotB = .reserved pos →
            out (w.setChannel c { s.channel c with slotB := .full pos bytes })) ∧
          (∀ k pos arrived kept appended, tgt = .playout k pos →
            (s.playout k).reservations.map (fun r => if r.pos = pos then { r with data := some bytes } else r) =
              arrived ++ kept →
            (∀ r ∈ arrived, r.data ≠ none) → (∀ r rest, kept = r :: rest → r.data = none) →
            appended = arrived.flatMap (fun r => r.data.getD []) →
            out ((w.setPlayout k { s.playout k with
              fifo := (s.playout k).fifo ++ appended, reservations := kept,
              armed := (s.playout k).armed || decide (32 ≤ (s.playout k).fifo.length + appended.length) }).setChannel c
                { s.channel c with
                  current := some { cur with prog := { cur.prog with done := cur.prog.done + appended.length } } }))) ∧
        (cur.prog.fault = false → read.data? = none → (s.channel c).state = .running ∨ (s.channel c).state = .stopping →
          ∀ f, f = w.setChannel c { s.channel c with
              state := .halted .fault, stop := .none, slotA := .empty, slotB := .empty,
              current := some { cur with prog := { cur.prog with fault := true } } } →
            (∀ r off, cur.desc.dest = .region r off → out f) ∧
            (∀ k, cur.desc.dest = .playout k → out (f.setPlayout k { s.playout k with reservations := [] })))) ∧
  (∀ (s : State) (start : Nat) (e : BurstEntry) (data : List Byte) (flips : BurstBits) (c : ChannelId) (cur : Current),
    s.sched.accessStart = some start → s.sched.list.find? (fun x => x.state = .accessing) = some e →
    e.transfer = .write data → e.addr % 32 = 0 → e.addr + 32 ≤ 67108864 → e.owner = .requester (.ch c) →
    e.ringRef = none → (s.channel c).current = some cur → (s.channel c).state = .running →
    cur.prog.done + 32 ≠ cur.desc.length → s.lau.service = none →
    ∃ t : State, exec (.accessCompletion flips) s = .next t ∧ t.channel c = { s.channel c with
      current := some { cur with prog := { cur.prog with done := cur.prog.done + 32 } } } ∧
      (∀ b, b ≠ c → t.channel b = s.channel b) ∧ t.notices = s.notices ∧ t.link = s.link ∧ t.regions = s.regions ∧
      t.marks = s.marks ∧ t.captures = s.captures ∧ t.playouts = s.playouts) ∧
  (∀ (s : State) (start pos : Nat) (e : BurstEntry) (flips m : BurstBits) (c : ChannelId) (cur : Current),
    s.sched.accessStart = some start → s.sched.list.find? (fun x => x.state = .accessing) = some e →
    e.transfer = .read (.copySlot .a) → e.addr % 32 = 0 → e.addr + 32 ≤ 67108864 → e.owner = .requester (.ch c) →
    e.ringRef = none → (s.channel c).current = some cur → (s.channel c).state = .running → cur.prog.fault = false →
    (s.channel c).slotA = .reserved pos → cur.prog.done < cur.desc.length → s.lau.service = none →
    (∀ role r g, s.roleRing role c = some (r, g) → c ∉ g.waiters role) →
    m = lookup 0#272 s.wrongBits e.addr ^^^ flips → ∃ t : State, exec (.accessCompletion flips) s = .next t ∧
      (wrongCount m ≤ 1 → t.channel c = { s.channel c with slotA := .full pos (readBytes s.mem e.addr 32) } ∧
        t.notices = s.notices) ∧
      (wrongCount m = 2 → (t.channel c).state = .halted .fault ∧ (t.channel c).stop = .none ∧
        (t.channel c).slotA = .empty ∧ (t.channel c).slotB = .empty ∧ (t.channel c).pending = (s.channel c).pending ∧
        ((s.sched.list.countP fun x => x.owner = .requester (.ch c)) = 1 → (t.channel c).current = none ∧
          t.notices = (s.notices.post (.checkFault e.addr (.ch c))).post
            (.descriptorDone c cur.desc.tag .dataError cur.prog.done cur.prog.runsCompleted)) ∧
        ((s.sched.list.countP fun x => x.owner = .requester (.ch c)) = 2 →
          (t.channel c).current = some { cur with prog := { cur.prog with fault := true } } ∧
          t.notices = s.notices.post (.checkFault e.addr (.ch c)))))

/-! ## The arbiter -/

/-- SET_CLASS (R68): the class before is reported, the class changes and nothing else of the arbiter's, but the run count
of the old class where the requester stands at its position; the present class changes nothing. -/
def Obligations.SetClass : Prop :=
  ∀ (tag r k : Byte) (s : State), s.takes 0x18#8 tag [r, k] = true → s.serving = true →
    (6 < r.toNat ∨ 3 < k.toNat → exec (.setClass tag [r, k]) s = .next (s.answered 0x18#8 tag .badValue [])) ∧
    (∀ (who : Requester) (cls : ClassId), who.code = r.toNat → cls.val = k.toNat → ∃ a : Arbiter,
      exec (.setClass tag [r, k]) s = .next ((s.setArb a).answered 0x18#8 tag .ok (u8 (s.arb.classOf who).val)) ∧
      (s.arb.classOf who = cls → a = s.arb) ∧
      (s.arb.classOf who ≠ cls → a.classOf who = cls ∧ (∀ x, x ≠ who → a.classOf x = s.arb.classOf x) ∧
        a.readiness = s.arb.readiness ∧ a.position = s.arb.position ∧ a.holdOwner = s.arb.holdOwner ∧
        ∀ c, a.runOf c = if c = s.arb.classOf who ∧ s.arb.positionOf c = who then 0 else s.arb.runOf c))

/-- The arbiter. The readiness reported to it (R64, R65, R85, R146), with the cause where a requester is not ready: what it
is, and that reportAll records all seven and reportBound that of the bound channel (log entry 15). The choice (R67, R72):
a requester that is ready and not excluded by the hold, of the highest class such a requester has, and in that class the
first from the round-robin position on; none where there is none. What grants and retirements do to its records (R69 to
R71, R73), a grant to a channel by the grant policy of its descriptor: of the class of the requester the position and the
run count, and the hold; the classes and the readiness stay. -/
def Obligations.ArbiterRules : Prop :=
  (∀ (s : State) (entries : Requester → Nat) (is : Requester → Readiness → Prop),
    (∀ r, entries r = (s.sched.list.countP fun e => e.owner = .requester r)) →
    (∀ r x, is r x ↔ s.readinessOf r = x) →
    (∀ c cur, s.NextBurst c cur (s.nextBurst c cur)) ∧
    (∀ c, ((s.channel c).current = none ∨ (s.channel c).state ≠ .running ∨
        ∃ cur, (s.channel c).current = some cur ∧ cur.prog.fault = true) → is (.ch c) .inactive) ∧
    (∀ c cur, (s.channel c).current = some cur → (s.channel c).state = .running → cur.prog.fault = false →
      (2 ≤ entries (.ch c) ∨ cur.desc.length ≤ cur.prog.admitted → is (.ch c) .limit) ∧
      (entries (.ch c) < 2 → cur.prog.admitted < cur.desc.length →
        (s.nextBurst c cur ≠ none → is (.ch c) .ready) ∧ (s.nextBurst c cur = none → is (.ch c) .endpoint))) ∧
    (s.lau.service = none → is .lau .inactive) ∧
    (∀ sv, s.lau.service = some sv →
      (2 ≤ entries .lau ∨ sv.toAdmit ≤ sv.admitted → is .lau .limit) ∧
      (∀ allows : Prop, (allows ↔ (∀ data, sv.request.op = .append data → s.MayWrite .lau sv.request.region) ∧
          ∀ n, sv.request.op = .take n → s.MayRead .lau sv.request.region) →
        entries .lau < 2 → sv.admitted < sv.toAdmit → (allows → is .lau .ready) ∧ (¬ allows → is .lau .endpoint))) ∧
    (∃ v : Vector Readiness 7, (∀ r, getAt v (Requester.index r) = s.readinessOf r) ∧
      s.reportAll = s.setArb (s.arb.record v)) ∧
    s.reportBound none = s ∧
    ∀ c, ∃ v : Vector Readiness 7, getAt v (Requester.ch c).index = s.readinessOf (.ch c) ∧
      (∀ r, r ≠ .ch c → getAt v (Requester.index r) = s.arb.readinessOf r) ∧
      s.reportBound (some c) = s.setArb (s.arb.record v)) ∧
  (∀ (a : Arbiter) (E : Requester → Prop),
    (∀ r, E r ↔ a.readinessOf r = .ready ∧ ∀ o, a.holdOwner = some o → r = .ch o ∨ a.classOf r < a.classOf (.ch o)) →
    (∀ r, a.choose = some r ↔ E r ∧ (∀ x, E x → a.classOf r ≤ a.classOf x) ∧
      ∀ x, E x → a.classOf x = a.classOf r →
        (r.code + 7 - (a.positionOf (a.classOf r)).code) % 7 ≤ (x.code + 7 - (a.positionOf (a.classOf r)).code) % 7) ∧
    (a.choose = none ↔ ∀ x, ¬ E x)) ∧
  (∀ a : Arbiter,
    (∀ (r : Requester) (b : Arbiter), b = a.afterSingle r →
      (∀ k, (b.positionOf k).code = if k = a.classOf r then (r.code + 1) % 7 else (a.positionOf k).code) ∧
      (∀ k, b.runOf k = if k = a.classOf r then 0 else a.runOf k) ∧ b.classes = a.classes ∧
      b.readiness = a.readiness ∧ b.holdOwner = a.holdOwner) ∧
    (∀ (c : ChannelId) (n run : Nat) (b : Arbiter), b = a.afterRun (.ch c) n →
      run = (if a.positionOf (a.classOf (.ch c)) = .ch c then a.runOf (a.classOf (.ch c)) + 1 else 1) →
      (run = n → b = a.afterSingle (.ch c)) ∧
      (run ≠ n → (∀ k, b.positionOf k = if k = a.classOf (.ch c) then .ch c else a.positionOf k) ∧
        (∀ k, b.runOf k = if k = a.classOf (.ch c) then run else a.runOf k) ∧ b.classes = a.classes ∧
        b.readiness = a.readiness ∧ b.holdOwner = a.holdOwner)) ∧
    (∀ c : ChannelId, a.afterHold c = { a.afterSingle (.ch c) with holdOwner := some c }) ∧
    (∀ (c : ChannelId) (d : Descriptor),
      (d.grant = .single → a.afterChannel c d = a.afterSingle (.ch c)) ∧
      (d.grant = .run → a.afterChannel c d = a.afterRun (.ch c) d.runBurst) ∧
      (d.grant = .hold → a.afterChannel c d = a.afterHold c)) ∧
    (∀ (c : ChannelId) (b : Arbiter), b = a.onRetire c →
      b.holdOwner = (if a.holdOwner = some c then none else a.holdOwner) ∧
      (∀ k, b.runOf k =
        if k = a.classOf (.ch c) ∧ a.positionOf (a.classOf (.ch c)) = .ch c then 0 else a.runOf k) ∧
      b.classes = a.classes ∧ b.readiness = a.readiness ∧ b.position = a.position) ∧
    (∀ (v : Vector Readiness 7) (b : Arbiter), b = a.record v → b.readiness = v ∧ b.classes = a.classes ∧
      b.position = a.position ∧ b.runCount = a.runCount ∧
      b.holdOwner = a.holdOwner.filter fun c => decide (getAt v (Requester.ch c).index = .ready) ||
        decide (getAt v (Requester.ch c).index = .limit)))

/-- ADMISSION (R22, R61 to R63): without an opportunity, with the part not READY or with no requester to choose nothing
changes (log entry 1), nor where the requester chosen has two entries or no burst it can form now (log entry 15); else the
channel chosen forms the entry of its next burst (R85 to R90) or the LAU that of its service (R146), which joins the list
(R21), its counts move, the arbiter's records follow and readiness is reported (log entry 15). The entry joins at the end of
the list, READY as the head of a bank OPEN on its row and else waiting for its bank (R23); as a new head on the open row it
clears the close-after mark (R36). -/
def Obligations.Admission : Prop :=
  (∀ (d : Scheduler) (e : BurstEntry) (alone open_ : Prop), d.EntryLaw → (alone ↔ ∀ x ∈ d.list, bankOf x.addr ≠ bankOf e.addr) →
    (open_ ↔ ∃ o, d.bank (bankOf e.addr) = .opened o ∧ o.row = rowOf e.addr) →
    (alone ∧ open_ → (d.admitEntry e).list = d.list ++ [{ e with state := .ready }]) ∧
    (¬ (alone ∧ open_) → (d.admitEntry e).list = d.list ++ [{ e with state := .waitingBank }]) ∧
    (∀ o, alone → d.bank (bankOf e.addr) = .opened o → o.row = rowOf e.addr →
      (d.admitEntry e).bank (bankOf e.addr) = .opened { o with closeAfterMark := false }) ∧
    (∀ b, b ≠ bankOf e.addr ∨ ¬ (alone ∧ open_) → (d.admitEntry e).bank b = d.bank b) ∧
    { d.admitEntry e with list := d.list, banks := d.banks } = d) ∧
  (∀ s : State, s.sched.mode = .bringup ∨ s.sched.mode = .failed ∨ 8 ≤ s.sched.list.length ∨
      s.link.readiness ≠ .ready ∨ s.arb.choose = none ∨
      (∃ r, s.arb.choose = some r ∧ 2 ≤ s.sched.list.countP fun x => x.owner = .requester r) ∨
      (∃ c, s.arb.choose = some (.ch c) ∧ ∀ cur, (s.channel c).current = some cur → s.nextBurst c cur = none) ∨
      (s.arb.choose = some .lau ∧ s.lauReadiness ≠ .ready) → exec .admission s = .next s) ∧
  (∀ s : State, s.sched.mode ≠ .bringup → s.sched.mode ≠ .failed → s.sched.list.length < 8 →
    s.link.readiness = .ready →
    (∀ (c : ChannelId) (cur : Current) (b : Burst), s.arb.choose = some (.ch c) →
      (s.sched.list.countP fun x => x.owner = .requester (.ch c)) < 2 → (s.channel c).current = some cur →
      s.nextBurst c cur = some b → ∃ (e : BurstEntry) (v : State),
        exec .admission s = .next ((v.setSched (s.sched.admitEntry e)).setArb (s.arb.afterChannel c cur.desc)).report ∧
        e.owner = .requester (.ch c) ∧ e.closeAfter = decide (cur.desc.rowPolicy = .closeAfter) ∧
        v.link = s.link ∧ v.lau = s.lau ∧ v.notices = s.notices ∧ v.marks = s.marks ∧ v.mem = s.mem ∧
        (∀ x, x ≠ c → v.channel x = s.channel x) ∧
        (∀ r p d, b.place cur = some (r, p) → (s.region r).record = some d →
          (d.kind = .linear → e.addr = d.base + p ∧ e.ringRef = none ∧ v.regions = s.regions) ∧
          (∀ g, d.kind = .ring g → b.writes = true → e.addr = d.base + g.back ∧
            e.ringRef = some { region := r, offset := g.back } ∧ v.regions = (s.setRing r (g.reserveWrite d.length)).regions) ∧
          (∀ g, d.kind = .ring g → b.writes = false → e.addr = d.base + g.front ∧
            e.ringRef = some { region := r, offset := g.front } ∧
            v.regions = (s.setRing r (g.reserveRead d.length)).regions)) ∧
        match b with
        | .captureWrite p => e.transfer = .write ((s.capture p).fifo.take 32) ∧
            v.capture p = { s.capture p with fifo := (s.capture p).fifo.drop 32 } ∧
            v.channel c = (s.channel c).counts cur 32 0
        | .patternWrite w => e.transfer = .write (List.replicate 8 (u32 w.toNat)).flatten ∧
            v.channel c = (s.channel c).counts cur 32 0
        | .playoutRead p => e.transfer = .read (.playout p cur.prog.admitted) ∧
            v.playout p = { s.playout p with
              reservations := (s.playout p).reservations ++ [{ pos := cur.prog.admitted, data := none }] } ∧
            v.channel c = (s.channel c).counts cur 32 0
        | .copyWrite slot _ data => e.transfer = .write data ∧
            v.channel c = ((s.channel c).setSlot slot .empty).counts cur 32 0
        | .copyRead slot => e.transfer = .read (.copySlot slot) ∧
            v.channel c = ((s.channel c).setSlot slot (.reserved cur.prog.sourceAdmitted)).counts cur 0 32) ∧
    (∀ sv : LauService, s.arb.choose = some .lau → (s.sched.list.countP fun x => x.owner = .requester .lau) < 2 →
      s.lau.service = some sv → s.lauReadiness = .ready →
      ∀ (out : BurstEntry → State → Host.Outcome State Fault Refusal),
      (∀ e v, out e v = .next ((v.setSched (s.sched.admitEntry e)).setArb (s.arb.afterSingle .lau)).report) →
      (∀ off data, sv.request.op = .put off data → exec .admission s =
        out (lauEntry (.write ((data.drop sv.admitted).take 32)) (sv.base + off + sv.admitted) none)
          (s.setLau (s.lau.admits sv 0))) ∧
      (∀ off n, sv.request.op = .get off n → exec .admission s =
        out (lauEntry (.read (.lauBuffer sv.admitted)) (sv.base + off + sv.admitted) none)
          (s.setLau (s.lau.admits sv 0))) ∧
      (∀ data d g, sv.request.op = .append data → s.ring? sv.request.region = some (d, g) → exec .admission s =
        out (lauEntry (.write ((data.drop sv.admitted).take 32)) (d.base + g.back)
          (some { region := sv.request.region, offset := g.back }))
            ((s.setRing sv.request.region (g.reserveWrite d.length)).setLau
              (s.lau.admits sv (if g.space d.length < 32 then 32 else 0)))) ∧
      (∀ n d g, sv.request.op = .take n → s.ring? sv.request.region = some (d, g) → exec .admission s =
        out (lauEntry (.read (.lauBuffer sv.admitted)) (d.base + g.front)
          (some { region := sv.request.region, offset := g.front }))
            ((s.setRing sv.request.region (g.reserveRead d.length)).setLau (s.lau.admits sv 0)))))

/-! ## Channels -/

/-- The ENQUEUE payload (R184): a field out of its range, or a format version other than 1, is BAD_VALUE (R78, check 1);
else the channel and the descriptor are those the fields spell. -/
def Obligations.EnqueuePayload : Prop :=
  ∀ (fmt ch sk si dk di runs gr rb rp wm wc pm nt : Byte) (dtag so doff length : Nat) (p : List Byte),
    dtag < 65536 → so < 4294967296 → doff < 4294967296 → length < 4294967296 →
    p = [fmt, ch] ++ u16 dtag ++ [sk, si] ++ u32 so ++ [dk, di] ++ u32 doff ++ u32 length ++
      [runs, gr, rb, rp, wm, wc, pm, nt] → ∀ bad : Prop,
    (bad ↔ fmt ≠ 1#8 ∨ 5 < ch.toNat ∨ 2 < sk.toNat ∨ (sk = 0#8 ∧ 3 < si.toNat) ∨ (sk = 1#8 ∧ 15 < si.toNat) ∨
      1 < dk.toNat ∨ (dk = 0#8 ∧ 1 < di.toNat) ∨ (dk = 1#8 ∧ 15 < di.toNat) ∨ length < 32 ∨ 16777216 < length ∨
      length % 32 ≠ 0 ∨ runs = 0#8 ∨ 2 < gr.toNat ∨ (gr = 1#8 ∧ (rb.toNat < 2 ∨ 16 < rb.toNat)) ∨ 1 < rp.toNat ∨
      (wm ≠ 0xFF#8 ∧ (15 < wm.toNat ∨ wc = 0#8)) ∨ (pm ≠ 0xFF#8 ∧ 15 < pm.toNat) ∨ 1 < nt.toNat) →
    (bad → ∀ (tag : Byte) (s : State), s.takes 0x20#8 tag p = true → s.serving = true →
      exec (.enqueue tag p) s = .next (s.answered 0x20#8 tag .badValue [])) ∧
    (¬ bad → ∃ c d, readEnqueue p = some (c, d) ∧ c.val = ch.toNat ∧ d.tag.toNat = dtag ∧ d.length = length ∧
      d.runs = runs.toNat ∧ d.runBurst = rb.toNat ∧ d.notify = decide (nt = 1#8) ∧
      (∀ q : CaptureId, sk = 0#8 → q.val = si.toNat → d.source = .capture q) ∧
      (∀ r : RegionId, sk = 1#8 → r.val = si.toNat → d.source = .region r so) ∧
      (sk = 2#8 → d.source = .pattern (BitVec.ofNat 32 so)) ∧
      (∀ q : PlayoutId, dk = 0#8 → q.val = di.toNat → d.dest = .playout q) ∧
      (∀ r : RegionId, dk = 1#8 → r.val = di.toNat → d.dest = .region r doff) ∧
      [GrantPolicy.single, .run, .hold][gr.toNat]? = some d.grant ∧
      [RowPolicy.keepOpen, .closeAfter][rp.toNat]? = some d.rowPolicy ∧
      (wm = 0xFF#8 → d.wait = none) ∧ (wm ≠ 0xFF#8 → ∃ w, d.wait = some w ∧ w.mark.val = wm.toNat ∧ w.count = wc.toNat) ∧
      (pm = 0xFF#8 → d.post = none) ∧ (pm ≠ 0xFF#8 → ∃ m, d.post = some m ∧ m.val = pm.toNat))

/-- ENQUEUE (R78, R79), its payload read: checks 2 to 9 in their order, each answered with its status and nothing changed;
where all pass and the channel is not IDLE, the descriptor joins the tail of the queue and each region it names has one
reference more (R7); the event ends with the report (log entry 15). -/
def Obligations.Enqueue : Prop :=
  ∀ (tag : Byte) (p : List Byte) (s : State) (c : ChannelId) (d : Descriptor), s.takes 0x20#8 tag p = true →
    s.serving = true → readEnqueue p = some (c, d) →
    ∀ (names : RegionId → Nat → Prop) (b2 b3 b4 b5 b6 b7 b8 b9 : Prop),
    (∀ r off, names r off ↔ d.source = .region r off ∨ d.dest = .region r off) →
    (b2 ↔ ∀ r off, ¬ names r off) →
    (b3 ↔ ∃ r off, names r off ∧ (s.region r).record = none) →
    (b4 ↔ (∃ r off, names r off ∧ s.ring? r ≠ none ∧ off ≠ 0) ∨
      ∃ r x y, d.source = .region r x ∧ d.dest = .region r y ∧ s.ring? r ≠ none) →
    (b5 ↔ ∃ r off, names r off ∧ s.ring? r = none ∧ off % 32 ≠ 0) →
    (b6 ↔ ∃ r off x, names r off ∧ (s.region r).record = some x ∧ x.kind = .linear ∧ x.length < off + d.length) →
    (b7 ↔ ∃ r x y q z w, d.source = .region r x ∧ d.dest = .region q y ∧ (s.region r).record = some z ∧
      (s.region q).record = some w ∧ z.kind = .linear ∧ w.kind = .linear ∧ z.base + x < w.base + y + d.length ∧
      w.base + y < z.base + x + d.length) →
    (b8 ↔ (∃ k, d.source = .capture k ∧ (s.capture k).binding ≠ some c) ∨
      ∃ k, d.dest = .playout k ∧ (s.playout k).binding ≠ some c) →
    (b9 ↔ (s.channel c).state ≠ .idle ∧ 4 ≤ (s.channel c).pending.length) →
    ∀ refused : Status → Prop, (∀ st, refused st ↔ exec (.enqueue tag p) s = .next (s.answered 0x20#8 tag st [])) →
    (b2 → refused .badValue) ∧ (¬ b2 → b3 → refused .noRegion) ∧ (¬ b2 → ¬ b3 → b4 → refused .badValue) ∧
    (¬ b2 → ¬ b3 → ¬ b4 → b5 → refused .alignment) ∧ (¬ b2 → ¬ b3 → ¬ b4 → ¬ b5 → b6 → refused .outOfBounds) ∧
    (¬ b2 → ¬ b3 → ¬ b4 → ¬ b5 → ¬ b6 → b7 → refused .overlap) ∧
    (¬ b2 → ¬ b3 → ¬ b4 → ¬ b5 → ¬ b6 → ¬ b7 → b8 → refused .portNotBound) ∧
    (¬ b2 → ¬ b3 → ¬ b4 → ¬ b5 → ¬ b6 → ¬ b7 → ¬ b8 → b9 → refused .queueFull) ∧
    (¬ b2 → ¬ b3 → ¬ b4 → ¬ b5 → ¬ b6 → ¬ b7 → ¬ b8 → ¬ b9 → enqueueCheck c d s = none ∧
      ((s.channel c).state ≠ .idle → ∃ v : Vector Region 16,
        (∀ r, (getAt v r).record = (s.region r).record ∧
          (∀ off, names r off → (getAt v r).refCount = (s.region r).refCount + 1) ∧
          ((∀ off, ¬ names r off) → (getAt v r).refCount = (s.region r).refCount)) ∧
        exec (.enqueue tag p) s = .next ((((s.setRegions v).setChannel c { s.channel c with
          pending := (s.channel c).pending ++ [d] }).reportAll).answered 0x20#8 tag .ok
            (u8 ((s.channel c).pending.length + 1)))))

/-- Promotion (R79 to R82), as an ENQUEUE accepted in IDLE makes it, which has raised the references of the regions named
(R7) and ends with the report (log entry 15): the mark wait (R118, R119), then the claims, the reader's first (R17), then
RUNNING with a fresh progress record. State.promote is the promotion of a queue's head, State.takeClaims what follows the
wait, and State.serveMark what Obligations.Marks says. -/
def Obligations.Promotion : Prop :=
  (∀ (s : State) (c : ChannelId), (s.channel c).pending = [] → s.promote c = s) ∧
  (∀ (s t : State) (c : ChannelId) (d : Descriptor) (rest : List Descriptor), (s.channel c).pending = d :: rest →
    t = s.setChannel c { s.channel c with pending := rest, slotA := .empty, slotB := .empty, current := some { desc := d, prog :=
      { sourceAdmitted := 0, admitted := 0, done := 0, runsCompleted := 0, fault := false } } } →
    (d.wait = none → s.promote c = t.takeClaims c) ∧
    (∀ w, d.wait = some w → s.promote c = ((t.setChannel c { t.channel c with state := .waiting .mark }).setMark w.mark
      { s.mark w.mark with waiters := (s.mark w.mark).waiters ++ [{ channel := c, count := w.count }] }).serveMark w.mark)) ∧
  (∀ (s : State) (c : ChannelId), (s.channel c).current = none →
    s.takeClaims c = s.setChannel c { s.channel c with state := .running }) ∧
  (∀ (s : State) (c : ChannelId) (cur : Current), (s.channel c).current = some cur →
    ∀ (reads writes : RegionId → RegionRecord → Ring → Prop) (is : State → ChannelState → Prop),
    (∀ r x g, reads r x g ↔ (∃ off, cur.desc.source = .region r off) ∧ s.ring? r = some (x, g)) →
    (∀ r x g, writes r x g ↔ (∃ off, cur.desc.dest = .region r off) ∧ s.ring? r = some (x, g)) →
    (∀ t st, is t st ↔ s.takeClaims c = t.setChannel c { s.channel c with state := st }) →
    ((∀ r x g, ¬ reads r x g) → (∀ r x g, ¬ writes r x g) → is s .running) ∧
    (∀ r x g, reads r x g → g.readerClaim ≠ none → g.readerClaim ≠ some (.ch c) →
      is (s.setRing r { g with readerWaiters := g.readerWaiters ++ [c] }) (.waiting .claim)) ∧
    (∀ r x g, reads r x g → g.readerClaim = none ∨ g.readerClaim = some (.ch c) → (∀ q y h, ¬ writes q y h) →
      is (s.setRing r { g with readerClaim := some (.ch c) }) .running) ∧
    (∀ q y h, writes q y h → (∀ r x g, ¬ reads r x g) →
      (h.writerClaim ≠ none → h.writerClaim ≠ some (.ch c) →
        is (s.setRing q { h with writerWaiters := h.writerWaiters ++ [c] }) (.waiting .claim)) ∧
      (h.writerClaim = none ∨ h.writerClaim = some (.ch c) →
        is (s.setRing q { h with writerClaim := some (.ch c) }) .running)) ∧
    (∀ r x g q y h, reads r x g → writes q y h → r ≠ q → g.readerClaim = none ∨ g.readerClaim = some (.ch c) →
      (h.writerClaim ≠ none → h.writerClaim ≠ some (.ch c) →
        is ((s.setRing r { g with readerClaim := some (.ch c) }).setRing q
          { h with writerWaiters := h.writerWaiters ++ [c] }) (.waiting .claim)) ∧
      (h.writerClaim = none ∨ h.writerClaim = some (.ch c) →
        is ((s.setRing r { g with readerClaim := some (.ch c) }).setRing q { h with writerClaim := some (.ch c) })
          .running))) ∧
  (∀ (tag : Byte) (p : List Byte) (s : State) (c : ChannelId) (d : Descriptor), s.takes 0x20#8 tag p = true →
    s.serving = true → readEnqueue p = some (c, d) → enqueueCheck c d s = none → (s.channel c).state = .idle →
    (s.channel c).pending = [] → ∃ u : State, exec (.enqueue tag p) s = .next ((u.reportAll).answered 0x20#8 tag .ok (u8 0)) ∧
    (∃ v : Vector Region 16, (∀ r, (getAt v r).record = (s.region r).record ∧
        (getAt v r).refCount = (s.region r).refCount + if d.namesRegion r then 1 else 0) ∧
      u = ((s.setRegions v).setChannel c { s.channel c with pending := [d] }).promote c) ∧
    (∀ b, b ≠ c → (u.channel b).current = (s.channel b).current ∧ (u.channel b).pending = (s.channel b).pending) ∧
    u.link = s.link ∧ u.sched = s.sched ∧ u.notices = s.notices ∧ u.captures = s.captures ∧ u.playouts = s.playouts ∧
    ∀ is : ChannelState → Prop, (∀ st, is st ↔ u.channel c = { s.channel c with
        state := st, slotA := .empty, slotB := .empty, current := some { desc := d, prog :=
          { sourceAdmitted := 0, admitted := 0, done := 0, runsCompleted := 0, fault := false } } }) →
      (∀ w, d.wait = some w → (∀ m, m ≠ w.mark → u.mark m = s.mark m) ∧
        ((match (s.mark w.mark).waiters with
            | [] => (s.mark w.mark).value < w.count
            | x :: _ => (s.mark w.mark).value < x.count) →
          is (.waiting .mark) ∧ u.mark w.mark = { s.mark w.mark with
            waiters := (s.mark w.mark).waiters ++ [{ channel := c, count := w.count }] }) ∧
        ((s.mark w.mark).waiters = [] → w.count ≤ (s.mark w.mark).value →
          u.mark w.mark = { s.mark w.mark with value := (s.mark w.mark).value - w.count } ∧
          ((∀ r off, d.source = .region r off ∨ d.dest = .region r off → s.ring? r = none) → is .running))) ∧
      (d.wait = none → u.marks = s.marks ∧
        ((∀ r off, d.source = .region r off ∨ d.dest = .region r off → s.ring? r = none) → is .running) ∧
        (∀ r off x g, d.source = .region r off → s.ring? r = some (x, g) →
          (∀ q y, d.dest = .region q y → s.ring? q = none) →
          (g.readerClaim = none → is .running ∧ u.ring? r =
            some ({ x with kind := .ring { g with readerClaim := some (.ch c) } }, { g with readerClaim := some (.ch c) })) ∧
          (g.readerClaim ≠ none → g.readerClaim ≠ some (.ch c) → is (.waiting .claim) ∧
            (u.ring? r).map Prod.snd = some { g with readerWaiters := g.readerWaiters ++ [c] })) ∧
        (∀ r off x g, d.dest = .region r off → s.ring? r = some (x, g) →
          (∀ q y, d.source = .region q y → s.ring? q = none) →
          (g.writerClaim = none → is .running ∧
            (u.ring? r).map Prod.snd = some { g with writerClaim := some (.ch c) }) ∧
          (g.writerClaim ≠ none → g.writerClaim ≠ some (.ch c) → is (.waiting .claim) ∧
            (u.ring? r).map Prod.snd = some { g with writerWaiters := g.writerWaiters ++ [c] }))))

/-- CHANNEL_STOP (R102 to R109): by the mode and the channel's state, the state after and the number discarded that the
response carries, and the whole state after, which ends with the report (log entry 15): the channel's record, the other
channels (only a claim or a mark handed on moves them), and the notices: ABORTED at a retirement, by a stop in WAITING or in
RUNNING with no entry left, and DISCARDED for each pending descriptor a FLUSH throws away, oldest first. Beside it what such a
stop is made of: how a waiter leaves its list (R18, R126), the steps of a retirement (R96, R97), and the discards (R109).
State.takeClaims is what Obligations.Promotion says, State.leaveMark Obligations.Marks, State.moveOn
Obligations.ChannelResume, and Arbiter.onRetire Obligations.ArbiterRules. -/
def Obligations.ChannelStop : Prop :=
  (∀ (s : State) (c : ChannelId) (cur : Current), (s.channel c).current = some cur →
    (∀ w, cur.desc.wait = some w → s.leaveWait c .mark = s.leaveMark w.mark c) ∧
    s.leaveWait c .claim = (s.leaveClaimList .reader c).leaveClaimList .writer c ∧
    ∀ (role : Role) (ring : RegionId → RegionRecord → Ring → Prop),
      (∀ r x g, ring r x g ↔ ((role = .reader ∧ ∃ off, cur.desc.source = .region r off) ∨
        (role = .writer ∧ ∃ off, cur.desc.dest = .region r off)) ∧ s.ring? r = some (x, g)) →
      ((∀ r x g, ¬ ring r x g) → s.leaveClaimList role c = s ∧ s.releaseHeld role c = s) ∧
      (∀ r x g, ring r x g →
        s.leaveClaimList role c = s.setRing r (g.setWaiters role ((g.waiters role).filter fun y => y ≠ c)) ∧
        (g.holder role ≠ some (.ch c) → s.releaseHeld role c = s) ∧
        (g.holder role = some (.ch c) → g.waiters role = [] → s.releaseHeld role c = s.setRing r (g.setHolder role none)) ∧
        (∀ y rest, g.holder role = some (.ch c) → g.waiters role = y :: rest → s.releaseHeld role c =
          (s.setRing r ((g.setHolder role (some (.ch y))).setWaiters role rest)).takeClaims y))) ∧
  (∀ (s u : State) (c : ChannelId) (cur : Current) (st : DoneStatus), (s.channel c).current = some cur →
    u = (s.releaseHeld .reader c).releaseHeld .writer c → ∃ v : Vector Region 16,
      (∀ r, getAt v r =
        { u.region r with refCount := (s.region r).refCount - if cur.desc.namesRegion r then 1 else 0 }) ∧
      s.retire c st = (((u.setRegions v).setArb (s.arb.onRetire c)).setNotices
        (if st ≠ .done ∨ cur.desc.notify = true then
          s.notices.post (.descriptorDone c cur.desc.tag st cur.prog.done cur.prog.runsCompleted) else s.notices)).setChannel c
            { u.channel c with current := none, slotA := .empty, slotB := .empty }) ∧
  (∀ (s : State) (c : ChannelId), ∃ v : Vector Region 16,
    (∀ r, getAt v r = { s.region r with
      refCount := (s.region r).refCount - (s.channel c).pending.countP fun d => d.namesRegion r }) ∧
    s.discardPending c = ((s.setRegions v).setNotices ((s.channel c).pending.foldl
      (fun q d => q.post (.descriptorDone c d.tag .discarded 0 0)) s.notices)).setChannel c { s.channel c with pending := [] }) ∧
  ∀ (tag b m : Byte) (s : State), s.takes 0x21#8 tag [b, m] = true → s.serving = true →
    (5 < b.toNat ∨ 2 < m.toNat → exec (.channelStop tag [b, m]) s = .next (s.answered 0x21#8 tag .badValue [])) ∧
    (∀ (c : ChannelId) (x : Channel), c.val = b.toNat → x = s.channel c →
      ∀ (ends : Nat → Nat → State → Prop) (becomes : Nat → Nat → Channel → Prop)
        (flushes : Nat → Channel → Prop) (retires : Nat → Nat → State → Channel → NoticeQueue → Prop)
        (dropped : NoticeQueue → NoticeQueue),
      (∀ code n u, ends code n u ↔ exec (.channelStop tag [b, m]) s =
        .next ((u.reportAll).answered 0x21#8 tag .ok (u8 code ++ u8 n))) →
      (∀ code n y, becomes code n y ↔ ends code n (s.setChannel c y)) →
      (∀ code y, flushes code y ↔ ends code x.pending.length ((s.discardPending c).setChannel c y)) →
      (∀ code n u y q, retires code n u y q ↔ ends code n u ∧ u.channel c = y ∧ u.notices = q ∧
        ∀ a, a ≠ c → u.channel a = { s.channel a with state := (u.channel a).state }) →
      (∀ q, dropped q = x.pending.foldl (fun q d => q.post (.descriptorDone c d.tag .discarded 0 0)) q) →
      (m = 0#8 →
        (x.state = .idle → becomes 4 0 { x with state := .halted .stopped, stop := .none }) ∧
        (x.state = .running → x.stop = .none → becomes 2 0 { x with stop := .afterCurrent }) ∧
        (∀ why, x.state = .waiting why → becomes 1 0 { x with stop := .afterCurrent }) ∧
        (x.state = .running → x.stop ≠ .none → ends 2 0 s)) ∧
      (m = 1#8 →
        (x.state = .idle → becomes 4 0 { x with state := .halted .stopped, stop := .none }) ∧
        (∀ why cur u y, x.state = .waiting why → x.current = some cur → u = (s.leaveWait c why).retire c .aborted →
          y = { x with state := .halted .stopped, stop := .none, current := none, slotA := .empty, slotB := .empty } →
          retires 4 0 (u.setChannel c y) y
            (s.notices.post (.descriptorDone c cur.desc.tag .aborted cur.prog.done cur.prog.runsCompleted))) ∧
        (x.state = .running → x.stop = .now ∨ x.stop = .flush → ends 2 0 s)) ∧
      (m.toNat ≤ 1 → (x.state = .stopping → ends 3 0 s) ∧ (∀ why, x.state = .halted why → ends 4 0 s)) ∧
      (m = 2#8 →
        (x.state = .idle → x.pending = [] → ends 0 0 s) ∧
        (∀ why cur u y, x.state = .waiting why → x.current = some cur →
          u = ((s.leaveWait c why).retire c .aborted).discardPending c →
          y = { x with
            state := .idle, stop := .none, current := none, slotA := .empty, slotB := .empty, pending := [] } →
          retires 0 x.pending.length (u.setChannel c y) y (dropped
            (s.notices.post (.descriptorDone c cur.desc.tag .aborted cur.prog.done cur.prog.runsCompleted)))) ∧
        (x.state = .stopping → flushes 3 { x with stop := .flush, pending := [] }) ∧
        (∀ why, x.state = .halted why → x.current = none →
          flushes 0 { x with state := .idle, stop := .none, pending := [] }) ∧
        (∀ why cur, x.state = .halted why → x.current = some cur → flushes 4 { x with pending := [] })) ∧
      (∀ cur last, x.state = .running → x.current = some cur → (m = 1#8 → x.stop ≠ .now ∧ x.stop ≠ .flush) →
        (last ↔ cur.prog.admitted = cur.desc.length ∧ cur.desc.runs ≠ 255 ∧
          cur.prog.runsCompleted + 1 = cur.desc.runs) → ∀ entries,
        entries = (s.sched.list.countP fun e => e.owner = .requester (.ch c)) →
        (m = 1#8 → (last → becomes 2 0 { x with stop := .now }) ∧
          (¬ last → entries ≠ 0 → becomes 3 0 { x with state := .stopping, stop := .now }) ∧
          (∀ u, ¬ last → entries = 0 → cur.prog.done ≠ cur.desc.length →
            u = ((s.setChannel c { x with state := .stopping, stop := .now }).retire c .aborted).moveOn c →
            retires 4 0 u
              { x with state := .halted .stopped, stop := .none, current := none, slotA := .empty, slotB := .empty }
              (s.notices.post (.descriptorDone c cur.desc.tag .aborted cur.prog.done cur.prog.runsCompleted)))) ∧
        (m = 2#8 → (last → flushes 2 { x with stop := .flush, pending := [] }) ∧
          (¬ last → entries ≠ 0 → flushes 3 { x with state := .stopping, stop := .flush, pending := [] }) ∧
          (∀ u, ¬ last → entries = 0 → cur.prog.done ≠ cur.desc.length →
            u = (((s.discardPending c).setChannel c
              { x with state := .stopping, stop := .flush, pending := [] }).retire c .aborted).moveOn c →
            retires 0 x.pending.length u
              { x with
                state := .idle, stop := .none, current := none, slotA := .empty, slotB := .empty, pending := [] }
              ((dropped s.notices).post
                (.descriptorDone c cur.desc.tag .aborted cur.prog.done cur.prog.runsCompleted))))))

/-- CHANNEL_RESUME (R111): WRONG_STATE and nothing changed, unless the channel is HALTED with no current descriptor; then
it becomes IDLE, or promotes the head of its queue, whatever that waits for or claims (State.promote, as
Obligations.Promotion says), and readiness is reported (log entry 15). After a retirement (R98) a channel moves on in the
same way, unless a stop halts it. -/
def Obligations.ChannelResume : Prop :=
  (∀ (s : State) (c : ChannelId),
    ((s.channel c).stop = .afterCurrent ∨ (s.channel c).stop = .now →
      s.moveOn c = s.setChannel c { s.channel c with state := .halted .stopped, stop := .none }) ∧
    ((s.channel c).stop = .none ∨ (s.channel c).stop = .flush →
      s.moveOn c = (s.setChannel c { s.channel c with state := .idle, stop := .none }).promote c)) ∧
  ∀ (tag b : Byte) (s : State), s.takes 0x22#8 tag [b] = true → s.serving = true →
    (5 < b.toNat → exec (.channelResume tag [b]) s = .next (s.answered 0x22#8 tag .badValue [])) ∧
    (∀ c : ChannelId, c.val = b.toNat →
      ((s.channel c).current ≠ none ∨ (∀ why, (s.channel c).state ≠ .halted why) →
        exec (.channelResume tag [b]) s = .next (s.answered 0x22#8 tag .wrongState [])) ∧
      (∀ why, (s.channel c).state = .halted why → (s.channel c).current = none →
        (∃ u code, u = (s.setChannel c { s.channel c with state := .idle }).promote c ∧
          code = (match (u.channel c).state with
            | .idle => 0
            | .waiting _ => 1
            | .running => 2
            | .stopping => 3
            | .halted _ => 4) ∧
          exec (.channelResume tag [b]) s = .next ((u.reportAll).answered 0x22#8 tag .ok (u8 code))) ∧
        ((s.channel c).pending = [] → exec (.channelResume tag [b]) s =
          .next (((s.setChannel c { s.channel c with state := .idle }).reportAll).answered 0x22#8 tag .ok [0#8])) ∧
        (∀ d rest, (s.channel c).pending = d :: rest → d.wait = none →
          (∀ r off, d.source = .region r off ∨ d.dest = .region r off → s.ring? r = none) →
          exec (.channelResume tag [b]) s = .next (((s.setChannel c { s.channel c with
            state := .running, pending := rest, slotA := .empty, slotB := .empty, current := some { desc := d, prog :=
              { sourceAdmitted := 0, admitted := 0, done := 0, runsCompleted := 0, fault := false } } }).reportAll).answered
                0x22#8 tag .ok [2#8]))))

/-! ## Marks -/

/-- A serving (R119), and MARK_SET and MARK_ADD with it (R121 to R124): the waiters served are the oldest ones the value
covers, each taking its count; the others wait on; only their channels go on, in order, to the claims their descriptors need
(R120; State.takeClaims, as Obligations.Promotion says). Both requests end with the report (log entry 15). An addition, and a
waiter that leaves (R126), serve in the same way. -/
def Obligations.Marks : Prop :=
  (∀ (v : Nat) (ws : List MarkWaiter), ∃ served kept, ws = served ++ kept ∧ (served.map fun w => w.count).sum ≤ v ∧
    (∀ w rest, kept = w :: rest → v - (served.map fun w => w.count).sum < w.count) ∧
    serveWaiters v ws = (v - (served.map fun w => w.count).sum, kept, served.map fun w => w.channel)) ∧
  (∀ (s : State) (m : MarkId) (left : Nat) (kept : List MarkWaiter) (chs : List ChannelId),
    serveWaiters (s.mark m).value (s.mark m).waiters = (left, kept, chs) →
    s.serveMark m = chs.foldl (fun t c => t.takeClaims c)
      (s.setMark m { s.mark m with value := left, waiters := kept })) ∧
  (∀ (s : State) (m : MarkId) (k : Nat), s.addMark m k =
    ((s.setMark m { s.mark m with
      value := min 255 ((s.mark m).value + k),
      saturated := (s.mark m).saturated || decide (255 < (s.mark m).value + k) }).setNotices
        (if 255 < (s.mark m).value + k ∧ (s.mark m).saturated = false then s.notices.post (.markSaturated m)
          else s.notices)).serveMark m) ∧
  (∀ (s t : State) (m : MarkId) (c : ChannelId),
    t = s.setMark m { s.mark m with waiters := (s.mark m).waiters.filter fun w => w.channel ≠ c } →
    (∀ w rest, (s.mark m).waiters = w :: rest → w.channel = c → s.leaveMark m c = t.serveMark m) ∧
    ((∀ w rest, (s.mark m).waiters = w :: rest → w.channel ≠ c) → s.leaveMark m c = t)) ∧
  (∀ (tag b v : Byte) (s : State), s.takes 0x24#8 tag [b, v] = true → s.serving = true →
    (15 < b.toNat → exec (.markSet tag [b, v]) s = .next (s.answered 0x24#8 tag .badValue [])) ∧
    (∀ (m : MarkId) (left : Nat) (kept : List MarkWaiter) (chs : List ChannelId), m.val = b.toNat →
      serveWaiters v.toNat (s.mark m).waiters = (left, kept, chs) → ∃ u : State,
      exec (.markSet tag [b, v]) s = .next ((u.reportAll).answered 0x24#8 tag .ok
        (u8 (s.mark m).value ++ u8 left ++ u8 chs.length)) ∧
      u.mark m = { value := left, saturated := false, waiters := kept } ∧ (∀ k, k ≠ m → u.mark k = s.mark k) ∧
      u.notices = s.notices ∧ (∀ c, c ∉ chs → u.channel c = s.channel c) ∧
      u = (s.setMark m { value := v.toNat, saturated := false, waiters := (s.mark m).waiters }).serveMark m ∧
      (chs = [] → u = s.setMark m { value := left, saturated := false, waiters := kept }))) ∧
  (∀ (tag b k : Byte) (s : State), s.takes 0x25#8 tag [b, k] = true → s.serving = true →
    (15 < b.toNat ∨ k = 0#8 → exec (.markAdd tag [b, k]) s = .next (s.answered 0x25#8 tag .badValue [])) ∧
    (∀ (m : MarkId) (left : Nat) (kept : List MarkWaiter) (chs : List ChannelId) (flag : Bool), m.val = b.toNat →
      k ≠ 0#8 → serveWaiters (min 255 ((s.mark m).value + k.toNat)) (s.mark m).waiters = (left, kept, chs) →
      flag = ((s.mark m).saturated || decide (255 < (s.mark m).value + k.toNat)) → ∃ u : State,
      exec (.markAdd tag [b, k]) s = .next ((u.reportAll).answered 0x25#8 tag .ok
        (u8 left ++ flagByte flag ++ u8 chs.length)) ∧
      u.mark m = { value := left, saturated := flag, waiters := kept } ∧ (∀ x, x ≠ m → u.mark x = s.mark x) ∧
      u.notices = (if 255 < (s.mark m).value + k.toNat ∧ (s.mark m).saturated = false then
        s.notices.post (.markSaturated m) else s.notices) ∧ u = s.addMark m k.toNat ∧
      ∀ c, c ∉ chs → u.channel c = s.channel c))

/-! ## Ports -/

/-- PORT_ENABLE (R139), PORT_DISABLE (R140), PORT_BIND (R141) and PORT_QUERY (R142). What PORT_BIND's response carries for
the present binding, and PORT_DISABLE's in DISABLED, is log entry 9's; PORT_QUERY's layout is read from R183. After
PORT_ENABLE of a capture port, also where it changes nothing, the bound channel reports (log entry 15). -/
def Obligations.PortRequests : Prop :=
  (∀ (tag kind n : Byte) (s : State) (x : Byte), 1 < kind.toNat ∨ (kind = 0#8 ∧ 3 < n.toNat) ∨ (kind = 1#8 ∧ 1 < n.toNat) →
    s.serving = true →
    (s.takes 0x28#8 tag [kind, n] = true →
      exec (.portEnable tag [kind, n]) s = .next (s.answered 0x28#8 tag .badValue [])) ∧
    (s.takes 0x29#8 tag [kind, n] = true →
      exec (.portDisable tag [kind, n]) s = .next (s.answered 0x29#8 tag .badValue [])) ∧
    (s.takes 0x2A#8 tag [kind, n, x] = true →
      exec (.portBind tag [kind, n, x]) s = .next (s.answered 0x2A#8 tag .badValue [])) ∧
    (s.takes 0x2B#8 tag [kind, n, x] = true →
      exec (.portQuery tag [kind, n, x]) s = .next (s.answered 0x2B#8 tag .badValue []))) ∧
  (∀ (tag n : Byte) (s : State) (k : CaptureId) (p : CapturePort), k.val = n.toNat → p = s.capture k →
    s.serving = true →
    (s.takes 0x28#8 tag [0#8, n] = true →
      (p.enabled = true → exec (.portEnable tag [0#8, n]) s =
        .next ((s.reportBound p.binding).answered 0x28#8 tag .ok (u32 p.fifo.length))) ∧
      (p.enabled = false → exec (.portEnable tag [0#8, n]) s =
        .next (((s.setCapture k { p with enabled := true, fifo := [] }).reportBound p.binding).answered 0x28#8 tag .ok
          (u32 0)))) ∧
    (s.takes 0x29#8 tag [0#8, n] = true → exec (.portDisable tag [0#8, n]) s =
      .next ((s.setCapture k { p with enabled := false }).answered 0x29#8 tag .ok (u32 p.fifo.length))) ∧
    (∀ b, s.takes 0x2B#8 tag [0#8, n, b] = true → ∃ data, data = flagByte p.enabled ++ (match p.binding with
        | none => [0#8, 0#8]
        | some c => [1#8] ++ u8 c.val) ++ u32 p.fifo.length ++ u16 p.overflowCount ++ flagByte p.armed ∧
      (b = 0#8 → exec (.portQuery tag [0#8, n, b]) s = .next (s.answered 0x2B#8 tag .ok data)) ∧
      (b = 1#8 → exec (.portQuery tag [0#8, n, b]) s =
        .next ((s.setCapture k { p with overflowCount := 0, armed := true }).answered 0x2B#8 tag .ok data)) ∧
      (1 < b.toNat → exec (.portQuery tag [0#8, n, b]) s = .next (s.answered 0x2B#8 tag .badValue [])))) ∧
  (∀ (tag n : Byte) (s : State) (k : PlayoutId) (p : PlayoutPort), k.val = n.toNat → p = s.playout k →
    s.serving = true →
    (s.takes 0x28#8 tag [1#8, n] = true → exec (.portEnable tag [1#8, n]) s =
      .next ((s.setPlayout k { p with enabled := true }).answered 0x28#8 tag .ok (u32 p.fifo.length))) ∧
    (s.takes 0x29#8 tag [1#8, n] = true → exec (.portDisable tag [1#8, n]) s =
      .next ((s.setPlayout k { p with enabled := false }).answered 0x29#8 tag .ok (u32 p.fifo.length))) ∧
    (∀ b, s.takes 0x2B#8 tag [1#8, n, b] = true → ∃ data, data = flagByte p.enabled ++ (match p.binding with
        | none => [0#8, 0#8]
        | some c => [1#8] ++ u8 c.val) ++ u32 p.fifo.length ++ u8 p.reservations.length ++
        u8 (p.reservations.countP fun r => r.data.isSome) ++ u32 (256 - p.fifo.length - 32 * p.reservations.length) ++
        u16 p.lastWord.toNat ++ u16 p.underrunCount ++ flagByte p.armed ∧
      (b = 0#8 → exec (.portQuery tag [1#8, n, b]) s = .next (s.answered 0x2B#8 tag .ok data)) ∧
      (b = 1#8 → exec (.portQuery tag [1#8, n, b]) s =
        .next ((s.setPlayout k { p with underrunCount := 0, armed := true }).answered 0x2B#8 tag .ok data)) ∧
      (1 < b.toNat → exec (.portQuery tag [1#8, n, b]) s = .next (s.answered 0x2B#8 tag .badValue [])))) ∧
  (∀ (tag kind n b : Byte) (s : State), s.takes 0x2A#8 tag [kind, n, b] = true → s.serving = true →
    ((5 < b.toNat ∧ b ≠ 0xFF#8) → exec (.portBind tag [kind, n, b]) s = .next (s.answered 0x2A#8 tag .badValue [])) ∧
    (∀ new : Option ChannelId, (match new with
        | none => b = 0xFF#8
        | some c => c.val = b.toNat) →
      ∀ (bound : Option ChannelId) (named : Descriptor → Prop) (after : State),
        ((∃ k : CaptureId, kind = 0#8 ∧ k.val = n.toNat ∧ bound = (s.capture k).binding ∧
            (∀ d, named d ↔ d.source = .capture k) ∧ after = s.setCapture k { s.capture k with binding := new }) ∨
          ∃ k : PlayoutId, kind = 1#8 ∧ k.val = n.toNat ∧ bound = (s.playout k).binding ∧
            (∀ d, named d ↔ d.dest = .playout k) ∧ after = s.setPlayout k { s.playout k with binding := new }) →
        ∀ old needed, old = (match bound with
            | none => [0xFF#8]
            | some c => u8 c.val) →
          (needed ↔ ∃ c, bound = some c ∧
            ((∃ cur, (s.channel c).current = some cur ∧ named cur.desc) ∨ ∃ d ∈ (s.channel c).pending, named d)) →
          (bound = new → exec (.portBind tag [kind, n, b]) s = .next (s.answered 0x2A#8 tag .ok old)) ∧
          (bound ≠ new → needed → exec (.portBind tag [kind, n, b]) s = .next (s.answered 0x2A#8 tag .inUse [])) ∧
          (bound ≠ new → ¬ needed → exec (.portBind tag [kind, n, b]) s = .next (after.answered 0x2A#8 tag .ok old))))

/-- STROBE and PULL (R130, R131, R137, R138): the word taken or lost, the word driven and held on the outputs, the counts,
the armed flags and their notices. A channel bound to the port then reports its readiness (log entry 15). -/
def Obligations.StrobeAndPull : Prop :=
  (∀ (s : State) (k : CaptureId) (w : Word16) (p : CapturePort), p = s.capture k → ∀ out : State → Prop,
    (∀ u, out u ↔ exec (.strobe k w) s = .next (u.reportBound p.binding)) →
    (p.enabled = false → out s) ∧
    (p.enabled = true → p.fifo.length < 256 → out (s.setCapture k { p with
      fifo := p.fifo ++ [BitVec.ofNat 8 w.toNat, BitVec.ofNat 8 (w.toNat / 256)] })) ∧
    (p.enabled = true → 256 ≤ p.fifo.length → out ((s.setCapture k { p with
      overflowCount := satAdd 65535 1 p.overflowCount, armed := false }).setNotices
        (if p.armed then s.notices.post (.portOverflow k (satAdd 65535 1 p.overflowCount)) else s.notices)))) ∧
  (∀ (s : State) (k : PlayoutId) (p : PlayoutPort), p = s.playout k → ∀ out : State → Prop,
    (∀ u, out u ↔ exec (.pull k) s = .next (u.reportBound p.binding)) →
    (p.enabled = false → out (s.setPlayout k { p with outputs := 0 })) ∧
    (∀ lo hi rest, p.enabled = true → p.fifo = lo :: hi :: rest →
      out (s.setPlayout k { p with fifo := rest, lastWord := hi ++ lo, outputs := hi ++ lo })) ∧
    (p.enabled = true → p.fifo = [] → out ((s.setPlayout k { p with
      outputs := p.lastWord, underrunCount := satAdd 65535 1 p.underrunCount, armed := false }).setNotices
        (if p.armed then s.notices.post (.portUnderrun k (satAdd 65535 1 p.underrunCount)) else s.notices))))

/-! ## The link access unit -/

/-- PUT, GET, APPEND and TAKE (R144, R145): the checks of acceptance; behind a request in service the queue; else the checks
of service start, and the service record with the claim taken. A TAKE of an empty ring is answered OK at once (R150). The
checks of service start are first stated of any request, for one that leaves the queue too. Each request that passes
acceptance ends with the report (log entry 15). -/
def Obligations.LauRequests : Prop :=
  (∀ (r : LauRequest) (s : State),
    ((s.region r.region).record = none → lauCheck r s = some .noRegion) ∧
    (∀ d, (s.region r.region).record = some d → d.kind = .linear →
      (∀ off data, r.op = .put off data → (d.linkWrite = false → lauCheck r s = some .protected_) ∧
        (d.linkWrite = true → d.length < off + data.length → lauCheck r s = some .outOfBounds) ∧
        (d.linkWrite = true → off + data.length ≤ d.length → lauCheck r s = none)) ∧
      (∀ off n, r.op = .get off n → (d.length < off + n → lauCheck r s = some .outOfBounds) ∧
        (off + n ≤ d.length → lauCheck r s = none)) ∧
      ((∃ data, r.op = .append data) ∨ (∃ n, r.op = .take n) → lauCheck r s = some .badValue)) ∧
    (∀ d g, (s.region r.region).record = some d → d.kind = .ring g →
      ((∃ off data, r.op = .put off data) ∨ (∃ off n, r.op = .get off n) → lauCheck r s = some .badValue) ∧
      (∀ data, r.op = .append data → (d.linkWrite = false → lauCheck r s = some .protected_) ∧
        (d.linkWrite = true → g.writerClaim ≠ none → lauCheck r s = some .regionBusy) ∧
        (d.linkWrite = true → g.writerClaim = none →
          (g.policy = .stop → g.space d.length < data.length → lauCheck r s = some .ringFull) ∧
          (g.policy = .overwrite ∨ data.length ≤ g.space d.length → lauCheck r s = none))) ∧
      (∀ n, r.op = .take n → (g.readerClaim ≠ none → lauCheck r s = some .regionBusy) ∧
        (g.readerClaim = none → lauCheck r s = none)))) ∧
  ∀ (tag rb kind : Byte) (off n : Nat) (data : List Byte) (s : State) (i : Instr) (p : List Byte) (op : LauOp),
    off < 4294967296 → n < 65536 → i.wellFormed = true → i.frame? = some (kind, tag, p) →
    ((kind = 0x30#8 ∧ p = [rb] ++ u32 off ++ u16 n ++ data ∧ op = .put off data ∧ data.length = n) ∨
      (kind = 0x31#8 ∧ p = [rb] ++ u32 off ++ u16 n ∧ op = .get off n) ∨
      (kind = 0x32#8 ∧ p = [rb] ++ u16 n ++ data ∧ op = .append data ∧ data.length = n) ∨
      (kind = 0x33#8 ∧ p = [rb] ++ u16 n ∧ op = .take n)) →
    s.takes kind tag p = true → s.serving = true →
    (15 < rb.toNat ∨ n < 32 ∨ 256 < n ∨ n % 32 ≠ 0 → exec i s = .next (s.answered kind tag .badValue [])) ∧
    (∀ r : RegionId, r.val = rb.toNat → 32 ≤ n → n ≤ 256 → n % 32 = 0 →
      (kind = 0x30#8 ∨ kind = 0x31#8 → off % 32 ≠ 0 → exec i s = .next (s.answered kind tag .alignment [])) ∧
      (kind = 0x32#8 ∨ kind = 0x33#8 ∨ off % 32 = 0 →
        (s.lau.service ≠ none → exec i s = .next (((s.working kind tag).setLau { s.lau with
          queue := s.lau.queue ++ [{ tag := tag, region := r, op := op }] }).report)) ∧
        (s.lau.service = none → s.lau.queue = [] → ∀ (refused : Status → Prop)
          (serves : State → RegionRecord → Nat → Option Role → Prop),
          (∀ st, refused st ↔ exec i s = .next ((s.answered kind tag st []).reportAll)) →
          (∀ u d total claim, serves u d total claim ↔ exec i s = .next (((u.working kind tag).setLau
            { queue := [], buffer := Vector.replicate 8 none, service := some
                { request := { tag := tag, region := r, op := op }, base := d.base, length := d.length, toAdmit := total,
                  admitted := 0, completed := 0, claim := claim, firstFailure := none, discarded := 0, dropped := 0,
                  cutShort := false } }).reportAll)) →
          ((s.region r).record = none → refused .noRegion) ∧
          (∀ d, (s.region r).record = some d → d.kind = .linear →
            (kind = 0x32#8 ∨ kind = 0x33#8 → refused .badValue) ∧
            (kind = 0x30#8 → d.linkWrite = false → refused .protected_) ∧
            ((kind = 0x30#8 ∧ d.linkWrite = true) ∨ kind = 0x31#8 →
              (d.length < off + n → refused .outOfBounds) ∧ (off + n ≤ d.length → serves s d n none))) ∧
          (∀ d g, (s.region r).record = some d → d.kind = .ring g →
            (kind = 0x30#8 ∨ kind = 0x31#8 → refused .badValue) ∧
            (kind = 0x32#8 → (d.linkWrite = false → refused .protected_) ∧
              (d.linkWrite = true → g.writerClaim ≠ none → refused .regionBusy) ∧
              (d.linkWrite = true → g.writerClaim = none → g.policy = .stop → g.space d.length < n →
                refused .ringFull) ∧
              (d.linkWrite = true → g.writerClaim = none → g.policy = .overwrite ∨ n ≤ g.space d.length →
                serves (s.setRing r { g with writerClaim := some .lau }) d n (some .writer))) ∧
            (kind = 0x33#8 → (g.readerClaim ≠ none → refused .regionBusy) ∧
              (g.readerClaim = none → 32 ≤ g.committedFill →
                serves (s.setRing r { g with readerClaim := some .lau }) d (min n g.committedFill) (some .reader)) ∧
              (g.readerClaim = none → g.committedFill = 0 → g.readerWaiters = [] → s.lau.buffer = Vector.replicate 8 none →
                refused .ok))))))

/-- The LAU's completions (R147 to R151): a WRITE counts the bytes written, or committed to the ring (R10, R15); a READ fills
its position of the buffer; an uncorrectable one posts CHECK_FAULT, keeps the earliest failure and admits no further burst;
for a TAKE the bursts behind a failure are given back to the ring (R14) or discarded and counted (log entry 10 where a second
one fails). The service ends when the bytes completed are those to admit (R152): the claim is released, the response of R147
to R151 and R154 handed over (R169, R177), the record dropped, and the queued requests are served in turn. A TAKE that finds no
bytes is shortened at the report (R150). Two wrong bits are uncorrectable, three or more the check code's (R57, log entry 6);
the moment is the clock's (log entry 2), the report log entry 15. Ring.commit and Ring.giveBack are what
Obligations.RingAccounting says, State.takeClaims Obligations.Promotion, lauCheck Obligations.LauRequests, State.reportAll
Obligations.ArbiterRules. The last clause gives results for a GET and a PUT without a queue behind them. -/
def Obligations.LauCompletions : Prop :=
  (∀ (s : State) (tag : Byte) (st : Status) (data : List Byte),
    (s.link.working? tag = none → s.handOver tag st data = s) ∧
    (∀ x, s.link.working? tag = some x → x.orphaned = false → s.handOver tag st data = s.setLink { s.link with
      table := s.link.table.map fun y => if y.tag = x.tag then { y with stage := .answered } else y,
      readyList := s.link.readyList ++ [{ tag := x.tag, kind := x.kind, status := st, data := data }] }) ∧
    (∀ x l, s.link.working? tag = some x → x.orphaned = true →
      l = { s.link with table := s.link.table.filter fun y => y.tag ≠ tag } →
      (s.link.restartTag ≠ some tag → s.handOver tag st data = s.setLink l) ∧
      (s.link.restartTag = some tag → s.handOver tag st data =
        ((s.setLink { l with readiness := .ready, restartTag := none }).setNotices
          { s.notices with isOpen := true }).post (.ready .restart)))) ∧
  (∀ (sv : LauService) (buf : Vector (Option (List Byte)) 8) (bytes : Nat → List Byte) (kept : Status),
    (∀ n, bytes n = (List.finRange 8).flatMap fun k => if 32 * k.val < n then (getAt buf k).getD [] else []) →
    kept = (if sv.cutShort then .restarted else .ok) →
    (∀ off data, sv.request.op = .put off data → sv.response buf = (kept, if sv.cutShort then u32 sv.completed else [])) ∧
    (∀ data, sv.request.op = .append data →
      sv.response buf = (kept, (if sv.cutShort then u32 sv.completed else []) ++ u32 sv.dropped)) ∧
    (∀ off n, sv.request.op = .get off n → (sv.firstFailure = none → sv.response buf = (kept, bytes 256)) ∧
      ∀ f, sv.firstFailure = some f → sv.response buf = (.dataError, u32 f.offset ++ bytes f.pos)) ∧
    (∀ n, sv.request.op = .take n → (sv.firstFailure = none → sv.response buf = (kept, bytes 256)) ∧
      ∀ f, sv.firstFailure = some f → sv.response buf = (.dataError, u32 f.offset ++ bytes f.pos ++ u32 sv.discarded))) ∧
  (∀ (s released : State) (sv : LauService), s.lau.service = some sv →
    (sv.claim = none ∨ s.ring? sv.request.region = none → released = s) →
    (∀ role x g, sv.claim = some role → s.ring? sv.request.region = some (x, g) →
      (g.waiters role = [] → released = s.setRing sv.request.region (g.setHolder role none)) ∧
      ∀ c rest, g.waiters role = c :: rest → released =
        (s.setRing sv.request.region ((g.setHolder role (some (.ch c))).setWaiters role rest)).takeClaims c) →
    s.lauFinish = (released.handOver sv.request.tag (sv.response s.lau.buffer).1 (sv.response s.lau.buffer).2).setLau
      { s.lau with service := none, buffer := Vector.replicate 8 none } ∧
    s.endService = State.serveQueue s.lau.queue s.lauFinish) ∧
  (∀ s : State, State.serveQueue [] s = s.setLau { s.lau with queue := [] }) ∧
  (∀ (s t : State) (r : LauRequest) (rest : List LauRequest), t = s.setLau { s.lau with queue := rest } →
    (∀ st, lauCheck r t = some st → State.serveQueue (r :: rest) s = State.serveQueue rest (t.handOver r.tag st [])) ∧
    (∀ (d : RegionRecord) (total : Nat) (claim : Option Role) (claimed u : State), lauCheck r t = none →
      (s.region r.region).record = some d →
      ((∃ off data, r.op = .put off data ∧ total = data.length ∧ claim = none ∧ claimed = t) ∨
        (∃ off n, r.op = .get off n ∧ total = n ∧ claim = none ∧ claimed = t) ∨
        (∃ data g, r.op = .append data ∧ d.kind = .ring g ∧ total = data.length ∧ claim = some .writer ∧
          claimed = t.setRing r.region { g with writerClaim := some .lau }) ∨
        (∃ n g, r.op = .take n ∧ d.kind = .ring g ∧ total = min n g.committedFill ∧ claim = some .reader ∧
          claimed = t.setRing r.region { g with readerClaim := some .lau })) →
      u = claimed.setLau
        { queue := rest, buffer := Vector.replicate 8 none, service := some
            { request := r, base := d.base, length := d.length, toAdmit := total, admitted := 0, completed := 0,
              claim := claim, firstFailure := none, discarded := 0, dropped := 0, cutShort := false } } →
      (total ≠ 0 → State.serveQueue (r :: rest) s = u) ∧
      (total = 0 → State.serveQueue (r :: rest) s = State.serveQueue rest u.lauFinish))) ∧
  (∀ s : State, s.report = s.lauShorten.reportAll ∧
    (s.lau.service = none → s.lauShorten = s) ∧
    (∀ sv, s.lau.service = some sv →
      ((∀ n, sv.request.op ≠ .take n) ∨ sv.toAdmit ≤ sv.admitted ∨
        (∀ x g, s.ring? sv.request.region = some (x, g) → 32 ≤ g.committedFill) → s.lauShorten = s) ∧
      (∀ n x g t, sv.request.op = .take n → s.ring? sv.request.region = some (x, g) → sv.admitted < sv.toAdmit →
        g.committedFill < 32 → t = s.setLau { s.lau with service := some { sv with toAdmit := sv.admitted } } →
        ((s.sched.list.countP fun e => e.owner = .requester .lau) ≠ 0 → s.lauShorten = t) ∧
        ((s.sched.list.countP fun e => e.owner = .requester .lau) = 0 → s.lauShorten = t.endService)))) ∧
  (∀ (s : State) (start now : Nat) (e : BurstEntry) (flips m : BurstBits) (sv : LauService) (out : State → LauService → Prop),
    s.sched.accessStart = some start → s.sched.list.find? (fun y => y.state = .accessing) = some e →
    e.addr % 32 = 0 → e.addr + 32 ≤ 67108864 → e.owner = .requester .lau → s.lau.service = some sv →
    m = lookup 0#272 s.wrongBits e.addr ^^^ flips → now = max s.now (start + 10) →
    (∀ w sw, out w sw ↔ ∃ t v, t = w.setLau { w.lau with service := some sw } ∧
      v = (if sw.completed = sw.toAdmit then t.endService else t) ∧
      exec (.accessCompletion flips) s = .next (v.setSched v.sched.testLazy).report) →
    (∀ data, e.transfer = .write data → (∀ off n, sv.request.op ≠ .get off n) → ∃ base : State,
      base = { s with
        now := now, sched := s.sched.completeAccess e now, mem := base.mem, wrongBits := base.wrongBits } ∧
      (e.ringRef = none → out base { sv with completed := sv.completed + 32 }) ∧
      (∀ ref x g h, e.ringRef = some ref → s.ring? ref.region = some (x, g) → h = g.commit ref.offset →
        ∀ high : Prop, (high ↔ g.committedFill < h.committedFill ∧ g.thresholdKiB ≠ 0 ∧
          g.thresholdKiB * 1024 ≤ h.committedFill ∧ g.armed = true) →
        ∀ sw, sw = { sv with completed := sv.completed + (h.committedFill - g.committedFill) } →
        (high → out ((base.setRing ref.region { h with armed := false }).setNotices
          (s.notices.post (.ringHighWater ref.region h.committedFill))) sw) ∧
        (¬ high → out (base.setRing ref.region h) sw))) ∧
    (∀ (pos : Nat) (read : ReadOutcome), e.transfer = .read (.lauBuffer pos) →
      read = readOutcome (readBytes s.mem e.addr 32) m →
      (wrongCount m ≤ 1 → read.data? = some (readBytes s.mem e.addr 32)) ∧ (wrongCount m = 2 → read.data? = none) ∧
      ∃ base : State,
        base = { s with
          now := now, sched := s.sched.completeAccess e now, check := base.check, wrongBits := base.wrongBits,
          notices := base.notices } ∧
        (read.data? ≠ none → base.notices = s.notices) ∧
        (read.data? = none → base.notices = s.notices.post (.checkFault e.addr .lau)) ∧
        ∀ (after : Prop) (filled emptied : Vector (Option (List Byte)) 8),
          (after ↔ ∃ f, sv.firstFailure = some f ∧ f.pos < pos) →
          (∀ k, getAt filled k = if k.val = pos / 32 then read.data? else getAt s.lau.buffer k) →
          (∀ k, getAt emptied k = if pos < 32 * k.val then none else getAt s.lau.buffer k) →
          (∀ off n, sv.request.op = .get off n → e.ringRef = none →
            (read.data? ≠ none → out (base.setLau { s.lau with buffer := filled })
              { sv with completed := sv.completed + 32 }) ∧
            (read.data? = none → after → out base { sv with completed := sv.completed + 32, toAdmit := sv.admitted }) ∧
            (read.data? = none → ¬ after → out base
              { sv with
                completed := sv.completed + 32, toAdmit := sv.admitted,
                firstFailure := some { pos := pos, offset := e.addr - sv.base } })) ∧
          (∀ n ref x g taken, sv.request.op = .take n → e.ringRef = some ref → s.ring? ref.region = some (x, g) →
            taken = base.setRing ref.region { g with readReserved := g.readReserved - 32 } →
            (read.data? ≠ none → ¬ after → out (taken.setLau { s.lau with buffer := filled })
              { sv with completed := sv.completed + 32 }) ∧
            (∀ back : Prop, (back ↔ (if ref.offset + 32 = x.length then 0 else ref.offset + 32) = g.front) →
              read.data? ≠ none → after →
              (¬ back → out taken { sv with completed := sv.completed + 32, discarded := sv.discarded + 32 }) ∧
              (∀ h, back → h = g.giveBack ref.offset → ∀ high : Prop,
                (high ↔ g.thresholdKiB ≠ 0 ∧ g.thresholdKiB * 1024 ≤ h.committedFill ∧ g.armed = true) →
                (high → out ((base.setRing ref.region { h with armed := false }).setNotices
                  (s.notices.post (.ringHighWater ref.region h.committedFill)))
                  { sv with completed := sv.completed + 32 }) ∧
                (¬ high → out (base.setRing ref.region h) { sv with completed := sv.completed + 32 }))) ∧
            (read.data? = none → after → out taken
              { sv with completed := sv.completed + 32, toAdmit := sv.admitted, discarded := sv.discarded + 32 }) ∧
            (∀ lost, lost = 32 * (List.finRange 8).countP (fun k =>
                decide (pos < 32 * k.val) && (getAt s.lau.buffer k).isSome) + (if sv.firstFailure = none then 0 else 32) →
              read.data? = none → ¬ after → out (taken.setLau { s.lau with buffer := emptied })
                { sv with
                  completed := sv.completed + 32, toAdmit := sv.admitted, discarded := sv.discarded + lost,
                  firstFailure := some { pos := pos, offset := ref.offset } })))) ∧
  ∀ (s : State) (start : Nat) (e : BurstEntry) (flips m : BurstBits) (sv : LauService) (x : OutEntry),
    s.sched.accessStart = some start → s.sched.list.find? (fun y => y.state = .accessing) = some e →
    e.addr % 32 = 0 → e.addr + 32 ≤ 67108864 → e.owner = .requester .lau → e.ringRef = none →
    s.lau.service = some sv → sv.claim = none → sv.cutShort = false → s.lau.queue = [] →
    s.link.working? sv.request.tag = some x → x.orphaned = false → m = lookup 0#272 s.wrongBits e.addr ^^^ flips →
    ∀ answers : State → Status → List Byte → Prop,
    (∀ t st data, answers t st data ↔ t.link = { s.link with
        table := s.link.table.map fun y => if y.tag = x.tag then { y with stage := .answered } else y,
        readyList := s.link.readyList ++ [{ tag := x.tag, kind := x.kind, status := st, data := data }] } ∧
      t.lau = { queue := [], service := none, buffer := Vector.replicate 8 none }) →
    ∃ t, exec (.accessCompletion flips) s = .next t ∧
    (∀ off data bytes, sv.request.op = .put off data → e.transfer = .write bytes →
      (sv.completed + 32 ≠ sv.toAdmit →
        t.lau = { s.lau with service := some { sv with completed := sv.completed + 32 } } ∧ t.link = s.link) ∧
      (sv.completed + 32 = sv.toAdmit → answers t .ok [])) ∧
    (∀ off n pos, sv.request.op = .get off n → e.transfer = .read (.lauBuffer pos) → pos < 256 →
      ∃ b : Vector (Option (List Byte)) 8,
        (∀ k, getAt b k = if k.val = pos / 32 then some (readBytes s.mem e.addr 32) else getAt s.lau.buffer k) ∧
        (wrongCount m ≤ 1 → t.notices = s.notices ∧
          (sv.completed + 32 ≠ sv.toAdmit → t.link = s.link ∧
            t.lau = { s.lau with service := some { sv with completed := sv.completed + 32 }, buffer := b }) ∧
          (sv.completed + 32 = sv.toAdmit → sv.firstFailure = none → answers t .ok
            ((List.finRange 8).flatMap fun k => if 32 * k.val < 256 then (getAt b k).getD [] else []))) ∧
        (wrongCount m = 2 → ∀ f : LauFailure,
          f = (match sv.firstFailure with
            | none => { pos := pos, offset := e.addr - sv.base }
            | some g => if g.pos < pos then g else { pos := pos, offset := e.addr - sv.base }) →
          t.notices = s.notices.post (.checkFault e.addr .lau) ∧
          (sv.completed + 32 ≠ sv.admitted → t.link = s.link ∧ t.lau = { s.lau with service := some { sv with
            completed := sv.completed + 32, toAdmit := sv.admitted, firstFailure := some f } }) ∧
          (sv.completed + 32 = sv.admitted → answers t .dataError
            (u32 f.offset ++ (List.finRange 8).flatMap fun k =>
              if 32 * k.val < f.pos then (getAt s.lau.buffer k).getD [] else []))))

/-! ## Laws -/

/-- The part right after reset keeps every law of Safety.lean: its tables, queues and counts are empty (R3, R19, R44, R75,
R117, R129, R133, R156, R182), and the die has the contents of log entry 4. -/
def Obligations.ResetKeepsTheLaws : Prop :=
  State.reset.sched.ListLaw ∧ State.reset.sched.EntryLaw ∧ State.reset.sched.DataPathLaw ∧
    State.reset.sched.HistoryLaw State.reset.now ∧ State.reset.sched.DebtLaw ∧ State.reset.sched.RefreshLaw ∧
    State.reset.MarkLaw ∧ State.reset.notices.QueueLaw ∧ State.reset.link.TableLaw ∧ State.reset.MemoryLaw ∧
    State.reset.CaptureLaw ∧ State.reset.RingLaw ∧ State.reset.ChannelLaw ∧ State.reset.ReferenceLaw ∧
    State.reset.PlayoutLaw

/-- Every step keeps the scheduler's laws: the list's capacity (R22), the states of its entries (R23), the data path
(R32), the opening history (R29), the debt's bound (R44), a refresh with every bank CLOSED (R48). -/
def Obligations.SchedulerLawsKept : Prop :=
  ∀ s t : State, s.sched.ListLaw → s.sched.EntryLaw → s.sched.DataPathLaw → s.sched.HistoryLaw s.now → s.sched.DebtLaw →
    s.sched.RefreshLaw → step s = .next t →
    t.sched.ListLaw ∧ t.sched.EntryLaw ∧ t.sched.DataPathLaw ∧ t.sched.HistoryLaw t.now ∧ t.sched.DebtLaw ∧
      t.sched.RefreshLaw

/-- Every step keeps the outstanding request table's law (R169), the notice queue's (R156), the mark table's (R117), the
capture FIFOs' (8.2), the canonical form of the die's tables (log entry 4), the rings' law (R8), the play-out ports' (R133,
R134), and, together, the channels' law (R76) and the reference counts' (R7). -/
def Obligations.RecordLawsKept : Prop :=
  ∀ s t : State, step s = .next t →
    (s.link.TableLaw → t.link.TableLaw) ∧ (s.notices.QueueLaw → t.notices.QueueLaw) ∧ (s.MarkLaw → t.MarkLaw) ∧
      (s.CaptureLaw → t.CaptureLaw) ∧ (s.MemoryLaw → t.MemoryLaw) ∧ (s.RingLaw → t.RingLaw) ∧
      (s.PlayoutLaw → t.PlayoutLaw) ∧ (s.ChannelLaw → s.ReferenceLaw → t.ChannelLaw ∧ t.ReferenceLaw)
end

