-- ==== Sys2Proof/Laws/State.lean ====
section
/-! SUPPORT. What each setter leaves in each field of State: one lemma per field per update. -/
namespace Sys2Proof.Laws

open Sys2Proof.Machine

variable (s : State)

@[simp] theorem setRegions_pending (v : Vector Region 16) : (s.setRegions v).pending = s.pending := rfl
@[simp] theorem setRegions_now (v : Vector Region 16) : (s.setRegions v).now = s.now := rfl
@[simp] theorem setRegions_regions (v : Vector Region 16) : (s.setRegions v).regions = v := rfl
@[simp] theorem setRegions_sched (v : Vector Region 16) : (s.setRegions v).sched = s.sched := rfl
@[simp] theorem setRegions_check (v : Vector Region 16) : (s.setRegions v).check = s.check := rfl
@[simp] theorem setRegions_arb (v : Vector Region 16) : (s.setRegions v).arb = s.arb := rfl
@[simp] theorem setRegions_channels (v : Vector Region 16) : (s.setRegions v).channels = s.channels := rfl
@[simp] theorem setRegions_marks (v : Vector Region 16) : (s.setRegions v).marks = s.marks := rfl
@[simp] theorem setRegions_captures (v : Vector Region 16) : (s.setRegions v).captures = s.captures := rfl
@[simp] theorem setRegions_playouts (v : Vector Region 16) : (s.setRegions v).playouts = s.playouts := rfl
@[simp] theorem setRegions_lau (v : Vector Region 16) : (s.setRegions v).lau = s.lau := rfl
@[simp] theorem setRegions_notices (v : Vector Region 16) : (s.setRegions v).notices = s.notices := rfl
@[simp] theorem setRegions_link (v : Vector Region 16) : (s.setRegions v).link = s.link := rfl
@[simp] theorem setRegions_mem (v : Vector Region 16) : (s.setRegions v).mem = s.mem := rfl
@[simp] theorem setRegions_wrongBits (v : Vector Region 16) : (s.setRegions v).wrongBits = s.wrongBits := rfl

@[simp] theorem setRegion_pending (r : RegionId) (x : Region) : (s.setRegion r x).pending = s.pending := rfl
@[simp] theorem setRegion_now (r : RegionId) (x : Region) : (s.setRegion r x).now = s.now := rfl
@[simp] theorem setRegion_regions (r : RegionId) (x : Region) : (s.setRegion r x).regions = setAt s.regions r x := rfl
@[simp] theorem setRegion_sched (r : RegionId) (x : Region) : (s.setRegion r x).sched = s.sched := rfl
@[simp] theorem setRegion_check (r : RegionId) (x : Region) : (s.setRegion r x).check = s.check := rfl
@[simp] theorem setRegion_arb (r : RegionId) (x : Region) : (s.setRegion r x).arb = s.arb := rfl
@[simp] theorem setRegion_channels (r : RegionId) (x : Region) : (s.setRegion r x).channels = s.channels := rfl
@[simp] theorem setRegion_marks (r : RegionId) (x : Region) : (s.setRegion r x).marks = s.marks := rfl
@[simp] theorem setRegion_captures (r : RegionId) (x : Region) : (s.setRegion r x).captures = s.captures := rfl
@[simp] theorem setRegion_playouts (r : RegionId) (x : Region) : (s.setRegion r x).playouts = s.playouts := rfl
@[simp] theorem setRegion_lau (r : RegionId) (x : Region) : (s.setRegion r x).lau = s.lau := rfl
@[simp] theorem setRegion_notices (r : RegionId) (x : Region) : (s.setRegion r x).notices = s.notices := rfl
@[simp] theorem setRegion_link (r : RegionId) (x : Region) : (s.setRegion r x).link = s.link := rfl
@[simp] theorem setRegion_mem (r : RegionId) (x : Region) : (s.setRegion r x).mem = s.mem := rfl
@[simp] theorem setRegion_wrongBits (r : RegionId) (x : Region) : (s.setRegion r x).wrongBits = s.wrongBits := rfl

@[simp] theorem setSched_pending (x : Scheduler) : (s.setSched x).pending = s.pending := rfl
@[simp] theorem setSched_now (x : Scheduler) : (s.setSched x).now = s.now := rfl
@[simp] theorem setSched_regions (x : Scheduler) : (s.setSched x).regions = s.regions := rfl
@[simp] theorem setSched_sched (x : Scheduler) : (s.setSched x).sched = x := rfl
@[simp] theorem setSched_check (x : Scheduler) : (s.setSched x).check = s.check := rfl
@[simp] theorem setSched_arb (x : Scheduler) : (s.setSched x).arb = s.arb := rfl
@[simp] theorem setSched_channels (x : Scheduler) : (s.setSched x).channels = s.channels := rfl
@[simp] theorem setSched_marks (x : Scheduler) : (s.setSched x).marks = s.marks := rfl
@[simp] theorem setSched_captures (x : Scheduler) : (s.setSched x).captures = s.captures := rfl
@[simp] theorem setSched_playouts (x : Scheduler) : (s.setSched x).playouts = s.playouts := rfl
@[simp] theorem setSched_lau (x : Scheduler) : (s.setSched x).lau = s.lau := rfl
@[simp] theorem setSched_notices (x : Scheduler) : (s.setSched x).notices = s.notices := rfl
@[simp] theorem setSched_link (x : Scheduler) : (s.setSched x).link = s.link := rfl
@[simp] theorem setSched_mem (x : Scheduler) : (s.setSched x).mem = s.mem := rfl
@[simp] theorem setSched_wrongBits (x : Scheduler) : (s.setSched x).wrongBits = s.wrongBits := rfl

@[simp] theorem setCheck_pending (x : CheckUnit) : (s.setCheck x).pending = s.pending := rfl
@[simp] theorem setCheck_now (x : CheckUnit) : (s.setCheck x).now = s.now := rfl
@[simp] theorem setCheck_regions (x : CheckUnit) : (s.setCheck x).regions = s.regions := rfl
@[simp] theorem setCheck_sched (x : CheckUnit) : (s.setCheck x).sched = s.sched := rfl
@[simp] theorem setCheck_check (x : CheckUnit) : (s.setCheck x).check = x := rfl
@[simp] theorem setCheck_arb (x : CheckUnit) : (s.setCheck x).arb = s.arb := rfl
@[simp] theorem setCheck_channels (x : CheckUnit) : (s.setCheck x).channels = s.channels := rfl
@[simp] theorem setCheck_marks (x : CheckUnit) : (s.setCheck x).marks = s.marks := rfl
@[simp] theorem setCheck_captures (x : CheckUnit) : (s.setCheck x).captures = s.captures := rfl
@[simp] theorem setCheck_playouts (x : CheckUnit) : (s.setCheck x).playouts = s.playouts := rfl
@[simp] theorem setCheck_lau (x : CheckUnit) : (s.setCheck x).lau = s.lau := rfl
@[simp] theorem setCheck_notices (x : CheckUnit) : (s.setCheck x).notices = s.notices := rfl
@[simp] theorem setCheck_link (x : CheckUnit) : (s.setCheck x).link = s.link := rfl
@[simp] theorem setCheck_mem (x : CheckUnit) : (s.setCheck x).mem = s.mem := rfl
@[simp] theorem setCheck_wrongBits (x : CheckUnit) : (s.setCheck x).wrongBits = s.wrongBits := rfl

@[simp] theorem setArb_pending (x : Arbiter) : (s.setArb x).pending = s.pending := rfl
@[simp] theorem setArb_now (x : Arbiter) : (s.setArb x).now = s.now := rfl
@[simp] theorem setArb_regions (x : Arbiter) : (s.setArb x).regions = s.regions := rfl
@[simp] theorem setArb_sched (x : Arbiter) : (s.setArb x).sched = s.sched := rfl
@[simp] theorem setArb_check (x : Arbiter) : (s.setArb x).check = s.check := rfl
@[simp] theorem setArb_arb (x : Arbiter) : (s.setArb x).arb = x := rfl
@[simp] theorem setArb_channels (x : Arbiter) : (s.setArb x).channels = s.channels := rfl
@[simp] theorem setArb_marks (x : Arbiter) : (s.setArb x).marks = s.marks := rfl
@[simp] theorem setArb_captures (x : Arbiter) : (s.setArb x).captures = s.captures := rfl
@[simp] theorem setArb_playouts (x : Arbiter) : (s.setArb x).playouts = s.playouts := rfl
@[simp] theorem setArb_lau (x : Arbiter) : (s.setArb x).lau = s.lau := rfl
@[simp] theorem setArb_notices (x : Arbiter) : (s.setArb x).notices = s.notices := rfl
@[simp] theorem setArb_link (x : Arbiter) : (s.setArb x).link = s.link := rfl
@[simp] theorem setArb_mem (x : Arbiter) : (s.setArb x).mem = s.mem := rfl
@[simp] theorem setArb_wrongBits (x : Arbiter) : (s.setArb x).wrongBits = s.wrongBits := rfl

@[simp] theorem setChannel_pending (c : ChannelId) (x : Channel) : (s.setChannel c x).pending = s.pending := rfl
@[simp] theorem setChannel_now (c : ChannelId) (x : Channel) : (s.setChannel c x).now = s.now := rfl
@[simp] theorem setChannel_regions (c : ChannelId) (x : Channel) : (s.setChannel c x).regions = s.regions := rfl
@[simp] theorem setChannel_sched (c : ChannelId) (x : Channel) : (s.setChannel c x).sched = s.sched := rfl
@[simp] theorem setChannel_check (c : ChannelId) (x : Channel) : (s.setChannel c x).check = s.check := rfl
@[simp] theorem setChannel_arb (c : ChannelId) (x : Channel) : (s.setChannel c x).arb = s.arb := rfl
@[simp] theorem setChannel_channels (c : ChannelId) (x : Channel) : (s.setChannel c x).channels = setAt s.channels c x := rfl
@[simp] theorem setChannel_marks (c : ChannelId) (x : Channel) : (s.setChannel c x).marks = s.marks := rfl
@[simp] theorem setChannel_captures (c : ChannelId) (x : Channel) : (s.setChannel c x).captures = s.captures := rfl
@[simp] theorem setChannel_playouts (c : ChannelId) (x : Channel) : (s.setChannel c x).playouts = s.playouts := rfl
@[simp] theorem setChannel_lau (c : ChannelId) (x : Channel) : (s.setChannel c x).lau = s.lau := rfl
@[simp] theorem setChannel_notices (c : ChannelId) (x : Channel) : (s.setChannel c x).notices = s.notices := rfl
@[simp] theorem setChannel_link (c : ChannelId) (x : Channel) : (s.setChannel c x).link = s.link := rfl
@[simp] theorem setChannel_mem (c : ChannelId) (x : Channel) : (s.setChannel c x).mem = s.mem := rfl
@[simp] theorem setChannel_wrongBits (c : ChannelId) (x : Channel) : (s.setChannel c x).wrongBits = s.wrongBits := rfl

@[simp] theorem setMark_pending (m : MarkId) (x : Mark) : (s.setMark m x).pending = s.pending := rfl
@[simp] theorem setMark_now (m : MarkId) (x : Mark) : (s.setMark m x).now = s.now := rfl
@[simp] theorem setMark_regions (m : MarkId) (x : Mark) : (s.setMark m x).regions = s.regions := rfl
@[simp] theorem setMark_sched (m : MarkId) (x : Mark) : (s.setMark m x).sched = s.sched := rfl
@[simp] theorem setMark_check (m : MarkId) (x : Mark) : (s.setMark m x).check = s.check := rfl
@[simp] theorem setMark_arb (m : MarkId) (x : Mark) : (s.setMark m x).arb = s.arb := rfl
@[simp] theorem setMark_channels (m : MarkId) (x : Mark) : (s.setMark m x).channels = s.channels := rfl
@[simp] theorem setMark_marks (m : MarkId) (x : Mark) : (s.setMark m x).marks = setAt s.marks m x := rfl
@[simp] theorem setMark_captures (m : MarkId) (x : Mark) : (s.setMark m x).captures = s.captures := rfl
@[simp] theorem setMark_playouts (m : MarkId) (x : Mark) : (s.setMark m x).playouts = s.playouts := rfl
@[simp] theorem setMark_lau (m : MarkId) (x : Mark) : (s.setMark m x).lau = s.lau := rfl
@[simp] theorem setMark_notices (m : MarkId) (x : Mark) : (s.setMark m x).notices = s.notices := rfl
@[simp] theorem setMark_link (m : MarkId) (x : Mark) : (s.setMark m x).link = s.link := rfl
@[simp] theorem setMark_mem (m : MarkId) (x : Mark) : (s.setMark m x).mem = s.mem := rfl
@[simp] theorem setMark_wrongBits (m : MarkId) (x : Mark) : (s.setMark m x).wrongBits = s.wrongBits := rfl

@[simp] theorem setCapture_pending (p : CaptureId) (x : CapturePort) : (s.setCapture p x).pending = s.pending := rfl
@[simp] theorem setCapture_now (p : CaptureId) (x : CapturePort) : (s.setCapture p x).now = s.now := rfl
@[simp] theorem setCapture_regions (p : CaptureId) (x : CapturePort) : (s.setCapture p x).regions = s.regions := rfl
@[simp] theorem setCapture_sched (p : CaptureId) (x : CapturePort) : (s.setCapture p x).sched = s.sched := rfl
@[simp] theorem setCapture_check (p : CaptureId) (x : CapturePort) : (s.setCapture p x).check = s.check := rfl
@[simp] theorem setCapture_arb (p : CaptureId) (x : CapturePort) : (s.setCapture p x).arb = s.arb := rfl
@[simp] theorem setCapture_channels (p : CaptureId) (x : CapturePort) : (s.setCapture p x).channels = s.channels := rfl
@[simp] theorem setCapture_marks (p : CaptureId) (x : CapturePort) : (s.setCapture p x).marks = s.marks := rfl
@[simp] theorem setCapture_captures (p : CaptureId) (x : CapturePort) : (s.setCapture p x).captures = setAt s.captures p x := rfl
@[simp] theorem setCapture_playouts (p : CaptureId) (x : CapturePort) : (s.setCapture p x).playouts = s.playouts := rfl
@[simp] theorem setCapture_lau (p : CaptureId) (x : CapturePort) : (s.setCapture p x).lau = s.lau := rfl
@[simp] theorem setCapture_notices (p : CaptureId) (x : CapturePort) : (s.setCapture p x).notices = s.notices := rfl
@[simp] theorem setCapture_link (p : CaptureId) (x : CapturePort) : (s.setCapture p x).link = s.link := rfl
@[simp] theorem setCapture_mem (p : CaptureId) (x : CapturePort) : (s.setCapture p x).mem = s.mem := rfl
@[simp] theorem setCapture_wrongBits (p : CaptureId) (x : CapturePort) : (s.setCapture p x).wrongBits = s.wrongBits := rfl

@[simp] theorem setPlayout_pending (p : PlayoutId) (x : PlayoutPort) : (s.setPlayout p x).pending = s.pending := rfl
@[simp] theorem setPlayout_now (p : PlayoutId) (x : PlayoutPort) : (s.setPlayout p x).now = s.now := rfl
@[simp] theorem setPlayout_regions (p : PlayoutId) (x : PlayoutPort) : (s.setPlayout p x).regions = s.regions := rfl
@[simp] theorem setPlayout_sched (p : PlayoutId) (x : PlayoutPort) : (s.setPlayout p x).sched = s.sched := rfl
@[simp] theorem setPlayout_check (p : PlayoutId) (x : PlayoutPort) : (s.setPlayout p x).check = s.check := rfl
@[simp] theorem setPlayout_arb (p : PlayoutId) (x : PlayoutPort) : (s.setPlayout p x).arb = s.arb := rfl
@[simp] theorem setPlayout_channels (p : PlayoutId) (x : PlayoutPort) : (s.setPlayout p x).channels = s.channels := rfl
@[simp] theorem setPlayout_marks (p : PlayoutId) (x : PlayoutPort) : (s.setPlayout p x).marks = s.marks := rfl
@[simp] theorem setPlayout_captures (p : PlayoutId) (x : PlayoutPort) : (s.setPlayout p x).captures = s.captures := rfl
@[simp] theorem setPlayout_playouts (p : PlayoutId) (x : PlayoutPort) : (s.setPlayout p x).playouts = setAt s.playouts p x := rfl
@[simp] theorem setPlayout_lau (p : PlayoutId) (x : PlayoutPort) : (s.setPlayout p x).lau = s.lau := rfl
@[simp] theorem setPlayout_notices (p : PlayoutId) (x : PlayoutPort) : (s.setPlayout p x).notices = s.notices := rfl
@[simp] theorem setPlayout_link (p : PlayoutId) (x : PlayoutPort) : (s.setPlayout p x).link = s.link := rfl
@[simp] theorem setPlayout_mem (p : PlayoutId) (x : PlayoutPort) : (s.setPlayout p x).mem = s.mem := rfl
@[simp] theorem setPlayout_wrongBits (p : PlayoutId) (x : PlayoutPort) : (s.setPlayout p x).wrongBits = s.wrongBits := rfl

@[simp] theorem setLau_pending (x : Lau) : (s.setLau x).pending = s.pending := rfl
@[simp] theorem setLau_now (x : Lau) : (s.setLau x).now = s.now := rfl
@[simp] theorem setLau_regions (x : Lau) : (s.setLau x).regions = s.regions := rfl
@[simp] theorem setLau_sched (x : Lau) : (s.setLau x).sched = s.sched := rfl
@[simp] theorem setLau_check (x : Lau) : (s.setLau x).check = s.check := rfl
@[simp] theorem setLau_arb (x : Lau) : (s.setLau x).arb = s.arb := rfl
@[simp] theorem setLau_channels (x : Lau) : (s.setLau x).channels = s.channels := rfl
@[simp] theorem setLau_marks (x : Lau) : (s.setLau x).marks = s.marks := rfl
@[simp] theorem setLau_captures (x : Lau) : (s.setLau x).captures = s.captures := rfl
@[simp] theorem setLau_playouts (x : Lau) : (s.setLau x).playouts = s.playouts := rfl
@[simp] theorem setLau_lau (x : Lau) : (s.setLau x).lau = x := rfl
@[simp] theorem setLau_notices (x : Lau) : (s.setLau x).notices = s.notices := rfl
@[simp] theorem setLau_link (x : Lau) : (s.setLau x).link = s.link := rfl
@[simp] theorem setLau_mem (x : Lau) : (s.setLau x).mem = s.mem := rfl
@[simp] theorem setLau_wrongBits (x : Lau) : (s.setLau x).wrongBits = s.wrongBits := rfl

@[simp] theorem setNotices_pending (x : NoticeQueue) : (s.setNotices x).pending = s.pending := rfl
@[simp] theorem setNotices_now (x : NoticeQueue) : (s.setNotices x).now = s.now := rfl
@[simp] theorem setNotices_regions (x : NoticeQueue) : (s.setNotices x).regions = s.regions := rfl
@[simp] theorem setNotices_sched (x : NoticeQueue) : (s.setNotices x).sched = s.sched := rfl
@[simp] theorem setNotices_check (x : NoticeQueue) : (s.setNotices x).check = s.check := rfl
@[simp] theorem setNotices_arb (x : NoticeQueue) : (s.setNotices x).arb = s.arb := rfl
@[simp] theorem setNotices_channels (x : NoticeQueue) : (s.setNotices x).channels = s.channels := rfl
@[simp] theorem setNotices_marks (x : NoticeQueue) : (s.setNotices x).marks = s.marks := rfl
@[simp] theorem setNotices_captures (x : NoticeQueue) : (s.setNotices x).captures = s.captures := rfl
@[simp] theorem setNotices_playouts (x : NoticeQueue) : (s.setNotices x).playouts = s.playouts := rfl
@[simp] theorem setNotices_lau (x : NoticeQueue) : (s.setNotices x).lau = s.lau := rfl
@[simp] theorem setNotices_notices (x : NoticeQueue) : (s.setNotices x).notices = x := rfl
@[simp] theorem setNotices_link (x : NoticeQueue) : (s.setNotices x).link = s.link := rfl
@[simp] theorem setNotices_mem (x : NoticeQueue) : (s.setNotices x).mem = s.mem := rfl
@[simp] theorem setNotices_wrongBits (x : NoticeQueue) : (s.setNotices x).wrongBits = s.wrongBits := rfl

@[simp] theorem setLink_pending (x : Link) : (s.setLink x).pending = s.pending := rfl
@[simp] theorem setLink_now (x : Link) : (s.setLink x).now = s.now := rfl
@[simp] theorem setLink_regions (x : Link) : (s.setLink x).regions = s.regions := rfl
@[simp] theorem setLink_sched (x : Link) : (s.setLink x).sched = s.sched := rfl
@[simp] theorem setLink_check (x : Link) : (s.setLink x).check = s.check := rfl
@[simp] theorem setLink_arb (x : Link) : (s.setLink x).arb = s.arb := rfl
@[simp] theorem setLink_channels (x : Link) : (s.setLink x).channels = s.channels := rfl
@[simp] theorem setLink_marks (x : Link) : (s.setLink x).marks = s.marks := rfl
@[simp] theorem setLink_captures (x : Link) : (s.setLink x).captures = s.captures := rfl
@[simp] theorem setLink_playouts (x : Link) : (s.setLink x).playouts = s.playouts := rfl
@[simp] theorem setLink_lau (x : Link) : (s.setLink x).lau = s.lau := rfl
@[simp] theorem setLink_notices (x : Link) : (s.setLink x).notices = s.notices := rfl
@[simp] theorem setLink_link (x : Link) : (s.setLink x).link = x := rfl
@[simp] theorem setLink_mem (x : Link) : (s.setLink x).mem = s.mem := rfl
@[simp] theorem setLink_wrongBits (x : Link) : (s.setLink x).wrongBits = s.wrongBits := rfl

@[simp] theorem setMem_pending (x : List Host.Cell) : (s.setMem x).pending = s.pending := rfl
@[simp] theorem setMem_now (x : List Host.Cell) : (s.setMem x).now = s.now := rfl
@[simp] theorem setMem_regions (x : List Host.Cell) : (s.setMem x).regions = s.regions := rfl
@[simp] theorem setMem_sched (x : List Host.Cell) : (s.setMem x).sched = s.sched := rfl
@[simp] theorem setMem_check (x : List Host.Cell) : (s.setMem x).check = s.check := rfl
@[simp] theorem setMem_arb (x : List Host.Cell) : (s.setMem x).arb = s.arb := rfl
@[simp] theorem setMem_channels (x : List Host.Cell) : (s.setMem x).channels = s.channels := rfl
@[simp] theorem setMem_marks (x : List Host.Cell) : (s.setMem x).marks = s.marks := rfl
@[simp] theorem setMem_captures (x : List Host.Cell) : (s.setMem x).captures = s.captures := rfl
@[simp] theorem setMem_playouts (x : List Host.Cell) : (s.setMem x).playouts = s.playouts := rfl
@[simp] theorem setMem_lau (x : List Host.Cell) : (s.setMem x).lau = s.lau := rfl
@[simp] theorem setMem_notices (x : List Host.Cell) : (s.setMem x).notices = s.notices := rfl
@[simp] theorem setMem_link (x : List Host.Cell) : (s.setMem x).link = s.link := rfl
@[simp] theorem setMem_mem (x : List Host.Cell) : (s.setMem x).mem = x := rfl
@[simp] theorem setMem_wrongBits (x : List Host.Cell) : (s.setMem x).wrongBits = s.wrongBits := rfl

@[simp] theorem setWrongBits_pending (x : List (Nat × BurstBits)) : (s.setWrongBits x).pending = s.pending := rfl
@[simp] theorem setWrongBits_now (x : List (Nat × BurstBits)) : (s.setWrongBits x).now = s.now := rfl
@[simp] theorem setWrongBits_regions (x : List (Nat × BurstBits)) : (s.setWrongBits x).regions = s.regions := rfl
@[simp] theorem setWrongBits_sched (x : List (Nat × BurstBits)) : (s.setWrongBits x).sched = s.sched := rfl
@[simp] theorem setWrongBits_check (x : List (Nat × BurstBits)) : (s.setWrongBits x).check = s.check := rfl
@[simp] theorem setWrongBits_arb (x : List (Nat × BurstBits)) : (s.setWrongBits x).arb = s.arb := rfl
@[simp] theorem setWrongBits_channels (x : List (Nat × BurstBits)) : (s.setWrongBits x).channels = s.channels := rfl
@[simp] theorem setWrongBits_marks (x : List (Nat × BurstBits)) : (s.setWrongBits x).marks = s.marks := rfl
@[simp] theorem setWrongBits_captures (x : List (Nat × BurstBits)) : (s.setWrongBits x).captures = s.captures := rfl
@[simp] theorem setWrongBits_playouts (x : List (Nat × BurstBits)) : (s.setWrongBits x).playouts = s.playouts := rfl
@[simp] theorem setWrongBits_lau (x : List (Nat × BurstBits)) : (s.setWrongBits x).lau = s.lau := rfl
@[simp] theorem setWrongBits_notices (x : List (Nat × BurstBits)) : (s.setWrongBits x).notices = s.notices := rfl
@[simp] theorem setWrongBits_link (x : List (Nat × BurstBits)) : (s.setWrongBits x).link = s.link := rfl
@[simp] theorem setWrongBits_mem (x : List (Nat × BurstBits)) : (s.setWrongBits x).mem = s.mem := rfl
@[simp] theorem setWrongBits_wrongBits (x : List (Nat × BurstBits)) : (s.setWrongBits x).wrongBits = x := rfl

@[simp] theorem setNow_pending (t : Nat) : (s.setNow t).pending = s.pending := rfl
@[simp] theorem setNow_now (t : Nat) : (s.setNow t).now = t := rfl
@[simp] theorem setNow_regions (t : Nat) : (s.setNow t).regions = s.regions := rfl
@[simp] theorem setNow_sched (t : Nat) : (s.setNow t).sched = s.sched := rfl
@[simp] theorem setNow_check (t : Nat) : (s.setNow t).check = s.check := rfl
@[simp] theorem setNow_arb (t : Nat) : (s.setNow t).arb = s.arb := rfl
@[simp] theorem setNow_channels (t : Nat) : (s.setNow t).channels = s.channels := rfl
@[simp] theorem setNow_marks (t : Nat) : (s.setNow t).marks = s.marks := rfl
@[simp] theorem setNow_captures (t : Nat) : (s.setNow t).captures = s.captures := rfl
@[simp] theorem setNow_playouts (t : Nat) : (s.setNow t).playouts = s.playouts := rfl
@[simp] theorem setNow_lau (t : Nat) : (s.setNow t).lau = s.lau := rfl
@[simp] theorem setNow_notices (t : Nat) : (s.setNow t).notices = s.notices := rfl
@[simp] theorem setNow_link (t : Nat) : (s.setNow t).link = s.link := rfl
@[simp] theorem setNow_mem (t : Nat) : (s.setNow t).mem = s.mem := rfl
@[simp] theorem setNow_wrongBits (t : Nat) : (s.setNow t).wrongBits = s.wrongBits := rfl

@[simp] theorem setPending_pending (l : List Instr) : (s.setPending l).pending = l := rfl
@[simp] theorem setPending_now (l : List Instr) : (s.setPending l).now = s.now := rfl
@[simp] theorem setPending_regions (l : List Instr) : (s.setPending l).regions = s.regions := rfl
@[simp] theorem setPending_sched (l : List Instr) : (s.setPending l).sched = s.sched := rfl
@[simp] theorem setPending_check (l : List Instr) : (s.setPending l).check = s.check := rfl
@[simp] theorem setPending_arb (l : List Instr) : (s.setPending l).arb = s.arb := rfl
@[simp] theorem setPending_channels (l : List Instr) : (s.setPending l).channels = s.channels := rfl
@[simp] theorem setPending_marks (l : List Instr) : (s.setPending l).marks = s.marks := rfl
@[simp] theorem setPending_captures (l : List Instr) : (s.setPending l).captures = s.captures := rfl
@[simp] theorem setPending_playouts (l : List Instr) : (s.setPending l).playouts = s.playouts := rfl
@[simp] theorem setPending_lau (l : List Instr) : (s.setPending l).lau = s.lau := rfl
@[simp] theorem setPending_notices (l : List Instr) : (s.setPending l).notices = s.notices := rfl
@[simp] theorem setPending_link (l : List Instr) : (s.setPending l).link = s.link := rfl
@[simp] theorem setPending_mem (l : List Instr) : (s.setPending l).mem = s.mem := rfl
@[simp] theorem setPending_wrongBits (l : List Instr) : (s.setPending l).wrongBits = s.wrongBits := rfl

@[simp] theorem clockTo_pending (t : Nat) : (s.clockTo t).pending = s.pending := rfl
@[simp] theorem clockTo_now (t : Nat) : (s.clockTo t).now = max s.now t := rfl
@[simp] theorem clockTo_regions (t : Nat) : (s.clockTo t).regions = s.regions := rfl
@[simp] theorem clockTo_sched (t : Nat) : (s.clockTo t).sched = s.sched := rfl
@[simp] theorem clockTo_check (t : Nat) : (s.clockTo t).check = s.check := rfl
@[simp] theorem clockTo_arb (t : Nat) : (s.clockTo t).arb = s.arb := rfl
@[simp] theorem clockTo_channels (t : Nat) : (s.clockTo t).channels = s.channels := rfl
@[simp] theorem clockTo_marks (t : Nat) : (s.clockTo t).marks = s.marks := rfl
@[simp] theorem clockTo_captures (t : Nat) : (s.clockTo t).captures = s.captures := rfl
@[simp] theorem clockTo_playouts (t : Nat) : (s.clockTo t).playouts = s.playouts := rfl
@[simp] theorem clockTo_lau (t : Nat) : (s.clockTo t).lau = s.lau := rfl
@[simp] theorem clockTo_notices (t : Nat) : (s.clockTo t).notices = s.notices := rfl
@[simp] theorem clockTo_link (t : Nat) : (s.clockTo t).link = s.link := rfl
@[simp] theorem clockTo_mem (t : Nat) : (s.clockTo t).mem = s.mem := rfl
@[simp] theorem clockTo_wrongBits (t : Nat) : (s.clockTo t).wrongBits = s.wrongBits := rfl

/-! The accessors of the tables. -/

@[simp] theorem region_setRegion_self (i : RegionId) (x : Region) : (s.setRegion i x).region i = x := getAt_setAt_self _ _ _

theorem region_setRegion_ne {i j : RegionId} (x : Region) (h : j ≠ i) : (s.setRegion i x).region j = s.region j := getAt_setAt_ne _ _ h

theorem region_setRegion (i j : RegionId) (x : Region) : (s.setRegion i x).region j = if j = i then x else s.region j := getAt_setAt _ _ _ _

@[simp] theorem channel_setChannel_self (i : ChannelId) (x : Channel) : (s.setChannel i x).channel i = x := getAt_setAt_self _ _ _

theorem channel_setChannel_ne {i j : ChannelId} (x : Channel) (h : j ≠ i) : (s.setChannel i x).channel j = s.channel j := getAt_setAt_ne _ _ h

theorem channel_setChannel (i j : ChannelId) (x : Channel) : (s.setChannel i x).channel j = if j = i then x else s.channel j := getAt_setAt _ _ _ _

@[simp] theorem mark_setMark_self (i : MarkId) (x : Mark) : (s.setMark i x).mark i = x := getAt_setAt_self _ _ _

theorem mark_setMark_ne {i j : MarkId} (x : Mark) (h : j ≠ i) : (s.setMark i x).mark j = s.mark j := getAt_setAt_ne _ _ h

theorem mark_setMark (i j : MarkId) (x : Mark) : (s.setMark i x).mark j = if j = i then x else s.mark j := getAt_setAt _ _ _ _

@[simp] theorem capture_setCapture_self (i : CaptureId) (x : CapturePort) : (s.setCapture i x).capture i = x := getAt_setAt_self _ _ _

theorem capture_setCapture_ne {i j : CaptureId} (x : CapturePort) (h : j ≠ i) : (s.setCapture i x).capture j = s.capture j := getAt_setAt_ne _ _ h

theorem capture_setCapture (i j : CaptureId) (x : CapturePort) : (s.setCapture i x).capture j = if j = i then x else s.capture j := getAt_setAt _ _ _ _

@[simp] theorem playout_setPlayout_self (i : PlayoutId) (x : PlayoutPort) : (s.setPlayout i x).playout i = x := getAt_setAt_self _ _ _

theorem playout_setPlayout_ne {i j : PlayoutId} (x : PlayoutPort) (h : j ≠ i) : (s.setPlayout i x).playout j = s.playout j := getAt_setAt_ne _ _ h

theorem playout_setPlayout (i j : PlayoutId) (x : PlayoutPort) : (s.setPlayout i x).playout j = if j = i then x else s.playout j := getAt_setAt _ _ _ _

@[simp] theorem setRegions_channel (v : Vector Region 16) (i : ChannelId) : (s.setRegions v).channel i = s.channel i := rfl
@[simp] theorem setRegions_mark (v : Vector Region 16) (i : MarkId) : (s.setRegions v).mark i = s.mark i := rfl
@[simp] theorem setRegions_capture (v : Vector Region 16) (i : CaptureId) : (s.setRegions v).capture i = s.capture i := rfl
@[simp] theorem setRegions_playout (v : Vector Region 16) (i : PlayoutId) : (s.setRegions v).playout i = s.playout i := rfl
@[simp] theorem setRegion_channel (r : RegionId) (x : Region) (i : ChannelId) : (s.setRegion r x).channel i = s.channel i := rfl
@[simp] theorem setRegion_mark (r : RegionId) (x : Region) (i : MarkId) : (s.setRegion r x).mark i = s.mark i := rfl
@[simp] theorem setRegion_capture (r : RegionId) (x : Region) (i : CaptureId) : (s.setRegion r x).capture i = s.capture i := rfl
@[simp] theorem setRegion_playout (r : RegionId) (x : Region) (i : PlayoutId) : (s.setRegion r x).playout i = s.playout i := rfl
@[simp] theorem setSched_region (x : Scheduler) (i : RegionId) : (s.setSched x).region i = s.region i := rfl
@[simp] theorem setSched_channel (x : Scheduler) (i : ChannelId) : (s.setSched x).channel i = s.channel i := rfl
@[simp] theorem setSched_mark (x : Scheduler) (i : MarkId) : (s.setSched x).mark i = s.mark i := rfl
@[simp] theorem setSched_capture (x : Scheduler) (i : CaptureId) : (s.setSched x).capture i = s.capture i := rfl
@[simp] theorem setSched_playout (x : Scheduler) (i : PlayoutId) : (s.setSched x).playout i = s.playout i := rfl
@[simp] theorem setCheck_region (x : CheckUnit) (i : RegionId) : (s.setCheck x).region i = s.region i := rfl
@[simp] theorem setCheck_channel (x : CheckUnit) (i : ChannelId) : (s.setCheck x).channel i = s.channel i := rfl
@[simp] theorem setCheck_mark (x : CheckUnit) (i : MarkId) : (s.setCheck x).mark i = s.mark i := rfl
@[simp] theorem setCheck_capture (x : CheckUnit) (i : CaptureId) : (s.setCheck x).capture i = s.capture i := rfl
@[simp] theorem setCheck_playout (x : CheckUnit) (i : PlayoutId) : (s.setCheck x).playout i = s.playout i := rfl
@[simp] theorem setArb_region (x : Arbiter) (i : RegionId) : (s.setArb x).region i = s.region i := rfl
@[simp] theorem setArb_channel (x : Arbiter) (i : ChannelId) : (s.setArb x).channel i = s.channel i := rfl
@[simp] theorem setArb_mark (x : Arbiter) (i : MarkId) : (s.setArb x).mark i = s.mark i := rfl
@[simp] theorem setArb_capture (x : Arbiter) (i : CaptureId) : (s.setArb x).capture i = s.capture i := rfl
@[simp] theorem setArb_playout (x : Arbiter) (i : PlayoutId) : (s.setArb x).playout i = s.playout i := rfl
@[simp] theorem setChannel_region (c : ChannelId) (x : Channel) (i : RegionId) : (s.setChannel c x).region i = s.region i := rfl
@[simp] theorem setChannel_mark (c : ChannelId) (x : Channel) (i : MarkId) : (s.setChannel c x).mark i = s.mark i := rfl
@[simp] theorem setChannel_capture (c : ChannelId) (x : Channel) (i : CaptureId) : (s.setChannel c x).capture i = s.capture i := rfl
@[simp] theorem setChannel_playout (c : ChannelId) (x : Channel) (i : PlayoutId) : (s.setChannel c x).playout i = s.playout i := rfl
@[simp] theorem setMark_region (m : MarkId) (x : Mark) (i : RegionId) : (s.setMark m x).region i = s.region i := rfl
@[simp] theorem setMark_channel (m : MarkId) (x : Mark) (i : ChannelId) : (s.setMark m x).channel i = s.channel i := rfl
@[simp] theorem setMark_capture (m : MarkId) (x : Mark) (i : CaptureId) : (s.setMark m x).capture i = s.capture i := rfl
@[simp] theorem setMark_playout (m : MarkId) (x : Mark) (i : PlayoutId) : (s.setMark m x).playout i = s.playout i := rfl
@[simp] theorem setCapture_region (p : CaptureId) (x : CapturePort) (i : RegionId) : (s.setCapture p x).region i = s.region i := rfl
@[simp] theorem setCapture_channel (p : CaptureId) (x : CapturePort) (i : ChannelId) : (s.setCapture p x).channel i = s.channel i := rfl
@[simp] theorem setCapture_mark (p : CaptureId) (x : CapturePort) (i : MarkId) : (s.setCapture p x).mark i = s.mark i := rfl
@[simp] theorem setCapture_playout (p : CaptureId) (x : CapturePort) (i : PlayoutId) : (s.setCapture p x).playout i = s.playout i := rfl
@[simp] theorem setPlayout_region (p : PlayoutId) (x : PlayoutPort) (i : RegionId) : (s.setPlayout p x).region i = s.region i := rfl
@[simp] theorem setPlayout_channel (p : PlayoutId) (x : PlayoutPort) (i : ChannelId) : (s.setPlayout p x).channel i = s.channel i := rfl
@[simp] theorem setPlayout_mark (p : PlayoutId) (x : PlayoutPort) (i : MarkId) : (s.setPlayout p x).mark i = s.mark i := rfl
@[simp] theorem setPlayout_capture (p : PlayoutId) (x : PlayoutPort) (i : CaptureId) : (s.setPlayout p x).capture i = s.capture i := rfl
@[simp] theorem setLau_region (x : Lau) (i : RegionId) : (s.setLau x).region i = s.region i := rfl
@[simp] theorem setLau_channel (x : Lau) (i : ChannelId) : (s.setLau x).channel i = s.channel i := rfl
@[simp] theorem setLau_mark (x : Lau) (i : MarkId) : (s.setLau x).mark i = s.mark i := rfl
@[simp] theorem setLau_capture (x : Lau) (i : CaptureId) : (s.setLau x).capture i = s.capture i := rfl
@[simp] theorem setLau_playout (x : Lau) (i : PlayoutId) : (s.setLau x).playout i = s.playout i := rfl
@[simp] theorem setNotices_region (x : NoticeQueue) (i : RegionId) : (s.setNotices x).region i = s.region i := rfl
@[simp] theorem setNotices_channel (x : NoticeQueue) (i : ChannelId) : (s.setNotices x).channel i = s.channel i := rfl
@[simp] theorem setNotices_mark (x : NoticeQueue) (i : MarkId) : (s.setNotices x).mark i = s.mark i := rfl
@[simp] theorem setNotices_capture (x : NoticeQueue) (i : CaptureId) : (s.setNotices x).capture i = s.capture i := rfl
@[simp] theorem setNotices_playout (x : NoticeQueue) (i : PlayoutId) : (s.setNotices x).playout i = s.playout i := rfl
@[simp] theorem setLink_region (x : Link) (i : RegionId) : (s.setLink x).region i = s.region i := rfl
@[simp] theorem setLink_channel (x : Link) (i : ChannelId) : (s.setLink x).channel i = s.channel i := rfl
@[simp] theorem setLink_mark (x : Link) (i : MarkId) : (s.setLink x).mark i = s.mark i := rfl
@[simp] theorem setLink_capture (x : Link) (i : CaptureId) : (s.setLink x).capture i = s.capture i := rfl
@[simp] theorem setLink_playout (x : Link) (i : PlayoutId) : (s.setLink x).playout i = s.playout i := rfl
@[simp] theorem setMem_region (x : List Host.Cell) (i : RegionId) : (s.setMem x).region i = s.region i := rfl
@[simp] theorem setMem_channel (x : List Host.Cell) (i : ChannelId) : (s.setMem x).channel i = s.channel i := rfl
@[simp] theorem setMem_mark (x : List Host.Cell) (i : MarkId) : (s.setMem x).mark i = s.mark i := rfl
@[simp] theorem setMem_capture (x : List Host.Cell) (i : CaptureId) : (s.setMem x).capture i = s.capture i := rfl
@[simp] theorem setMem_playout (x : List Host.Cell) (i : PlayoutId) : (s.setMem x).playout i = s.playout i := rfl
@[simp] theorem setWrongBits_region (x : List (Nat × BurstBits)) (i : RegionId) : (s.setWrongBits x).region i = s.region i := rfl
@[simp] theorem setWrongBits_channel (x : List (Nat × BurstBits)) (i : ChannelId) : (s.setWrongBits x).channel i = s.channel i := rfl
@[simp] theorem setWrongBits_mark (x : List (Nat × BurstBits)) (i : MarkId) : (s.setWrongBits x).mark i = s.mark i := rfl
@[simp] theorem setWrongBits_capture (x : List (Nat × BurstBits)) (i : CaptureId) : (s.setWrongBits x).capture i = s.capture i := rfl
@[simp] theorem setWrongBits_playout (x : List (Nat × BurstBits)) (i : PlayoutId) : (s.setWrongBits x).playout i = s.playout i := rfl
@[simp] theorem setNow_region (t : Nat) (i : RegionId) : (s.setNow t).region i = s.region i := rfl
@[simp] theorem setNow_channel (t : Nat) (i : ChannelId) : (s.setNow t).channel i = s.channel i := rfl
@[simp] theorem setNow_mark (t : Nat) (i : MarkId) : (s.setNow t).mark i = s.mark i := rfl
@[simp] theorem setNow_capture (t : Nat) (i : CaptureId) : (s.setNow t).capture i = s.capture i := rfl
@[simp] theorem setNow_playout (t : Nat) (i : PlayoutId) : (s.setNow t).playout i = s.playout i := rfl
@[simp] theorem setPending_region (l : List Instr) (i : RegionId) : (s.setPending l).region i = s.region i := rfl
@[simp] theorem setPending_channel (l : List Instr) (i : ChannelId) : (s.setPending l).channel i = s.channel i := rfl
@[simp] theorem setPending_mark (l : List Instr) (i : MarkId) : (s.setPending l).mark i = s.mark i := rfl
@[simp] theorem setPending_capture (l : List Instr) (i : CaptureId) : (s.setPending l).capture i = s.capture i := rfl
@[simp] theorem setPending_playout (l : List Instr) (i : PlayoutId) : (s.setPending l).playout i = s.playout i := rfl
@[simp] theorem clockTo_region (t : Nat) (i : RegionId) : (s.clockTo t).region i = s.region i := rfl
@[simp] theorem clockTo_channel (t : Nat) (i : ChannelId) : (s.clockTo t).channel i = s.channel i := rfl
@[simp] theorem clockTo_mark (t : Nat) (i : MarkId) : (s.clockTo t).mark i = s.mark i := rfl
@[simp] theorem clockTo_capture (t : Nat) (i : CaptureId) : (s.clockTo t).capture i = s.capture i := rfl
@[simp] theorem clockTo_playout (t : Nat) (i : PlayoutId) : (s.clockTo t).playout i = s.playout i := rfl

end Sys2Proof.Laws
end

