-- ==== Sys2Proof/Laws/Tables.lean ====
section
/-! SUPPORT. Writing a table twice, or writing back what it holds; a ring read back after it is written; the tables by
their entries. -/
namespace Sys2Proof.Laws

open Sys2Proof.Machine

theorem setAt_setAt {α : Type} {n : Nat} (v : Vector α n) (i : Fin n) (x y : α) :
    setAt (setAt v i x) i y = setAt v i y := by
  simp [setAt]

theorem setAt_getAt {α : Type} {n : Nat} (v : Vector α n) (i : Fin n) : setAt v i (getAt v i) = v := by
  simp [setAt, getAt]

theorem setAt_comm {α : Type} {n : Nat} (v : Vector α n) {i j : Fin n} (h : i ≠ j) (x y : α) :
    setAt (setAt v i x) j y = setAt (setAt v j y) i x := by
  apply table_ext
  intro k
  simp only [getAt_setAt]
  by_cases hj : k = j
  · subst hj
    rw [if_pos rfl, if_neg (Ne.symm h), if_pos rfl]
  · rw [if_neg hj]
    by_cases hi : k = i
    · rw [if_pos hi, if_pos hi]
    · rw [if_neg hi, if_neg hi, if_neg hj]

variable (s : State)

@[simp] theorem setChannel_setChannel (c : ChannelId) (x y : Channel) :
    (s.setChannel c x).setChannel c y = s.setChannel c y := by
  unfold State.setChannel
  rw [setAt_setAt]

@[simp] theorem setChannel_channel_self (c : ChannelId) : s.setChannel c (s.channel c) = s := by
  unfold State.setChannel State.channel
  rw [setAt_getAt]

@[simp] theorem setMark_setMark (m : MarkId) (x y : Mark) : (s.setMark m x).setMark m y = s.setMark m y := by
  unfold State.setMark
  rw [setAt_setAt]

@[simp] theorem setMark_mark_self (m : MarkId) : s.setMark m (s.mark m) = s := by
  unfold State.setMark State.mark
  rw [setAt_getAt]

@[simp] theorem setPlayout_setPlayout (k : PlayoutId) (x y : PlayoutPort) :
    (s.setPlayout k x).setPlayout k y = s.setPlayout k y := by
  unfold State.setPlayout
  rw [setAt_setAt]

@[simp] theorem setRegion_setRegion (r : RegionId) (x y : Region) :
    (s.setRegion r x).setRegion r y = s.setRegion r y := by
  unfold State.setRegion
  rw [setAt_setAt]

@[simp] theorem setRegion_region_self (r : RegionId) : s.setRegion r (s.region r) = s := by
  unfold State.setRegion State.region
  rw [setAt_getAt]

/-- A channel read and written in one. -/
theorem modChannel_setChannel (c : ChannelId) (x : Channel) (f : Channel → Channel) :
    (s.setChannel c x).modChannel c f = s.setChannel c (f x) := by
  unfold State.modChannel
  rw [channel_setChannel_self, setChannel_setChannel]

@[simp] theorem channel_modChannel_self (c : ChannelId) (f : Channel → Channel) :
    (s.modChannel c f).channel c = f (s.channel c) := by
  unfold State.modChannel
  rw [channel_setChannel_self]

theorem channel_modChannel_ne {c b : ChannelId} (h : b ≠ c) (f : Channel → Channel) :
    (s.modChannel c f).channel b = s.channel b := by
  unfold State.modChannel
  rw [channel_setChannel_ne _ _ h]

/-! ## Rings -/

variable {s}

theorem ring_isSome {r : RegionId} : s.ring? r ≠ none ↔ ∃ d g, (s.region r).record = some d ∧ d.kind = .ring g := by
  unfold State.ring?
  cases h : (s.region r).record with
  | none => simp
  | some d => cases hk : d.kind <;> simp [hk]

theorem ring_eq {r : RegionId} {d : RegionRecord} {g : Ring} (h : (s.region r).record = some d) (hk : d.kind = .ring g) :
    s.ring? r = some (d, g) := by
  unfold State.ring?
  rw [h]
  dsimp only
  rw [hk]

theorem ring_none_linear {r : RegionId} {d : RegionRecord} (h : (s.region r).record = some d) (hk : d.kind = .linear) :
    s.ring? r = none := by
  unfold State.ring?
  rw [h]
  dsimp only
  rw [hk]

theorem ring_none_free {r : RegionId} (h : (s.region r).record = none) : s.ring? r = none := by
  unfold State.ring?
  rw [h]

theorem ring_some_iff {r : RegionId} {d : RegionRecord} {g : Ring} :
    s.ring? r = some (d, g) ↔ (s.region r).record = some d ∧ d.kind = .ring g := by
  constructor
  · intro h
    unfold State.ring? at h
    split at h
    · rename_i x hx
      split at h
      · rename_i y hy
        cases h
        exact ⟨hx, hy⟩
      · cases h
    · cases h
  · rintro ⟨h, hk⟩
    exact ring_eq h hk

theorem ring_setRing_self {r : RegionId} {d : RegionRecord} {g : Ring} (h : s.ring? r = some (d, g)) (k : Ring) :
    (s.setRing r k).ring? r = some ({ d with kind := .ring k }, k) := by
  obtain ⟨hr, -⟩ := ring_some_iff.mp h
  refine ring_eq ?_ rfl
  unfold State.setRing Region.setRing
  rw [region_setRegion_self, hr]

theorem region_setRing_ne {r q : RegionId} (h : q ≠ r) (k : Ring) : (s.setRing r k).region q = s.region q := by
  unfold State.setRing
  rw [region_setRegion_ne _ _ h]

theorem ring_setRing_ne {r q : RegionId} (h : q ≠ r) (k : Ring) : (s.setRing r k).ring? q = s.ring? q := by
  unfold State.ring?
  rw [region_setRing_ne h]

/-- Every ring after one ring is written. -/
theorem ring_setRing {r q : RegionId} {d : RegionRecord} {g : Ring} (h : s.ring? r = some (d, g)) (k : Ring) :
    (s.setRing r k).ring? q = if q = r then some ({ d with kind := .ring k }, k) else s.ring? q := by
  by_cases e : q = r
  · rw [if_pos e, e, ring_setRing_self h]
  · rw [if_neg e, ring_setRing_ne e]

theorem setRing_setRing (r : RegionId) (k l : Ring) : (s.setRing r k).setRing r l = s.setRing r l := by
  unfold State.setRing
  rw [region_setRegion_self, setRegion_setRegion]
  congr 1
  unfold Region.setRing
  cases h : (s.region r).record <;> simp [h]

theorem setRing_self {r : RegionId} {d : RegionRecord} {g : Ring} (h : s.ring? r = some (d, g)) : s.setRing r g = s := by
  obtain ⟨hr, hk⟩ := ring_some_iff.mp h
  unfold State.setRing
  rw [show (s.region r).setRing g = s.region r by
    unfold Region.setRing
    cases hx : s.region r with
    | mk n rec =>
      rw [hx] at hr
      cases d
      simp only at hr hk
      subst hk
      subst hr
      rfl]
  exact setRegion_region_self s r

end Sys2Proof.Laws
end

