-- ==== Sys2Proof/Laws/Claims.lean ====
section
/-! SUPPORT. What taking and releasing claims, and serving marks, can change: channel states, ring claims and their waiter
lists, and nothing else (R17, R18, R82, R119, R120). -/
namespace Sys2Proof.Laws

open Sys2Proof.Machine

/-- A region without its claims and waiter lists. -/
def bareRegion (x : Region) : Region :=
  { x with record := x.record.map fun d => match d.kind with
    | .linear => d
    | .ring g => { d with kind := .ring g.unclaimed } }

/-- A channel without its state. -/
def bareChannel (x : Channel) : Channel := { x with state := .idle }

/-- `t` differs from `s` in channel states and in ring claims and waiter lists only, and no channel has become IDLE. -/
structure Promotes (s t : State) : Prop where
  fields : t = { s with channels := t.channels, regions := t.regions }
  channels : ∀ b, bareChannel (t.channel b) = bareChannel (s.channel b)
  regions : ∀ r, bareRegion (t.region r) = bareRegion (s.region r)
  live : ∀ b, (t.channel b).state = .idle → (s.channel b).state = .idle

namespace Promotes

theorem refl (s : State) : Promotes s s :=
  ⟨rfl, fun _ => rfl, fun _ => rfl, fun _ h => h⟩

theorem trans {s t u : State} (h : Promotes s t) (k : Promotes t u) : Promotes s u := by
  refine ⟨?_, fun b => (k.channels b).trans (h.channels b), fun r => (k.regions r).trans (h.regions r),
    fun b e => h.live b (k.live b e)⟩
  rw [k.fields, h.fields]

end Promotes

/-- A ring's claims and waiter lists change, and nothing else of it. -/
theorem promotes_setRing {s : State} {r : RegionId} {d : RegionRecord} {g g' : Ring} (h : s.ring? r = some (d, g))
    (hg : g'.unclaimed = g.unclaimed) : Promotes s (s.setRing r g') := by
  obtain ⟨hr, hk⟩ := ring_some_iff.mp h
  refine ⟨rfl, fun _ => rfl, fun q => ?_, fun _ h => h⟩
  unfold State.setRing
  rw [region_setRegion]
  split
  · rename_i e
    subst e
    unfold Region.setRing bareRegion
    rw [hr]
    simp only [Option.map_some, hk, hg]
  · rfl

theorem promotes_state (s : State) (c : ChannelId) {st : ChannelState} (h : st ≠ .idle) :
    Promotes s (s.modChannel c fun x => { x with state := st }) := by
  refine ⟨rfl, fun b => ?_, fun _ => rfl, fun b => ?_⟩ <;>
  · unfold State.modChannel
    rw [channel_setChannel]
    split
    · rename_i e
      subst e
      first
        | rfl
        | exact fun k => absurd k h
    · first
        | rfl
        | exact fun k => k

theorem unclaimed_setHolder (role : Role) (h : Option Requester) (g : Ring) :
    (g.setHolder role h).unclaimed = g.unclaimed := by cases role <;> rfl

theorem unclaimed_setWaiters (role : Role) (l : List ChannelId) (g : Ring) :
    (g.setWaiters role l).unclaimed = g.unclaimed := by cases role <;> rfl

theorem unclaimed_release (role : Role) (g : Ring) : (g.release role).unclaimed = g.unclaimed := by
  unfold Ring.release
  split
  · exact unclaimed_setHolder _ _ _
  · rw [unclaimed_setWaiters, unclaimed_setHolder]

theorem roleRing_some {s : State} {role : Role} {c : ChannelId} {r : RegionId} {g : Ring}
    (h : s.roleRing role c = some (r, g)) : ∃ d, s.ring? r = some (d, g) := by
  unfold State.roleRing at h
  split at h
  · cases h
  · split at h
    · cases h
    · rename_i q _
      cases hq : s.ring? q with
      | none => rw [hq] at h; cases h
      | some x => rw [hq] at h; cases h; exact ⟨x.1, hq⟩

/-- A claim is taken, or the channel joins the waiter list. -/
theorem promotes_takeClaim (role : Role) (c : ChannelId) {next : State → State} (hn : ∀ t, Promotes t (next t))
    (s : State) : Promotes s (s.takeClaim role c next) := by
  unfold State.takeClaim
  split
  · exact hn _
  · rename_i r g h
    obtain ⟨d, hd⟩ := roleRing_some h
    split
    · exact hn _
    · split
      · exact (promotes_setRing hd (unclaimed_setHolder _ _ _)).trans (hn _)
      · exact (promotes_setRing hd (unclaimed_setWaiters _ _ _)).trans (promotes_state _ _ nofun)

/-- The channel goes on to RUNNING, or waits for a claim (R82). -/
theorem promotes_takeClaims (c : ChannelId) (s : State) : Promotes s (s.takeClaims c) :=
  promotes_takeClaim .reader c (fun _ => promotes_takeClaim .writer c (fun _ => promotes_state (st := .running) _ _ nofun) _) s

theorem promotes_foldClaims : ∀ (l : List ChannelId) (s : State), Promotes s (l.foldl (fun t c => t.takeClaims c) s)
  | [], s => Promotes.refl s
  | c :: rest, s => (promotes_takeClaims c s).trans (promotes_foldClaims rest _)

/-- A claim is released, and passes to the oldest waiter (R18). -/
theorem promotes_releaseClaim (role : Role) (r : RegionId) (s : State) : Promotes s (s.releaseClaim role r) := by
  unfold State.releaseClaim
  split
  · exact Promotes.refl s
  · rename_i d g h
    have hu := unclaimed_release role g
    dsimp only
    split
    · exact promotes_setRing h hu
    · exact (promotes_setRing h hu).trans (promotes_takeClaims _ _)

theorem promotes_releaseHeld (role : Role) (c : ChannelId) (s : State) : Promotes s (s.releaseHeld role c) := by
  unfold State.releaseHeld
  split
  · exact Promotes.refl s
  · split
    · exact promotes_releaseClaim _ _ _
    · exact Promotes.refl s

theorem promotes_leaveClaimList (role : Role) (c : ChannelId) (s : State) : Promotes s (s.leaveClaimList role c) := by
  unfold State.leaveClaimList
  split
  · exact Promotes.refl s
  · rename_i h
    obtain ⟨d, hd⟩ := roleRing_some h
    exact promotes_setRing hd (unclaimed_setWaiters _ _ _)

/-- A mark serves: its own record changes as `Mark.served` says, and beside it only what its channels' promotions change
(R119, R120). -/
theorem promotes_serveMark (m : MarkId) (s : State) : Promotes (s.setMark m (s.mark m).served) (s.serveMark m) :=
  promotes_foldClaims _ _

theorem takeClaim_channel_ne (role : Role) {c b : ChannelId} (h : b ≠ c) {next : State → State}
    (hn : ∀ t, (next t).channel b = t.channel b) (s : State) : (s.takeClaim role c next).channel b = s.channel b := by
  unfold State.takeClaim
  split
  · exact hn _
  · split
    · exact hn _
    · split
      · exact hn _
      · exact channel_setChannel_ne _ _ h

/-- A promotion changes no other channel. -/
theorem takeClaims_channel_ne {c b : ChannelId} (h : b ≠ c) (s : State) : (s.takeClaims c).channel b = s.channel b :=
  takeClaim_channel_ne .reader h
    (fun _ => takeClaim_channel_ne .writer h (fun _ => channel_setChannel_ne _ _ h) _) s

theorem foldClaims_channel_ne {b : ChannelId} : ∀ (l : List ChannelId) (s : State), b ∉ l →
    (l.foldl (fun t c => t.takeClaims c) s).channel b = s.channel b
  | [], _, _ => rfl
  | c :: rest, s, h => by
    rw [List.foldl_cons, foldClaims_channel_ne rest _ fun x => h (List.mem_cons_of_mem _ x)]
    exact takeClaims_channel_ne (fun e => h (by rw [e]; exact List.mem_cons_self ..)) s

/-- A channel whose descriptor names no ring goes to RUNNING at once (R82). -/
theorem takeClaims_of_no_ring {s : State} {c : ChannelId} (hr : s.roleRing .reader c = none)
    (hw : s.roleRing .writer c = none) : s.takeClaims c = s.enterRunning c := by
  unfold State.takeClaims State.takeClaim
  rw [hr]
  dsimp only
  rw [hw]

end Sys2Proof.Laws
end

