-- ==== Sys2Proof/Laws/Moves.lean ====
section
/-! SUPPORT. What the shared operations can do, said once: each is made of the few moves listed here, so a property of
the state that the moves keep is kept by the operation. -/
namespace Sys2Proof.Laws

open Sys2Proof.Machine

/-- The moves of claims and marks: a ring's claims and waiter lists, a channel that goes on or waits, the arbiter, notices
and marks. -/
structure ClaimMoves (P : State → Prop) : Prop where
  ring : ∀ r d g g' s, State.ring? r s = some (d, g) → g'.unclaimed = g.unclaimed → P s → P (State.setRing r g' s)
  goes : ∀ c st s, st ≠ .idle → P s → P (State.modChannel c (fun x => { x with state := st }) s)
  arb : ∀ a s, P s → P (State.setArb a s)
  post : ∀ b s, P s → P (State.post b s)
  raise : ∀ m k s, P s → P (State.setMark m ((s.mark m).raised k) s)
  served : ∀ m s, P s → P (State.setMark m (s.mark m).served s)
  waiters : ∀ m l s, P s → P (State.setMark m { s.mark m with waiters := l } s)

/-- The moves of the life of a descriptor (Work.lean), for a property to which channels do not matter. -/
structure WorkMoves (P : State → Prop) : Prop extends ClaimMoves P where
  refs : ∀ r n s, P s → P (State.setRegion r { s.region r with refCount := n } s)
  channel : ∀ c x s, P s → P (State.setChannel c x s)
  reservations : ∀ p s, P s → P (State.setPlayout p { s.playout p with reservations := [] } s)

/-- The tags of the outstanding request table. -/
def tagsOf (l : Link) : List Byte := l.table.map fun e => e.tag

/-- The moves of the LAU's service and of the control link's table, beside those of claims. -/
structure ServiceMoves (P : State → Prop) : Prop extends ClaimMoves P where
  lau : ∀ x s, P s → P (State.setLau x s)
  link : ∀ l s, (tagsOf l).Sublist (tagsOf s.link) → P s → P (State.setLink l s)
  openQueue : ∀ s, P s → P (s.setNotices { s.notices with isOpen := true })

/-- The moves of Work.lean and of the LAU's service. -/
structure LauMoves (P : State → Prop) : Prop extends WorkMoves P, ServiceMoves P

/-- The same and those of regions, for a property to which regions and channels do not matter. -/
structure RegionMoves (P : State → Prop) : Prop extends LauMoves P where
  region : ∀ r x s, P s → P (State.setRegion r x s)

variable {P : State → Prop}

/-! ## Work.lean -/

theorem modChannel_keeps (W : WorkMoves P) (c : ChannelId) (f : Channel → Channel) {s : State} (h : P s) :
    P (s.modChannel c f) := W.channel _ _ _ h

theorem setRing_keeps (W : RegionMoves P) (r : RegionId) (g : Ring) {s : State} (h : P s) : P (s.setRing r g) :=
  W.region _ _ _ h

theorem ringRose_keeps (W : RegionMoves P) (r : RegionId) (g : Ring) {s : State} (h : P s) : P (s.ringRose r g) := by
  unfold State.ringRose
  dsimp only
  split
  · exact W.post _ _ (setRing_keeps W _ _ h)
  · exact setRing_keeps W _ _ h

theorem enterRunning_keeps (W : ClaimMoves P) (c : ChannelId) {s : State} (h : P s) : P (s.enterRunning c) :=
  W.goes _ _ _ nofun h

theorem takeClaim_keeps (W : ClaimMoves P) (role : Role) (c : ChannelId) {next : State → State}
    (hn : ∀ t, P t → P (next t)) {s : State} (h : P s) : P (s.takeClaim role c next) := by
  unfold State.takeClaim
  split
  · exact hn _ h
  · rename_i hr
    obtain ⟨d, hd⟩ := roleRing_some hr
    split
    · exact hn _ h
    · split
      · exact hn _ (W.ring _ _ _ _ _ hd (unclaimed_setHolder _ _ _) h)
      · exact W.goes _ _ _ nofun (W.ring _ _ _ _ _ hd (unclaimed_setWaiters _ _ _) h)

theorem takeClaims_keeps (W : ClaimMoves P) (c : ChannelId) {s : State} (h : P s) : P (s.takeClaims c) :=
  takeClaim_keeps W _ _ (fun _ ht => takeClaim_keeps W _ _ (fun _ hu => enterRunning_keeps W _ hu) ht) h

theorem releaseClaim_keeps (W : ClaimMoves P) (role : Role) (r : RegionId) {s : State} (h : P s) :
    P (s.releaseClaim role r) := by
  unfold State.releaseClaim
  split
  · exact h
  · rename_i hr
    have h1 := W.ring _ _ _ _ _ hr (unclaimed_release role _) h
    dsimp only
    split
    · exact h1
    · exact takeClaims_keeps W _ h1

theorem releaseHeld_keeps (W : ClaimMoves P) (role : Role) (c : ChannelId) {s : State} (h : P s) :
    P (s.releaseHeld role c) := by
  unfold State.releaseHeld
  split
  · exact h
  · split
    · exact releaseClaim_keeps W _ _ h
    · exact h

theorem leaveClaimList_keeps (W : ClaimMoves P) (role : Role) (c : ChannelId) {s : State} (h : P s) :
    P (s.leaveClaimList role c) := by
  unfold State.leaveClaimList
  split
  · exact h
  · rename_i hr
    obtain ⟨d, hd⟩ := roleRing_some hr
    exact W.ring _ _ _ _ _ hd (unclaimed_setWaiters _ _ _) h

theorem foldl_keeps {α : Type} {f : State → α → State} (hf : ∀ t a, P t → P (f t a)) :
    ∀ (l : List α) {s : State}, P s → P (l.foldl f s)
  | [], _, h => h
  | a :: rest, _, h => foldl_keeps hf rest (hf _ a h)

theorem serveMark_keeps (W : ClaimMoves P) (m : MarkId) {s : State} (h : P s) : P (s.serveMark m) :=
  foldl_keeps (fun _ c ht => takeClaims_keeps W c ht) _ (W.served _ _ h)

theorem raiseMark_keeps (W : ClaimMoves P) (m : MarkId) (k : Nat) {s : State} (h : P s) : P (s.raiseMark m k) := by
  unfold State.raiseMark
  dsimp only
  split
  · exact W.post _ _ (W.raise _ _ _ h)
  · exact W.raise _ _ _ h

theorem addMark_keeps (W : ClaimMoves P) (m : MarkId) (k : Nat) {s : State} (h : P s) : P (s.addMark m k) :=
  serveMark_keeps W _ (raiseMark_keeps W _ _ h)

theorem joinMark_keeps (W : ClaimMoves P) (m : MarkId) (c : ChannelId) (n : Nat) {s : State} (h : P s) :
    P (s.joinMark m c n) := serveMark_keeps W _ (W.waiters _ _ _ h)

theorem leaveMark_keeps (W : ClaimMoves P) (m : MarkId) (c : ChannelId) {s : State} (h : P s) :
    P (s.leaveMark m c) := by
  unfold State.leaveMark
  dsimp only
  split
  · exact W.waiters _ _ _ h
  · split
    · exact serveMark_keeps W _ (W.waiters _ _ _ h)
    · exact W.waiters _ _ _ h

theorem promote_keeps (W : WorkMoves P) (c : ChannelId) {s : State} (h : P s) : P (s.promote c) := by
  unfold State.promote
  split
  · exact h
  · dsimp only
    split
    · exact takeClaims_keeps W.toClaimMoves _ (modChannel_keeps W _ _ h)
    · exact joinMark_keeps W.toClaimMoves _ _ _ (modChannel_keeps W _ _ (modChannel_keeps W _ _ h))

theorem addRefs_keeps (W : WorkMoves P) (d : Descriptor) {s : State} (h : P s) : P (s.addRefs d) :=
  foldl_keeps (fun _ _ ht => W.refs _ _ _ ht) _ h

theorem dropRefs_keeps (W : WorkMoves P) (d : Descriptor) {s : State} (h : P s) : P (s.dropRefs d) :=
  foldl_keeps (fun _ _ ht => W.refs _ _ _ ht) _ h

theorem retire_keeps (W : WorkMoves P) (c : ChannelId) (st : DoneStatus) {s : State} (h : P s) :
    P (s.retire c st) := by
  unfold State.retire
  split
  · exact h
  · dsimp only
    refine modChannel_keeps W _ _ ?_
    split
    · exact W.post _ _ (W.arb _ _ (dropRefs_keeps W _ (releaseHeld_keeps W.toClaimMoves _ _ (releaseHeld_keeps W.toClaimMoves _ _ h))))
    · exact W.arb _ _ (dropRefs_keeps W _ (releaseHeld_keeps W.toClaimMoves _ _ (releaseHeld_keeps W.toClaimMoves _ _ h)))

theorem moveOn_keeps (W : WorkMoves P) (c : ChannelId) {s : State} (h : P s) : P (s.moveOn c) := by
  unfold State.moveOn
  split
  · exact modChannel_keeps W _ _ h
  · exact modChannel_keeps W _ _ h
  · exact promote_keeps W _ (modChannel_keeps W _ _ h)
  · exact promote_keeps W _ (modChannel_keeps W _ _ h)

theorem modProg_keeps (W : WorkMoves P) (c : ChannelId) (f : Progress → Progress) {s : State} (h : P s) :
    P (s.modProg c f) := modChannel_keeps W _ _ h

theorem endRun_keeps (W : WorkMoves P) (c : ChannelId) (d : Descriptor) {s : State} (h : P s) :
    P (s.endRun c d) := by
  unfold State.endRun
  refine modProg_keeps W _ _ ?_
  split
  · exact addMark_keeps W.toClaimMoves _ _ h
  · exact h

theorem completeRun_keeps (W : WorkMoves P) (c : ChannelId) (cur : Current) {s : State} (h : P s) :
    P (s.completeRun c cur) := by
  unfold State.completeRun
  dsimp only
  split
  · exact modProg_keeps W _ _ (endRun_keeps W _ _ h)
  · exact moveOn_keeps W _ (retire_keeps W _ _ (endRun_keeps W _ _ h))

theorem retireStopped_keeps (W : WorkMoves P) (c : ChannelId) (cur : Current) {s : State} (h : P s) :
    P (s.retireStopped c cur) := by
  unfold State.retireStopped
  dsimp only
  refine moveOn_keeps W _ (retire_keeps W _ _ ?_)
  split
  · exact endRun_keeps W _ _ h
  · exact h

theorem afterCompletion_keeps (W : WorkMoves P) (c : ChannelId) {s : State} (h : P s) :
    P (s.afterCompletion c) := by
  unfold State.afterCompletion
  split
  · exact h
  · split
    · split
      · exact completeRun_keeps W _ _ h
      · exact h
    · split
      · exact retireStopped_keeps W _ _ h
      · exact h
    · split
      · exact retire_keeps W _ _ h
      · exact h
    · exact h
    · exact h

theorem releaseReservations_keeps (W : WorkMoves P) (d : Descriptor) {s : State} (h : P s) :
    P (s.releaseReservations d) := by
  unfold State.releaseReservations
  split
  · exact W.reservations _ _ h
  · exact h

theorem channelFault_keeps (W : WorkMoves P) (c : ChannelId) (cur : Current) {s : State} (h : P s) :
    P (s.channelFault c cur) :=
  afterCompletion_keeps W _ (releaseReservations_keeps W _ (modChannel_keeps W _ _ h))

theorem discardPending_keeps (W : WorkMoves P) (c : ChannelId) {s : State} (h : P s) : P (s.discardPending c) :=
  modChannel_keeps W _ _ (foldl_keeps (fun _ d ht => W.post _ _ (dropRefs_keeps W d ht)) _ h)

/-! ## Channels.lean -/

theorem enterStopping_keeps (W : WorkMoves P) (c : ChannelId) (r : StopRequest) {s : State} (h : P s) :
    P (s.enterStopping c r) := afterCompletion_keeps W _ (modChannel_keeps W _ _ h)

theorem stopRunning_keeps (W : WorkMoves P) (c : ChannelId) (r : StopRequest) {s : State} (h : P s) :
    P (s.stopRunning c r) := by
  unfold State.stopRunning
  split
  · exact h
  · split
    · exact modChannel_keeps W _ _ h
    · exact enterStopping_keeps W _ _ h

theorem leaveWait_keeps (W : ClaimMoves P) (c : ChannelId) (why : WaitReason) {s : State} (h : P s) :
    P (s.leaveWait c why) := by
  unfold State.leaveWait
  split
  · exact leaveClaimList_keeps W _ _ (leaveClaimList_keeps W _ _ h)
  · split
    · exact h
    · split
      · exact h
      · exact leaveMark_keeps W _ _ h

theorem abortWait_keeps (W : WorkMoves P) (c : ChannelId) (why : WaitReason) {s : State} (h : P s) :
    P (s.abortWait c why) := retire_keeps W _ _ (leaveWait_keeps W.toClaimMoves _ _ h)

theorem stopAfterCurrent_keeps (W : WorkMoves P) (c : ChannelId) {s : State} (h : P s) :
    P (s.stopAfterCurrent c) := by
  unfold State.stopAfterCurrent
  split
  · exact modChannel_keeps W _ _ h
  · split
    · exact modChannel_keeps W _ _ h
    · exact h
  · exact modChannel_keeps W _ _ h
  · exact h
  · exact h

theorem stopNow_keeps (W : WorkMoves P) (c : ChannelId) {s : State} (h : P s) : P (s.stopNow c) := by
  unfold State.stopNow
  split
  · exact modChannel_keeps W _ _ h
  · exact modChannel_keeps W _ _ (abortWait_keeps W _ _ h)
  · split
    · exact h
    · exact stopRunning_keeps W _ _ h
  · exact h
  · exact h

theorem stopFlush_keeps (W : WorkMoves P) (c : ChannelId) {s : State} (h : P s) : P (s.stopFlush c) := by
  unfold State.stopFlush
  split
  · exact h
  · exact modChannel_keeps W _ _ (discardPending_keeps W _ (abortWait_keeps W _ _ h))
  · exact stopRunning_keeps W _ _ (discardPending_keeps W _ h)
  · exact modChannel_keeps W _ _ (discardPending_keeps W _ h)
  · split
    · exact discardPending_keeps W _ h
    · exact modChannel_keeps W _ _ (discardPending_keeps W _ h)

theorem stopChannel_keeps (W : WorkMoves P) (c : ChannelId) (m : StopRequest) {s : State} (h : P s) :
    P (s.stopChannel c m) := by
  unfold State.stopChannel
  split
  · exact h
  · exact stopAfterCurrent_keeps W _ h
  · exact stopNow_keeps W _ h
  · exact stopFlush_keeps W _ h

theorem resume_keeps (W : WorkMoves P) (c : ChannelId) {s : State} (h : P s) : P (s.resume c) :=
  promote_keeps W _ (modChannel_keeps W _ _ h)

/-! ## Ops.lean and LauService.lean -/

theorem tagsOf_setStage (tag : Byte) (g : Stage) (l : Link) : tagsOf (l.setStage tag g) = tagsOf l := by
  unfold tagsOf Link.setStage
  rw [List.map_map]
  apply List.map_congr_left
  intro e _
  simp only [Function.comp_apply]
  split <;> rfl

theorem tagsOf_answer (e : OutEntry) (st : Status) (data : List Byte) (l : Link) :
    tagsOf (l.answer e st data) = tagsOf l := tagsOf_setStage e.tag .answered l

theorem tagsOf_dropEntry (tag : Byte) (l : Link) : (tagsOf (l.dropEntry tag)).Sublist (tagsOf l) :=
  List.Sublist.map _ List.filter_sublist

theorem readyReturn_keeps (W : ServiceMoves P) {s : State} (h : P s) : P s.readyReturn :=
  W.post _ _ (W.openQueue _ (W.link _ _ (List.Sublist.refl _) h))

theorem entryLeaves_keeps (W : ServiceMoves P) (tag : Byte) {s : State} (h : P s) : P (s.entryLeaves tag) := by
  unfold State.entryLeaves
  dsimp only
  split
  · exact readyReturn_keeps W (W.link _ _ (tagsOf_dropEntry _ _) h)
  · exact W.link _ _ (tagsOf_dropEntry _ _) h

theorem handOver_keeps (W : ServiceMoves P) (tag : Byte) (st : Status) (data : List Byte) {s : State} (h : P s) :
    P (s.handOver tag st data) := by
  unfold State.handOver
  split
  · exact h
  · split
    · exact entryLeaves_keeps W _ h
    · exact W.link _ _ (by rw [tagsOf_answer]) h

theorem lauTakeClaim_keeps (W : ServiceMoves P) (r : LauRequest) {s : State} (h : P s) : P (s.lauTakeClaim r) := by
  unfold State.lauTakeClaim
  split
  · rename_i hr
    exact W.ring _ _ _ _ _ hr (unclaimed_setHolder _ _ _) h
  · exact h

theorem lauBegin_keeps (W : ServiceMoves P) (r : LauRequest) {s : State} (h : P s) : P (s.lauBegin r) := by
  unfold State.lauBegin
  split
  · exact h
  · exact W.lau _ _ (lauTakeClaim_keeps W _ h)

theorem lauFinish_keeps (W : ServiceMoves P) {s : State} (h : P s) : P s.lauFinish := by
  unfold State.lauFinish
  split
  · exact h
  · dsimp only
    refine W.lau _ _ (handOver_keeps W _ _ _ ?_)
    split
    · exact releaseClaim_keeps W.toClaimMoves _ _ h
    · exact h

theorem serveQueue_keeps (W : ServiceMoves P) : ∀ (l : List LauRequest) {s : State}, P s → P (State.serveQueue l s)
  | [], _, h => W.lau _ _ h
  | r :: rest, s, h => by
    unfold State.serveQueue
    dsimp only
    split
    · exact serveQueue_keeps W rest (handOver_keeps W _ _ _ (W.lau _ _ h))
    · split
      · exact serveQueue_keeps W rest (lauFinish_keeps W (lauBegin_keeps W _ (W.lau _ _ h)))
      · exact lauBegin_keeps W _ (W.lau _ _ h)

theorem endService_keeps (W : ServiceMoves P) {s : State} (h : P s) : P s.endService :=
  serveQueue_keeps W _ (lauFinish_keeps W h)

theorem lauEnqueue_keeps (W : ServiceMoves P) (r : LauRequest) {s : State} (h : P s) : P (s.lauEnqueue r) := by
  unfold State.lauEnqueue
  split
  · exact W.lau _ _ h
  · exact serveQueue_keeps W _ h

theorem setService_keeps (W : ServiceMoves P) (sv : LauService) {s : State} (h : P s) : P (s.setService sv) :=
  W.lau _ _ h

theorem lauCounted_keeps (W : ServiceMoves P) (sv : LauService) {s : State} (h : P s) : P (s.lauCounted sv) := by
  unfold State.lauCounted
  dsimp only
  split
  · exact endService_keeps W (setService_keeps W _ h)
  · exact setService_keeps W _ h

theorem lauWriteDone_keeps (W : ServiceMoves P) (n : Nat) {s : State} (h : P s) : P (s.lauWriteDone n) := by
  unfold State.lauWriteDone
  split
  · exact h
  · exact lauCounted_keeps W _ h

theorem lauGetDone_keeps (W : ServiceMoves P) (pos off : Nat) (data : Option (List Byte)) {s : State} (h : P s) :
    P (s.lauGetDone pos off data) := by
  unfold State.lauGetDone
  split
  · exact h
  · split
    · exact lauCounted_keeps W _ (W.lau _ _ h)
    · exact lauCounted_keeps W _ h

theorem lauTakeDone_keeps (W : ServiceMoves P) (pos off : Nat) (data : Option (List Byte)) (back : Bool) {s : State}
    (h : P s) : P (s.lauTakeDone pos off data back) := by
  unfold State.lauTakeDone
  split
  · exact h
  · split
    · split
      · exact lauCounted_keeps W _ h
      · exact lauCounted_keeps W _ (W.lau _ _ h)
    · exact lauCounted_keeps W _ (W.lau _ _ h)

theorem lauShorten_keeps (W : ServiceMoves P) {s : State} (h : P s) : P s.lauShorten := by
  unfold State.lauShorten
  split
  · exact h
  · split
    · split
      · dsimp only
        split
        · exact endService_keeps W (setService_keeps W _ h)
        · exact setService_keeps W _ h
      · exact h
    · exact h

theorem lauRestart_keeps (W : ServiceMoves P) {s : State} (h : P s) : P s.lauRestart := by
  have h1 : P (s.lau.queue.foldl (fun u r => u.handOver r.tag .restarted []) (s.setLau { s.lau with queue := [] })) :=
    foldl_keeps (fun _ _ ht => handOver_keeps W _ _ _ ht) s.lau.queue (W.lau _ _ h)
  unfold State.lauRestart
  dsimp only
  split
  · exact h1
  · split
    · exact endService_keeps W (setService_keeps W _ h1)
    · exact setService_keeps W _ h1

theorem reportAll_keeps (W : ClaimMoves P) {s : State} (h : P s) : P s.reportAll := W.arb _ _ h

theorem report_keeps (W : ServiceMoves P) {s : State} (h : P s) : P s.report :=
  reportAll_keeps W.toClaimMoves (lauShorten_keeps W h)

theorem reportBound_keeps (W : ClaimMoves P) (b : Option ChannelId) {s : State} (h : P s) : P (s.reportBound b) := by
  unfold State.reportBound
  split
  · exact h
  · exact W.arb _ _ h

end Sys2Proof.Laws
end

