-- ==== Sys2Proof/Laws/Steps.lean ====
section
/-! SUPPORT. What one step can do, said once: `Moves` lists the moves every command is made of, and `exec_keeps` says that
a property the moves keep is kept by every command. -/
namespace Sys2Proof.Laws

open Sys2Proof.Machine

/-- The moves of the control link's table, the notice queue, the mark table and the capture ports that requests are made
of, each with what is known when it is made. -/
structure FrameMoves (P : State → Prop) : Prop where
  /-- A request's entry, where its tag is free and the table has a place (R170). -/
  entry : ∀ e s, s.link.tagInUse e.tag = false → s.link.table.length < Config.tablePlaces → P s →
    P (s.setLink (s.link.addEntry e))
  ack : ∀ k s, k < s.notices.held.length → P s → P (s.setNotices (s.notices.removeThrough k).reportLost)
  rewind : ∀ k s, k < s.notices.held.length → P s → P (s.setNotices (s.notices.rewind k))
  assigned : ∀ m v s, v ≤ Config.maxMark → P s → P (s.setMark m ((s.mark m).assigned v))
  /-- A capture port's FIFO is kept, emptied, or gives its oldest 32 bytes. -/
  capture : ∀ k x s,
    x.fifo = (s.capture k).fifo ∨ x.fifo = [] ∨ x.fifo = (s.capture k).fifo.drop Config.burstBytes → P s →
    P (State.setCapture k x s)

/-- The moves of the clock, the resets, the transmitter and the scheduler but for its list's, each with what is known when
it is made. -/
structure SchedulerMoves (P : State → Prop) : Prop where
  clock : ∀ t s, P s → P (State.clockTo t s)
  check : ∀ x s, P s → P (State.setCheck x s)
  rewindAll : ∀ s, P s → P (s.setNotices { s.notices with sendPos := 0 })
  sendNext : ∀ s, s.notices.sendPos < s.notices.held.length → P s →
    P (s.setNotices { s.notices with sendPos := s.notices.sendPos + 1 })
  strobed : ∀ k w s, P s → P (s.setCapture k ((s.capture k).strobed w))
  resetBlocks : ∀ s, P s → P s.resetBlocks
  pinReset : ∀ s, P s → P s.pinReset
  idleLimit : ∀ l s, P s → P (s.setSched (s.sched.setIdleLimit l s.now))
  rate : ∀ r s, P s → P (s.setSched { s.sched with retentionRate := r })
  settled : ∀ s, s.sched.stage = some .settle → P s → P (s.setSched { s.sched with stage := some .calibrate })
  clear : ∀ s, s.sched.stage = some .calibrate → P s → P (s.setSched (s.sched.beginClear s.now))
  failed : ∀ s, s.sched.stage = some .calibrate → P s → P (s.setSched { s.sched with stage := none, mode := .failed })
  settling : ∀ s, s.link.resetHeld = true → P s → P (s.setSched { s.sched with stage := some .settle })
  interval : ∀ s, P s → P (s.setSched (s.sched.expireInterval s.now))
  testRefresh : ∀ s, P s → P (s.setSched s.sched.testRefresh)
  closing : ∀ b o s, s.sched.bank b = .opened o → s.sched.mode.closes = true → s.sched.mayClose s.now b o = true →
    P s → P (s.startClosing b)
  closed : ∀ b start s, s.sched.bank b = .closing start → start + Config.closingNs ≤ s.now → P s →
    P (s.setSched (s.sched.moveBank b .closed))
  opening : ∀ d s, s.sched.startOpening s.now = some d → P s → P (s.setSched d)
  opened : ∀ b row start s, s.sched.bank b = .opening row start → start + Config.openingNs ≤ s.now → P s →
    P (s.setSched (s.sched.moveBank b (Bank.openedAt row start s.now)))
  accessStart : ∀ e s, s.sched.readyHead? = some e → s.sched.busy = false → s.sched.serves e = true → P s →
    P (s.setSched { s.sched with list := startOldest s.sched.list, accessStart := some s.now })
  refreshStart : ∀ s, s.sched.refreshCanStart = true → P s → P (s.setSched (s.sched.beginRefresh s.now))
  refreshEnd : ∀ start s, s.sched.refreshStart = some start → start + Config.refreshNs ≤ s.now → P s →
    P (s.setSched (s.sched.payDebt.afterRefresh s.now))

/-- What the requests are made of, but for RESTART and the scheduler's and check unit's; whole, those that make, name or
give up a region. -/
structure RequestActs (P : State → Prop) : Prop extends ServiceMoves P, FrameMoves P where
  /-- A play-out port's FIFO and reservations are kept. -/
  playoutKept : ∀ k x s, x.fifo = (s.playout k).fifo → x.reservations = (s.playout k).reservations → P s →
    P (State.setPlayout k x s)
  define : ∀ p s, P s → P (regionDefine p s).2.2
  delete : ∀ r s, P s → P (regionDelete r s).2.2
  emptied : ∀ r s, P s → P (ringReset r s).2.2
  enqueue : ∀ p s, P s → P (enqueue p s).2.2
  stop : ∀ p s, P s → P (channelStop p s).2.2
  resume : ∀ c s, P s → P (channelResume c s).2.2

/-- What all commands but ACCESS_COMPLETION are made of; whole, ADMISSION and PULL. -/
structure OtherActs (P : State → Prop) : Prop extends RequestActs P, SchedulerMoves P where
  admission : ∀ s t, P s → execAdmission s = .next t → P t
  pull : ∀ k s t, P s → execPull k s = .next t → P t

/-- The moves of these requests, for a property to which regions and channels do not matter. -/
structure RequestMoves (P : State → Prop) : Prop extends RegionMoves P, FrameMoves P where
  playout : ∀ k x s, P s → P (State.setPlayout k x s)

/-- The moves of all commands but the die's own, for a property to which regions and channels do not matter. -/
structure OtherMoves (P : State → Prop) : Prop extends RequestMoves P, SchedulerMoves P where
  /-- An admission, where the list has a place and the owner of the entry has fewer than two entries (R22). -/
  admitEntry : ∀ e s, s.sched.opportunity = true → (s.sched.list.countP fun x => x.owner = e.owner) < 2 → P s →
    P (s.setSched (s.sched.admitEntry e))
  sweep : ∀ s, P s → P (s.setSched s.sched.sweepAdmit)
  bringupEnds : ∀ s, P s → P (s.setSched { s.sched with mode := .normal, stage := none })
  testLazy : ∀ s, P s → P (s.setSched s.sched.testLazy)
  accessEnd : ∀ e start s, s.sched.accessStart = some start → s.sched.accessing? = some e →
    start + Config.accessNs ≤ s.now → P s → P (s.setSched (s.sched.completeAccess e s.now))

/-- The moves of all commands. -/
structure Moves (P : State → Prop) : Prop extends OtherMoves P where
  write : ∀ a data s, isBurst a = true → P s → P (State.dieWrite a data s)
  read : ∀ a flips s, isBurst a = true → P s → P (State.dieRead a flips s)

variable {P : State → Prop}

theorem le_clockTo (t : Nat) (s : State) : t ≤ (s.clockTo t).now := Nat.le_max_right _ _

/-! ## Requests -/

theorem onFrame_keeps (M : RequestActs P) (kind : Byte) {dispatch : Byte → List Byte → State → State} (tag : Byte)
    (p : List Byte) (hd : ∀ t, P t → P (dispatch tag p t)) {s t : State} (h : P s)
    (ht : onFrame kind dispatch tag p s = .next t) : P t := by
  unfold onFrame at ht
  injection ht with ht
  subst ht
  split
  · exact hd _ (M.link _ _ (List.Sublist.refl _) h)
  · exact h

theorem tagsOf_refuse (st : Status) (tag kind : Byte) (l : Link) : tagsOf (l.refuse st tag kind) = tagsOf l := by
  unfold Link.refuse
  split <;> rfl

theorem refuse_keeps (M : RequestActs P) (st : Status) (tag kind : Byte) {s : State} (h : P s) :
    P (s.setLink (s.link.refuse st tag kind)) := M.link _ _ (by rw [tagsOf_refuse]) h

theorem answerAtOnce_keeps (M : RequestActs P) (st : Status) (tag kind : Byte) {s : State}
    (h1 : s.link.tagInUse tag = false) (h2 : s.link.table.length < Config.tablePlaces) (h : P s) :
    P (s.setLink (s.link.answerAtOnce st tag kind)) :=
  M.link _ (s.setLink (s.link.addEntry { tag := tag, kind := kind, stage := .answered, orphaned := false }))
    (List.Sublist.refl _) (M.entry _ _ h1 h2 h)

theorem accept_keeps (M : RequestActs P) (kind tag : Byte) (lenOk : Bool) (g : Gate) {own : State → State}
    (ho : ∀ t, P t → P (own t)) {s : State} (h : P s) : P (s.accept kind tag lenOk g own) := by
  unfold State.accept
  split
  · exact refuse_keeps M _ _ _ h
  · rename_i hu
    have hu : s.link.tagInUse tag = false := by simpa using hu
    split
    · exact refuse_keeps M _ _ _ h
    · rename_i hl
      have hl : s.link.table.length < Config.tablePlaces := by omega
      split
      · exact answerAtOnce_keeps M _ _ _ hu hl h
      · split
        · exact answerAtOnce_keeps M _ _ _ hu hl h
        · exact ho _ (M.entry _ _ hu hl h)

theorem unlessFailed_keeps (M : RequestActs P) (tag : Byte) {own : State → State} (ho : ∀ t, P t → P (own t)) {s : State}
    (h : P s) : P (s.unlessFailed tag own) := by
  unfold State.unlessFailed
  split
  · exact handOver_keeps M.toServiceMoves _ _ _ h
  · exact ho _ h

theorem answerWith_keeps (M : RequestActs P) (tag : Byte) {f : State → Reply} (hf : ∀ t, P t → P (f t).2.2) {s : State}
    (h : P s) : P (s.answerWith tag f) := handOver_keeps M.toServiceMoves _ _ _ (hf _ h)

/-- A request that its owner answers at once, in every mode. -/
theorem answered_keeps (M : RequestActs P) (kind tag : Byte) (lenOk : Bool) (g : Gate) {f : State → Reply}
    (hf : ∀ t, P t → P (f t).2.2) {s : State} (h : P s) :
    P (s.accept kind tag lenOk g fun t => t.answerWith tag f) :=
  accept_keeps M _ _ _ _ (fun _ ht => answerWith_keeps M _ hf ht) h

/-- A request that its owner answers at once, and refuses in FAILED. -/
theorem owned_keeps (M : RequestActs P) (kind tag : Byte) (lenOk : Bool) (g : Gate) {f : State → Reply}
    (hf : ∀ t, P t → P (f t).2.2) {s : State} (h : P s) :
    P (s.accept kind tag lenOk g fun t => t.unlessFailed tag fun u => u.answerWith tag f) :=
  accept_keeps M _ _ _ _ (fun _ ht => unlessFailed_keeps M _ (fun _ hu => answerWith_keeps M _ hf hu) ht) h

theorem onRegion_keeps (p : List Byte) {f : RegionId → State → Reply} (hf : ∀ r t, P t → P (f r t).2.2) {s : State}
    (h : P s) : P (onRegion p f s).2.2 := by
  unfold onRegion
  split
  · split
    · exact hf _ _ h
    · exact h
  · exact h

theorem regionDefine_keeps (M : RequestMoves P) (p : List Byte) {s : State} (h : P s) : P (regionDefine p s).2.2 := by
  unfold regionDefine
  split
  · exact h
  · split
    · exact h
    · exact M.region _ _ _ h

theorem regionDelete_keeps (M : RequestMoves P) (r : RegionId) {s : State} (h : P s) : P (regionDelete r s).2.2 := by
  unfold regionDelete
  split
  · exact h
  · split
    · exact h
    · exact M.region _ _ _ h

theorem ringReset_keeps (M : RequestMoves P) (r : RegionId) {s : State} (h : P s) : P (ringReset r s).2.2 := by
  unfold ringReset
  split
  · exact h
  · split
    · exact h
    · split
      · exact h
      · exact setRing_keeps M.toRegionMoves _ _ h

theorem rowPolicy_keeps (M : OtherActs P) (p : List Byte) {s : State} (h : P s) : P (rowPolicy p s).2.2 := by
  unfold rowPolicy
  split
  · split
    · exact M.idleLimit _ _ h
    · exact h
  · exact h

theorem retentionRate_keeps (M : OtherActs P) (p : List Byte) {s : State} (h : P s) : P (retentionRate p s).2.2 := by
  unfold retentionRate
  split
  · split
    · exact M.rate _ _ h
    · exact h
  · exact h

theorem checkStats_keeps (M : OtherActs P) (p : List Byte) {s : State} (h : P s) : P (checkStats p s).2.2 := by
  unfold checkStats
  split
  · split
    · dsimp only
      split
      · exact M.check _ _ h
      · exact h
    · exact h
  · exact h

theorem setClass_keeps (M : RequestActs P) (p : List Byte) {s : State} (h : P s) : P (setClass p s).2.2 := by
  unfold setClass
  split
  · split
    · exact M.arb _ _ h
    · exact h
  · exact h

theorem acceptDescriptor_keeps (W : WorkMoves P) (c : ChannelId) (d : Descriptor) {s : State} (h : P s) :
    P (s.acceptDescriptor c d) := by
  unfold State.acceptDescriptor
  dsimp only
  refine reportAll_keeps W.toClaimMoves ?_
  split
  · exact promote_keeps W _ (modChannel_keeps W _ _ (addRefs_keeps W _ h))
  · exact modChannel_keeps W _ _ (addRefs_keeps W _ h)

theorem enqueue_keeps (W : WorkMoves P) (p : List Byte) {s : State} (h : P s) : P (enqueue p s).2.2 := by
  unfold enqueue
  split
  · exact h
  · split
    · exact h
    · exact acceptDescriptor_keeps W _ _ h

theorem channelStop_keeps (W : WorkMoves P) (p : List Byte) {s : State} (h : P s) : P (channelStop p s).2.2 := by
  unfold channelStop
  split
  · split
    · exact reportAll_keeps W.toClaimMoves (stopChannel_keeps W _ _ h)
    · exact h
  · exact h

theorem onChannel_keeps (p : List Byte) {f : ChannelId → State → Reply} (hf : ∀ r t, P t → P (f r t).2.2) {s : State}
    (h : P s) : P (onChannel p f s).2.2 := by
  unfold onChannel
  split
  · split
    · exact hf _ _ h
    · exact h
  · exact h

theorem channelResume_keeps (W : WorkMoves P) (c : ChannelId) {s : State} (h : P s) : P (channelResume c s).2.2 := by
  unfold channelResume
  split
  · exact reportAll_keeps W.toClaimMoves (resume_keeps W _ h)
  · exact h

theorem markSet_keeps (M : RequestActs P) (p : List Byte) {s : State} (h : P s) : P (markSet p s).2.2 := by
  unfold markSet
  split
  · split
    · exact reportAll_keeps M.toClaimMoves (serveMark_keeps M.toClaimMoves _
        (M.assigned _ _ _ (by unfold Config.maxMark; omega) h))
    · exact h
  · exact h

theorem markAdd_keeps (W : ClaimMoves P) (p : List Byte) {s : State} (h : P s) : P (markAdd p s).2.2 := by
  unfold markAdd
  split
  · split
    · split
      · exact h
      · exact reportAll_keeps W (addMark_keeps W _ _ h)
    · exact h
  · exact h

theorem enable_fifo (p : CapturePort) : p.enable.fifo = p.fifo ∨ p.enable.fifo = [] := by
  unfold CapturePort.enable
  split
  · exact Or.inl rfl
  · exact Or.inr rfl

theorem portEnable_keeps (M : RequestActs P) (p : List Byte) {s : State} (h : P s) : P (portEnable p s).2.2 := by
  unfold portEnable
  split
  · split
    · rename_i k _
      refine reportBound_keeps M.toClaimMoves _ (M.capture _ _ _ ?_ h)
      rcases enable_fifo (s.capture k) with e | e
      · exact Or.inl e
      · exact Or.inr (Or.inl e)
    · exact M.playoutKept _ _ _ rfl rfl h
    · exact h
  · exact h

theorem portDisable_keeps (M : RequestActs P) (p : List Byte) {s : State} (h : P s) : P (portDisable p s).2.2 := by
  unfold portDisable
  split
  · split
    · exact M.capture _ _ _ (Or.inl rfl) h
    · exact M.playoutKept _ _ _ rfl rfl h
    · exact h
  · exact h

theorem bindPort_keeps (n : PortName) (old new : Option ChannelId) {move : State → State}
    (hm : ∀ t, P t → P (move t)) {s : State} (h : P s) : P (bindPort n old new move s).2.2 := by
  unfold bindPort
  split
  · exact h
  · split
    · exact h
    · exact hm _ h

theorem portBind_keeps (M : RequestActs P) (p : List Byte) {s : State} (h : P s) : P (portBind p s).2.2 := by
  unfold portBind
  split
  · split
    · refine bindPort_keeps _ _ _ (fun t ht => ?_) h
      exact M.capture _ _ _ (Or.inl rfl) ht
    · refine bindPort_keeps _ _ _ (fun t ht => ?_) h
      exact M.playoutKept _ _ _ rfl rfl ht
    · exact h
  · exact h

theorem portQuery_keeps (M : RequestActs P) (p : List Byte) {s : State} (h : P s) : P (portQuery p s).2.2 := by
  unfold portQuery
  split
  · split
    · dsimp only
      split
      · exact M.capture _ _ _ (Or.inl rfl) h
      · exact h
    · dsimp only
      split
      · exact M.playoutKept _ _ _ rfl rfl h
      · exact h
    · exact h
  · exact h

theorem lauTake_keeps (M : RequestActs P) (tag : Byte) (r n : Nat) (off : Option Nat) (op : LauOp) {s : State} (h : P s) :
    P (s.lauTake tag r n off op) := by
  unfold State.lauTake
  split
  · exact report_keeps M.toServiceMoves (lauEnqueue_keeps M.toServiceMoves _ h)
  · exact handOver_keeps M.toServiceMoves _ _ _ h
  · exact handOver_keeps M.toServiceMoves _ _ _ h

theorem lauPut_keeps (M : RequestActs P) (tag : Byte) (p : List Byte) {s : State} (h : P s) : P (lauPut tag p s) := by
  unfold lauPut
  split
  · exact lauTake_keeps M _ _ _ _ _ h
  · exact handOver_keeps M.toServiceMoves _ _ _ h

theorem lauGet_keeps (M : RequestActs P) (tag : Byte) (p : List Byte) {s : State} (h : P s) : P (lauGet tag p s) := by
  unfold lauGet
  split
  · exact lauTake_keeps M _ _ _ _ _ h
  · exact handOver_keeps M.toServiceMoves _ _ _ h

theorem lauAppend_keeps (M : RequestActs P) (tag : Byte) (p : List Byte) {s : State} (h : P s) : P (lauAppend tag p s) := by
  unfold lauAppend
  split
  · exact lauTake_keeps M _ _ _ _ _ h
  · exact handOver_keeps M.toServiceMoves _ _ _ h

theorem lauTakeRequest_keeps (M : RequestActs P) (tag : Byte) (p : List Byte) {s : State} (h : P s) :
    P (lauTakeRequest tag p s) := by
  unfold lauTakeRequest
  split
  · exact lauTake_keeps M _ _ _ _ _ h
  · exact handOver_keeps M.toServiceMoves _ _ _ h

theorem lauRequest_keeps (M : RequestActs P) (kind tag : Byte) (lenOk : Bool) {own : State → State}
    (ho : ∀ t, P t → P (own t)) {s : State} (h : P s) :
    P (s.accept kind tag lenOk .whenReady fun t => t.unlessFailed tag own) :=
  accept_keeps M _ _ _ _ (fun _ ht => unlessFailed_keeps M _ ho ht) h

theorem linkStats_keeps (M : RequestActs P) (p : List Byte) {s : State} (h : P s) : P (linkStats p s).2.2 := by
  unfold linkStats
  split
  · split
    · dsimp only
      split
      · exact M.link _ _ (List.Sublist.refl _) h
      · exact h
    · exact h
  · exact h

theorem placeOf_lt {q : NoticeQueue} {seq : Byte} {k : Nat} (h : q.placeOf seq = some k) : k < q.held.length := by
  unfold NoticeQueue.placeOf at h
  exact (List.findIdx?_eq_some_iff_getElem.mp h).1

theorem noticeAck_keeps (M : RequestActs P) (p : List Byte) {s : State} (h : P s) : P (noticeAck p s).2.2 := by
  unfold noticeAck
  split
  · split
    · exact h
    · rename_i hk
      exact M.ack _ _ (placeOf_lt hk) h
  · exact h

theorem noticeReplay_keeps (M : RequestActs P) (p : List Byte) {s : State} (h : P s) : P (noticeReplay p s).2.2 := by
  unfold noticeReplay
  split
  · split
    · exact h
    · rename_i hk
      exact M.rewind _ _ (placeOf_lt hk) h
  · exact h

theorem completeRestart_keeps (M : OtherActs P) (tag : Byte) {s : State} (h : P s) : P (s.completeRestart tag) :=
  handOver_keeps M.toServiceMoves _ _ _ (M.resetBlocks _ h)

theorem beginRestart_keeps (M : OtherActs P) (tag : Byte) {s : State} (h : P s) : P (s.beginRestart tag) := by
  have L := M.toServiceMoves
  have h1 := reportAll_keeps L.toClaimMoves (lauRestart_keeps L (L.link
    { s.link with readiness := .restarting, restartTag := some tag } s (List.Sublist.refl _) h))
  unfold State.beginRestart
  dsimp only
  split
  · exact completeRestart_keeps M _ h1
  · exact h1

theorem dispatchBadKind_keeps (M : RequestActs P) (kind tag : Byte) (p : List Byte) {s : State} (h : P s) :
    P (dispatchBadKind kind tag p s) := by
  unfold dispatchBadKind
  split
  · exact refuse_keeps M _ _ _ h
  · rename_i hu
    split
    · exact refuse_keeps M _ _ _ h
    · rename_i hl
      exact answerAtOnce_keeps M _ _ _ (by simpa using hu) (by omega) h

/-- The requests of RESTART, the scheduler's settings and the check unit's counts. -/
def memorySideKinds : List Byte := [0x04#8, 0x15#8, 0x16#8, 0x17#8]

/-- The dispatch of the requests keeps what their moves keep, if that of the memory side's requests does. -/
theorem requestFrame_keeps (R : RequestActs P) (kind tag : Byte) (p : List Byte)
    (hs : kind ∈ memorySideKinds → ∀ t, P t → P (dispatchFrame kind tag p t)) {s : State} (h : P s) :
    P (dispatchFrame kind tag p s) := by
  by_cases hm : kind ∈ memorySideKinds
  · exact hs hm _ h
  · have hn : ∀ k : Byte, k ∈ memorySideKinds → kind.toNat ≠ k.toNat := fun k hk e => hm (BitVec.eq_of_toNat_eq e ▸ hk)
    unfold dispatchFrame
    split
    · exact answered_keeps R _ _ _ _ (fun _ ht => ht) h
    · exact answered_keeps R _ _ _ _ (fun _ ht => ht) h
    · exact answered_keeps R _ _ _ _ (fun _ ht => linkStats_keeps R _ ht) h
    · rename_i e; exact absurd e (hn 0x04#8 (by decide))
    · exact answered_keeps R _ _ _ _ (fun _ ht => noticeAck_keeps R _ ht) h
    · exact answered_keeps R _ _ _ _ (fun _ ht => noticeReplay_keeps R _ ht) h
    · exact owned_keeps R _ _ _ _ (fun _ ht => R.define _ _ ht) h
    · exact owned_keeps R _ _ _ _ (fun _ ht => onRegion_keeps _ (fun _ _ hu => R.delete _ _ hu) ht) h
    · exact owned_keeps R _ _ _ _ (fun _ ht => onRegion_keeps _ (fun _ _ hu => hu) ht) h
    · exact owned_keeps R _ _ _ _ (fun _ ht => onRegion_keeps _ (fun _ _ hu => R.emptied _ _ hu) ht) h
    · exact answered_keeps R _ _ _ _ (fun _ ht => ht) h
    · rename_i e; exact absurd e (hn 0x15#8 (by decide))
    · rename_i e; exact absurd e (hn 0x16#8 (by decide))
    · rename_i e; exact absurd e (hn 0x17#8 (by decide))
    · exact owned_keeps R _ _ _ _ (fun _ ht => setClass_keeps R _ ht) h
    · exact owned_keeps R _ _ _ _ (fun _ ht => ht) h
    · exact owned_keeps R _ _ _ _ (fun _ ht => R.enqueue _ _ ht) h
    · exact owned_keeps R _ _ _ _ (fun _ ht => R.stop _ _ ht) h
    · exact owned_keeps R _ _ _ _ (fun _ ht => onChannel_keeps _ (fun _ _ hu => R.resume _ _ hu) ht) h
    · exact owned_keeps R _ _ _ _ (fun _ ht => onChannel_keeps _ (fun _ _ hu => hu) ht) h
    · exact owned_keeps R _ _ _ _ (fun _ ht => markSet_keeps R _ ht) h
    · exact owned_keeps R _ _ _ _ (fun _ ht => markAdd_keeps R.toClaimMoves _ ht) h
    · exact owned_keeps R _ _ _ _ (fun _ ht => ht) h
    · exact owned_keeps R _ _ _ _ (fun _ ht => portEnable_keeps R _ ht) h
    · exact owned_keeps R _ _ _ _ (fun _ ht => portDisable_keeps R _ ht) h
    · exact owned_keeps R _ _ _ _ (fun _ ht => portBind_keeps R _ ht) h
    · exact owned_keeps R _ _ _ _ (fun _ ht => portQuery_keeps R _ ht) h
    · exact lauRequest_keeps R _ _ _ (fun _ ht => lauPut_keeps R _ _ ht) h
    · exact lauRequest_keeps R _ _ _ (fun _ ht => lauGet_keeps R _ _ ht) h
    · exact lauRequest_keeps R _ _ _ (fun _ ht => lauAppend_keeps R _ _ ht) h
    · exact lauRequest_keeps R _ _ _ (fun _ ht => lauTakeRequest_keeps R _ _ ht) h
    · exact dispatchBadKind_keeps R _ _ _ h

/-- The dispatch of every request keeps what the moves keep. -/
theorem dispatchFrame_keeps (M : OtherActs P) (kind tag : Byte) (p : List Byte) {s : State} (h : P s) :
    P (dispatchFrame kind tag p s) := by
  have R := M.toRequestActs
  refine requestFrame_keeps R kind tag p (fun hm t h => ?_) h
  simp only [memorySideKinds, List.mem_cons, List.not_mem_nil, or_false] at hm
  rcases hm with rfl | rfl | rfl | rfl
  · exact accept_keeps R _ _ _ _ (fun _ ht => unlessFailed_keeps R _ (fun _ hu => beginRestart_keeps M _ hu) ht) h
  · exact answered_keeps R _ _ _ _ (fun _ ht => rowPolicy_keeps M _ ht) h
  · exact answered_keeps R _ _ _ _ (fun _ ht => retentionRate_keeps M _ ht) h
  · exact answered_keeps R _ _ _ _ (fun _ ht => checkStats_keeps M _ ht) h

/-! ## ADMISSION -/

theorem writePlace_keeps (W : RegionMoves P) {r : RegionId} {off : Nat} {s : State} {p : Place} (h : P s)
    (hp : s.writePlace r off = some p) : P p.after := by
  unfold State.writePlace at hp
  split at hp
  · cases hp
  · split at hp
    · cases hp; exact h
    · cases hp; exact setRing_keeps W _ _ h

theorem readPlace_keeps (W : RegionMoves P) {r : RegionId} {off : Nat} {s : State} {p : Place} (h : P s)
    (hp : s.readPlace r off = some p) : P p.after := by
  unfold State.readPlace at hp
  split at hp
  · cases hp
  · split at hp
    · cases hp; exact h
    · cases hp; exact setRing_keeps W _ _ h

/-- An entry a channel forms is the channel's own, and what forming it does is kept. -/
theorem channelWrite_keeps (W : RegionMoves P) {c : ChannelId} {d : Descriptor} {pos : Nat} {data : List Byte} {s t : State}
    {e : BurstEntry} (h : P s) (hf : s.channelWrite c d pos data = some (e, t)) :
    P t ∧ e.owner = .requester (.ch c) := by
  unfold State.channelWrite at hf
  split at hf
  · cases hf
  · obtain ⟨p, hp, he⟩ := Option.map_eq_some_iff.mp hf
    cases he
    exact ⟨modProg_keeps W.toWorkMoves _ _ (writePlace_keeps W h hp), rfl⟩

theorem channelRead_keeps (W : RegionMoves P) {c : ChannelId} {d : Descriptor} {pos : Nat} {g : Target}
    {f : Progress → Progress} {s t : State} {e : BurstEntry} (h : P s) (hf : s.channelRead c d pos g f = some (e, t)) :
    P t ∧ e.owner = .requester (.ch c) := by
  unfold State.channelRead at hf
  split at hf
  · cases hf
  · obtain ⟨p, hp, he⟩ := Option.map_eq_some_iff.mp hf
    cases he
    exact ⟨modProg_keeps W.toWorkMoves _ _ (readPlace_keeps W h hp), rfl⟩

theorem formChannel_keeps (W : RegionMoves P)
    (hc : ∀ k s, P s → P (State.setCapture k (s.capture k).taken s))
    (hp : ∀ k x s, P s → P (State.setPlayout k x s)) {c : ChannelId} {cur : Current} {b : Burst} {s t : State}
    {e : BurstEntry} (h : P s) (hf : s.formChannel c cur b = some (e, t)) :
    P t ∧ e.owner = .requester (.ch c) := by
  unfold State.formChannel at hf
  split at hf
  · exact channelWrite_keeps W (hc _ _ h) hf
  · exact channelWrite_keeps W h hf
  · exact channelRead_keeps W (hp _ _ _ h) hf
  · exact channelWrite_keeps W (modChannel_keeps W.toWorkMoves _ _ h) hf
  · exact channelRead_keeps W (modChannel_keeps W.toWorkMoves _ _ h) hf

theorem formLau_keeps (W : RegionMoves P) {sv : LauService} {s t : State} {e : BurstEntry} (h : P s)
    (hf : s.formLau sv = some (e, t)) : P t ∧ e.owner = .requester .lau := by
  unfold State.formLau at hf
  split at hf
  · cases hf; exact ⟨setService_keeps W.toServiceMoves _ h, rfl⟩
  · cases hf; exact ⟨setService_keeps W.toServiceMoves _ h, rfl⟩
  · obtain ⟨p, hp, he⟩ := Option.map_eq_some_iff.mp hf
    cases he
    exact ⟨setService_keeps W.toServiceMoves _ (writePlace_keeps W h hp), rfl⟩
  · obtain ⟨p, hp, he⟩ := Option.map_eq_some_iff.mp hf
    cases he
    exact ⟨setService_keeps W.toServiceMoves _ (readPlace_keeps W h hp), rfl⟩

/-- The moves of Work.lean leave the scheduler's records as they are. -/
theorem schedMoves (d : Scheduler) : RegionMoves fun u => u.sched = d where
  ring := fun _ _ _ _ _ _ _ h => h
  goes := fun _ _ _ _ h => h
  refs := fun _ _ _ h => h
  region := fun _ _ _ h => h
  channel := fun _ _ _ h => h
  arb := fun _ _ h => h
  post := fun _ _ h => h
  raise := fun _ _ _ h => h
  served := fun _ _ h => h
  waiters := fun _ _ _ h => h
  reservations := fun _ _ h => h
  lau := fun _ _ h => h
  link := fun _ _ _ h => h
  openQueue := fun _ h => h

theorem admitted_keeps (M : OtherMoves P) {e : BurstEntry} {f : Arbiter → Arbiter} {s : State}
    (ho : s.sched.opportunity = true) (hn : (s.sched.list.countP fun x => x.owner = e.owner) < 2) (h : P s) :
    P (s.admitted e f) := report_keeps M.toServiceMoves (M.arb _ _ (M.admitEntry _ _ ho hn h))

theorem chosen_some {s : State} {r : Requester} (h : s.chosen = some r) :
    s.sched.opportunity = true ∧ s.link.readiness = .ready ∧ s.arb.choose = some r ∧ s.entriesOf r < 2 := by
  unfold State.chosen at h
  split at h
  · rename_i ha
    simp only [Option.filter_eq_some_iff] at h
    simp only [State.admissionOpen, Bool.and_eq_true, decide_eq_true_eq] at ha
    exact ⟨ha.1, ha.2, h.1, by simpa [Config.requesterPlaces] using h.2⟩
  · cases h

theorem admitChannel_keeps (M : OtherMoves P) (c : ChannelId) {s : State} (ho : s.sched.opportunity = true)
    (hn : s.entriesOf (.ch c) < 2) (h : P s) : P (s.admitChannel c) := by
  unfold State.admitChannel
  split
  · exact h
  · split
    · exact h
    · split
      · exact h
      · rename_i e t hf
        obtain ⟨h1, h2⟩ := formChannel_keeps M.toRegionMoves (fun k u hu => M.capture k _ u (Or.inr (Or.inr rfl)) hu)
          M.playout h hf
        obtain ⟨h3, -⟩ := formChannel_keeps (schedMoves s.sched) (fun _ _ hu => hu) (fun _ _ _ hu => hu)
          rfl hf
        refine admitted_keeps M ?_ ?_ h1
        · rw [h3]; exact ho
        · rw [h3, h2]; exact hn

theorem admitLau_keeps (M : OtherMoves P) {s : State} (ho : s.sched.opportunity = true) (hn : s.entriesOf .lau < 2)
    (h : P s) : P s.admitLau := by
  unfold State.admitLau
  split
  · split
    · exact h
    · split
      · exact h
      · rename_i e t hf
        obtain ⟨h1, h2⟩ := formLau_keeps M.toRegionMoves h hf
        obtain ⟨h3, -⟩ := formLau_keeps (schedMoves s.sched) rfl hf
        refine admitted_keeps M ?_ ?_ h1
        · rw [h3]; exact ho
        · rw [h3, h2]; exact hn
  · exact h

/-! ## ACCESS_COMPLETION -/

theorem countOutcome_keeps (M : OtherMoves P) (a : Nat) (o : EntryOwner) (out : ReadOutcome) {s : State} (h : P s) :
    P (s.countOutcome a o out) := by
  unfold State.countOutcome
  split
  · exact h
  · exact M.check _ _ h
  · unfold State.postCheckFault
    split
    · exact M.post _ _ (M.check _ _ h)
    · exact M.check _ _ h

theorem ringWriteDone_keeps (W : RegionMoves P) (r : RingRef) {s : State} (h : P s) : P (s.ringWriteDone r) := by
  unfold State.ringWriteDone
  split
  · exact h
  · split
    · exact setRing_keeps W _ _ h
    · exact ringRose_keeps W _ _ h

theorem ringReadDone_keeps (W : RegionMoves P) (r : RingRef) (back : Bool) {s : State} (h : P s) :
    P (s.ringReadDone r back) := by
  unfold State.ringReadDone
  split
  · exact h
  · split
    · exact ringRose_keeps W _ _ h
    · exact setRing_keeps W _ _ h

theorem onRef_keeps (r : Option RingRef) {f : RingRef → State → State} (hf : ∀ x t, P t → P (f x t)) {s : State}
    (h : P s) : P (s.onRef r f) := by
  unfold State.onRef
  split
  · exact h
  · exact hf _ _ h

theorem deliver_keeps (W : WorkMoves P) (hp : ∀ k pos data s, P s → P (State.setPlayout k ((s.playout k).delivered pos data) s))
    (c : ChannelId) (g : Target) (data : List Byte) {s : State} (h : P s) : P (s.deliver c g data) := by
  unfold State.deliver
  split
  · exact modChannel_keeps W _ _ h
  · exact modProg_keeps W _ _ (hp _ _ _ _ h)
  · exact h

theorem channelReadDone_keeps (W : WorkMoves P)
    (hp : ∀ k pos data s, P s → P (State.setPlayout k ((s.playout k).delivered pos data) s)) (c : ChannelId) (g : Target)
    (out : ReadOutcome) {s : State} (h : P s) : P (s.channelReadDone c g out) := by
  unfold State.channelReadDone
  split
  · exact h
  · split
    · exact afterCompletion_keeps W _ h
    · split
      · exact afterCompletion_keeps W _ (deliver_keeps W hp _ _ _ h)
      · split
        · exact channelFault_keeps W _ _ h
        · exact afterCompletion_keeps W _ h

theorem lauReadDone_keeps (W : ServiceMoves P) (e : BurstEntry) (pos : Nat) (out : ReadOutcome) (back : Bool) {s : State}
    (h : P s) : P (s.lauReadDone e pos out back) := by
  unfold State.lauReadDone
  split
  · exact h
  · split
    · exact lauGetDone_keeps W _ _ _ h
    · exact lauTakeDone_keeps W _ _ _ _ h
    · exact h
    · exact h

theorem endBringup_keeps (M : OtherMoves P) {s : State} (h : P s) : P s.endBringup :=
  M.link _ _ (List.Sublist.refl _) (M.post _ _ (M.bringupEnds _ h))

theorem sweepDone_keeps (M : OtherMoves P) (addr : Nat) {s : State} (h : P s) : P (s.sweepDone addr) := by
  unfold State.sweepDone
  split
  · exact endBringup_keeps M h
  · exact M.sweep _ h

theorem reportWrite_keeps (W : LauMoves P) (hs : ∀ a s, P s → P (State.sweepDone a s)) (o : EntryOwner) (addr n : Nat)
    {s : State} (h : P s) : P (s.reportWrite o addr n) := by
  unfold State.reportWrite
  split
  · exact hs _ _ h
  · exact afterCompletion_keeps W.toWorkMoves _ (modProg_keeps W.toWorkMoves _ _ h)
  · exact lauWriteDone_keeps W.toServiceMoves _ h

theorem reportRead_keeps (W : LauMoves P)
    (hp : ∀ k pos data s, P s → P (State.setPlayout k ((s.playout k).delivered pos data) s)) (e : BurstEntry) (g : Target)
    (out : ReadOutcome) (back : Bool) {s : State} (h : P s) : P (s.reportRead e g out back) := by
  unfold State.reportRead
  split
  · exact channelReadDone_keeps W.toWorkMoves hp _ _ _ h
  · exact lauReadDone_keeps W.toServiceMoves _ _ _ _ h
  · exact h

theorem writeCompletes_keeps (M : Moves P) (e : BurstEntry) (data : List Byte) {s : State}
    (ha : isBurst e.addr = true) (h : P s) : P (s.writeCompletes e data) :=
  reportWrite_keeps M.toLauMoves (fun _ _ hu => sweepDone_keeps M.toOtherMoves _ hu) _ _ _ (onRef_keeps _ (fun _ _ ht => ringWriteDone_keeps M.toRegionMoves _ ht) (M.write _ _ _ ha h))

theorem readCompletes_keeps (M : Moves P) (e : BurstEntry) (g : Target) (flips : BurstBits) {s : State}
    (ha : isBurst e.addr = true) (h : P s) : P (s.readCompletes e g flips) :=
  reportRead_keeps M.toLauMoves (fun _ _ _ _ hu => M.playout _ _ _ hu) _ _ _ _ (onRef_keeps _ (fun _ _ ht => ringReadDone_keeps M.toRegionMoves _ _ ht)
    (countOutcome_keeps M.toOtherMoves _ _ _ (M.read _ _ _ ha h)))

theorem completeAccess_keeps (M : Moves P) (e : BurstEntry) (start : Nat) (flips : BurstBits) {s : State}
    (h1 : s.sched.accessStart = some start) (h2 : s.sched.accessing? = some e) (ha : isBurst e.addr = true) (h : P s) :
    P (s.completeAccess e start flips) := by
  have h3 : P ((s.clockTo (start + Config.accessNs)).setSched
      ((s.clockTo (start + Config.accessNs)).sched.completeAccess e (s.clockTo (start + Config.accessNs)).now)) :=
    M.accessEnd e start _ h1 h2 (le_clockTo _ _) (M.clock _ _ h)
  unfold State.completeAccess
  dsimp only
  refine report_keeps M.toServiceMoves (M.testLazy _ ?_)
  split
  · exact writeCompletes_keeps M _ _ ha h3
  · exact readCompletes_keeps M _ _ _ ha h3

/-! ## The transmitter and the receiver -/

theorem discard_keeps (M : OtherActs P) (f : LinkCounters → LinkCounters) {s : State} (h : P s) :
    P (s.setLink (s.link.discardFrame.count f)) := M.link _ _ (List.Sublist.refl _) h

theorem tagsOf_broken (l : Link) : (tagsOf l.broken).Sublist (tagsOf l) := by
  show (((l.table.filter OutEntry.survives).map fun e => { e with orphaned := true }).map fun e => e.tag).Sublist _
  rw [List.map_map]
  exact List.Sublist.map _ List.filter_sublist

theorem takeBreak_keeps (M : OtherActs P) {s : State} (h : P s) : P s.takeBreak := by
  have h1 := M.rewindAll _ (M.link s.link.broken s (tagsOf_broken _) h)
  unfold State.takeBreak
  dsimp only
  split
  · exact readyReturn_keeps M.toServiceMoves h1
  · exact h1

theorem beginFrame_keeps (M : OtherActs P) {s : State} (h : P s) : P s.beginFrame := by
  unfold State.beginFrame
  split
  · exact M.link _ _ (List.Sublist.refl _) h
  · exact M.link _ _ (by rw [show tagsOf (s.link.beginResponse _ _) = tagsOf s.link from tagsOf_setStage _ _ _]) h
  · rename_i hn
    exact M.sendNext _ (List.getElem?_eq_some_iff.mp hn).1 (M.link _ _ (List.Sublist.refl _) h)
  · exact h

theorem endFrame_keeps (M : OtherActs P) (f : TxFrame) {s : State} (h : P s) : P (s.endFrame f) := by
  have h1 : P (s.setLink { s.link with tx := none }) := M.link _ _ (List.Sublist.refl _) h
  unfold State.endFrame
  dsimp only
  split
  · exact entryLeaves_keeps M.toServiceMoves _ h1
  · exact h1
  · exact h1

theorem onByte_keeps (M : OtherActs P) (m : RxState × RxEvent) {s : State} (h : P s) : P (s.onByte m) := by
  unfold State.onByte
  split
  · exact M.link _ _ (List.Sublist.refl _) h
  · exact discard_keeps M _ h
  · exact discard_keeps M _ h
  · exact dispatchFrame_keeps M _ _ _ (M.link _ _ (List.Sublist.refl _) h)

/-! ## Every command -/

/-- A command that is one good frame, by its KIND. -/
theorem frame_keeps (M : OtherActs P) (kind tag : Byte) (p : List Byte) {s t : State} (h : P s)
    (ht : onFrame kind (dispatchFrame kind) tag p s = .next t) : P t :=
  onFrame_keeps M.toRequestActs _ _ _ (fun _ hu => dispatchFrame_keeps M _ _ _ hu) h ht

theorem next_keeps {s t : State} (h : P s) (ht : (Host.Outcome.next s : Out) = .next t) : P t := by
  injection ht with ht
  exact ht ▸ h

theorem if_keeps {b : Prop} [Decidable b] {s t : State} (h1 : b → P s) (h2 : P t) : P (if b then s else t) := by
  split
  · rename_i hb
    exact h1 hb
  · exact h2

theorem closeFor_keeps (M : OtherActs P) (b : BankId) (o : OpenRow) (cause : Bool) {s : State}
    (hb : s.sched.bank b = .opened o) (h : P s) : P (s.closeFor b o cause) := by
  unfold State.closeFor
  split
  · rename_i hc
    simp only [Bool.and_eq_true] at hc
    exact M.closing _ _ _ hb hc.1.2 hc.2 h
  · exact h

theorem idleExpiry_keeps (M : OtherActs P) (b : BankId) {s t : State} (h : P s) (ht : execIdleExpiry b s = .next t) :
    P t := by
  refine next_keeps ?_ ht
  split
  · rename_i hb _
    exact closeFor_keeps M _ _ _ hb (M.clock _ _ h)
  · exact h

theorem intervalEnds_keeps (M : OtherActs P) {s : State} (h : P s) : P s.intervalEnds := by
  unfold State.intervalEnds
  dsimp only
  refine M.testRefresh _ ?_
  unfold State.postMissed
  split
  · exact M.post _ _ (M.interval _ h)
  · exact M.interval _ h

theorem calibration_keeps (M : OtherActs P) (pass : Bool) {s t : State} (h : P s)
    (ht : execCalibrationCompletion pass s = .next t) : P t := by
  refine next_keeps ?_ ht
  split
  · rename_i hs
    split
    · exact M.clear _ hs h
    · exact M.link _ _ (List.Sublist.refl _) (M.post _ _ (M.failed _ hs h))
  · exact h

theorem accessStart_keeps (M : OtherActs P) {s t : State} (h : P s) (ht : execAccessStart s = .next t) : P t := by
  refine next_keeps ?_ ht
  split
  · exact h
  · rename_i hr
    split
    · rename_i hb
      simp only [Bool.and_eq_true, Bool.not_eq_true'] at hb
      exact M.accessStart _ _ hr hb.1 hb.2 h
    · exact h

theorem accessCompletion_keeps (M : Moves P) (flips : BurstBits) {s t : State} (h : P s)
    (ht : execAccessCompletion flips s = .next t) : P t := by
  unfold execAccessCompletion at ht
  split at ht
  · rename_i h1 h2
    split at ht
    · rename_i ha
      exact next_keeps (completeAccess_keeps M _ _ _ h1 h2 ha h) ht
    · cases ht
  · exact next_keeps h ht

theorem admission_keeps (M : OtherMoves P) {s t : State} (h : P s) (ht : execAdmission s = .next t) : P t := by
  refine next_keeps ?_ ht
  split
  · exact h
  · rename_i hc
    obtain ⟨h1, _, _, h4⟩ := chosen_some hc
    exact admitChannel_keeps M _ h1 h4 h
  · rename_i hc
    obtain ⟨h1, _, _, h4⟩ := chosen_some hc
    exact admitLau_keeps M h1 h4 h

theorem strobe_keeps (M : OtherActs P) (k : CaptureId) (w : Word16) {s t : State} (h : P s)
    (ht : execStrobe k w s = .next t) : P t := by
  refine next_keeps (reportBound_keeps M.toClaimMoves _ ?_) ht
  unfold State.postOverflow
  split
  · exact M.post _ _ (M.strobed _ _ _ h)
  · exact M.strobed _ _ _ h

theorem pull_keeps (M : OtherMoves P) (k : PlayoutId) {s t : State} (h : P s) (ht : execPull k s = .next t) : P t := by
  refine next_keeps (reportBound_keeps M.toClaimMoves _ ?_) ht
  unfold State.postUnderrun
  split
  · exact M.post _ _ (M.playout _ _ _ h)
  · exact M.playout _ _ _ h

theorem badKind_keeps (M : OtherActs P) (kind tag : Byte) (p : List Byte) {s t : State} (h : P s)
    (ht : execBadKind kind tag p s = .next t) : P t := by
  unfold execBadKind at ht
  split at ht
  · exact onFrame_keeps M.toRequestActs _ _ _ (fun _ hu => dispatchBadKind_keeps M.toRequestActs _ _ _ hu) h ht
  · exact next_keeps h ht

theorem RequestMoves.acts (M : RequestMoves P) : RequestActs P where
  toServiceMoves := M.toServiceMoves
  toFrameMoves := M.toFrameMoves
  playoutKept := fun _ _ _ _ _ h => M.playout _ _ _ h
  define := fun _ _ h => regionDefine_keeps M _ h
  delete := fun _ _ h => regionDelete_keeps M _ h
  emptied := fun _ _ h => ringReset_keeps M _ h
  enqueue := fun _ _ h => enqueue_keeps M.toWorkMoves _ h
  stop := fun _ _ h => channelStop_keeps M.toWorkMoves _ h
  resume := fun _ _ h => channelResume_keeps M.toWorkMoves _ h

theorem OtherMoves.acts (M : OtherMoves P) : OtherActs P where
  toRequestActs := M.toRequestMoves.acts
  toSchedulerMoves := M.toSchedulerMoves
  admission := fun _ _ h ht => admission_keeps M h ht
  pull := fun _ _ _ h ht => pull_keeps M _ h ht

/-- Every command keeps what its acts keep, if ACCESS_COMPLETION does. -/
theorem exec_acts (M : OtherActs P) (i : Instr) {s t : State} (h : P s)
    (ha : ∀ flips, i = .accessCompletion flips → P t) (ht : exec i s = .next t) : P t := by
  cases i with
  | identify tag p => exact frame_keeps M 0x01#8 tag p h ht
  | echo tag p => exact frame_keeps M 0x02#8 tag p h ht
  | linkStats tag p => exact frame_keeps M 0x03#8 tag p h ht
  | restart tag p => exact frame_keeps M 0x04#8 tag p h ht
  | noticeAck tag p => exact frame_keeps M 0x08#8 tag p h ht
  | noticeReplay tag p => exact frame_keeps M 0x09#8 tag p h ht
  | regionDefine tag p => exact frame_keeps M 0x10#8 tag p h ht
  | regionDelete tag p => exact frame_keeps M 0x11#8 tag p h ht
  | regionQuery tag p => exact frame_keeps M 0x12#8 tag p h ht
  | ringReset tag p => exact frame_keeps M 0x13#8 tag p h ht
  | schedQuery tag p => exact frame_keeps M 0x14#8 tag p h ht
  | rowPolicy tag p => exact frame_keeps M 0x15#8 tag p h ht
  | retentionRate tag p => exact frame_keeps M 0x16#8 tag p h ht
  | checkStats tag p => exact frame_keeps M 0x17#8 tag p h ht
  | setClass tag p => exact frame_keeps M 0x18#8 tag p h ht
  | arbQuery tag p => exact frame_keeps M 0x19#8 tag p h ht
  | enqueue tag p => exact frame_keeps M 0x20#8 tag p h ht
  | channelStop tag p => exact frame_keeps M 0x21#8 tag p h ht
  | channelResume tag p => exact frame_keeps M 0x22#8 tag p h ht
  | channelQuery tag p => exact frame_keeps M 0x23#8 tag p h ht
  | markSet tag p => exact frame_keeps M 0x24#8 tag p h ht
  | markAdd tag p => exact frame_keeps M 0x25#8 tag p h ht
  | markQuery tag p => exact frame_keeps M 0x26#8 tag p h ht
  | portEnable tag p => exact frame_keeps M 0x28#8 tag p h ht
  | portDisable tag p => exact frame_keeps M 0x29#8 tag p h ht
  | portBind tag p => exact frame_keeps M 0x2A#8 tag p h ht
  | portQuery tag p => exact frame_keeps M 0x2B#8 tag p h ht
  | put tag p => exact frame_keeps M 0x30#8 tag p h ht
  | get tag p => exact frame_keeps M 0x31#8 tag p h ht
  | append tag p => exact frame_keeps M 0x32#8 tag p h ht
  | take tag p => exact frame_keeps M 0x33#8 tag p h ht
  | badKind kind tag p => exact badKind_keeps M kind tag p h ht
  | crcError bytes =>
    refine next_keeps (if_keeps (fun _ => ?_) h) ht
    exact discard_keeps M _ h
  | oversize bytes =>
    refine next_keeps (if_keeps (fun _ => ?_) h) ht
    exact discard_keeps M _ h
  | interByteTimeout =>
    refine next_keeps ?_ ht
    split
    · exact h
    · exact discard_keeps M _ (M.clock _ _ h)
  | linkBreak =>
    refine next_keeps (if_keeps (fun _ => ?_) h) ht
    exact takeBreak_keeps M h
  | pinReset => exact next_keeps (M.pinReset _ h) ht
  | pinResetEnd a b =>
    refine next_keeps (if_keeps (fun hr => ?_) h) ht
    exact M.link _ _ (List.Sublist.refl _) (M.settling _ hr h)
  | settleExpiry =>
    refine next_keeps (if_keeps (fun hs => ?_) h) ht
    exact M.settled _ hs h
  | calibrationCompletion pass => exact calibration_keeps M pass h ht
  | intervalExpiry =>
    refine next_keeps ?_ ht
    split
    · exact h
    · exact intervalEnds_keeps M (M.clock _ _ h)
  | spacingExpiry =>
    refine next_keeps ?_ ht
    split
    · exact h
    · exact M.clock _ _ h
  | windowExpiry =>
    refine next_keeps ?_ ht
    split
    · exact h
    · exact M.clock _ _ h
  | minOpenExpiry b =>
    refine next_keeps ?_ ht
    split
    · exact M.clock _ _ h
    · exact h
    · exact h
    · exact h
  | recoveryExpiry b =>
    refine next_keeps ?_ ht
    split
    · split
      · exact M.clock _ _ h
      · exact h
    · exact h
    · exact h
    · exact h
  | idleExpiry b => exact idleExpiry_keeps M b h ht
  | openingStart =>
    refine next_keeps ?_ ht
    split
    · rename_i hd
      exact M.opening _ _ hd h
    · exact h
  | openingCompletion b =>
    refine next_keeps ?_ ht
    split
    · rename_i hb
      exact M.opened _ _ _ (s.clockTo _) hb (le_clockTo _ _) (M.clock _ _ h)
    · exact h
    · exact h
    · exact h
  | closingStart b =>
    refine next_keeps ?_ ht
    split
    · rename_i hb
      exact closeFor_keeps M _ _ _ hb h
    · exact h
    · exact h
    · exact h
  | closingCompletion b =>
    refine next_keeps ?_ ht
    split
    · rename_i hb
      exact M.closed _ _ (s.clockTo _) hb (le_clockTo _ _) (M.clock _ _ h)
    · exact h
    · exact h
    · exact h
  | accessStart => exact accessStart_keeps M h ht
  | accessCompletion flips => exact ha flips rfl
  | refreshStart =>
    refine next_keeps (if_keeps (fun hr => ?_) h) ht
    exact M.refreshStart _ hr h
  | refreshCompletion =>
    refine next_keeps ?_ ht
    split
    · exact h
    · rename_i hr
      exact M.refreshEnd _ (s.clockTo _) hr (le_clockTo _ _) (M.clock _ _ h)
  | admission => exact M.admission _ _ h ht
  | strobe k w => exact strobe_keeps M k w h ht
  | pull k => exact M.pull _ _ _ h ht
  | frameBegin =>
    refine next_keeps (if_keeps (fun _ => ?_) h) ht
    exact beginFrame_keeps M h
  | frameEnd =>
    refine next_keeps ?_ ht
    split
    · exact h
    · exact endFrame_keeps M _ h
  | restartReset =>
    refine next_keeps ?_ ht
    split
    · exact h
    · split
      · exact completeRestart_keeps M _ h
      · exact h
  | byteTaken b =>
    refine next_keeps (if_keeps (fun _ => ?_) h) ht
    exact onByte_keeps M _ h
  | rxdReturnedHigh =>
    refine next_keeps ?_ ht
    exact M.link _ _ (List.Sublist.refl _) h

/-- Every command keeps what the moves keep, if ACCESS_COMPLETION does. -/
theorem exec_keeps_but (M : OtherMoves P) (i : Instr) {s t : State} (h : P s)
    (ha : ∀ flips, i = .accessCompletion flips → P t) (ht : exec i s = .next t) : P t := exec_acts M.acts i h ha ht

/-- Every command keeps what the moves keep. -/
theorem exec_keeps (M : Moves P) (i : Instr) {s t : State} (h : P s) (ht : exec i s = .next t) : P t := by
  refine exec_keeps_but M.toOtherMoves i h (fun flips e => ?_) ht
  subst e
  exact accessCompletion_keeps M flips h ht

end Sys2Proof.Laws
end

