-- ==== Sys2Proof/Laws/Work.lean ====
section
/-! SUPPORT. What the operations shared by the channels, rings, marks, ports and the LAU do, one lemma for each: claims,
reference counts, retirements, waiter lists, ring completions, deliveries and responses. -/
namespace Sys2Proof.Laws

open Sys2Proof.Machine

/-! ## Claims (R17, R82) -/

theorem roleRing_of_current {s : State} {role : Role} {c : ChannelId} {cur : Current}
    (h : (s.channel c).current = some cur) :
    s.roleRing role c = match cur.desc.endpointRegion role with
      | none => none
      | some r => (s.ring? r).map fun g => (r, g.2) := by
  unfold State.roleRing
  rw [h] <;> rfl

theorem roleRing_reader_iff {s : State} {c : ChannelId} {cur : Current} (h : (s.channel c).current = some cur)
    (r : RegionId) (g : Ring) :
    s.roleRing .reader c = some (r, g) ↔ ∃ x, (∃ off, cur.desc.source = .region r off) ∧ s.ring? r = some (x, g) := by
  rw [roleRing_of_current h]
  unfold Descriptor.endpointRegion
  cases hd : cur.desc.source with
  | capture k => simp
  | pattern v => simp
  | region q off =>
    simp only [Option.map_eq_some_iff, Prod.mk.injEq, Source.region.injEq]
    constructor
    · rintro ⟨⟨x, g'⟩, h1, rfl, rfl⟩
      exact ⟨x, ⟨off, rfl, rfl⟩, h1⟩
    · rintro ⟨x, ⟨_, rfl, _⟩, h1⟩
      exact ⟨(x, g), h1, rfl, rfl⟩

theorem roleRing_writer_iff {s : State} {c : ChannelId} {cur : Current} (h : (s.channel c).current = some cur)
    (r : RegionId) (g : Ring) :
    s.roleRing .writer c = some (r, g) ↔ ∃ x, (∃ off, cur.desc.dest = .region r off) ∧ s.ring? r = some (x, g) := by
  rw [roleRing_of_current h]
  unfold Descriptor.endpointRegion
  cases hd : cur.desc.dest with
  | playout k => simp
  | region q off =>
    simp only [Option.map_eq_some_iff, Prod.mk.injEq, Destination.region.injEq]
    constructor
    · rintro ⟨⟨x, g'⟩, h1, rfl, rfl⟩
      exact ⟨x, ⟨off, rfl, rfl⟩, h1⟩
    · rintro ⟨x, ⟨_, rfl, _⟩, h1⟩
      exact ⟨(x, g), h1, rfl, rfl⟩

theorem takeClaim_of_no_ring {s : State} {role : Role} {c : ChannelId} {next : State → State}
    (h : s.roleRing role c = none) : s.takeClaim role c next = next s := by
  unfold State.takeClaim
  rw [h]

/-- A ring whose claim is free, or the channel's own, is claimed, and the promotion goes on. -/
theorem takeClaim_free {s : State} {role : Role} {c : ChannelId} {next : State → State} {r : RegionId} {g : Ring}
    (h : s.roleRing role c = some (r, g)) (hf : g.holder role = none ∨ g.holder role = some (.ch c)) :
    s.takeClaim role c next = next (s.setRing r (g.setHolder role (some (.ch c)))) := by
  unfold State.takeClaim
  rw [h]
  dsimp only
  obtain ⟨d, hd⟩ := roleRing_some h
  rcases hf with e | e
  · rw [if_neg (by rw [e]; simp), if_pos (by rw [e]; rfl)]
  · rw [if_pos e]
    have : g.setHolder role (some (.ch c)) = g := by
      cases role <;> (cases g; simp only [Ring.holder] at e; simp [Ring.setHolder, e])
    rw [this, setRing_self hd]

/-- A ring whose claim another holds: the channel waits at the tail of its list. -/
theorem takeClaim_held {s : State} {role : Role} {c : ChannelId} {next : State → State} {r : RegionId} {g : Ring}
    (h : s.roleRing role c = some (r, g)) (h1 : g.holder role ≠ none) (h2 : g.holder role ≠ some (.ch c)) :
    s.takeClaim role c next =
      (s.setRing r (g.setWaiters role (g.waiters role ++ [c]))).setChannel c { s.channel c with state := .waiting .claim } := by
  unfold State.takeClaim
  rw [h]
  dsimp only
  rw [if_neg h2, if_neg (by cases hg : g.holder role <;> simp_all)]
  rfl

/-! ## Reference counts (R7) -/

theorem mem_regions (d : Descriptor) (r : RegionId) : d.namesRegion r = decide (r ∈ d.regions) := by
  unfold Descriptor.namesRegion Descriptor.regions Descriptor.endpointRegion
  cases d.source <;> cases d.dest <;> simp <;> (try split) <;> simp_all [eq_comm]

theorem regions_nodup (d : Descriptor) : d.regions.Nodup := by
  unfold Descriptor.regions
  split <;> (try split) <;> simp_all

theorem foldl_setRegion (f : Region → Region) : ∀ (rs : List RegionId) (s : State), rs.Nodup → ∃ v : Vector Region 16,
    (∀ r, getAt v r = if r ∈ rs then f (s.region r) else s.region r) ∧
      rs.foldl (fun t r => t.setRegion r (f (t.region r))) s = s.setRegions v
  | [], s, _ => ⟨s.regions, fun r => by simp [State.region], rfl⟩
  | q :: rs, s, hn => by
    obtain ⟨v, h1, h2⟩ := foldl_setRegion f rs (s.setRegion q (f (s.region q))) (List.nodup_cons.mp hn).2
    refine ⟨v, fun r => ?_, by rw [List.foldl_cons, h2]; rfl⟩
    rw [h1, region_setRegion]
    by_cases e : r = q
    · subst e
      simp [(List.nodup_cons.mp hn).1]
    · simp [e]

/-- A descriptor's regions each get one reference more. -/
theorem addRefs_eq (d : Descriptor) (s : State) : ∃ v : Vector Region 16,
    (∀ r, getAt v r = { s.region r with refCount := (s.region r).refCount + if d.namesRegion r then 1 else 0 }) ∧
      s.addRefs d = s.setRegions v := by
  obtain ⟨v, h1, h2⟩ := foldl_setRegion (fun x => { x with refCount := x.refCount + 1 }) _ s (regions_nodup d)
  refine ⟨v, fun r => ?_, h2⟩
  rw [h1, mem_regions]
  by_cases e : r ∈ d.regions <;> simp [e]

/-- A descriptor's regions each get one reference less. -/
theorem dropRefs_eq (d : Descriptor) (s : State) : ∃ v : Vector Region 16,
    (∀ r, getAt v r = { s.region r with refCount := (s.region r).refCount - if d.namesRegion r then 1 else 0 }) ∧
      s.dropRefs d = s.setRegions v := by
  obtain ⟨v, h1, h2⟩ := foldl_setRegion (fun x => { x with refCount := x.refCount - 1 }) _ s (regions_nodup d)
  refine ⟨v, fun r => ?_, h2⟩
  rw [h1, mem_regions]
  by_cases e : r ∈ d.regions <;> simp [e]

/-- What RING_RESET answers for a ring, and what it leaves. -/
theorem ringReset_ring {s : State} {r : RegionId} {d : RegionRecord} {g : Ring} (hr : (s.region r).record = some d)
    (hk : d.kind = .ring g) : ringReset r s =
      if g.busy then (.inUse, [], s) else (.ok, [], s.setRing r g.emptied) := by
  unfold ringReset
  rw [hr]
  dsimp only
  rw [hk]

/-! ## Promotion, retirement, discards (5.3, R98, R109) -/

theorem promote_nil {s : State} {c : ChannelId} (h : (s.channel c).pending = []) : s.promote c = s := by
  unfold State.promote
  rw [h]

theorem promote_cons {s : State} {c : ChannelId} {d : Descriptor} {rest : List Descriptor}
    (h : (s.channel c).pending = d :: rest) :
    s.promote c = match d.wait with
      | none => (s.modChannel c (Channel.promoted d rest)).takeClaims c
      | some w => ((s.modChannel c (Channel.promoted d rest)).modChannel c fun x =>
          { x with state := .waiting .mark }).joinMark w.mark c w.count := by
  unfold State.promote
  rw [h] <;> rfl

/-- A retirement: the claims released, the counts dropped, the hold ended, the notice posted, the record cleared. -/
theorem retire_eq {s : State} {c : ChannelId} {cur : Current} (st : DoneStatus) (h : (s.channel c).current = some cur) :
    ∃ (u : State) (v : Vector Region 16), u = (s.releaseHeld .reader c).releaseHeld .writer c ∧
      (∀ r, getAt v r =
        { u.region r with refCount := (s.region r).refCount - if cur.desc.namesRegion r then 1 else 0 }) ∧
      s.retire c st = (((u.setRegions v).setArb (s.arb.onRetire c)).setNotices
        (if st ≠ .done ∨ cur.desc.notify = true then
          s.notices.post (.descriptorDone c cur.desc.tag st cur.prog.done cur.prog.runsCompleted)
        else s.notices)).setChannel c { u.channel c with current := none, slotA := .empty, slotB := .empty } := by
  refine ⟨(s.releaseHeld .reader c).releaseHeld .writer c, ?_⟩
  generalize hu : (s.releaseHeld .reader c).releaseHeld .writer c = u
  have P : Promotes s u := hu ▸ (promotes_releaseHeld .reader c s).trans (promotes_releaseHeld .writer c _)
  obtain ⟨v, h1, h2⟩ := dropRefs_eq cur.desc u
  refine ⟨v, rfl, fun r => ?_, ?_⟩
  · have hb := congrArg Region.refCount (P.regions r)
    have hb : (u.region r).refCount = (s.region r).refCount := hb
    rw [h1, hb]
  · unfold State.retire
    rw [h]
    dsimp only
    rw [hu, h2]
    have ha : (u.setRegions v).arb = s.arb := by rw [P.fields]; rfl
    have hn : (u.setRegions v).notices = s.notices := by rw [P.fields]; rfl
    rw [ha]
    by_cases e : st ≠ .done ∨ cur.desc.notify = true
    · rw [if_pos e, if_pos (by simpa using e)]
      unfold State.post
      rw [show ((u.setRegions v).setArb (s.arb.onRetire c)).notices = s.notices from hn]
      rfl
    · rw [if_neg e, if_neg (by simpa using e), ← hn]
      rfl

theorem discards_eq (c : ChannelId) : ∀ (ds : List Descriptor) (s : State), ∃ v : Vector Region 16,
    (∀ r, getAt v r =
      { s.region r with refCount := (s.region r).refCount - ds.countP fun d => d.namesRegion r }) ∧
    ds.foldl (State.discardOne c) s = (s.setRegions v).setNotices
      (ds.foldl (fun q d => q.post (.descriptorDone c d.tag .discarded 0 0)) s.notices)
  | [], s => ⟨s.regions, fun r => by simp [State.region], rfl⟩
  | d :: ds, s => by
    obtain ⟨v, h1, h2⟩ := dropRefs_eq d s
    obtain ⟨w, h3, h4⟩ := discards_eq c ds (State.discardOne c s d)
    have hd : State.discardOne c s d =
        (s.setRegions v).setNotices (s.notices.post (.descriptorDone c d.tag .discarded 0 0)) := by
      unfold State.discardOne
      rw [h2]
      rfl
    refine ⟨w, fun r => ?_, by rw [List.foldl_cons, h4, hd]; rfl⟩
    rw [h3, hd]
    show Region.mk ((getAt v r).refCount - _) (getAt v r).record = _
    rw [h1, List.countP_cons]
    split <;> simp
    omega

/-- Every pending descriptor is discarded, oldest first: one notice each, their references dropped. -/
theorem discardPending_eq (s : State) (c : ChannelId) : ∃ v : Vector Region 16,
    (∀ r, getAt v r = { s.region r with
      refCount := (s.region r).refCount - (s.channel c).pending.countP fun d => d.namesRegion r }) ∧
    s.discardPending c = ((s.setRegions v).setNotices ((s.channel c).pending.foldl
      (fun q d => q.post (.descriptorDone c d.tag .discarded 0 0)) s.notices)).setChannel c
        { s.channel c with pending := [] } := by
  obtain ⟨v, h1, h2⟩ := discards_eq c (s.channel c).pending s
  refine ⟨v, h1, ?_⟩
  unfold State.discardPending
  rw [h2]
  rfl

/-! ## Marks (R119 to R121) -/

/-- The waiters a value satisfies are the longest run of the oldest whose counts it covers. -/
theorem serveWaiters_eq : ∀ (ws : List MarkWaiter) (v : Nat), ∃ served kept, ws = served ++ kept ∧
    (served.map fun w => w.count).sum ≤ v ∧
    (∀ w rest, kept = w :: rest → v - (served.map fun w => w.count).sum < w.count) ∧
    serveWaiters v ws = (v - (served.map fun w => w.count).sum, kept, served.map fun w => w.channel)
  | [], v => ⟨[], [], rfl, Nat.zero_le _, by simp, rfl⟩
  | w :: rest, v => by
    unfold serveWaiters
    split
    · rename_i h
      obtain ⟨a, b, h1, h2, h3, h4⟩ := serveWaiters_eq rest (v - w.count)
      refine ⟨w :: a, b, by rw [h1]; rfl, by simp; omega, ?_, ?_⟩
      · intro x r e
        have := h3 x r e
        simp only [List.map_cons, List.sum_cons]
        omega
      · rw [h4]
        simp only [List.map_cons, List.sum_cons, Prod.mk.injEq, and_true]
        omega
    · rename_i h
      exact ⟨[], w :: rest, rfl, Nat.zero_le _, by rintro x r e; cases e; simp; omega, rfl⟩

theorem serveMark_eq {s : State} {m : MarkId} {left : Nat} {kept : List MarkWaiter} {chs : List ChannelId}
    (h : serveWaiters (s.mark m).value (s.mark m).waiters = (left, kept, chs)) :
    s.serveMark m = chs.foldl (fun t c => t.takeClaims c)
      (s.setMark m { s.mark m with value := left, waiters := kept }) := by
  unfold State.serveMark Mark.satisfied Mark.served
  rw [h]

theorem raised_eq (k : Nat) (x : Mark) : x.raised k =
    { x with value := min 255 (x.value + k), saturated := x.saturated || decide (255 < x.value + k) } := by
  unfold Mark.raised Config.maxMark
  split
  · rename_i h
    rw [Nat.min_eq_right h, show decide (255 < x.value + k) = false by simp; omega, Bool.or_false]
  · rename_i h
    rw [Nat.min_eq_left (by omega), show decide (255 < x.value + k) = true by simp; omega, Bool.or_true]

theorem addMark_eq (s : State) (m : MarkId) (k : Nat) : s.addMark m k =
    ((s.setMark m { s.mark m with
      value := min 255 ((s.mark m).value + k),
      saturated := (s.mark m).saturated || decide (255 < (s.mark m).value + k) }).setNotices
        (if 255 < (s.mark m).value + k ∧ (s.mark m).saturated = false then s.notices.post (.markSaturated m)
          else s.notices)).serveMark m := by
  unfold State.addMark State.raiseMark Mark.saturates Config.maxMark
  dsimp only
  rw [raised_eq]
  congr 1
  by_cases h : 255 < (s.mark m).value + k <;> cases hs : (s.mark m).saturated <;> simp [h] <;> rfl

theorem promotes_leaveMark (s : State) (m : MarkId) (c : ChannelId) :
    ∃ k : Mark, Promotes (s.setMark m k) (s.leaveMark m c) := by
  unfold State.leaveMark
  dsimp only
  split
  · exact ⟨_, Promotes.refl _⟩
  · split
    · have := promotes_serveMark m
        (s.setMark m { s.mark m with waiters := (s.mark m).waiters.filter fun w => w.channel ≠ c })
      rw [setMark_setMark] at this
      exact ⟨_, this⟩
    · exact ⟨_, Promotes.refl _⟩

/-- A wait ends: beside the marks, only what promotions change. -/
theorem promotes_leaveWait (s : State) (c : ChannelId) (why : WaitReason) :
    ∃ v : Vector Mark 16, Promotes { s with marks := v } (s.leaveWait c why) := by
  unfold State.leaveWait
  cases why with
  | claim => exact ⟨s.marks, (promotes_leaveClaimList .reader c s).trans (promotes_leaveClaimList .writer c _)⟩
  | mark =>
    dsimp only
    split
    · exact ⟨s.marks, Promotes.refl _⟩
    · split
      · exact ⟨s.marks, Promotes.refl _⟩
      · obtain ⟨k, P⟩ := promotes_leaveMark s _ c
        exact ⟨_, P⟩

/-! ## Admissions (R23, R85) -/

theorem regionWritable_iff (s : State) (who : Requester) (r : RegionId) :
    s.regionWritable who r = true ↔ s.MayWrite who r := by
  unfold State.regionWritable State.MayWrite RegionRecord.writable
  cases h : (s.region r).record with
  | none => simp
  | some d =>
    simp only [Option.some.injEq, exists_eq_left']
    cases hk : d.kind with
    | linear => simp
    | ring g =>
      simp only [RegionKind.ring.injEq, forall_eq']
      unfold Ring.canWrite Ring.space
      cases g.policy <;> simp [and_assoc]

theorem regionReadable_iff (s : State) (who : Requester) (r : RegionId) :
    s.regionReadable who r = true ↔ s.MayRead who r := by
  unfold State.regionReadable State.MayRead RegionRecord.readable
  cases h : (s.region r).record with
  | none => simp
  | some d =>
    simp only [Option.some.injEq, exists_eq_left']
    cases hk : d.kind with
    | linear => simp
    | ring g =>
      simp only [RegionKind.ring.injEq, forall_eq']
      unfold Ring.canRead
      simp

/-- An entry that joins the end of the list leaves the states of the others as they come out without it. -/
theorem settleList_append (banks : Vector Bank 8) : ∀ (seen : List BankId) (l : List BurstEntry) (e : BurstEntry),
    settleList banks seen (l ++ [e]) = settleList banks seen l ++
      [{ e with state := entryStateOf banks ((l.map BurstEntry.bank).reverse ++ seen) e }]
  | seen, [], e => by simp [settleList]
  | seen, x :: l, e => by
    simp only [List.cons_append, settleList]
    rw [settleList_append banks (x.bank :: seen) l e]
    simp

/-! ## Completions (R10, R15, R57, R92) -/

theorem readOutcome_data (w : List Byte) (m : BurstBits) :
    (wrongCount m ≤ 1 → (readOutcome w m).data? = some w) ∧ (wrongCount m = 2 → (readOutcome w m).data? = none) := by
  unfold readOutcome
  refine ⟨fun h => ?_, fun h => by simp [h, ReadOutcome.data?]⟩
  have : wrongCount m = 0 ∨ wrongCount m = 1 := by omega
  rcases this with e | e <;> simp [e, ReadOutcome.data?]

/-- The access leaves the list: one entry less of its owner. -/
theorem dropAccessing_count (l : List BurstEntry) (e : BurstEntry) (p : BurstEntry → Bool)
    (h : l.find? (fun x => x.state = .accessing) = some e) (hp : p e = true) :
    (dropAccessing l).countP p + 1 = l.countP p := by
  induction l with
  | nil => cases h
  | cons x l ih =>
    rw [List.find?_cons] at h
    unfold dropAccessing
    split at h
    · rename_i k
      cases h
      rw [if_pos (by simpa using k), List.countP_cons, if_pos hp]
    · rename_i k
      rw [if_neg (by simpa using k), List.countP_cons, List.countP_cons, ← ih h]
      omega

theorem highWater_iff (h : Ring) :
    h.highWater = true ↔ h.thresholdKiB ≠ 0 ∧ h.thresholdKiB * 1024 ≤ h.committedFill ∧ h.armed = true := by
  unfold Ring.highWater Ring.threshold
  simp only [Bool.and_eq_true, decide_eq_true_eq, and_assoc]

/-- A WRITE of a ring completes: what it commits, the notice where the fill has come to the threshold, and the bytes
reported. -/
theorem ringWriteDone_eq {s : State} {ref : RingRef} {x : RegionRecord} {g h : Ring}
    (hr : s.ring? ref.region = some (x, g)) (hh : h = g.commit ref.offset) (high : Prop)
    (hi : high ↔ g.committedFill < h.committedFill ∧ h.highWater = true) :
    (high → s.ringWriteDone ref = (s.setRing ref.region { h with armed := false }).setNotices
      (s.notices.post (.ringHighWater ref.region h.committedFill))) ∧
    (¬ high → s.ringWriteDone ref = s.setRing ref.region h) ∧
    s.committedBy (some ref) = h.committedFill - g.committedFill := by
  subst hh
  have hc : (g.commit ref.offset).committedFill = g.committedFill + 32 * g.committing ref.offset := rfl
  unfold State.ringWriteDone State.committedBy
  rw [hr]
  dsimp only
  rw [hr]
  dsimp only
  refine ⟨fun k => ?_, fun k => ?_, by rw [hc]; omega⟩
  · obtain ⟨k1, k2⟩ := hi.mp k
    rw [if_neg (by rw [hc] at k1; omega)]
    unfold State.ringRose Ring.disarm
    simp only [if_pos k2]
    rfl
  · split
    · rfl
    · rename_i hz
      have : ¬ (g.commit ref.offset).highWater = true := fun e => k (hi.mpr ⟨by rw [hc]; omega, e⟩)
      unfold State.ringRose Ring.disarm
      simp only [if_neg this]

theorem arrivedRun_append : ∀ (arrived kept : List PlayoutReservation), (∀ r ∈ arrived, r.data ≠ none) →
    (∀ r rest, kept = r :: rest → r.data = none) →
    arrivedRun (arrived ++ kept) = (arrived.flatMap (fun r => r.data.getD []), kept)
  | [], [], _, _ => rfl
  | [], r :: rest, _, h => by
    rw [List.nil_append]
    unfold arrivedRun
    simp [h r rest rfl]
  | r :: rest, kept, h1, h2 => by
    obtain ⟨d, hd⟩ := Option.ne_none_iff_exists'.mp (h1 r (List.mem_cons_self ..))
    simp only [List.cons_append, List.flatMap_cons]
    unfold arrivedRun
    rw [hd]
    dsimp only
    rw [arrivedRun_append rest kept (fun x hx => h1 x (List.mem_cons_of_mem _ hx)) h2]
    rfl

/-- Data arrives at a play-out port: the head reservations whose data has arrived go to the FIFO. -/
theorem delivered_eq (p : PlayoutPort) (pos : Nat) (bytes appended : List Byte) (arrived kept : List PlayoutReservation)
    (h : p.reservations.map (fun r => if r.pos = pos then { r with data := some bytes } else r) = arrived ++ kept)
    (h1 : ∀ r ∈ arrived, r.data ≠ none) (h2 : ∀ r rest, kept = r :: rest → r.data = none)
    (ha : appended = arrived.flatMap (fun r => r.data.getD [])) :
    p.delivered pos bytes = { p with
        fifo := p.fifo ++ appended, reservations := kept,
        armed := p.armed || decide (32 ≤ p.fifo.length + appended.length) } ∧
      p.appended pos bytes = appended.length := by
  unfold PlayoutPort.delivered PlayoutPort.appended arriveAt
  rw [h, arrivedRun_append _ _ h1 h2, ← ha]
  refine ⟨?_, rfl⟩
  unfold PlayoutPort.rearm
  simp only [List.length_append]
  split
  · rename_i k
    rw [decide_eq_true (by simpa [Config.burstBytes] using k), Bool.or_true]
  · rename_i k
    rw [decide_eq_false (by simpa [Config.burstBytes] using k), Bool.or_false]

/-! ## Responses (R169, R177) -/

theorem handOver_of_none {s : State} {tag : Byte} (h : s.link.working? tag = none) (st : Status) (data : List Byte) :
    s.handOver tag st data = s := by
  unfold State.handOver
  rw [h]

theorem handOver_answers {s : State} {tag : Byte} {x : OutEntry} (h : s.link.working? tag = some x)
    (ho : x.orphaned = false) (st : Status) (data : List Byte) : s.handOver tag st data = s.setLink { s.link with
      table := s.link.table.map fun y => if y.tag = x.tag then { y with stage := .answered } else y,
      readyList := s.link.readyList ++ [{ tag := x.tag, kind := x.kind, status := st, data := data }] } := by
  unfold State.handOver
  rw [h]
  dsimp only
  rw [ho]
  rfl

theorem handOver_orphan {s : State} {tag : Byte} {x : OutEntry} (h : s.link.working? tag = some x)
    (ho : x.orphaned = true) (st : Status) (data : List Byte) : s.handOver tag st data = s.entryLeaves tag := by
  unfold State.handOver
  rw [h]
  exact if_pos ho

theorem handOver_lau (s : State) (tag : Byte) (st : Status) (data : List Byte) :
    (s.handOver tag st data).lau = s.lau := by
  unfold State.handOver
  split
  · rfl
  · split
    · unfold State.entryLeaves
      dsimp only
      split <;> rfl
    · rfl

/-- With no request in service the report is that of every requester's readiness. -/
theorem report_of_idle {s : State} (h : s.lau.service = none) : s.report = s.reportAll := by
  unfold State.report State.lauShorten
  rw [h]

end Sys2Proof.Laws
end

