-- ==== Sys2Proof/Laws/Accounts.lean ====
section
/-! SUPPORT. The channels' descriptors and the regions' reference counts together (R7, R76), and a play-out port's room
(R133, R134): what each shared operation leaves of these laws. -/
namespace Sys2Proof.Laws

open Sys2Proof.Machine

/-! ## How often the channels name a region (R7) -/

theorem sum_map_update {α : Type} (f g : α → Nat) (c : α) (h : ∀ b, b ≠ c → g b = f b) :
    ∀ l : List α, l.Nodup → c ∈ l → (l.map g).sum + f c = (l.map f).sum + g c
  | [], _, hc => absurd hc List.not_mem_nil
  | x :: l, hn, hc => by
    obtain ⟨h1, h2⟩ := List.nodup_cons.mp hn
    simp only [List.map_cons, List.sum_cons]
    rcases List.mem_cons.mp hc with e | e
    · subst e
      have : l.map g = l.map f := List.map_congr_left fun b hb => h b fun e => h1 (e ▸ hb)
      rw [this]
      omega
    · have := sum_map_update f g c h l h2 e
      have : g x = f x := h x fun e' => h1 (e' ▸ e)
      omega

/-- How many descriptors of all channels name a region. -/
def namedBy (r : RegionId) (s : State) : Nat := ((List.finRange 6).map fun c => (s.channel c).references r).sum

/-- Writing one channel changes the count of a region by what that channel names of it. -/
theorem named_setChannel (c : ChannelId) (x : Channel) (s : State) (r : RegionId) :
    namedBy r (s.setChannel c x) + (s.channel c).references r = namedBy r s + x.references r := by
  have := sum_map_update (fun b => (s.channel b).references r) (fun b => ((s.setChannel c x).channel b).references r) c
    (fun b hb => by simp only [channel_setChannel_ne _ _ hb]) _ (List.nodup_finRange 6) (List.mem_finRange c)
  simp only [channel_setChannel_self] at this
  exact this

theorem references_le (c : ChannelId) (s : State) (r : RegionId) : (s.channel c).references r ≤ namedBy r s := by
  have := named_setChannel c { s.channel c with current := none, pending := [] } s r
  have h0 : ({ s.channel c with current := none, pending := [] } : Channel).references r = 0 := rfl
  omega

/-! ## The law of channels and reference counts (R76, R7) -/

/-- R76 and R7, with one channel that may stand IDLE with descriptors (it is about to go on). -/
structure Counted (free : Option ChannelId) (s : State) : Prop where
  places : ∀ c, (s.channel c).pending.length ≤ 4
  idle : ∀ c, free ≠ some c → (s.channel c).state = .idle → (s.channel c).current = none ∧ (s.channel c).pending = []
  counts : ∀ r, (s.region r).refCount = namedBy r s
  free_slot : ∀ r, (s.region r).record = none → (s.region r).refCount = 0

theorem counted_iff (s : State) : Counted none s ↔ s.ChannelLaw ∧ s.ReferenceLaw := by
  constructor
  · intro h
    exact ⟨fun c => ⟨h.places c, h.idle c nofun⟩, fun r => ⟨h.counts r, h.free_slot r⟩⟩
  · rintro ⟨h1, h2⟩
    exact ⟨fun c => (h1 c).1, fun c _ => (h1 c).2, fun r => (h2 r).1, fun r => (h2 r).2⟩

theorem Counted.any {free : Option ChannelId} {s : State} (h : Counted none s) : Counted free s :=
  ⟨h.places, fun c _ => h.idle c nofun, h.counts, h.free_slot⟩

theorem Counted.settled {c : ChannelId} {s : State} (h : Counted (some c) s)
    (hc : (s.channel c).state = .idle → (s.channel c).current = none ∧ (s.channel c).pending = []) : Counted none s :=
  ⟨h.places, fun b _ hb => by
    by_cases e : b = c
    · subst e; exact hc hb
    · exact h.idle b (fun k => e (Option.some.inj k).symm) hb, h.counts, h.free_slot⟩

theorem Counted.of_promotes {free : Option ChannelId} {s t : State} (h : Counted free s) (p : Promotes s t) :
    Counted free t := by
  have hp : ∀ c, (t.channel c).pending = (s.channel c).pending := fun c => (congrArg Channel.pending (p.channels c) :)
  have hc : ∀ c, (t.channel c).current = (s.channel c).current := fun c => (congrArg Channel.current (p.channels c) :)
  have hr : ∀ c r, (t.channel c).references r = (s.channel c).references r := fun c r => by
    unfold Channel.references; rw [hc, hp]
  have hn : ∀ r, (t.region r).refCount = (s.region r).refCount := fun r => (congrArg Region.refCount (p.regions r) :)
  refine ⟨fun c => by rw [hp]; exact h.places c, fun c k e => ?_, fun r => ?_, fun r e => ?_⟩
  · rw [hc, hp]; exact h.idle c k (p.live c e)
  · rw [hn, h.counts]; unfold namedBy; simp only [hr]
  · rw [hn]
    refine h.free_slot r ?_
    have := congrArg Region.record (p.regions r)
    unfold bareRegion at this
    rw [e] at this
    simpa using this.symm

/-- A channel is written that has as many descriptors as before for every region. -/
theorem Counted.setChannel {free : Option ChannelId} {s : State} (h : Counted free s) {c : ChannelId} {x : Channel}
    (h1 : ∀ r, x.references r = (s.channel c).references r) (h2 : x.pending.length ≤ 4)
    (h3 : free ≠ some c → x.state = .idle → x.current = none ∧ x.pending = []) : Counted free (s.setChannel c x) := by
  refine ⟨fun b => ?_, fun b k => ?_, fun r => ?_, h.free_slot⟩
  · rw [channel_setChannel]; split
    · exact h2
    · exact h.places b
  · rw [channel_setChannel]; split
    · rename_i e; subst e; exact h3 k
    · exact h.idle b k
  · have := named_setChannel c x s r
    have := h1 r
    show (s.region r).refCount = _
    rw [h.counts]
    omega

/-- Claims and marks make channels go on; no descriptor comes or goes. -/
theorem countedClaims (free : Option ChannelId) : ClaimMoves (Counted free) where
  ring := fun _ _ _ _ _ hr hu h => h.of_promotes (promotes_setRing hr hu)
  goes := fun c _ s hs h => h.of_promotes (promotes_state s c hs)
  arb := fun _ _ h => ⟨h.places, h.idle, h.counts, h.free_slot⟩
  post := fun _ _ h => ⟨h.places, h.idle, h.counts, h.free_slot⟩
  raise := fun _ _ _ h => ⟨h.places, h.idle, h.counts, h.free_slot⟩
  served := fun _ _ h => ⟨h.places, h.idle, h.counts, h.free_slot⟩
  waiters := fun _ _ _ h => ⟨h.places, h.idle, h.counts, h.free_slot⟩

theorem countedService (free : Option ChannelId) : ServiceMoves (Counted free) where
  toClaimMoves := countedClaims free
  lau := fun _ _ h => ⟨h.places, h.idle, h.counts, h.free_slot⟩
  link := fun _ _ _ h => ⟨h.places, h.idle, h.counts, h.free_slot⟩
  openQueue := fun _ h => ⟨h.places, h.idle, h.counts, h.free_slot⟩

/-! ## Retirement, discards, promotion, the end of a run -/

theorem references_current (x : Channel) (cur : Current) (r : RegionId) (h : x.current = some cur) :
    x.references r = (if cur.desc.namesRegion r then 1 else 0) + x.pending.countP fun d => d.namesRegion r := by
  unfold Channel.references
  rw [h]

/-- A retirement takes the current descriptor and its counts together (R98). -/
theorem counted_retire {free : Option ChannelId} (c : ChannelId) (st : DoneStatus) {s : State} (h : Counted free s) :
    Counted free (s.retire c st) := by
  cases hc : (s.channel c).current with
  | none => unfold State.retire; rw [hc]; exact h
  | some cur =>
    obtain ⟨u, v, hu, hv, he⟩ := retire_eq (s := s) (c := c) st hc
    have hp : Promotes s u := hu ▸ (promotes_releaseHeld .reader c s).trans (promotes_releaseHeld .writer c _)
    have k := h.of_promotes hp
    have huc : (u.channel c).current = some cur := ((congrArg Channel.current (hp.channels c) :)).trans hc
    have hn : ∀ r, (s.region r).refCount = (u.region r).refCount :=
      fun r => (congrArg Region.refCount (hp.regions r) :).symm
    rw [he]
    have hreg : ∀ (w : State) r, w.regions = v →
        (w.region r).refCount = namedBy r u - if cur.desc.namesRegion r then 1 else 0 := by
      intro w r hw
      unfold State.region
      rw [hw, hv r]
      show (s.region r).refCount - _ = _
      rw [hn, k.counts]
    refine ⟨fun b => ?_, fun b kb => ?_, fun r => ?_, fun r e => ?_⟩
    · rw [channel_setChannel]; split
      · exact k.places c
      · exact k.places b
    · rw [channel_setChannel]; split
      · rename_i e; subst e
        exact fun hs => ⟨rfl, (k.idle b kb hs).2⟩
      · exact k.idle b kb
    · rw [hreg _ _ rfl]
      have h1 := named_setChannel c { u.channel c with current := none, slotA := .empty, slotB := .empty } u r
      rw [references_current _ cur r huc] at h1
      have h2 : ({ u.channel c with current := none, slotA := .empty, slotB := .empty } : Channel).references r =
        (u.channel c).pending.countP fun d => d.namesRegion r := Nat.zero_add _
      rw [h2] at h1
      show _ = namedBy r (u.setChannel c _)
      omega
    · rw [hreg _ _ rfl]
      have : (getAt v r).record = none := e
      rw [hv r] at this
      have := k.free_slot r this
      rw [k.counts] at this
      omega

/-- A discard takes the waiting descriptors and their counts together (R109). -/
theorem counted_discards {free : Option ChannelId} (c : ChannelId) {s : State} (h : Counted free s) :
    Counted free (s.discardPending c) := by
  obtain ⟨v, hv, he⟩ := discardPending_eq s c
  rw [he]
  have hreg : ∀ (w : State) r, w.regions = v → (w.region r).refCount =
      namedBy r s - (s.channel c).pending.countP fun d => d.namesRegion r := by
    intro w r hw
    unfold State.region
    rw [hw, hv r]
    show (s.region r).refCount - _ = _
    rw [h.counts]
  refine ⟨fun b => ?_, fun b kb => ?_, fun r => ?_, fun r e => ?_⟩
  · rw [channel_setChannel]; split
    · exact Nat.zero_le _
    · exact h.places b
  · rw [channel_setChannel]; split
    · rename_i e; subst e
      exact fun hs => ⟨(h.idle b kb hs).1, rfl⟩
    · exact h.idle b kb
  · rw [hreg _ _ rfl]
    have h1 := named_setChannel c { s.channel c with pending := [] } s r
    have h2 : ({ s.channel c with pending := [] } : Channel).references r +
        (s.channel c).pending.countP (fun d => d.namesRegion r) = (s.channel c).references r := rfl
    show _ = namedBy r (s.setChannel c _)
    omega
  · rw [hreg _ _ rfl]
    have : (getAt v r).record = none := e
    rw [hv r] at this
    have := h.free_slot r this
    rw [h.counts] at this
    omega

/-- A channel whose claims are taken is IDLE no longer. -/
theorem takeClaim_not_idle (role : Role) (c : ChannelId) {next : State → State}
    (hn : ∀ t, ((next t).channel c).state ≠ .idle) (s : State) : ((s.takeClaim role c next).channel c).state ≠ .idle := by
  unfold State.takeClaim
  split
  · exact hn _
  · split
    · exact hn _
    · split
      · exact hn _
      · rw [channel_modChannel_self]; nofun

theorem takeClaims_not_idle (c : ChannelId) (s : State) : ((s.takeClaims c).channel c).state ≠ .idle :=
  takeClaim_not_idle .reader c (fun t => takeClaim_not_idle .writer c (fun u => by
    unfold State.enterRunning; rw [channel_modChannel_self]; nofun) t) s

/-- A promotion makes the oldest waiting descriptor the current one (5.3). -/
theorem counted_promote (c : ChannelId) {s : State} (h : Counted (some c) s) (hc : (s.channel c).current = none) :
    Counted none (s.promote c) := by
  cases hp : (s.channel c).pending with
  | nil => rw [promote_nil hp]; exact h.settled fun _ => ⟨hc, hp⟩
  | cons d rest =>
    rw [promote_cons hp]
    have href : ∀ r, (Channel.promoted d rest (s.channel c)).references r = (s.channel c).references r := fun r => by
      unfold Channel.references Channel.promoted
      rw [hc, hp, List.countP_cons]
      dsimp only
      omega
    have h1 : Counted (some c) (s.modChannel c (Channel.promoted d rest)) := by
      refine h.setChannel href ?_ fun k => absurd rfl k
      have := h.places c
      rw [hp] at this
      simp only [List.length_cons] at this
      show rest.length ≤ 4
      omega
    split
    · exact (takeClaims_keeps (countedClaims _) c h1).settled fun e => absurd e (takeClaims_not_idle c _)
    · refine joinMark_keeps (countedClaims _) _ _ _ ?_
      refine Counted.settled (c := c) ((countedClaims (some c)).goes c (.waiting .mark) _ nofun h1) ?_
      rw [channel_modChannel_self]; nofun

/-- A channel that has retired its descriptor moves on. -/
theorem counted_moveOn (c : ChannelId) {s : State} (h : Counted (some c) s) (hc : (s.channel c).current = none) :
    Counted none (s.moveOn c) := by
  have keep : ∀ x : Channel, x.current = (s.channel c).current → x.pending = (s.channel c).pending →
      Counted (some c) (s.setChannel c x) := fun x h1 h2 => by
    refine h.setChannel (fun r => ?_) ?_ fun k => absurd rfl k
    · unfold Channel.references; rw [h1, h2]
    · rw [h2]; exact h.places c
  have live : ∀ x : Channel, x.current = (s.channel c).current → x.pending = (s.channel c).pending → x.state ≠ .idle →
      Counted none (s.setChannel c x) := fun x h1 h2 h3 => (keep x h1 h2).settled fun e => by
    rw [channel_setChannel_self] at e; exact absurd e h3
  unfold State.moveOn
  split
  · exact live _ rfl rfl nofun
  · exact live _ rfl rfl nofun
  · exact counted_promote c (keep _ rfl rfl) (by rw [channel_modChannel_self]; exact hc)
  · exact counted_promote c (keep _ rfl rfl) (by rw [channel_modChannel_self]; exact hc)

theorem retire_current (c : ChannelId) (st : DoneStatus) (s : State) : ((s.retire c st).channel c).current = none := by
  cases hc : (s.channel c).current with
  | none => unfold State.retire; rw [hc]; exact hc
  | some cur =>
    obtain ⟨u, v, hu, hv, he⟩ := retire_eq (s := s) (c := c) st hc
    rw [he, channel_setChannel_self]

/-- A channel changes, but for its descriptors; it does not become IDLE with them. -/
theorem Counted.modChannel {s : State} (h : Counted none s) (c : ChannelId) {f : Channel → Channel}
    (h1 : ∀ r x, (f x).references r = x.references r) (h2 : ∀ x, (f x).pending = x.pending)
    (h3 : ((f (s.channel c)).state = .idle → (f (s.channel c)).current = none ∧ (f (s.channel c)).pending = [])) :
    Counted none (s.modChannel c f) :=
  h.setChannel (fun r => h1 r _) (by rw [h2]; exact h.places c) fun _ => h3

theorem references_modProg (f : Progress → Progress) (r : RegionId) (x : Channel) :
    ({ x with current := x.current.map (Current.modProg f) } : Channel).references r = x.references r := by
  unfold Channel.references Current.modProg
  cases x.current <;> rfl

/-- A descriptor's progress is no part of the laws. -/
theorem counted_modProg (c : ChannelId) (f : Progress → Progress) {s : State} (h : Counted none s) :
    Counted none (s.modProg c f) :=
  h.modChannel c (fun r x => references_modProg f r x) (fun _ => rfl) fun e => by
    obtain ⟨h1, h2⟩ := h.idle c nofun e
    exact ⟨by dsimp only; rw [h1]; rfl, h2⟩

theorem counted_endRun (c : ChannelId) (d : Descriptor) {s : State} (h : Counted none s) : Counted none (s.endRun c d) := by
  unfold State.endRun
  refine counted_modProg _ _ ?_
  split
  · exact addMark_keeps (countedClaims none) _ _ h
  · exact h

theorem counted_retireOn (c : ChannelId) (st : DoneStatus) {s : State} (h : Counted none s) :
    Counted none ((s.retire c st).moveOn c) :=
  counted_moveOn c (counted_retire c st h).any (retire_current c st s)

/-- What a completion goes on to: the next run, a retirement, a stop (R93 to R98, R105). -/
theorem counted_afterCompletion (c : ChannelId) {s : State} (h : Counted none s) : Counted none (s.afterCompletion c) := by
  unfold State.afterCompletion
  split
  · exact h
  · split
    · split
      · unfold State.completeRun
        dsimp only
        split
        · exact counted_modProg _ _ (counted_endRun _ _ h)
        · exact counted_retireOn _ _ (counted_endRun _ _ h)
      · exact h
    · split
      · unfold State.retireStopped
        dsimp only
        refine counted_retireOn _ _ ?_
        split
        · exact counted_endRun _ _ h
        · exact h
      · exact h
    · split
      · exact counted_retire _ _ h
      · exact h
    · exact h
    · exact h

theorem counted_channelFault (c : ChannelId) (cur : Current) {s : State} (h : Counted none s) :
    Counted none (s.channelFault c cur) := by
  refine counted_afterCompletion _ ?_
  have h1 : Counted none (s.modChannel c Channel.faulted) :=
    h.modChannel c (fun r x => references_modProg _ r x) (fun _ => rfl) nofun
  unfold State.releaseReservations
  split
  · exact ⟨h1.places, h1.idle, h1.counts, h1.free_slot⟩
  · exact h1

/-! ## Regions, and where nothing is named -/

theorem Counted.setRegion {s : State} (h : Counted none s) {r : RegionId} {x : Region}
    (h1 : x.refCount = (s.region r).refCount) (h2 : x.record = none → x.refCount = 0) : Counted none (s.setRegion r x) := by
  refine ⟨h.places, h.idle, fun q => ?_, fun q e => ?_⟩
  · show ((s.setRegion r x).region q).refCount = namedBy q s
    rw [region_setRegion]
    split
    · rename_i e; subst e; rw [h1, h.counts]
    · exact h.counts q
  · rw [region_setRegion] at e ⊢
    split
    · rename_i k; rw [if_pos k] at e; exact h2 e
    · rename_i k; rw [if_neg k] at e; exact h.free_slot q e

theorem counted_setRing {s : State} (h : Counted none s) (r : RegionId) (g : Ring) : Counted none (s.setRing r g) := by
  unfold State.setRing
  refine h.setRegion ?_ ?_
  · unfold Region.setRing; split <;> rfl
  · unfold Region.setRing
    split
    · nofun
    · exact fun e => h.free_slot r e

/-- Neither law reads anything but regions and channels. -/
theorem counted_same {s t : State} (hr : ∀ r, t.region r = s.region r) (hc : ∀ c, t.channel c = s.channel c)
    (h : Counted none s) : Counted none t := by
  refine ⟨fun c => ?_, fun c _ => ?_, fun r => ?_, fun r => ?_⟩
  · rw [hc]; exact h.places c
  · rw [hc]; exact h.idle c nofun
  · rw [hr, h.counts]; unfold namedBy; simp only [hc]
  · rw [hr]; exact h.free_slot r

/-- No channel holds a descriptor, no region is counted: after a reset. -/
theorem counted_zero {s : State} (hc : ∀ c, s.channel c = Channel.reset) (hr : ∀ r, (s.region r).refCount = 0) :
    Counted none s := by
  refine ⟨fun c => ?_, fun c _ _ => ?_, fun r => ?_, fun r _ => hr r⟩
  · rw [hc]; decide
  · rw [hc]; exact ⟨rfl, rfl⟩
  · rw [hr]; unfold namedBy; simp only [hc]; rfl

/-! ## A play-out port's room (R133, R134) -/

/-- What the law of play-out ports says of one. -/
def PortKept (p : PlayoutPort) : Prop :=
  p.fifo.length + 32 * p.reservations.length ≤ 256 ∧ p.fifo.length % 2 = 0 ∧
    ∀ r ∈ p.reservations, ∀ d, r.data = some d → d.length = 32

theorem playout_setPlayout_kept {s : State} {k : PlayoutId} {x : PlayoutPort} (h : s.PlayoutLaw) (hx : PortKept x) :
    (s.setPlayout k x).PlayoutLaw := fun q => by
  show PortKept ((s.setPlayout k x).playout q)
  rw [playout_setPlayout]
  split
  · exact hx
  · exact h q

/-- The arrived bytes and the places kept are those reserved. -/
theorem arrivedRun_kept : ∀ l : List PlayoutReservation, (∀ r ∈ l, ∀ d, r.data = some d → d.length = 32) →
    (arrivedRun l).1.length + 32 * (arrivedRun l).2.length = 32 * l.length ∧
      (∀ r ∈ (arrivedRun l).2, r ∈ l)
  | [], _ => ⟨rfl, fun _ h => h⟩
  | r :: l, h => by
    unfold arrivedRun
    split
    · simp
    · rename_i d hd
      obtain ⟨h1, h2⟩ := arrivedRun_kept l fun x hx => h x (List.mem_cons_of_mem _ hx)
      have := h r (List.mem_cons_self ..) d hd
      refine ⟨?_, fun x hx => List.mem_cons_of_mem _ (h2 x hx)⟩
      simp only [List.length_append, List.length_cons]
      omega

/-- A delivery turns reserved places into bytes of the FIFO (R92, R135). -/
theorem portKept_delivered {p : PlayoutPort} (h : PortKept p) (pos : Nat) {data : List Byte}
    (hd : data.length = 32) : PortKept (p.delivered pos data) := by
  obtain ⟨h1, h2, h3⟩ := h
  have hl : (arriveAt pos data p.reservations).length = p.reservations.length := by unfold arriveAt; simp
  have ha : ∀ r ∈ arriveAt pos data p.reservations, ∀ d, r.data = some d → d.length = 32 := by
    intro r hr d he
    unfold arriveAt at hr
    obtain ⟨x, hx, rfl⟩ := List.mem_map.mp hr
    split at he
    · cases he; exact hd
    · exact h3 x hx d he
  obtain ⟨k1, k2⟩ := arrivedRun_kept _ ha
  have : PortKept { p with
      fifo := p.fifo ++ (arrivedRun (arriveAt pos data p.reservations)).1,
      reservations := (arrivedRun (arriveAt pos data p.reservations)).2 } := by
    refine ⟨?_, ?_, fun r hr => ha r (k2 r hr)⟩
    · simp only [List.length_append]; omega
    · simp only [List.length_append]; omega
  unfold PlayoutPort.delivered PlayoutPort.rearm
  split <;> exact this

/-- A pull takes a sample or none (R137). -/
theorem portKept_pulled {p : PlayoutPort} (h : PortKept p) : PortKept p.pulled := by
  obtain ⟨h1, h2, h3⟩ := h
  unfold PlayoutPort.pulled
  split
  · exact ⟨h1, h2, h3⟩
  · split
    · rename_i e
      rw [e] at h1 h2
      simp only [List.length_cons] at h1 h2
      exact ⟨by dsimp only; omega, by dsimp only; omega, h3⟩
    · exact ⟨h1, h2, h3⟩

/-- What an access yields is a burst of 32 bytes. -/
theorem burst_length {s : State} {a : Nat} {flips : BurstBits} {data : List Byte}
    (h : (s.outcomeAt a flips).data? = some data) : data.length = 32 := by
  have hl : (readBytes s.mem a Config.burstBytes).length = 32 := by simp [readBytes, Config.burstBytes]
  have hf : ∀ (m : BurstBits) (l : List Byte) k, (flipBytes m k l).length = l.length := by
    intro m l
    induction l with
    | nil => intro k; rfl
    | cons x l ih => intro k; unfold flipBytes; simp [ih]
  unfold State.outcomeAt readOutcome at h
  split at h
  · cases h; exact hl
  · split at h
    · cases h; exact hl
    · split at h
      · cases h
      · unfold wideOutcome at h
        split at h <;> cases h
        · rw [hf, hl]
        · rw [hf, hl]

/-- A port with room for a burst takes one more reservation (R134). -/
theorem portKept_reserved {p : PlayoutPort} (h : PortKept p) (hr : 32 ≤ p.room) {x : PlayoutReservation}
    (hx : x.data = none) : PortKept { p with reservations := p.reservations ++ [x] } := by
  obtain ⟨h1, h2, h3⟩ := h
  unfold PlayoutPort.room Config.fifoBytes at hr
  refine ⟨?_, h2, fun r hm d hd => ?_⟩
  · simp only [List.length_append, List.length_singleton]
    omega
  · rcases List.mem_append.mp hm with q | q
    · exact h3 r q d hd
    · rw [List.mem_singleton.mp q, hx] at hd
      cases hd

end Sys2Proof.Laws
end

