-- ==== Sys2Proof/Laws/Beside.lean ====
section
/-! SUPPORT. What the operations of Work.lean do not look at: a change beside the records they read and write commutes
with each of them. -/
namespace Sys2Proof.Laws

open Sys2Proof.Machine

/-- `K` changes nothing that the operations of Work.lean read or write. -/
structure Beside (K : State → State) : Prop where
  region : ∀ r s, (K s).region r = s.region r
  channel : ∀ c s, (K s).channel c = s.channel c
  mark : ∀ m s, (K s).mark m = s.mark m
  playout : ∀ k s, (K s).playout k = s.playout k
  arb : ∀ s, (K s).arb = s.arb
  notices : ∀ s, (K s).notices = s.notices
  list : ∀ s, (K s).sched.list = s.sched.list
  setRegion : ∀ r x s, (K s).setRegion r x = K (s.setRegion r x)
  setChannel : ∀ c x s, (K s).setChannel c x = K (s.setChannel c x)
  setMark : ∀ m x s, (K s).setMark m x = K (s.setMark m x)
  setPlayout : ∀ k x s, (K s).setPlayout k x = K (s.setPlayout k x)
  setArb : ∀ a s, (K s).setArb a = K (s.setArb a)
  setNotices : ∀ q s, (K s).setNotices q = K (s.setNotices q)

/-- The link is beside them. -/
theorem beside_setLink (l : Link) : Beside (State.setLink l) := by
  constructor <;> (intros; rfl)

variable {K : State → State}

namespace Beside

variable (B : Beside K)
include B

theorem ring? (r : RegionId) (s : State) : (K s).ring? r = s.ring? r := by
  unfold State.ring?
  rw [B.region]

theorem setRing (r : RegionId) (g : Ring) (s : State) : (K s).setRing r g = K (s.setRing r g) := by
  unfold State.setRing
  rw [B.region, B.setRegion]

theorem modChannel (c : ChannelId) (f : Channel → Channel) (s : State) : (K s).modChannel c f = K (s.modChannel c f) := by
  unfold State.modChannel
  rw [B.channel, B.setChannel]

theorem post (b : NoticeBody) (s : State) : (K s).post b = K (s.post b) := by
  unfold State.post
  rw [B.notices, B.setNotices]

theorem roleRing (role : Role) (c : ChannelId) (s : State) : (K s).roleRing role c = s.roleRing role c := by
  unfold State.roleRing
  simp only [B.channel, B.ring?]

theorem entriesOf (r : Requester) (s : State) : (K s).entriesOf r = s.entriesOf r := by
  unfold State.entriesOf
  rw [B.list]

theorem takeClaim (role : Role) (c : ChannelId) {next : State → State} (hn : ∀ t, next (K t) = K (next t)) (s : State) :
    (K s).takeClaim role c next = K (s.takeClaim role c next) := by
  unfold State.takeClaim
  rw [B.roleRing]
  cases s.roleRing role c with
  | none => exact hn s
  | some x =>
    dsimp only
    split
    · exact hn s
    · split
      · rw [B.setRing, hn]
      · rw [B.setRing, B.modChannel]

theorem takeClaims (c : ChannelId) (s : State) : (K s).takeClaims c = K (s.takeClaims c) :=
  B.takeClaim .reader c (fun t => B.takeClaim .writer c (fun u => B.modChannel c _ u) t) s

theorem foldClaims : ∀ (cs : List ChannelId) (s : State),
    cs.foldl (fun t c => t.takeClaims c) (K s) = K (cs.foldl (fun t c => t.takeClaims c) s)
  | [], _ => rfl
  | c :: cs, s => by rw [List.foldl_cons, B.takeClaims, foldClaims cs]; rfl

theorem serveMark (m : MarkId) (s : State) : (K s).serveMark m = K (s.serveMark m) := by
  unfold State.serveMark
  rw [B.mark, B.setMark, B.foldClaims]

theorem addMark (m : MarkId) (k : Nat) (s : State) : (K s).addMark m k = K (s.addMark m k) := by
  unfold State.addMark State.raiseMark
  dsimp only
  rw [B.mark, B.setMark, ← B.serveMark]
  split
  · rw [B.post]
  · rfl

theorem leaveMark (m : MarkId) (c : ChannelId) (s : State) : (K s).leaveMark m c = K (s.leaveMark m c) := by
  unfold State.leaveMark
  dsimp only
  rw [B.mark, B.setMark]
  split
  · rfl
  · split
    · rw [B.serveMark]
    · rfl

theorem promote (c : ChannelId) (s : State) : (K s).promote c = K (s.promote c) := by
  unfold State.promote
  rw [B.channel]
  cases (s.channel c).pending with
  | nil => rfl
  | cons d rest =>
    dsimp only
    cases d.wait with
    | none => dsimp only; rw [B.modChannel, B.takeClaims]
    | some w =>
      dsimp only
      unfold State.joinMark
      rw [B.modChannel, B.modChannel, B.mark, B.setMark, B.serveMark]

theorem releaseClaim (role : Role) (r : RegionId) (s : State) : (K s).releaseClaim role r = K (s.releaseClaim role r) := by
  unfold State.releaseClaim
  rw [B.ring?]
  cases s.ring? r with
  | none => rfl
  | some x =>
    dsimp only
    rw [B.setRing]
    split
    · rfl
    · rw [B.takeClaims]

theorem releaseHeld (role : Role) (c : ChannelId) (s : State) : (K s).releaseHeld role c = K (s.releaseHeld role c) := by
  unfold State.releaseHeld
  rw [B.roleRing]
  cases s.roleRing role c with
  | none => rfl
  | some x =>
    dsimp only
    split
    · rw [B.releaseClaim]
    · rfl

theorem leaveClaimList (role : Role) (c : ChannelId) (s : State) :
    (K s).leaveClaimList role c = K (s.leaveClaimList role c) := by
  unfold State.leaveClaimList
  rw [B.roleRing]
  cases s.roleRing role c with
  | none => rfl
  | some x => dsimp only; rw [B.setRing]

theorem foldRegions (f : Region → Region) : ∀ (rs : List RegionId) (s : State),
    rs.foldl (fun t r => t.setRegion r (f (t.region r))) (K s) = K (rs.foldl (fun t r => t.setRegion r (f (t.region r))) s)
  | [], _ => rfl
  | r :: rs, s => by
    rw [List.foldl_cons, B.region, B.setRegion, foldRegions f rs]
    rfl

theorem addRefs (d : Descriptor) (s : State) : (K s).addRefs d = K (s.addRefs d) :=
  B.foldRegions (fun x => { x with refCount := x.refCount + 1 }) d.regions s

theorem dropRefs (d : Descriptor) (s : State) : (K s).dropRefs d = K (s.dropRefs d) :=
  B.foldRegions (fun x => { x with refCount := x.refCount - 1 }) d.regions s

theorem retire (c : ChannelId) (st : DoneStatus) (s : State) : (K s).retire c st = K (s.retire c st) := by
  unfold State.retire
  rw [B.channel]
  cases (s.channel c).current with
  | none => rfl
  | some cur =>
    dsimp only
    rw [B.releaseHeld, B.releaseHeld, B.dropRefs, B.arb, B.setArb, ← B.modChannel]
    split
    · rw [B.post]
    · rfl

theorem moveOn (c : ChannelId) (s : State) : (K s).moveOn c = K (s.moveOn c) := by
  unfold State.moveOn
  rw [B.channel]
  cases (s.channel c).stop
  · dsimp only; rw [B.modChannel, B.promote]
  · dsimp only; rw [B.modChannel]
  · dsimp only; rw [B.modChannel]
  · dsimp only; rw [B.modChannel, B.promote]

theorem endRun (c : ChannelId) (d : Descriptor) (s : State) : (K s).endRun c d = K (s.endRun c d) := by
  unfold State.endRun State.modProg
  cases d.post with
  | none => exact B.modChannel _ _ _
  | some m => dsimp only; rw [B.addMark, B.modChannel]

theorem completeRun (c : ChannelId) (cur : Current) (s : State) : (K s).completeRun c cur = K (s.completeRun c cur) := by
  unfold State.completeRun
  dsimp only
  rw [B.endRun, B.channel]
  split
  · exact B.modChannel _ _ _
  · rw [B.retire, B.moveOn]

theorem retireStopped (c : ChannelId) (cur : Current) (s : State) :
    (K s).retireStopped c cur = K (s.retireStopped c cur) := by
  unfold State.retireStopped
  dsimp only
  split
  · rw [B.endRun, B.retire, B.moveOn]
  · rw [B.retire, B.moveOn]

theorem afterCompletion (c : ChannelId) (s : State) : (K s).afterCompletion c = K (s.afterCompletion c) := by
  unfold State.afterCompletion
  rw [B.channel, B.entriesOf]
  split
  · rfl
  · split
    · split
      · rw [B.completeRun]
      · rfl
    · split
      · rw [B.retireStopped]
      · rfl
    · split
      · rw [B.retire]
      · rfl
    · rfl
    · rfl

theorem discards (c : ChannelId) : ∀ (ds : List Descriptor) (s : State),
    ds.foldl (State.discardOne c) (K s) = K (ds.foldl (State.discardOne c) s)
  | [], _ => rfl
  | d :: ds, s => by
    rw [List.foldl_cons, show State.discardOne c (K s) d = K (State.discardOne c s d) by
      unfold State.discardOne; rw [B.dropRefs, B.post], discards c ds]
    rfl

theorem discardPending (c : ChannelId) (s : State) : (K s).discardPending c = K (s.discardPending c) := by
  unfold State.discardPending
  rw [B.channel, B.discards, B.modChannel]

end Beside

end Sys2Proof.Laws
end

