-- ==== Sys2Proof/Laws/Memory.lean ====
section
/-! SUPPORT. The sparse tables and the die: what a store leaves at every address, and that the canonical form is kept. -/
namespace Sys2Proof.Laws

open Sys2Proof.Machine

variable {α : Type} [DecidableEq α] (d : α)

theorem lookup_cell (a b : Nat) (x : α) (l : List (Nat × α)) :
    lookup d (cell d a x ++ l) b = if a = b then (if x = d then lookup d l b else x) else lookup d l b := by
  unfold cell
  by_cases hx : x = d
  · simp [hx]
  · simp [hx, lookup]

/-- A store leaves every other key as it was. -/
theorem lookup_store_ne {a b : Nat} (x : α) (h : a ≠ b) : ∀ l, lookup d (store d l a x) b = lookup d l b
  | [] => by simpa [store, h] using lookup_cell d a b x []
  | (k, v) :: rest => by
    unfold store
    split
    · simp [lookup_cell, h]
    · split
      · rename_i hk
        simp only [lookup_cell, h, if_false]
        rw [lookup, if_neg (by omega)]
      · simp only [lookup]
        rw [lookup_store_ne x h rest]

/-- In canonical form a key below all listed ones reads the default. -/
theorem lookup_of_lt {a : Nat} : ∀ (l : List (Nat × α)) {lo : Nat}, canonFrom d lo l = true → a < lo → lookup d l a = d
  | [], _, _, _ => rfl
  | (k, v) :: rest, lo, h, hl => by
    simp only [canonFrom, Bool.and_eq_true, decide_eq_true_eq] at h
    rw [lookup, if_neg (by omega)]
    exact lookup_of_lt rest h.2 (by omega)

/-- In canonical form a stored key reads what was stored. -/
theorem lookup_store_self {a : Nat} (x : α) :
    ∀ (l : List (Nat × α)) {lo : Nat}, canonFrom d lo l = true → lookup d (store d l a x) a = x
  | [], _, _ => by
    have := lookup_cell d a a x []
    simp only [List.append_nil, if_true] at this
    rw [store, this]
    split
    · rename_i hx; rw [hx]; rfl
    · rfl
  | (k, v) :: rest, lo, h => by
    simp only [canonFrom, Bool.and_eq_true, decide_eq_true_eq] at h
    have low : ∀ {l' : List (Nat × α)}, lookup d l' a = d → lookup d (cell d a x ++ l') a = x := by
      intro l' hl'
      rw [lookup_cell, if_pos rfl]
      split
      · rename_i hx; rw [hl', hx]
      · rfl
    unfold store
    split
    · rename_i hk
      refine low ?_
      rw [lookup, if_neg (by omega)]
      exact lookup_of_lt d rest h.2 (by omega)
    · split
      · exact low (lookup_of_lt d rest h.2 (by omega))
      · rw [lookup, if_neg (by omega)]
        exact lookup_store_self x rest h.2

theorem canon_mono : ∀ (l : List (Nat × α)) {lo lo' : Nat}, lo' ≤ lo → canonFrom d lo l = true → canonFrom d lo' l = true
  | [], _, _, _, _ => rfl
  | (k, v) :: rest, _, _, hle, h => by
    simp only [canonFrom, Bool.and_eq_true, decide_eq_true_eq] at h ⊢
    exact ⟨⟨by omega, h.1.2⟩, h.2⟩

theorem canon_cell {lo a : Nat} (x : α) {l : List (Nat × α)} (ha : lo ≤ a) (h : canonFrom d (a + 1) l = true) :
    canonFrom d lo (cell d a x ++ l) = true := by
  unfold cell
  split
  · exact canon_mono d l (by omega) h
  · rename_i hx
    simp only [List.cons_append, List.nil_append, canonFrom, Bool.and_eq_true, decide_eq_true_eq]
    exact ⟨⟨ha, hx⟩, h⟩

/-- A store keeps the canonical form. -/
theorem canon_store {a : Nat} (x : α) :
    ∀ (l : List (Nat × α)) {lo : Nat}, lo ≤ a → canonFrom d lo l = true → canonFrom d lo (store d l a x) = true
  | [], lo, ha, _ => by simpa [store] using canon_cell d (l := []) x ha rfl
  | (k, v) :: rest, lo, ha, h => by
    have h' := h
    simp only [canonFrom, Bool.and_eq_true, decide_eq_true_eq] at h'
    unfold store
    split
    · refine canon_cell d x ha ?_
      simp only [canonFrom, Bool.and_eq_true, decide_eq_true_eq]
      exact ⟨⟨by omega, h'.1.2⟩, h'.2⟩
    · split
      · rename_i hk
        exact canon_cell d x ha (hk ▸ h'.2)
      · simp only [canonFrom, Bool.and_eq_true, decide_eq_true_eq]
        exact ⟨h'.1, canon_store x rest (by omega) h'.2⟩

/-! ## The die -/

theorem writeByte_wf (m : List Host.Cell) (a : Nat) (b : Byte) (h : Memory.wf m = true) :
    Memory.wf (writeByte m a b) = true := canon_store _ b m (Nat.zero_le _) h

theorem writeBytes_wf : ∀ (l : List Byte) (m : List Host.Cell) (a : Nat), Memory.wf m = true →
    Memory.wf (writeBytes m a l) = true
  | [], _, _, h => h
  | b :: rest, m, a, h => writeBytes_wf rest _ _ (writeByte_wf m a b h)

theorem readByte_writeByte {m : List Host.Cell} (h : Memory.wf m = true) (a c : Nat) (b : Byte) :
    readByte (writeByte m a b) c = if c = a then b else readByte m c := by
  by_cases hc : c = a
  · subst hc
    rw [if_pos rfl]
    exact lookup_store_self _ b m h
  · rw [if_neg hc]
    exact lookup_store_ne _ b (fun e => hc e.symm) m

/-- A byte outside the bytes written reads as before. -/
theorem readByte_writeBytes_of_not_mem : ∀ (l : List Byte) (m : List Host.Cell) (a c : Nat),
    (c < a ∨ a + l.length ≤ c) → readByte (writeBytes m a l) c = readByte m c
  | [], _, _, _, _ => rfl
  | b :: rest, m, a, c, h => by
    simp only [List.length_cons] at h
    rw [writeBytes, readByte_writeBytes_of_not_mem rest _ _ _ (by omega)]
    exact lookup_store_ne _ b (by omega) m

/-- The bytes written read back. -/
theorem readBytes_writeBytes : ∀ (l : List Byte) (m : List Host.Cell) (a : Nat), Memory.wf m = true →
    readBytes (writeBytes m a l) a l.length = l
  | [], _, _, _ => rfl
  | b :: rest, m, a, h => by
    simp only [List.length_cons, readBytes, writeBytes]
    rw [readBytes_writeBytes rest _ _ (writeByte_wf m a b h),
      readByte_writeBytes_of_not_mem rest _ _ _ (by omega), readByte_writeByte h, if_pos rfl]

/-- The bytes of a range outside the bytes written read as before. -/
theorem readBytes_writeBytes_of_disjoint (l : List Byte) (m : List Host.Cell) (a : Nat) :
    ∀ (n c : Nat), (c + n ≤ a ∨ a + l.length ≤ c) → readBytes (writeBytes m a l) c n = readBytes m c n
  | 0, _, _ => rfl
  | n + 1, c, h => by
    rw [readBytes, readBytes, readByte_writeBytes_of_not_mem l m a c (by omega),
      readBytes_writeBytes_of_disjoint l m a n (c + 1) (by omega)]

/-- The die's tables stay in canonical form at a WRITE and at a READ. -/
theorem dieWrite_memory {s : State} (h : s.MemoryLaw) (a : Nat) (data : List Byte) : (s.dieWrite a data).MemoryLaw :=
  ⟨writeBytes_wf data s.mem a h.1, canon_store _ _ _ (Nat.zero_le _) h.2⟩

theorem dieRead_memory {s : State} (h : s.MemoryLaw) (a : Nat) (flips : BurstBits) : (s.dieRead a flips).MemoryLaw :=
  ⟨h.1, canon_store _ _ _ (Nat.zero_le _) h.2⟩

end Sys2Proof.Laws
end

