-- ==== Sys2Proof/Laws/Requests.lean ====
section
/-! SUPPORT. A request from its frame to its response: what `onFrame`, `accept` and `handOver` come to (R167, R169,
R170), and the round trip of the fields (R183). -/
namespace Sys2Proof.Laws

open Sys2Proof.Machine

/-! ## Fields -/

theorem toNat_ofNat8 (n : Nat) : (BitVec.ofNat 8 n).toNat = n % 256 := BitVec.toNat_ofNat n 8

theorem nat16_u16 {n : Nat} (h : n < 65536) : nat16 (BitVec.ofNat 8 n) (BitVec.ofNat 8 (n / 256)) = n := by
  simp only [nat16, toNat_ofNat8]
  omega

theorem nat32_u32 {n : Nat} (h : n < 4294967296) :
    nat32 (BitVec.ofNat 8 n) (BitVec.ofNat 8 (n / 256)) (BitVec.ofNat 8 (n / 65536)) (BitVec.ofNat 8 (n / 16777216)) =
      n := by
  simp only [nat32, toNat_ofNat8]
  omega

theorem idx_val {n : Nat} (i : Fin n) : idx? n i.val = some i := by simp [idx?]

theorem idx_some {n k : Nat} {i : Fin n} (h : idx? n k = some i) : k = i.val := by
  unfold idx? at h
  split at h
  · cases h; rfl
  · cases h

theorem idx_none {n k : Nat} (h : n ≤ k) : idx? n k = none := by simp [idx?, h]

/-! ## The table -/

theorem tagInUse_false {l : Link} {tag : Byte} (h : l.tagInUse tag = false) : ∀ e ∈ l.table, e.tag ≠ tag := by
  intro e he hc
  have : l.tagInUse tag = true := by
    unfold Link.tagInUse
    exact List.any_eq_true.mpr ⟨e, he, by simpa using hc⟩
  rw [h] at this
  cases this

theorem setStage_of_free {l : List OutEntry} {tag : Byte} (g : Stage) (h : ∀ e ∈ l, e.tag ≠ tag) :
    (l.map fun e => if e.tag = tag then { e with stage := g } else e) = l := by
  induction l with
  | nil => rfl
  | cons e rest ih =>
    rw [List.map_cons, if_neg (h e (List.mem_cons_self ..)), ih fun x hx => h x (List.mem_cons_of_mem _ hx)]

/-- A response to the youngest entry of the table, WORKING and not orphaned, its tag that of no other entry. -/
theorem handOver_fresh {l : Link} {t : State} {kind tag : Byte} (hu : l.tagInUse tag = false)
    (ht : t.link.table = l.table ++ [{ tag := tag, kind := kind, stage := .working, orphaned := false }])
    (st : Status) (data : List Byte) :
    t.handOver tag st data = t.setLink { t.link with
      table := l.table ++ [{ tag := tag, kind := kind, stage := .answered, orphaned := false }],
      readyList := t.link.readyList ++ [{ tag := tag, kind := kind, status := st, data := data }] } := by
  have hf := tagInUse_false hu
  have hw : t.link.working? tag = some { tag := tag, kind := kind, stage := .working, orphaned := false } := by
    unfold Link.working?
    rw [ht, List.find?_append, List.find?_eq_none.mpr]
    · simp
    · intro e he
      simp [hf e he]
  unfold State.handOver
  rw [hw]
  simp only [Bool.false_eq_true, if_false]
  congr 1
  unfold Link.answer Link.pushReady Link.setStage
  simp only [ht, List.map_append, List.map_cons, List.map_nil, if_true, setStage_of_free _ hf]

/-- The owner's response to a request it has just been given: the entry is ANSWERED and the response is ready. -/
theorem handOver_working {s t : State} {kind tag : Byte} (hu : s.link.tagInUse tag = false)
    (hl : t.link = (s.working kind tag).link) (st : Status) (data : List Byte) :
    t.handOver tag st data = t.setLink (s.link.answered kind tag st data) := by
  rw [handOver_fresh hu (by rw [hl]; rfl), hl]
  rfl

/-! ## The frame -/

theorem takes_iff {s : State} {kind tag : Byte} {p : List Byte} (h : s.takes kind tag p = true) :
    s.link.frameCompletes kind tag p = true ∧ s.link.tagInUse tag = false ∧ s.link.table.length < 8 := by
  simp only [State.takes, Bool.and_eq_true, Bool.not_eq_true', decide_eq_true_eq] at h
  exact ⟨h.1.1, h.1.2, h.2⟩

theorem serving_iff {s : State} (h : s.serving = true) : s.link.readiness = .ready ∧ s.sched.mode ≠ .failed := by
  simpa [State.serving] using h

theorem onFrame_arrives {s : State} {kind tag : Byte} {p : List Byte} (dispatch : Byte → List Byte → State → State)
    (h : s.link.frameCompletes kind tag p = true) : onFrame kind dispatch tag p s = .next (dispatch tag p s.received) := by
  unfold onFrame
  rw [if_pos h]
  rfl

/-- A frame that passes checks 1 to 5 of R170: its owner takes the request. -/
theorem accept_works {s : State} {kind tag : Byte} {p : List Byte} {lenOk : Bool} {g : Gate} (own : State → State)
    (h : s.takes kind tag p = true) (hl : lenOk = true) (hg : g.status s.link.readiness = none) :
    s.received.accept kind tag lenOk g own = own (s.working kind tag) := by
  obtain ⟨-, hu, hn⟩ := takes_iff h
  unfold State.accept
  rw [if_neg (by rw [show s.received.link.tagInUse tag = s.link.tagInUse tag from rfl, hu]; simp)]
  rw [if_neg (by show ¬ 8 ≤ s.link.table.length; omega)]
  rw [if_neg (by simp [hl])]
  rw [show s.received.link.readiness = s.link.readiness from rfl, hg]
  rfl

/-- A request its owner answers at once, in every mode. -/
theorem answers {s : State} {kind tag : Byte} {p : List Byte} {ok : Bool} {g : Gate} {f : State → Reply}
    (h : s.takes kind tag p = true) (hl : ok = true) (hg : g.status s.link.readiness = none)
    (hk : (f (s.working kind tag)).2.2.link = (s.working kind tag).link) :
    onFrame kind (fun tag _ t => t.accept kind tag ok g fun u => u.answerWith tag f) tag p s =
      .next ((f (s.working kind tag)).2.2.setLink
        (s.link.answered kind tag (f (s.working kind tag)).1 (f (s.working kind tag)).2.1)) := by
  rw [onFrame_arrives _ (takes_iff h).1, accept_works _ h hl hg]
  exact congrArg _ (handOver_working (takes_iff h).2.1 hk _ _)

theorem gate_ready {s : State} (h : s.serving = true) (g : Gate) : g.status s.link.readiness = none := by
  rw [(serving_iff h).1]
  cases g <;> rfl

theorem unlessFailed_serving {s t : State} (h : s.serving = true) (ht : t.sched = s.sched) (tag : Byte)
    (own : State → State) : t.unlessFailed tag own = own t := by
  unfold State.unlessFailed
  rw [if_neg (by rw [ht]; exact (serving_iff h).2)]

/-- A request its owner answers at once, and refuses in FAILED. -/
theorem answersServing {s : State} {kind tag : Byte} {p : List Byte} {ok : Bool} {g : Gate} {f : State → Reply}
    (h : s.takes kind tag p = true) (hs : s.serving = true) (hl : ok = true)
    (hk : (f (s.working kind tag)).2.2.link = (s.working kind tag).link) :
    onFrame kind (fun tag _ t => t.accept kind tag ok g fun u => u.unlessFailed tag fun v => v.answerWith tag f) tag p s =
      .next ((f (s.working kind tag)).2.2.setLink
        (s.link.answered kind tag (f (s.working kind tag)).1 (f (s.working kind tag)).2.1)) := by
  rw [onFrame_arrives _ (takes_iff h).1, accept_works _ h hl (gate_ready hs g), unlessFailed_serving (s := s) (t := s.working kind tag) hs rfl]
  exact congrArg _ (handOver_working (takes_iff h).2.1 hk _ _)

/-- In FAILED such a request is refused with DRAM_FAULT (R55). -/
theorem failedRefuses {s : State} {kind tag : Byte} {p : List Byte} {ok : Bool} {g : Gate} (own : Byte → State → State)
    (h : s.takes kind tag p = true) (hr : s.link.readiness = .ready) (hm : s.sched.mode = .failed) (hl : ok = true) :
    onFrame kind (fun tag _ t => t.accept kind tag ok g fun u => u.unlessFailed tag (own tag)) tag p s =
      .next (s.answered kind tag .dramFault []) := by
  rw [onFrame_arrives _ (takes_iff h).1, accept_works _ h hl (by rw [hr]; cases g <;> rfl)]
  unfold State.unlessFailed
  rw [if_pos (show (s.working kind tag).sched.mode = .failed from hm)]
  rw [handOver_working (takes_iff h).2.1 rfl]
  rfl

/-! ## Every request -/

/-- The gate of a request KIND (R173). -/
def gateOf (kind : Byte) : Gate :=
  if alwaysDispatched.contains kind then .always else if kind = 0x04#8 then .restart else .whenReady

theorem badKind_dispatch {kind : Byte} (h : kindIsNoRequest kind = true) (tag : Byte) (p : List Byte) (s : State) :
    dispatchFrame kind tag p s = dispatchBadKind kind tag p s := by
  have hk : ∀ k : Byte, kindIsNoRequest k = true →
      k.toNat ≠ 0x01 ∧ k.toNat ≠ 0x02 ∧ k.toNat ≠ 0x03 ∧ k.toNat ≠ 0x04 ∧ k.toNat ≠ 0x08 ∧ k.toNat ≠ 0x09 ∧
      k.toNat ≠ 0x10 ∧ k.toNat ≠ 0x11 ∧ k.toNat ≠ 0x12 ∧ k.toNat ≠ 0x13 ∧ k.toNat ≠ 0x14 ∧ k.toNat ≠ 0x15 ∧
      k.toNat ≠ 0x16 ∧ k.toNat ≠ 0x17 ∧ k.toNat ≠ 0x18 ∧ k.toNat ≠ 0x19 ∧ k.toNat ≠ 0x20 ∧ k.toNat ≠ 0x21 ∧
      k.toNat ≠ 0x22 ∧ k.toNat ≠ 0x23 ∧ k.toNat ≠ 0x24 ∧ k.toNat ≠ 0x25 ∧ k.toNat ≠ 0x26 ∧ k.toNat ≠ 0x28 ∧
      k.toNat ≠ 0x29 ∧ k.toNat ≠ 0x2A ∧ k.toNat ≠ 0x2B ∧ k.toNat ≠ 0x30 ∧ k.toNat ≠ 0x31 ∧ k.toNat ≠ 0x32 ∧
      k.toNat ≠ 0x33 := by decide
  obtain ⟨h1, h2, h3, h4, h5, h6, h7, h8, h9, h10, h11, h12, h13, h14, h15, h16, h17, h18, h19, h20, h21, h22, h23, h24,
    h25, h26, h27, h28, h29, h30, h31⟩ := hk kind h
  unfold dispatchFrame
  split <;> first | rfl | (exfalso; simp_all)

theorem exec_request {i : Instr} {kind tag : Byte} {p : List Byte} (hw : i.wellFormed = true)
    (hf : i.frame? = some (kind, tag, p)) (s : State) :
    exec i s = .next (if s.link.frameCompletes kind tag p then dispatchFrame kind tag p s.received else s) := by
  cases i <;> simp only [Instr.frame?, Option.some.injEq, Prod.mk.injEq, reduceCtorEq] at hf
  all_goals obtain ⟨rfl, rfl, rfl⟩ := hf
  all_goals first
    | rfl
    | skip
  have hk := (Bool.and_eq_true_iff.mp hw).1
  show execBadKind _ _ _ _ = _
  unfold execBadKind
  rw [if_pos hk]
  unfold onFrame
  rw [badKind_dispatch hk]
  rfl


/-- The length check of PUT, as R183 gives it. -/
theorem lengthOk_put (p : List Byte) : lengthOk 0x30#8 p = putLengthOk p := by
  show (7 ≤ p.length && p.length = 7 + nat16 (p.getD 5 0#8) (p.getD 6 0#8) : Bool) = _
  symm
  unfold putLengthOk readPut
  split
  · rename_i heq
    split at heq
    · cases heq
      simp
      omega
    · cases heq
  · rename_i heq
    split at heq
    · cases heq
    · rename_i hn
      symm
      rw [Bool.and_eq_false_iff]
      left
      rcases p with _ | ⟨a, _ | ⟨b, _ | ⟨c, _ | ⟨d, _ | ⟨e, _ | ⟨f, _ | ⟨g, q⟩⟩⟩⟩⟩⟩⟩ <;>
        first | (exact absurd rfl (hn _ _ _ _ _ _ _ _)) | simp

/-- The length check of APPEND, as R183 gives it. -/
theorem lengthOk_append (p : List Byte) : lengthOk 0x32#8 p = appendLengthOk p := by
  show (3 ≤ p.length && p.length = 3 + nat16 (p.getD 1 0#8) (p.getD 2 0#8) : Bool) = _
  symm
  unfold appendLengthOk readAppend
  split
  · rename_i heq
    split at heq
    · cases heq
      simp
      omega
    · cases heq
  · rename_i heq
    split at heq
    · cases heq
    · rename_i hn
      symm
      rw [Bool.and_eq_false_iff]
      left
      rcases p with _ | ⟨a, _ | ⟨b, _ | ⟨c, q⟩⟩⟩ <;>
        first | (exact absurd rfl (hn _ _ _ _)) | simp

/-- The owner of a request KIND takes the request (R171). -/
theorem dispatch_accept {kind : Byte} (h : requestCodes.contains kind = true) (tag : Byte) (p : List Byte) :
    ∃ own : State → State, ∀ s, dispatchFrame kind tag p s = s.accept kind tag (lengthOk kind p) (gateOf kind) own := by
  have hm : kind ∈ requestCodes := by simpa using h
  simp only [requestCodes, List.cons_append, List.nil_append, List.mem_cons, List.not_mem_nil, or_false] at hm
  rcases hm with rfl | rfl | rfl | rfl | rfl | rfl | rfl | rfl | rfl | rfl | rfl | rfl | rfl | rfl | rfl | rfl |
    rfl | rfl | rfl | rfl | rfl | rfl | rfl | rfl | rfl | rfl | rfl | rfl | rfl | rfl | rfl
  case inr.inr.inr.inr.inr.inr.inr.inr.inr.inr.inr.inr.inr.inr.inr.inr.inr.inr.inr.inr.inr.inr.inr.inr.inr.inr.inr.inl =>
    exact ⟨fun t => t.unlessFailed tag (lauPut tag p), fun s => by rw [lengthOk_put]; rfl⟩
  case inr.inr.inr.inr.inr.inr.inr.inr.inr.inr.inr.inr.inr.inr.inr.inr.inr.inr.inr.inr.inr.inr.inr.inr.inr.inr.inr.inr.inr.inl =>
    exact ⟨fun t => t.unlessFailed tag (lauAppend tag p), fun s => by rw [lengthOk_append]; rfl⟩
  all_goals exact ⟨_, fun _ => rfl⟩

end Sys2Proof.Laws
end

