-- ==== Sys2Proof/Laws/Rings.lean ====
section
/-! SUPPORT. The rings and the burst list together (R8 to R14): what each operation leaves of a ring's space, and of the
READ entries that its read-reserved bytes stand for. -/
namespace Sys2Proof.Laws

open Sys2Proof.Machine

/-! ## The burst list but for the states of its entries -/

/-- A list's entries but for their states. -/
def bareList (l : List BurstEntry) : List BurstEntry := l.map fun e => { e with state := .waitingBank }

theorem bareList_settle (banks : Vector Bank 8) : ∀ (seen : List BankId) (l : List BurstEntry),
    bareList (settleList banks seen l) = bareList l
  | _, [] => rfl
  | seen, e :: rest => by
    unfold settleList
    show _ :: bareList _ = _ :: bareList _
    rw [bareList_settle banks (e.bank :: seen) rest]

theorem bareList_append (l k : List BurstEntry) : bareList (l ++ k) = bareList l ++ bareList k := List.map_append

theorem bareList_admitEntry (e : BurstEntry) (d : Scheduler) :
    bareList (d.admitEntry e).list = bareList d.list ++ [{ e with state := .waitingBank }] := by
  unfold Scheduler.admitEntry Scheduler.settle
  dsimp only
  rw [bareList_settle, bareList_append]
  split <;> rfl

theorem bareList_startOldest : ∀ l : List BurstEntry, bareList (startOldest l) = bareList l
  | [] => rfl
  | e :: rest => by
    unfold startOldest
    split
    · rfl
    · show _ :: bareList _ = _ :: bareList _
      rw [bareList_startOldest rest]

theorem bareList_dropAccessing : ∀ {l : List BurstEntry} {e : BurstEntry},
    l.find? (fun x => x.state = .accessing) = some e →
    ∃ older younger, bareList l = older ++ { e with state := .waitingBank } :: younger ∧
      bareList (dropAccessing l) = older ++ younger
  | [], _, h => by cases h
  | x :: l, e, h => by
    rw [List.find?_cons] at h
    unfold dropAccessing
    split at h
    · rename_i k
      cases h
      rw [if_pos (by simpa using k)]
      exact ⟨[], bareList l, rfl, rfl⟩
    · rename_i k
      rw [if_neg (by simpa using k)]
      obtain ⟨o, y, h1, h2⟩ := bareList_dropAccessing h
      exact ⟨_ :: o, y, congrArg (_ :: ·) h1, congrArg (_ :: ·) h2⟩

theorem bareList_completeAccess {d : Scheduler} {e : BurstEntry} (h : d.accessing? = some e) (now : Nat) :
    ∃ older younger, bareList d.list = older ++ { e with state := .waitingBank } :: younger ∧
      bareList (d.completeAccess e now).list = older ++ younger := by
  obtain ⟨o, y, h1, h2⟩ := bareList_dropAccessing h
  refine ⟨o, y, h1, ?_⟩
  rw [← h2]
  unfold Scheduler.completeAccess Scheduler.settle
  dsimp only
  rw [bareList_settle]
  unfold Scheduler.applyCloseAfter
  split <;> rfl

/-- Whether an entry is a READ of this ring. -/
def readsRing (r : RegionId) (e : BurstEntry) : Bool := !e.isWrite && decide (e.ringRef.map RingRef.region = some r)

theorem readRefs_bare (r : RegionId) (s : State) : s.readRefs r = (bareList s.sched.list).countP (readsRing r) := by
  unfold State.readRefs bareList
  rw [List.countP_map]
  rfl

theorem readRefs_of_bare {s t : State} (h : bareList t.sched.list = bareList s.sched.list) (r : RegionId) :
    t.readRefs r = s.readRefs r := by
  rw [readRefs_bare, readRefs_bare, h]

/-- The scheduler's list, but for the states of its entries, and one entry of the sweep's or two. -/
theorem readRefs_sweepAdmit (d : Scheduler) (r : RegionId) :
    (bareList d.sweepAdmit.list).countP (readsRing r) = (bareList d.list).countP (readsRing r) := by
  unfold Scheduler.sweepAdmit
  split
  · rw [bareList_admitEntry, List.countP_append]
    rfl
  · rfl

variable {P : State → Prop}

/-- The scheduler's moves, for a property to which of its records only the READ entries of rings matter. -/
theorem schedulerMoves_of_refs
    (sched : ∀ d s, (∀ r, (State.setSched d s).readRefs r = s.readRefs r) → P s → P (State.setSched d s))
    (clock : ∀ t s, P s → P (State.clockTo t s)) (check : ∀ x s, P s → P (State.setCheck x s))
    (notices : ∀ q s, P s → P (State.setNotices q s)) (capture : ∀ k x s, P s → P (State.setCapture k x s))
    (resetBlocks : ∀ s, P s → P s.resetBlocks) (pinReset : ∀ s, P s → P s.pinReset) : SchedulerMoves P := by
  have bare : ∀ (d : Scheduler) (s : State), bareList d.list = bareList s.sched.list → P s → P (s.setSched d) :=
    fun d s e h => sched d s (readRefs_of_bare (t := s.setSched d) e) h
  have sweeps : ∀ (d : Scheduler) (s : State), bareList d.list = bareList s.sched.list → P s →
      P (s.setSched d.sweepAdmit.sweepAdmit) := fun d s e h => sched _ s (fun r => by
    rw [readRefs_bare, readRefs_bare]
    show (bareList d.sweepAdmit.sweepAdmit.list).countP _ = _
    rw [readRefs_sweepAdmit, readRefs_sweepAdmit, e]) h
  have moves : ∀ (b : BankId) (x : Bank) (d : Scheduler), bareList (d.moveBank b x).list = bareList d.list :=
    fun b x d => bareList_settle _ _ _
  refine ⟨clock, check, fun _ h => notices _ _ h, fun _ _ h => notices _ _ h, fun _ _ _ h => capture _ _ _ h, resetBlocks,
    pinReset, fun _ _ h => bare _ _ rfl h, fun _ _ h => bare _ _ rfl h, fun _ _ h => bare _ _ rfl h,
    fun _ _ h => sweeps _ _ rfl h, fun _ _ h => bare _ _ rfl h, fun _ _ h => bare _ _ rfl h,
    fun _ h => bare _ _ rfl h, fun _ h => bare _ _ ?_ h, fun _ _ _ _ _ _ h => bare _ _ (moves _ _ _) h,
    fun _ _ _ _ _ h => bare _ _ (moves _ _ _) h, fun d s hd h => bare _ _ ?_ h,
    fun _ _ _ _ _ _ h => bare _ _ (moves _ _ _) h, fun _ _ _ _ _ h => bare _ _ (bareList_startOldest _) h,
    fun _ _ h => bare _ _ rfl h, fun _ s _ _ h => ?_⟩
  · unfold Scheduler.testRefresh
    split <;> rfl
  · unfold Scheduler.startOpening at hd
    split at hd
    · cases hd
    · split at hd
      · cases hd
        exact moves _ _ _
      · cases hd
  · unfold Scheduler.afterRefresh
    split
    · split
      · exact bare _ _ rfl h
      · exact sweeps _ _ rfl h
    · split
      · exact bare _ _ rfl h
      · exact bare _ _ rfl h

/-! ## Rings -/

/-- What the law of rings says of one region. -/
def RingKept (n : Nat) : Option (RegionRecord × Ring) → Prop
  | none => n = 0
  | some (d, g) => g.SpaceLaw d.length ∧ g.readReserved = 32 * n

theorem ringLaw_iff (s : State) : s.RingLaw ↔ ∀ r, RingKept (s.readRefs r) (s.ring? r) := by
  unfold State.RingLaw RingKept
  exact forall_congr' fun r => by cases s.ring? r <;> exact Iff.rfl

/-- One ring is written, and the list keeps its entries of rings. -/
theorem ringLaw_setRing {s : State} {r : RegionId} {d : RegionRecord} {g g' : Ring} (hr : s.ring? r = some (d, g))
    (hs : g'.SpaceLaw d.length) (hn : g'.readReserved = 32 * s.readRefs r) (h : s.RingLaw) :
    (s.setRing r g').RingLaw := by
  rw [ringLaw_iff] at h ⊢
  intro q
  show RingKept (s.readRefs q) _
  rw [ring_setRing hr]
  split
  · rename_i e
    subst e
    exact ⟨hs, hn⟩
  · exact h q

theorem ringLaw_of_eq {s t : State} (hr : ∀ r, t.ring? r = s.ring? r) (hn : ∀ r, t.readRefs r = s.readRefs r)
    (h : s.RingLaw) : t.RingLaw := by
  rw [ringLaw_iff] at h ⊢
  intro r
  rw [hr, hn]
  exact h r

theorem ring_setRegion_of_kind {s : State} {r : RegionId} {x : Region} (h : x.record = (s.region r).record)
    (q : RegionId) :
    (s.setRegion r x).ring? q = s.ring? q := by
  unfold State.ring?
  rw [show ((s.setRegion r x).region q).record = (s.region q).record by
    rw [region_setRegion]
    split
    · rename_i e
      rw [e, h]
    · rfl]

/-- Claims, notices, marks and the rest of a channel's work leave a ring's space as it is. -/
theorem ringClaims : ClaimMoves State.RingLaw where
  ring := fun r d g g' s hr hu h => by
    have := (ringLaw_iff s).mp h r
    rw [hr] at this
    have h1 : g'.committedFill = g.committedFill := (congrArg Ring.committedFill hu :)
    have h2 : g'.readReserved = g.readReserved := (congrArg Ring.readReserved hu :)
    have h3 : g'.writeList = g.writeList := (congrArg Ring.writeList hu :)
    refine ringLaw_setRing hr ?_ (h2 ▸ this.2) h
    unfold Ring.SpaceLaw
    rw [h1, h2, h3]
    exact this.1
  goes := fun _ _ _ _ h => h
  arb := fun _ _ h => h
  post := fun _ _ h => h
  raise := fun _ _ _ h => h
  served := fun _ _ h => h
  waiters := fun _ _ _ h => h

theorem ringLau : LauMoves State.RingLaw where
  toClaimMoves := ringClaims
  refs := fun _ _ _ h => ringLaw_of_eq (ring_setRegion_of_kind rfl) (fun _ => rfl) h
  channel := fun _ _ _ h => h
  reservations := fun _ _ h => h
  lau := fun _ _ h => h
  link := fun _ _ _ h => h
  openQueue := fun _ h => h

/-- A region that is no ring, and no READ names, is written so. -/
theorem ringLaw_setRegion {s : State} {r : RegionId} {x : Region} (hn : s.readRefs r = 0)
    (hx : ∀ d g, x.record = some d → d.kind = .ring g → g.SpaceLaw d.length ∧ g.readReserved = 0)
    (h : s.RingLaw) : (s.setRegion r x).RingLaw := by
  rw [ringLaw_iff] at h ⊢
  intro q
  show RingKept (s.readRefs q) _
  by_cases e : q = r
  · subst e
    cases hq : (s.setRegion q x).ring? q with
    | none => exact hn
    | some y =>
      obtain ⟨d, g⟩ := y
      obtain ⟨h1, h2⟩ := ring_some_iff.mp hq
      rw [region_setRegion_self] at h1
      obtain ⟨h3, h4⟩ := hx d g h1 h2
      exact ⟨h3, by rw [hn, h4]⟩
  · have : (s.setRegion r x).ring? q = s.ring? q := by
      unfold State.ring?
      rw [region_setRegion_ne _ x e]
    rw [this]
    exact h q

theorem readRefs_of_no_ring {s : State} {r : RegionId} (h : s.RingLaw) (hr : s.ring? r = none) : s.readRefs r = 0 := by
  have := (ringLaw_iff s).mp h r
  rw [hr] at this
  exact this

theorem readRefs_of_ring {s : State} {r : RegionId} {d : RegionRecord} {g : Ring} (h : s.RingLaw)
    (hr : s.ring? r = some (d, g)) : g.SpaceLaw d.length ∧ g.readReserved = 32 * s.readRefs r := by
  have := (ringLaw_iff s).mp h r
  rw [hr] at this
  exact this

/-- RESTART_RESET keeps the ring and takes its claims away (R180). -/
theorem ring_resetBlocks (s : State) (r : RegionId) :
    s.resetBlocks.ring? r = (s.ring? r).map fun x => ({ x.1 with kind := .ring x.2.unclaimed }, x.2.unclaimed) := by
  unfold State.ring?
  rw [show s.resetBlocks.region r = (s.region r).restarted from getAt_mapTable _ _ _]
  unfold Region.restarted
  cases (s.region r).record with
  | none => rfl
  | some d =>
    simp only [Option.map_some]
    cases hk : d.kind with
    | linear => simp only [hk]; rfl
    | ring g => rfl

/-! ## Reservations -/

theorem rearm_space (len : Nat) (g : Ring) : g.rearm.SpaceLaw len ↔ g.SpaceLaw len := by
  unfold Ring.rearm; split <;> rfl

theorem rearm_reserved (g : Ring) : g.rearm.readReserved = g.readReserved := by
  unfold Ring.rearm; split <;> rfl

theorem rearm_writeList (g : Ring) : g.rearm.writeList = g.writeList := by
  unfold Ring.rearm; split <;> rfl

theorem rearm_fill (g : Ring) : g.rearm.committedFill = g.committedFill := by
  unfold Ring.rearm; split <;> rfl

/-- A write reservation takes free bytes, after a drop where the ring drops (R9). -/
theorem reserveWrite_space {len : Nat} {g : Ring} (h : g.SpaceLaw len) {who : Requester}
    (hc : g.canWrite len who = true) :
    (g.reserveWrite len).SpaceLaw len ∧ (g.reserveWrite len).readReserved = g.readReserved := by
  obtain ⟨h1, h2, h3⟩ := h
  unfold Ring.canWrite at hc
  simp only [Bool.and_eq_true, Bool.or_eq_true, decide_eq_true_eq] at hc
  unfold Ring.reserveWrite Ring.mustDrop
  dsimp only
  unfold Ring.space at *
  split
  · rename_i hd
    simp only [decide_eq_true_eq] at hd
    unfold Ring.drop
    refine ⟨⟨?_, ?_, ?_⟩, ?_⟩ <;>
      simp only [rearm_reserved, rearm_writeList, rearm_fill, List.length_append, List.length_singleton] <;> omega
  · rename_i hd
    simp only [decide_eq_true_eq] at hd
    refine ⟨⟨?_, h2, h3⟩, rfl⟩
    simp only [List.length_append, List.length_singleton]
    omega

/-- A read reservation takes 32 committed bytes (R12). -/
theorem reserveRead_space {len : Nat} {g : Ring} (h : g.SpaceLaw len) {who : Requester} (hc : g.canRead who = true) :
    (g.reserveRead len).SpaceLaw len ∧ (g.reserveRead len).readReserved = g.readReserved + 32 := by
  obtain ⟨h1, h2, h3⟩ := h
  unfold Ring.canRead at hc
  simp only [Bool.and_eq_true, decide_eq_true_eq] at hc
  unfold Ring.reserveRead
  refine ⟨(rearm_space _ _).mpr ⟨?_, ?_, ?_⟩, rearm_reserved _⟩ <;> dsimp only <;> omega

theorem commitRun_length : ∀ l, (commitRun l).1 + (commitRun l).2.length = l.length
  | [] => rfl
  | x :: l => by
    unfold commitRun
    split
    · simp only [List.length_cons, ← commitRun_length l]; omega
    · simp

/-- A commitment takes the accessed reservations at the head of the write list (R10). -/
theorem commit_space {len : Nat} {g : Ring} (h : g.SpaceLaw len) (off : Nat) :
    (g.commit off).SpaceLaw len ∧ (g.commit off).readReserved = g.readReserved := by
  obtain ⟨h1, h2, h3⟩ := h
  have := commitRun_length (markAccessed off g.writeList)
  have h5 : (markAccessed off g.writeList).length = g.writeList.length := by unfold markAccessed; simp
  unfold Ring.commit Ring.committing
  refine ⟨⟨?_, ?_, h3⟩, rfl⟩ <;> dsimp only <;> omega

/-! ## ADMISSION -/

/-- What an entry to be admitted asks of the rings: a READ of a ring counts as one more. -/
def RingsWith (e : BurstEntry) (t : State) : Prop :=
  ∀ r, RingKept (t.readRefs r + if readsRing r e then 1 else 0) (t.ring? r)

/-- An entry that is no READ of a ring reserves nothing to be read. -/
theorem ringsWith_of_no_read {e : BurstEntry} {t : State} (he : ∀ r, readsRing r e = false) :
    RingsWith e t ↔ t.RingLaw := by
  rw [ringLaw_iff]
  exact forall_congr' fun r => by rw [he]; rfl

theorem readsRing_of_write {e : BurstEntry} (he : e.isWrite = true) (r : RegionId) : readsRing r e = false := by
  unfold readsRing; rw [he]; rfl

theorem readsRing_of_no_ref {e : BurstEntry} (he : e.ringRef = none) (r : RegionId) : readsRing r e = false := by
  unfold readsRing; rw [he]; simp

theorem ringLaw_admitEntry {e : BurstEntry} {t : State} (h : RingsWith e t) :
    (t.setSched (t.sched.admitEntry e)).RingLaw := by
  rw [ringLaw_iff]
  intro r
  have h := h r
  rw [readRefs_bare] at h ⊢
  show RingKept ((bareList (t.sched.admitEntry e).list).countP _) (t.ring? r)
  rw [bareList_admitEntry, List.countP_append, List.countP_singleton]
  exact h

theorem ringLaw_admitted {e : BurstEntry} {t : State} (h : RingsWith e t) (f : Arbiter → Arbiter) :
    (t.admitted e f).RingLaw :=
  report_keeps ringLau.toServiceMoves (ringLau.arb _ _ (ringLaw_admitEntry h))

/-- A ring reservation for a WRITE. -/
theorem writePlace_rings {r : RegionId} {off : Nat} {s : State} {p : Place} {who : Requester} (h : s.RingLaw)
    (hw : s.regionWritable who r = true) (hp : s.writePlace r off = some p) : p.after.RingLaw := by
  unfold State.writePlace at hp
  unfold State.regionWritable RegionRecord.writable at hw
  split at hp
  · cases hp
  · rename_i d hd
    rw [hd] at hw
    dsimp only at hw
    split at hp
    · cases hp; exact h
    · rename_i g hk
      rw [hk] at hw
      cases hp
      obtain ⟨h1, h2⟩ := readRefs_of_ring h (ring_eq hd hk)
      obtain ⟨h3, h4⟩ := reserveWrite_space h1 hw
      exact ringLaw_setRing (ring_eq hd hk) h3 (h4.trans h2) h

theorem readPlace_rings {r : RegionId} {off : Nat} {s : State} {p : Place} {who : Requester} (h : s.RingLaw)
    (hw : s.regionReadable who r = true) (hp : s.readPlace r off = some p) {e : BurstEntry} (he : e.isWrite = false)
    (hr : e.ringRef = p.ref) : RingsWith e p.after := by
  unfold State.readPlace at hp
  unfold State.regionReadable RegionRecord.readable at hw
  split at hp
  · cases hp
  · rename_i d hd
    rw [hd] at hw
    dsimp only at hw
    split at hp
    · cases hp
      exact (ringsWith_of_no_read (readsRing_of_no_ref hr)).mpr h
    · rename_i g hk
      rw [hk] at hw
      cases hp
      obtain ⟨h1, h2⟩ := readRefs_of_ring h (ring_eq hd hk)
      obtain ⟨h3, h4⟩ := reserveRead_space h1 hw
      rw [ringLaw_iff] at h
      intro q
      show RingKept (s.readRefs q + _) _
      rw [ring_setRing (ring_eq hd hk)]
      have : readsRing q e = decide (r = q) := by unfold readsRing; rw [he, hr]; simp
      rw [this]
      by_cases hq : q = r
      · subst hq
        rw [if_pos rfl]
        refine ⟨h3, ?_⟩
        rw [h4, h2]; simp; omega
      · rw [if_neg hq, if_neg (by simpa using Ne.symm hq)]
        exact h q

theorem channelWrite_rings {c : ChannelId} {d : Descriptor} {pos : Nat} {data : List Byte} {s t : State}
    {e : BurstEntry} {q : RegionId} {off : Nat} (hd : d.dest = .region q off) (h : s.RingLaw)
    (hw : s.regionWritable (.ch c) q = true) (hf : s.channelWrite c d pos data = some (e, t)) : RingsWith e t := by
  unfold State.channelWrite Descriptor.endpointRegion at hf
  simp only [hd] at hf
  obtain ⟨p, hp, he⟩ := Option.map_eq_some_iff.mp hf
  cases he
  exact (ringsWith_of_no_read (readsRing_of_write rfl)).mpr (writePlace_rings h hw hp)

theorem channelRead_rings {c : ChannelId} {d : Descriptor} {pos : Nat} {g : Target} {f : Progress → Progress}
    {s t : State} {e : BurstEntry} {q : RegionId} {off : Nat} (hd : d.source = .region q off) (h : s.RingLaw)
    (hw : s.regionReadable (.ch c) q = true) (hf : s.channelRead c d pos g f = some (e, t)) : RingsWith e t := by
  unfold State.channelRead Descriptor.endpointRegion at hf
  simp only [hd] at hf
  obtain ⟨p, hp, he⟩ := Option.map_eq_some_iff.mp hf
  cases he
  exact readPlace_rings h hw hp rfl rfl

/-- What the burst a channel forms next asks of its regions. -/
theorem nextBurst_asks {c : ChannelId} {cur : Current} {s : State} {b : Burst} (h : s.nextBurst c cur = some b) :
    (b.writes = true → ∃ q off, cur.desc.dest = .region q off ∧ s.regionWritable (.ch c) q = true) ∧
    (b.writes = false → ∃ q off, cur.desc.source = .region q off ∧ s.regionReadable (.ch c) q = true) ∧
    ∀ k, b = .playoutRead k → 32 ≤ (s.playout k).room := by
  unfold State.nextBurst at h
  split at h
  · rename_i hs hd
    split at h
    · rename_i hc
      simp only [Bool.and_eq_true] at hc
      cases h
      exact ⟨fun _ => ⟨_, _, hd, hc.2⟩, nofun, nofun⟩
    · cases h
  · rename_i hs hd
    split at h
    · rename_i hc
      simp only [Bool.and_eq_true] at hc
      cases h
      exact ⟨fun _ => ⟨_, _, hd, hc.2⟩, nofun, nofun⟩
    · cases h
  · rename_i hs hd
    split at h
    · rename_i hc
      simp only [Bool.and_eq_true, decide_eq_true_eq] at hc
      cases h
      exact ⟨nofun, fun _ => ⟨_, _, hs, hc.2⟩, fun k e => by cases e; exact hc.1.2⟩
    · cases h
  · rename_i hs hd
    split at h
    · rename_i hb
      cases h
      unfold State.copyWriteBurst at hb
      split at hb
      · cases hb
      · split at hb
        · rename_i hc
          simp only [Bool.and_eq_true] at hc
          cases hb
          exact ⟨fun _ => ⟨_, _, hd, hc.2⟩, nofun, nofun⟩
        · cases hb
    · unfold State.copyReadBurst at h
      split at h
      · cases h
      · split at h
        · rename_i hc
          simp only [Bool.and_eq_true] at hc
          cases h
          exact ⟨nofun, fun _ => ⟨_, _, hs, hc.2⟩, nofun⟩
        · cases h
  · cases h
  · cases h

/-- The burst that a READY channel forms keeps the law, its reservation counted. -/
theorem formChannel_rings {c : ChannelId} {cur : Current} {b : Burst} {s t : State} {e : BurstEntry} (h : s.RingLaw)
    (hb : s.nextBurst c cur = some b) (hf : s.formChannel c cur b = some (e, t)) : RingsWith e t := by
  obtain ⟨hw, hr, -⟩ := nextBurst_asks hb
  unfold State.formChannel at hf
  split at hf
  · obtain ⟨q, off, hd, ha⟩ := hw rfl
    exact channelWrite_rings hd (s := s.setCapture _ _) h ha hf
  · obtain ⟨q, off, hd, ha⟩ := hw rfl
    exact channelWrite_rings hd h ha hf
  · obtain ⟨q, off, hd, ha⟩ := hr rfl
    exact channelRead_rings hd (s := s.setPlayout _ _) h ha hf
  · obtain ⟨q, off, hd, ha⟩ := hw rfl
    exact channelWrite_rings hd (s := s.modChannel _ _) h ha hf
  · obtain ⟨q, off, hd, ha⟩ := hr rfl
    exact channelRead_rings hd (s := s.modChannel _ _) h ha hf

/-- The burst that the LAU forms keeps the law, its reservation counted. -/
theorem formLau_rings {sv : LauService} {s t : State} {e : BurstEntry} (h : s.RingLaw) (ha : s.lauAllows sv = true)
    (hf : s.formLau sv = some (e, t)) : RingsWith e t := by
  unfold State.formLau at hf
  unfold State.lauAllows at ha
  split at hf
  · cases hf; exact (ringsWith_of_no_read (readsRing_of_no_ref rfl)).mpr h
  · cases hf; exact (ringsWith_of_no_read (readsRing_of_no_ref rfl)).mpr h
  · rename_i ho
    rw [ho] at ha
    obtain ⟨p, hp, he⟩ := Option.map_eq_some_iff.mp hf
    cases he
    exact (ringsWith_of_no_read (readsRing_of_write rfl)).mpr (writePlace_rings h ha hp)
  · rename_i ho
    rw [ho] at ha
    obtain ⟨p, hp, he⟩ := Option.map_eq_some_iff.mp hf
    cases he
    exact readPlace_rings h ha hp rfl rfl

theorem lauAllows_of_ready {s : State} {sv : LauService} (h : s.lauReadiness = .ready) (hs : s.lau.service = some sv) :
    s.lauAllows sv = true := by
  unfold State.lauReadiness at h
  rw [hs] at h
  dsimp only at h
  split at h
  · cases h
  · split at h
    · assumption
    · cases h

/-! ## ACCESS_COMPLETION -/

/-- After the access has left the list, a READ of a ring is still to be taken off its reservation. -/
theorem rings_completing {s : State} {e : BurstEntry} (h : s.RingLaw) (ha : s.sched.accessing? = some e) (now : Nat) :
    RingsWith e (s.setSched (s.sched.completeAccess e now)) := by
  rw [ringLaw_iff] at h
  intro r
  have h := h r
  obtain ⟨o, y, h1, h2⟩ := bareList_completeAccess ha now
  rw [readRefs_bare] at h ⊢
  show RingKept ((bareList (s.sched.completeAccess e now).list).countP _ + _) (s.ring? r)
  rw [h1] at h
  rw [h2]
  rw [List.countP_append, List.countP_cons] at h
  rw [List.countP_append, Nat.add_assoc]
  exact h

theorem ringRose_rings {s : State} {r : RegionId} {d : RegionRecord} {g g' : Ring} (hr : s.ring? r = some (d, g))
    (hs : g'.SpaceLaw d.length) (hn : g'.readReserved = 32 * s.readRefs r)
    (h : ∀ q, q ≠ r → RingKept (s.readRefs q) (s.ring? q)) :
    (s.ringRose r g').RingLaw ∧ (s.setRing r g').RingLaw := by
  have key : ∀ k : Ring, k.SpaceLaw d.length → k.readReserved = g'.readReserved →
      (s.setRing r k).RingLaw := fun k k1 k2 => by
    rw [ringLaw_iff]
    intro q
    show RingKept (s.readRefs q) _
    rw [ring_setRing hr]
    by_cases e : q = r
    · subst e
      rw [if_pos rfl]
      exact ⟨k1, k2.trans hn⟩
    · rw [if_neg e]
      exact h q e
  refine ⟨?_, key _ hs rfl⟩
  have hd : g'.disarm.SpaceLaw d.length ∧ g'.disarm.readReserved = g'.readReserved := by
    unfold Ring.disarm; split <;> exact ⟨hs, rfl⟩
  unfold State.ringRose
  dsimp only
  split
  · exact ringClaims.post _ _ (key _ hd.1 hd.2)
  · exact key _ hd.1 hd.2

/-- A ring's WRITE completes (R10, R91). -/
theorem ringWriteDone_rings (ref : RingRef) {s : State} (h : s.RingLaw) : (s.ringWriteDone ref).RingLaw := by
  unfold State.ringWriteDone
  split
  · exact h
  · rename_i d g hr
    obtain ⟨h1, h2⟩ := readRefs_of_ring h hr
    obtain ⟨h3, h4⟩ := commit_space h1 ref.offset
    have := ringRose_rings hr h3 (h4.trans h2) (fun q _ => (ringLaw_iff s).mp h q)
    split
    · exact this.2
    · exact this.1

/-- A ring's READ completes: its reservation released (R13) or given back (R14). -/
theorem ringReadDone_rings {e : BurstEntry} {ref : RingRef} (back : Bool) {s : State} (he : e.isWrite = false)
    (hr : e.ringRef = some ref) (h : RingsWith e s) : (s.ringReadDone ref back).RingLaw := by
  have hq : ∀ q, readsRing q e = decide (ref.region = q) := fun q => by unfold readsRing; rw [he, hr]; simp
  have hne : ∀ q, q ≠ ref.region → RingKept (s.readRefs q) (s.ring? q) := fun q k => by
    have := h q
    rw [hq, if_neg (by simpa using Ne.symm k)] at this
    exact this
  have h0 := h ref.region
  rw [hq, if_pos (by simp)] at h0
  unfold State.ringReadDone
  cases hg : s.ring? ref.region with
  | none => rw [hg] at h0; cases h0
  | some x =>
    obtain ⟨d, g⟩ := x
    rw [hg] at h0
    obtain ⟨⟨h1, h2, h3⟩, h4⟩ := h0
    dsimp only
    split
    · refine (ringRose_rings hg ?_ ?_ hne).1
      · refine ⟨?_, ?_, ?_⟩ <;> (unfold Ring.giveBack; dsimp only; omega)
      · unfold Ring.giveBack; dsimp only; omega
    · refine (ringRose_rings hg ?_ ?_ hne).2
      · refine ⟨?_, ?_, ?_⟩ <;> (unfold Ring.consume; dsimp only; omega)
      · unfold Ring.consume; dsimp only; omega

end Sys2Proof.Laws
end

