-- ==== Sys2Proof/Tests/Slice0.lean ====
section
/-! SUPPORT. The model's own tests: the well-formedness checks, small steps on small states, and for each statement with
hypotheses a witness that meets them. -/
namespace Sys2Proof.Tests

open Sys2Proof.Machine

/-! ## Small states, and what a step made of them -/

/-- READY in NORMAL, with no bring-up behind it. -/
def live : State := { State.reset with
  sched := { State.reset.sched with mode := .normal, stage := none }
  link := { State.reset.link with readiness := .ready } }

def withSched (f : Scheduler → Scheduler) (s : State) : State := s.setSched (f s.sched)

def withLink (f : Link → Link) (s : State) : State := s.setLink (f s.link)

def failed : State := withSched (fun d => { d with mode := .failed }) live

def restarting : State := withLink (fun l => { l with readiness := .restarting, restartTag := some 9#8 }) live

/-- A LINEAR region of 2 KiB at 0. -/
def linear : RegionRecord := { base := 0, length := 2048, linkWrite := true, kind := .linear }

/-- A ring of 1 KiB at 2048 that holds 64 committed bytes. -/
def ring : Ring := { Ring.fresh .stop 1 with back := 64, committedFill := 64 }

def ringRecord : RegionRecord := { base := 2048, length := 1024, linkWrite := true, kind := .ring ring }

/-- `live` with region 1 LINEAR and region 2 a ring. -/
def mapped : State :=
  (live.setRegion 1 { refCount := 0, record := some linear }).setRegion 2 { refCount := 0, record := some ringRecord }

/-- A fill of region 1 with a pattern, 64 bytes. -/
def fill : Descriptor where
  tag := 0x1234
  source := .pattern 0x04030201
  dest := .region 1 0
  length := 64
  runs := 1
  grant := .single
  runBurst := 0
  rowPolicy := .keepOpen
  wait := none
  post := none
  notify := false

/-- A copy inside region 1. -/
def copy : Descriptor := { fill with source := .region 1 0, dest := .region 1 1024 }

def progress : Progress := { sourceAdmitted := 0, admitted := 0, done := 0, runsCompleted := 0, fault := false }

/-- `mapped` with channel 0 RUNNING a descriptor at a point of its progress. -/
def running (d : Descriptor) (p : Progress) : State :=
  mapped.setChannel 0 { Channel.reset with state := .running, current := some { desc := d, prog := p } }

def waitingEntry (o : EntryOwner) (tr : Transfer) (addr : Nat) : BurstEntry where
  owner := o
  transfer := tr
  addr := addr
  closeAfter := false
  ringRef := none
  state := .waitingBank

def openRow : OpenRow :=
  { row := 0, openingStart := 0, recoveryEnd := none, lastActivity := 0, closeAfterMark := false }

/-- A scheduler that accesses this one entry, its bank OPEN. -/
def accessing (e : BurstEntry) (s : State) : State := withSched (fun d =>
  { (d.setBank e.bank (.opened openRow)) with list := [{ e with state := .accessing }], accessStart := some 100 }) s

def ones : List Byte := List.replicate 32 0x11#8

def chWrite : BurstEntry := waitingEntry (.requester (.ch 0)) (.write ones) 0

def chRead : BurstEntry := waitingEntry (.requester (.ch 0)) (.read (.copySlot .a)) 0

/-- What holds of the next state. -/
def run (i : Instr) (s : State) (p : State → Bool) : Bool :=
  match exec i s with
  | .next t => p t
  | .fault _ => false
  | .refused _ => false

/-- The response made last. -/
def said (st : Status) (data : List Byte) (t : State) : Bool :=
  match t.link.readyList.getLast? with
  | some r => decide (r.status = st ∧ r.data = data)
  | none => false

/-- A request of `mapped`, and its response. -/
def asks (i : Instr) (st : Status) (data : List Byte) : Bool := run i mapped (said st data)

/-- The notices held, oldest first, without their numbers. -/
def told (t : State) : List NoticeBody := t.notices.held.map Notice.body

/-- What holds of the ring of region 2. -/
def ringHas (p : Ring → Bool) (t : State) : Bool :=
  match t.ring? 2 with
  | some (_, g) => p g
  | none => false

/-- The tags and statuses of the responses that are ready. -/
def answers (t : State) : List (Byte × Status) := t.link.readyList.map fun r => (r.tag, r.status)

/-- A service of region 1, none of its bursts admitted. -/
def service (op : LauOp) (total : Nat) : LauService where
  request := { tag := 5#8, region := 1, op := op }
  base := 0
  length := 2048
  toAdmit := total
  admitted := 0
  completed := 0
  claim := none
  firstFailure := none
  discarded := 0
  dropped := 0
  cutShort := false

/-- The LAU with a request in service and others behind it, their entries WORKING. -/
def inService (sv : LauService) (q : List LauRequest) (s : State) : State :=
  withLink (fun l => { l with table := (sv.request :: q).map fun r =>
    { tag := r.tag, kind := 0x31#8, stage := .working, orphaned := false } })
      (s.setLau { Lau.reset with service := some sv, queue := q })

/-- A GET of region 1 that waits. -/
def behind : LauRequest := { tag := 6#8, region := 1, op := .get 0 32 }

/-- An entry of a requester at an offset of the ring. -/
def ringEntry (o : Requester) (tr : Transfer) (off : Nat) : BurstEntry :=
  { waitingEntry (.requester o) tr (2048 + off) with ringRef := some { region := 2, offset := off } }

def intoRing : Descriptor := { fill with dest := .region 2 0 }

/-- A service of the ring, which holds a claim of it. -/
def ringService (role : Role) (op : LauOp) (total : Nat) : LauService :=
  { service op total with request := { tag := 5#8, region := 2, op := op }, base := 2048, length := 1024, claim := some role }

/-- Capture port 3 and play-out port 1 ENABLED and bound to channel 0. -/
def bound : State :=
  (mapped.setCapture 3 { CapturePort.reset with enabled := true, binding := some 0 }).setPlayout 1
    { PlayoutPort.reset with enabled := true, binding := some 0, fifo := [0x34#8, 0x12#8] }

def runningChannel : Channel := { Channel.reset with state := .running }

/-! ## Well-formedness (each check refuses a term) -/

theorem test_payload_too_long : (Instr.echo 0#8 (List.replicate 299 0#8)).wellFormed = false ∧
    (Instr.echo 0#8 (List.replicate 298 0#8)).wellFormed = true := by decide +kernel

theorem test_bad_kind_is_no_request : (Instr.badKind 0x20#8 0#8 []).wellFormed = false ∧
    (Instr.badKind 0x7F#8 0#8 []).wellFormed = true := by decide

theorem test_discarded_bytes : (Instr.crcError []).wellFormed = false ∧ (Instr.oversize []).wellFormed = false ∧
    (Instr.oversize [0xA5#8]).wellFormed = true := by decide

/-! ## The part as a machine -/

theorem witness_StepTakesFront : ({ live with pending := [.settleExpiry] } : State).pending = [.settleExpiry] := rfl

theorem witness_QueueKeptClockForward : exec .settleExpiry live = .next live ∧ live.pending = [] := by
  constructor <;> rfl

theorem test_fault_needs_a_burst_outside_the_die :
    (match exec (.accessCompletion 0#272) (accessing { chWrite with addr := 67108864 } live) with
      | .fault f => decide (f = .noSuchBurst 67108864)
      | .next _ => false
      | .refused _ => false) = true := by decide

theorem witness_DieKeptByOtherCommands : exec .settleExpiry live = .next live ∧
    (Instr.settleExpiry ≠ .accessCompletion 0#272) := ⟨rfl, by decide⟩

theorem witness_RequestsLeaveTheMemorySide : (Instr.markQuery 5#8 []).wellFormed = true ∧
    (Instr.markQuery 5#8 []).frame? = some (0x26#8, 5#8, []) ∧ (0x26#8 : Byte) ∉ [0x04#8, 0x15#8, 0x16#8, 0x17#8] ∧
    (run (.markQuery 5#8 []) live fun _ => true) = true := by decide

theorem test_pin_reset_keeps_the_die : (run .pinReset { live with mem := [(5, 1#8)] } fun t =>
    decide (t.mem = [(5, 1#8)] ∧ t.link.resetHeld = true ∧ t.sched.mode = .bringup)) = true := by decide

theorem test_pin_reset_end_samples_the_straps :
    (run .pinReset live fun t => run (.pinResetEnd true false) t fun u => decide (u.link.lineRate = .mbaud4)) = true := by
  decide

/-! ## Frames -/

theorem witness_AddressMap : 67108832 % 32 = 0 ∧ 67107840 % 1024 = 0 ∧ (bankOf 7168).val = 7 ∧
    rowOf (7168 + 1024) = rowOf 7168 + 1 := by decide

set_option maxRecDepth 20000 in
theorem test_crc_check_value :
    crc16 [0x31#8, 0x32#8, 0x33#8, 0x34#8, 0x35#8, 0x36#8, 0x37#8, 0x38#8, 0x39#8] = 0x29B1#16 := by decide

theorem witness_FrameRoundTrip : ([] : List Byte).length ≤ 298 ∧ (List.replicate 298 (0#8 : Byte)).length ≤ 298 := by
  decide +kernel

set_option maxRecDepth 20000 in
theorem test_identify_byte_by_byte :
    RxState.hunt.takeAll (frameBytes 0x01#8 7#8 []) = (.hunt, .good 0x01#8 7#8 []) := by decide

theorem witness_BytesAreTheRequest : (Instr.identify 7#8 []).wellFormed = true ∧
    (Instr.identify 7#8 []).frame? = some (0x01#8, 7#8, []) ∧ live.link.rx = .hunt ∧ live.link.receives = true := by decide

/-- `live` with its receiver inside a frame. -/
def inFrame (r : RxState) : State := withLink (fun l => { l with rx := r, timer := some 50 }) live

theorem witness_ByteMoves : (inFrame (.length none)).link.receives = true ∧
    (run (.byteTaken 0xA5#8) live fun t => decide (t.link.rx = .length none)) = true ∧
    (run (.byteTaken 0xA4#8) live fun t => decide (t.link.rx = .hunt)) = true ∧
    (run (.byteTaken 2#8) (inFrame (.length none)) fun t => decide (t.link.rx = .length (some 2#8))) = true := by decide

theorem witness_ByteMoves_length :
    (run (.byteTaken 0#8) (inFrame (.length (some 1#8))) fun t => decide (t.link.counters.oversizes = 1)) = true ∧
    (run (.byteTaken 0#8) (inFrame (.length (some 2#8))) fun t => decide (t.link.rx = .body 2 [])) = true ∧
    (run (.byteTaken 1#8) (inFrame (.length (some 0x2C#8))) fun t => decide (t.link.rx = .body 300 [])) = true ∧
    (run (.byteTaken 1#8) (inFrame (.length (some 0x2D#8))) fun t => decide (t.link.rx = .hunt)) = true := by decide

theorem witness_ByteMoves_body :
    (run (.byteTaken 1#8) (inFrame (.body 2 [])) fun t => decide (t.link.rx = .body 2 [1#8])) = true ∧
    (run (.byteTaken 7#8) (inFrame (.body 2 [1#8])) fun t => decide (t.link.rx = .check [1#8, 7#8] none)) = true ∧
    (run (.byteTaken 7#8) (inFrame (.check [1#8, 7#8] none)) fun t =>
      decide (t.link.rx = .check [1#8, 7#8] (some 7#8))) = true := by decide

set_option maxRecDepth 20000 in
theorem witness_ByteMoves_check :
    (run (.byteTaken 0#8) (inFrame (.check [1#8, 7#8] (some 0#8))) fun t => decide (t.link.counters.crcErrors = 1)) = true ∧
    (run (.byteTaken (highByte (crc16 [2#8, 0#8, 1#8, 7#8])))
      (inFrame (.check [1#8, 7#8] (some (lowByte (crc16 [2#8, 0#8, 1#8, 7#8]))))) fun t =>
        decide (t.link.counters.goodFrames = 1)) = true := by decide

set_option maxRecDepth 20000 in
theorem witness_ReceiverDiscards :
    (RxState.hunt.takeAll [0xA5#8, 2#8, 0#8, 1#8, 7#8, 0#8, 0#8]).2 = .crcError ∧
    (RxState.hunt.takeAll [0xA5#8, 1#8, 0#8]).2 = .oversize ∧
    (run (.crcError [0xA5#8, 2#8, 0#8, 1#8, 7#8, 0#8, 0#8]) live fun t => decide (t.link.counters.crcErrors = 1)) = true ∧
    (run (.oversize [0xA5#8, 1#8, 0#8]) live fun t => decide (t.link.counters.oversizes = 1)) = true ∧
    (run .interByteTimeout (inFrame (.body 2 [])) fun t =>
      decide (t.link.counters.timeouts = 1 ∧ t.link.rx = .hunt ∧ t.now = 1000050)) = true := by decide

/-- A table with a WORKING entry and one that is ANSWERED. -/
def busyLink : Link := { live.link with
  table := [{ tag := 1#8, kind := 0x30#8, stage := .working, orphaned := false },
    { tag := 2#8, kind := 0x01#8, stage := .answered, orphaned := false }]
  readyList := [{ tag := 2#8, kind := 0x01#8, status := .ok, data := [] }] }

theorem witness_BreakAtTheLink : (live.setLink busyLink).link.receives = true ∧
    (run .linkBreak (live.setLink busyLink) fun t =>
      decide (t.link.table = [{ tag := 1#8, kind := 0x30#8, stage := .working, orphaned := true }]) &&
        run .rxdReturnedHigh t fun u => u.link.receives) = true := by decide

theorem witness_BreakAtTheLink_restart :
    (run .linkBreak (withLink (fun l => { l with
      table := [{ tag := 9#8, kind := 0x04#8, stage := .answered, orphaned := false }]
      readyList := [{ tag := 9#8, kind := 0x04#8, status := .ok, data := [] }] }) restarting) fun t =>
        decide (t.link.readiness = .ready ∧ told t = [.ready .restart] ∧ t.link.table = [])) = true := by decide

/-! ## Dispatch -/

theorem witness_RequestNeedsItsFrame :
    (Instr.identify 7#8 []).frame? = some (0x01#8, 7#8, []) ∧
    (inFrame (.body 5 [])).link.frameCompletes 0x01#8 7#8 [] = false := by decide

/-- A full table. -/
def fullLink : Link := { live.link with table := [1#8, 2#8, 3#8, 4#8, 5#8, 6#8, 7#8, 8#8].map fun t =>
  { tag := t, kind := 0x30#8, stage := .working, orphaned := false } }

theorem witness_RefusalSlot : (live.setLink fullLink).link.frameCompletes 0x01#8 1#8 [] = true ∧
    fullLink.tagInUse 1#8 = true ∧ fullLink.tagInUse 9#8 = false ∧ 8 ≤ fullLink.table.length ∧ fullLink.refusal = none ∧
    (run (.identify 9#8 []) (live.setLink fullLink) fun t =>
      decide (t.link.refusal = some { tag := 9#8, kind := 0x01#8, status := .busy, data := [] }) &&
        run (.identify 1#8 []) t fun u => decide (u.link.counters.refusalsDropped = 1) &&
          run .frameBegin u fun v => decide (v.link.refusal = none)) = true := by
  decide

theorem witness_ChecksBeforeTheOwner : live.takes 0x7F#8 5#8 [] = true ∧ (0x7F#8 : Byte) ∉ requestCodes ∧
    (run (.badKind 0x7F#8 5#8 []) live (said .badKind [])) = true ∧
    (run (.markQuery 5#8 [0#8]) live (said .badLength [])) = true ∧
    (run (.markQuery 5#8 []) State.reset (said .notReady [])) = true ∧
    (run (.markQuery 5#8 []) restarting (said .notReady [])) = true ∧
    (run (.restart 5#8 []) restarting (said .wrongState [])) = true := by decide

theorem witness_FailedRefuses : failed.takes 0x26#8 5#8 [] = true ∧ failed.link.readiness = .ready ∧
    lengthOk 0x26#8 [] = true ∧ (0x26#8 : Byte) ∈ requestCodes ∧ (0x26#8 : Byte) ∉ takenInFailed ∧
    (run (.markQuery 5#8 []) failed (said .dramFault [])) = true := by decide

/-! ## The control link's own requests -/

theorem witness_IdentifyAndEcho : live.takes 0x02#8 5#8 (List.replicate 297 0#8) = true ∧
    live.takes 0x02#8 5#8 (List.replicate 298 0#8) = true ∧
    (run (.echo 5#8 (List.replicate 298 0#8)) live (said .badLength [])) = true := by decide +kernel

theorem test_identify : (run (.identify 5#8 []) failed (said .ok
    [0x5C#8, 0x06#8, 0x88#8, 0x02#8, 1#8, 6#8, 16#8, 16#8, 4#8, 2#8, 0#8, 0#8, 0#8, 4#8, 8#8, 32#8, 0#8])) = true := by
  decide

theorem witness_LinkStats : live.takes 0x03#8 5#8 [2#8] = true ∧
    (run (.linkStats 5#8 [1#8]) live fun t =>
      said .ok [1#8, 0#8, 0#8, 0#8, 0#8, 0#8, 0#8, 0#8, 0#8, 0#8, 0#8, 0#8, 1#8, 0#8, 1#8] t &&
        decide (t.link.counters.goodFrames = 0)) = true ∧
    (run (.linkStats 5#8 [0#8]) live fun t => decide (t.link.counters.goodFrames = 1)) = true ∧
    (run (.linkStats 5#8 [2#8]) live (said .badValue [])) = true := by decide

/-- Two notices held, numbers 255 and 0, the second not sent yet. -/
def noticed : State := live.setNotices
  { held := [{ seq := 255#8, body := .dramFault }, { seq := 0#8, body := .ready .powerOn }], nextSeq := 1, sendPos := 1,
    lost := 3, isOpen := true }

theorem witness_PostingANotice : (noticed.notices.post .dramFault).held.length = 3 ∧
    ({ noticed.notices with isOpen := false }.post .dramFault).lost = 4 := by decide

theorem witness_NoticeAck : noticed.takes 0x08#8 5#8 [0#8] = true ∧
    (run (.noticeAck 5#8 [7#8]) noticed (said .notHeld [2#8, 1#8, 255#8])) = true ∧
    (run (.noticeAck 5#8 [0#8]) noticed fun t => said .ok [2#8, 1#8] t &&
      decide (t.notices.held = [{ seq := 1#8, body := .noticesLost 3 }]) && t.attn) = true := by decide

theorem witness_NoticeAck_empty :
    (run (.noticeAck 5#8 [7#8]) live (said .notHeld [0#8, 0#8, 0#8])) = true := by decide

theorem witness_NoticeReplay : noticed.takes 0x09#8 5#8 [255#8] = true ∧
    (run (.noticeReplay 5#8 [255#8]) noticed fun t => said .ok [1#8, 255#8, 2#8] t && decide (t.notices.sendPos = 0)) = true ∧
    (run (.noticeReplay 5#8 [7#8]) noticed (said .notHeld [])) = true := by decide

theorem witness_Transmitter : (live.setLink busyLink).link.tx = none ∧
    (run .frameBegin (live.setLink busyLink) fun t =>
      decide (t.link.table.map OutEntry.stage = [.working, .sending]) && run .frameEnd t fun u =>
        decide (u.link.table.map OutEntry.tag = [1#8])) = true ∧
    (run .frameBegin noticed fun t => decide (t.notices.sendPos = 2)) = true ∧
    (run .frameBegin live fun t => decide (t.link.tx = none)) = true := by decide

theorem witness_Transmitter_frames :
    (Response.frame { tag := 7#8, kind := 0x33#8, status := .dramFault, data := [] }).take 6 =
      [0xA5#8, 3#8, 0#8, 0xB3#8, 7#8, 21#8] ∧
    (Response.frame { tag := 7#8, kind := 0x34#8, status := .badKind, data := [] }).take 6 =
      [0xA5#8, 3#8, 0#8, 0xFF#8, 7#8, 3#8] ∧
    (Notice.frame { seq := 9#8, body := .descriptorDone 5 0x1234 .discarded 64 1 }).take 16 =
      [0xA5#8, 13#8, 0#8, 0xC0#8, 9#8, 3#8, 5#8, 0x34#8, 0x12#8, 3#8, 64#8, 0#8, 0#8, 0#8, 1#8, 0#8] ∧
    (Notice.frame { seq := 9#8, body := .checkFault 32 .lau }).take 11 =
      [0xA5#8, 8#8, 0#8, 0xC0#8, 9#8, 4#8, 32#8, 0#8, 0#8, 0#8, 6#8] := by decide

/-! ## RESTART -/

theorem witness_RestartTaken : mapped.takes 0x04#8 5#8 [] = true ∧ mapped.serving = true ∧
    (run (.restart 5#8 []) mapped fun t => said .ok [] t && decide (t.link.readiness = .restarting ∧ t.notices.isOpen = false) &&
      run .frameBegin t fun u => run .frameEnd u fun v =>
        decide (v.link.readiness = .ready ∧ v.notices.held = [{ seq := 0#8, body := .ready .restart }])) = true ∧
    (run (.restart 5#8 []) (accessing chWrite mapped) fun t => decide (t.link.readyList = [] ∧ t.sched.list ≠ [])) = true := by
  decide

/-- A PUT of 64 bytes, half of it written. -/
def half : LauService := { service (.put 0 (ones ++ ones)) 64 with admitted := 32, completed := 32 }

theorem witness_RestartTaken_lau :
    (run (.restart 9#8 []) (inService half [behind] (accessing chWrite mapped)) fun t =>
      decide (answers t = [(6#8, .restarted), (5#8, .restarted)] ∧ t.lau.service = none) &&
        said .restarted (u32 32) t && run .restartReset t fun u => decide (u.link = t.link)) = true ∧
    (run (.restart 9#8 []) (accessing (waitingEntry (.requester .lau) (.write ones) 32)
      (inService { half with completed := 0 } [behind] mapped)) fun t =>
        decide (answers t = [(6#8, .restarted)] ∧ t.lau.queue = [] ∧
          t.lau.service.map (fun sv => (sv.toAdmit, sv.cutShort)) = some (32, true))) = true ∧
    (run (.restart 9#8 []) (inService half [behind] mapped) fun t =>
      decide (answers t = [(6#8, .restarted), (5#8, .restarted), (9#8, .ok)] ∧ t.notices.isOpen = false) &&
        run .admission t fun u => decide (u = t)) = true := by decide +kernel

/-- RESTARTING, its entry WORKING. -/
def drained (orphaned : Bool) : State := withLink (fun l =>
  { l with table := [{ tag := 9#8, kind := 0x04#8, stage := .working, orphaned := orphaned }] }) restarting

theorem witness_RestartCompletes : (drained true).link.working? 9#8 ≠ none ∧ (drained true).sched.list = [] ∧
    (drained true).lau.queue = [] ∧ (drained true).lau.service = none ∧
    (run .restartReset (drained false) (said .ok [])) = true ∧
    (run .restartReset (drained true) fun t => decide (t.link.readiness = .ready ∧ t.link.table = [])) = true := by decide

theorem witness_RestartCompletes_once :
    (run .restartReset (withLink (fun l => { l with
      table := [{ tag := 9#8, kind := 0x04#8, stage := .answered, orphaned := false }] }) restarting) fun t =>
        decide (t.link.readiness = .restarting ∧ t.link.readyList = [])) = true ∧
    (run .restartReset (accessing chWrite (drained false)) fun t => decide (t.link.readyList = [])) = true := by decide

/-! ## Regions -/

/-- The payload of a REGION_DEFINE of a ring. -/
def define (region length : Nat) (base : List Byte) : List Byte :=
  u8 region ++ base ++ u32 length ++ [1#8, 1#8, 0#8] ++ u16 1

theorem witness_RegionDefine : mapped.takes 0x10#8 5#8 (define 3 1024 (u32 4096)) = true ∧
    (run (.regionDefine 5#8 (define 3 1024 (u32 4096))) mapped fun t => said .ok [] t && (t.region 3).record.isSome) = true ∧
    asks (.regionDefine 5#8 (define 16 1024 (u32 4096))) .badValue [] = true ∧
    asks (.regionDefine 5#8 (define 3 0 (u32 4096))) .badValue [] = true ∧
    asks (.regionDefine 5#8 (define 3 1024 (u32 4097))) .alignment [] = true ∧
    asks (.regionDefine 5#8 (define 3 2048 (u32 67107840))) .outOfBounds [] = true ∧
    asks (.regionDefine 5#8 (define 3 1024 (u32 67107840))) .ok [] = true ∧
    asks (.regionDefine 5#8 (define 2 1024 (u32 4096))) .inUse [] = true ∧
    asks (.regionDefine 5#8 (define 3 1024 (u32 2048))) .overlap [] = true := by decide

theorem witness_RegionDeleteAndRingReset : mapped.takes 0x11#8 5#8 [15#8] = true ∧ mapped.takes 0x13#8 5#8 [2#8] = true ∧
    asks (.regionDelete 5#8 [16#8]) .badValue [] = true ∧ asks (.regionDelete 5#8 [15#8]) .noRegion [] = true ∧
    asks (.regionDelete 5#8 [1#8]) .ok [] = true ∧
    (run (.regionDelete 5#8 [1#8]) (mapped.setRegion 1 { refCount := 1, record := some linear }) (said .inUse [])) = true ∧
    asks (.ringReset 5#8 [16#8]) .badValue [] = true ∧ asks (.ringReset 5#8 [1#8]) .badValue [] = true ∧
    asks (.ringReset 5#8 [3#8]) .noRegion [] = true ∧ asks (.ringReset 5#8 [2#8]) .ok [] = true := by decide

/-- `mapped` with channel 5 in this state, its current descriptor into the ring. -/
def naming (st : ChannelState) : State :=
  mapped.setChannel 5 { Channel.reset with state := st, current := some { desc := intoRing, prog := progress } }

theorem witness_RegionDeleteAndRingReset_named :
    (naming (.waiting .mark)).takes 0x13#8 5#8 [2#8] = true ∧ (naming (.waiting .mark)).serving = true ∧
    (run (.ringReset 5#8 [2#8]) (naming (.waiting .mark)) (said .ok [])) = true ∧
    (run (.ringReset 5#8 [2#8]) ((naming .running).setRing 2 { ring with writerClaim := some (.ch 5) }) (said .inUse [])) =
      true ∧
    (run (.ringReset 5#8 [2#8]) (mapped.setRing 2 { ring with readReserved := 32 }) (said .inUse [])) = true ∧
    (run (.ringReset 5#8 [2#8]) ((running fill progress).setChannel 5 { runningChannel with pending := [intoRing] }) fun t =>
      said .ok [] t && ringHas (fun g => g.back = 0 && g.committedFill = 0) t) = true := by decide

theorem witness_RegionQuery : mapped.takes 0x12#8 5#8 [0#8] = true ∧ asks (.regionQuery 5#8 [16#8]) .badValue [] = true ∧
    asks (.regionQuery 5#8 [1#8]) .ok ([1#8, 0#8] ++ u32 0 ++ u32 2048 ++ [0#8, 1#8] ++ List.replicate 25 0#8 ++
      [0xFF#8, 0xFF#8, 0#8, 0#8]) = true ∧
    asks (.regionQuery 5#8 [2#8]) .ok ([1#8, 0#8] ++ u32 2048 ++ u32 1024 ++ [1#8, 1#8, 0#8] ++ u32 0 ++ u32 64 ++ u32 64 ++
      u32 0 ++ [0#8] ++ u32 0 ++ u16 1 ++ [1#8, 0xFF#8, 0xFF#8, 0#8, 0#8]) = true := by decide

theorem witness_RingAccounting : 32 ≤ ring.space 1024 ∧ 1024 % 32 = 0 ∧
    { ring with back := 0, committedFill := 1024 }.space 1024 < 32 ∧ 32 ≤ ring.committedFill ∧
    32 ≤ (ring.reserveRead 1024).readReserved ∧
    (ring.reserveWrite 1024).writeList = [{ offset := 64, accessed := false }] := by decide

theorem witness_RingAccounting_law : ring.SpaceLaw 1024 ∧ { ring with back := 0, committedFill := 1024 }.SpaceLaw 1024 := by
  unfold Ring.SpaceLaw
  decide

theorem witness_RingAccounting_drop :
    { ring with committedFill := 1024 }.SpaceLaw 1024 ∧
    (let g := { ring with front := 992, back := 992, committedFill := 1024, thresholdKiB := 1, armed := false }
     g.reserveWrite 1024 = { g with
      front := 0, back := 0, committedFill := 992, lostBytes := 32, armed := true,
      writeList := [{ offset := 992, accessed := false }] }) ∧
    (let g := { ring with readReserved := 32, writeList := [{ offset := 64, accessed := false }, { offset := 96, accessed := true }] }
     (g.commit 64).committedFill = 128 ∧ (g.commit 64).writeList = [] ∧ (g.giveBack 992).readReserved = 0 ∧
      g.canGiveBack 1024 992 = true) := by
  unfold Ring.SpaceLaw
  decide

/-! ## The scheduler and the check unit -/

theorem witness_RowPolicyAndRetentionRate : failed.takes 0x15#8 5#8 [7#8] = true ∧ failed.link.readiness = .ready ∧
    (run (.rowPolicy 5#8 [7#8]) failed fun t => decide (t.sched.rowIdleLimit = .us16) && said .ok [] t) = true ∧
    (run (.rowPolicy 5#8 [8#8]) live (said .badValue [])) = true ∧
    (run (.retentionRate 5#8 [1#8]) live fun t => decide (t.sched.retentionRate = .double) && said .ok [] t) = true ∧
    (run (.retentionRate 5#8 [2#8]) live (said .badValue [])) = true := by decide

theorem witness_CheckStats : failed.takes 0x17#8 5#8 [2#8] = true ∧
    (run (.checkStats 5#8 [1#8]) (failed.setCheck { corrected := 2, uncorrectable := 1, lastUncorrectable := some 32 }) fun t =>
      said .ok (u32 2 ++ u32 1 ++ [1#8] ++ u32 32) t && decide (t.check = CheckUnit.reset)) = true ∧
    (run (.checkStats 5#8 [2#8]) failed (said .badValue [])) = true := by decide

theorem witness_Queries : live.takes 0x14#8 5#8 [] = true ∧ live.takes 0x19#8 5#8 [] = true ∧
    live.takes 0x26#8 5#8 [] = true ∧ live.takes 0x23#8 5#8 [5#8] = true ∧
    (run (.channelQuery 5#8 [6#8]) live (said .badValue [])) = true ∧
    (run (.markQuery 5#8 []) live (said .ok (List.replicate 96 0#8))) = true ∧
    (run (.schedQuery 5#8 []) live (said .ok ([1#8, 0#8, 3#8] ++ List.replicate 44 0#8))) = true ∧
    (run (.arbQuery 5#8 []) live (said .ok ([2#8, 2#8, 2#8, 2#8, 2#8, 2#8, 1#8] ++ List.replicate 7 1#8 ++
      List.replicate 8 0#8 ++ [0xFF#8]))) = true := by decide

theorem test_channel_query : (run (.channelQuery 5#8 [0#8]) (running fill progress) (said .ok
    ([2#8, 0#8, 0#8, 0#8, 0#8, 0#8, 0#8, 0#8, 0#8, 0#8, 0#8, 0#8] ++ [1#8, 0x34#8, 0x12#8] ++ List.replicate 15 0#8 ++
      [0#8, 0#8, 0#8, 0#8]))) = true := by decide

/-- Channel 0 WAITING for a claim of the ring, as its reader. -/
def claiming : State :=
  (mapped.setRing 2 { ring with readerClaim := some .lau, readerWaiters := [0] }).setChannel 0 { Channel.reset with
    state := .waiting .claim, stop := .afterCurrent,
    current := some { desc := { copy with source := .region 2 0 }, prog := progress } }

theorem witness_Queries_channel :
    (run (.channelQuery 5#8 [0#8]) claiming (said .ok
      ([1#8, 1#8, 1#8, 0#8, 0#8, 0#8, 1#8, 2#8, 1#8, 0#8, 0#8, 1#8] ++ [1#8, 0x34#8, 0x12#8] ++ List.replicate 15 0#8 ++
        [0#8, 0#8, 0#8, 0#8]))) = true ∧
    (run (.channelQuery 5#8 [0#8]) (claiming.setRing 2 ring) (said .ok
      ([1#8, 1#8, 1#8, 0#8, 0#8, 0#8, 0#8, 0#8, 0#8, 0#8, 0#8, 1#8] ++ [1#8, 0x34#8, 0x12#8] ++ List.replicate 15 0#8 ++
        [0#8, 0#8, 0#8, 0#8]))) = true ∧
    (run (.channelQuery 5#8 [0#8]) (mapped.setChannel 0 { Channel.reset with
      state := .halted .fault, slotA := .reserved 0, slotB := .full 32 ones }) (said .ok
        ([4#8, 0#8, 0#8, 0#8, 0#8, 0#8, 0#8, 0#8, 0#8, 1#8, 1#8, 0#8] ++ List.replicate 18 0#8 ++
          [0#8, 1#8, 2#8, 0#8]))) = true := by decide

def calibrating : State := withSched (fun d => { d with stage := some .calibrate }) State.reset

theorem witness_BringUp : State.reset.sched.stage = some .settle ∧ calibrating.sched.stage = some .calibrate ∧
    calibrating.sched.list = [] ∧ calibrating.sched.refreshDebt = 0 ∧ (∀ b, calibrating.sched.bank b = .closed) ∧
    (run .settleExpiry State.reset fun t => decide (t.sched.stage = some .calibrate)) = true ∧
    (run (.calibrationCompletion false) calibrating fun t => decide (t.sched.mode = .failed) && t.attn) = true ∧
    (run (.calibrationCompletion true) calibrating fun t => decide (t.sched.list.map BurstEntry.addr = [0, 32])) = true := by
  decide

/-- In CLEAR, with a debt, these entries in the list, and the sweep come so far. -/
def clearing (debt : Nat) (l : List BurstEntry) (pos : Nat) : State :=
  withSched (fun d => { d with stage := some .clear, refreshDebt := debt, list := l, sweepPos := pos }) State.reset

def zeroes (addr : Nat) : BurstEntry := waitingEntry .scheduler (.write (List.replicate 32 0#8)) addr

theorem witness_BringUp_sweep :
    ((clearing 0 [zeroes 0] 32).sched.sweepAdmit.list.map BurstEntry.addr = [0, 32]) ∧
    ((clearing 1 [zeroes 0] 32).sched.sweepAdmit = (clearing 1 [zeroes 0] 32).sched) ∧
    ((clearing 0 [zeroes 0, zeroes 32] 64).sched.sweepAdmit = (clearing 0 [zeroes 0, zeroes 32] 64).sched) ∧
    ((clearing 0 [] 67108832).sched.sweepAdmit.list.map BurstEntry.addr = [67108832]) ∧
    ((clearing 0 [] 67108864).sched.sweepAdmit = (clearing 0 [] 67108864).sched) := by decide

/-- NORMAL with an interval running and a debt. -/
def owing (debt : Nat) : State :=
  withSched (fun d => { d with refreshDebt := debt, interval := some { lengthNs := 7800, endsAt := 100 } }) live

theorem witness_IntervalExpiry : live.sched.interval = none ∧
    (run .intervalExpiry (owing 0) fun t => decide (t.sched.mode = .draining ∧ t.sched.refreshDebt = 1 ∧ t.now = 100)) = true ∧
    (run .intervalExpiry (withSched (fun d => { d with list := [chWrite] }) (owing 2)) fun t =>
      decide (t.sched.mode = .normal)) = true ∧
    (run .intervalExpiry (withSched (fun d => { d with list := [chWrite] }) (owing 3)) fun t =>
      decide (t.sched.mode = .draining)) = true ∧
    (run .intervalExpiry (owing 8) fun t => decide (t.sched.missedRefreshes = 1) && t.attn) = true := by decide

/-- Bank 0 OPEN on row 0 at this time, the openings at these times. -/
def opened (o : OpenRow) (h : List Nat) (now : Nat) : State :=
  (withSched (fun d => { d.setBank 0 (.opened o) with history := h }) live).setNow now

theorem witness_Expiries :
    (run .spacingExpiry (opened openRow [0] 0) fun t => decide (t.now = 6)) = true ∧
    (run .windowExpiry (opened openRow [0, 10] 35) fun t => decide (t.now = 40)) = true ∧
    (run (.minOpenExpiry 0) (opened openRow [0] 0) fun t => decide (t.now = 34)) = true ∧
    (run (.recoveryExpiry 0) (opened { openRow with recoveryEnd := some 25 } [] 0) fun t => decide (t.now = 25)) = true ∧
    (run (.recoveryExpiry 0) (opened openRow [] 0) fun t => decide (t.now = 0)) = true ∧ live.sched.history = [] ∧
    (∀ u ∈ (opened openRow [0, 10] 40).sched.history, u + 30 ≤ 40) ∧
    (run .windowExpiry (opened openRow [0, 10] 40) fun t => decide (t = opened openRow [0, 10] 40)) = true := by decide

/-- One entry that waits for bank 0. -/
def waiting (h : List Nat) (now : Nat) : State :=
  (withSched (fun d => { d with list := [chWrite], history := h }) live).setNow now

theorem witness_Openings :
    (run .openingStart (waiting [0, 6, 12] 30) fun t => decide (t.sched.bank 0 = .opening 0 30)) = true ∧
    (run .openingStart (waiting [0, 6, 12, 18] 29) fun t => decide (t.sched.bank 0 = .closed)) = true ∧
    (run .openingStart (waiting [0, 6, 12, 18] 30) fun t => decide (t.sched.history = [6, 12, 18, 30])) = true ∧
    (run .openingStart (waiting [25] 30) fun t => decide (t.sched.bank 0 = .closed)) = true ∧
    (run .openingStart (waiting [] 30) fun t => run (.openingCompletion 0) t fun u =>
      decide (u.now = 44 ∧ u.sched.list.map BurstEntry.state = [.ready])) = true := by decide

theorem witness_Openings_clear :
    (run .openingStart (clearing 0 [zeroes 0, zeroes 32] 64) fun t => decide (t.sched.bank 0 = .opening 0 0) &&
      run (.openingCompletion 0) t fun u => decide (u.sched.list.map BurstEntry.state = [.ready, .waitingBank]) &&
        run .accessStart u fun v => decide (v.sched.list.map BurstEntry.state = [.accessing, .waitingBank])) = true ∧
    (run .openingStart (withSched (fun d => { d with list := [zeroes 0] }) calibrating) fun t =>
      decide (t.sched.bank 0 = .closed)) = true := by decide

theorem witness_Closings :
    (run (.closingStart 0) (opened { openRow with closeAfterMark := true } [] 33) fun t =>
      decide (t.sched.bank 0 ≠ .closing 33)) = true ∧
    (run (.closingStart 0) (opened { openRow with closeAfterMark := true } [] 34) fun t =>
      decide (t.sched.bank 0 = .closing 34) && run (.closingCompletion 0) t fun u =>
        decide (u.sched.bank 0 = .closed ∧ u.now = 48)) = true ∧
    (run (.closingStart 0) (opened openRow [] 34) fun t => decide (t.sched.bank 0 = .opened openRow)) = true ∧
    (run (.idleExpiry 0) (opened openRow [] 34) fun t => decide (t.sched.bank 0 = .closing 1000)) = true := by decide

theorem witness_Closings_idle :
    (run (.idleExpiry 0) (withSched (fun d => { d with mode := .draining }) (opened openRow [] 34)) fun t =>
      decide (t.sched.bank 0 = .closing 1000)) = true ∧
    (run (.idleExpiry 0) (withSched (fun d => { d with mode := .refreshing }) (opened openRow [] 34)) fun t =>
      decide (t.sched.bank 0 = .opened openRow ∧ t.now = 1000)) = true ∧
    (run (.idleExpiry 0) (opened { openRow with openingStart := 967 } [] 34) fun t =>
      decide (t.sched.mode = .normal ∧ t.now = 1000 ∧ t.sched.bank 0 ≠ .closing 1000)) = true ∧
    (run (.idleExpiry 0) (opened { openRow with openingStart := 966, recoveryEnd := some 1000 } [] 34) fun t =>
      decide (t.sched.bank 0 = .closing 1000)) = true ∧
    (run (.idleExpiry 0) (opened { openRow with recoveryEnd := some 1001 } [] 34) fun t =>
      decide (t.now = 1000 ∧ t.sched.bank 0 ≠ .closing 1000)) = true ∧
    (run (.idleExpiry 0) (withSched (fun d => { d with list := [chWrite] }) (opened openRow [] 34)) fun t =>
      decide (t.now = 1000 ∧ t.sched.bank 0 = .opened openRow)) = true := by decide

theorem witness_AccessStart :
    (run .accessStart (withSched (fun d => { d with list := [{ chWrite with state := .ready }] }) live) fun t =>
      decide (t.sched.list.map BurstEntry.state = [.accessing] ∧ t.sched.accessStart = some 0)) = true ∧
    (run .accessStart (waiting [] 0) fun t => decide (t.sched.accessStart = none)) = true := by decide

def draining (debt : Nat) : State := withSched (fun d => { d with mode := .draining }) (owing debt)

theorem witness_Refreshes : (∀ b, (draining 1).sched.bank b = .closed) ∧
    (run .refreshStart (draining 1) fun t => decide (t.sched.mode = .refreshing) && run .refreshCompletion t fun u =>
      decide (u.sched.mode = .normal ∧ u.now = 260 ∧ u.sched.refreshDebt = 0)) = true ∧
    (run .refreshStart (draining 2) fun t => run .refreshCompletion t fun u =>
      decide (u.sched.mode = .refreshing ∧ u.sched.refreshStart = some 260)) = true ∧
    (run .refreshStart live fun t => decide (t.sched.refreshStart = none)) = true := by decide

theorem witness_Refreshes_clear :
    (run .refreshStart (clearing 2 [] 64) fun t => decide (t.sched.refreshStart = some 0 ∧ t.sched.mode = .bringup) &&
      run .refreshCompletion t fun u => decide (u.sched.refreshStart = some 260 ∧ u.sched.refreshDebt = 1) &&
        run .refreshCompletion u fun v => decide (v.sched.refreshStart = none ∧ v.sched.refreshDebt = 0 ∧
          v.sched.list.map BurstEntry.addr = [64, 96])) = true ∧
    (run .refreshStart (clearing 1 [zeroes 0] 32) fun t => decide (t.sched.refreshStart = none)) = true ∧
    (run .refreshStart (clearing 0 [] 32) fun t => decide (t.sched.refreshStart = none)) = true := by decide

/-! ## Access completions -/

theorem witness_AccessRecords : (accessing { chWrite with closeAfter := true } live).sched.bank 0 = .opened openRow ∧
    (run (.accessCompletion 0#272) (accessing { chWrite with closeAfter := true } (running fill progress)) fun t =>
      decide (t.sched.bank 0 = .opened { openRow with
        lastActivity := 110, recoveryEnd := some 125, closeAfterMark := true })) = true := by decide

def sweepLast : State :=
  accessing (waitingEntry .scheduler (.write (List.replicate 32 0#8)) 67108832) calibrating

theorem witness_WriteCompletion : ones.length = 32 ∧ chWrite.addr + 32 ≤ 67108864 ∧ 67108832 + 32 ≤ 67108864 ∧
    (run (.accessCompletion 0#272) (accessing chWrite (running fill progress)) fun t =>
      decide (readByte t.mem 0 = 0x11#8 ∧ readByte t.mem 31 = 0x11#8 ∧ readByte t.mem 32 = 0#8 ∧ t.now = 110)) = true ∧
    (run (.accessCompletion 0#272) sweepLast fun t =>
      decide (t.sched.mode = .normal ∧ t.link.readiness = .ready ∧
        t.notices.held = [{ seq := 0#8, body := .ready .powerOn }])) = true := by decide

theorem witness_WriteCompletion_memory : live.MemoryLaw ∧ sweepLast.sched.accessStart = some 100 := by
  refine ⟨⟨rfl, rfl⟩, rfl⟩

/-- Channel 0 copies, its slot A RESERVED for the READ that is being made. -/
def copying : State := accessing chRead
  (mapped.setChannel 0 { Channel.reset with
    state := .running, current := some { desc := copy, prog := progress }, slotA := .reserved 0 })

theorem witness_ReadCompletion :
    (run (.accessCompletion 0#272) copying fun t => decide (t.check = CheckUnit.reset)) = true ∧
    (run (.accessCompletion 1#272) copying fun t => decide (t.check.corrected = 1)) = true ∧
    (run (.accessCompletion 3#272) copying fun t =>
      decide (t.check = { corrected := 0, uncorrectable := 1, lastUncorrectable := some 0 })) = true := by decide +kernel

theorem witness_ChannelCompletions :
    (run (.accessCompletion 0#272) (accessing chWrite (running fill progress)) fun t =>
      decide ((t.channel 0).current = some { desc := fill, prog := { progress with done := 32 } })) = true ∧
    (run (.accessCompletion 1#272) copying fun t =>
      decide ((t.channel 0).slotA = .full 0 (List.replicate 32 0#8))) = true ∧
    (run (.accessCompletion 3#272) copying fun t => decide ((t.channel 0).state = .halted .fault) &&
      decide (t.notices.held.map Notice.body =
        [.checkFault 0 (.ch 0), .descriptorDone 0 0x1234 .dataError 0 0])) = true := by decide +kernel

theorem witness_ChannelCompletions_claims : copying.roleRing .reader 0 = none ∧ copying.roleRing .writer 0 = none := by
  decide

theorem test_last_write_completes_the_run :
    (run (.accessCompletion 0#272) (accessing chWrite (running { fill with post := some 3, notify := true }
      { progress with admitted := 64, done := 32 })) fun t =>
        decide ((t.channel 0).state = .idle ∧ (t.mark 3).value = 1 ∧
          t.notices.held.map Notice.body = [.descriptorDone 0 0x1234 .done 64 1])) = true := by decide

/-- Channel 0 writes into the ring: its WRITE at an offset is being made, the ring's write list is this. -/
def writing (ws : List WriteReservation) (fillBytes off : Nat) : State :=
  accessing (ringEntry (.ch 0) (.write ones) off)
    (((running { intoRing with length := 128 } progress)).setRing 2 { ring with
      committedFill := fillBytes, writeList := ws, writerClaim := some (.ch 0) })

/-- The bytes done of channel 0. -/
def doneOf (t : State) : Option Nat := (t.channel 0).current.map fun cur => cur.prog.done

theorem witness_ChannelCompletions_ring :
    (run (.accessCompletion 0#272) (writing [{ offset := 64, accessed := false }, { offset := 96, accessed := false }] 64 96)
      fun t => decide (doneOf t = some 0) && ringHas (fun g => g.committedFill = 64 && g.writeList =
        [{ offset := 64, accessed := false }, { offset := 96, accessed := true }]) t) = true ∧
    (run (.accessCompletion 0#272) (writing [{ offset := 64, accessed := false }, { offset := 96, accessed := false }] 64 64)
      fun t => decide (doneOf t = some 32) && ringHas (fun g => g.committedFill = 96) t) = true ∧
    (run (.accessCompletion 0#272) (writing [{ offset := 64, accessed := false }, { offset := 96, accessed := true }] 64 64)
      fun t => decide (doneOf t = some 64) && ringHas (fun g => g.committedFill = 128 && g.writeList = []) t) = true ∧
    (run (.accessCompletion 0#272) (writing [{ offset := 0, accessed := false }] 992 0) fun t =>
      decide (told t = [.ringHighWater 2 1024]) && ringHas (fun g => !g.armed) t) = true ∧
    (run (.accessCompletion 0#272) (writing [{ offset := 0, accessed := false }] 960 0) fun t =>
      decide (told t = []) && ringHas (fun g => g.armed) t) = true := by decide +kernel

/-- The last WRITE of a run of channel 0 is being made. -/
def ending (d : Descriptor) (x : Channel) : State :=
  accessing chWrite (mapped.setChannel 0 { x with
    current := some { desc := d, prog := { progress with sourceAdmitted := 64, admitted := 64, done := 32 } } })

theorem witness_ChannelCompletions_run_end :
    (run (.accessCompletion 0#272) (ending { fill with runs := 2, post := some 3 } runningChannel) fun t =>
      decide ((t.channel 0).current = some
        { desc := { fill with runs := 2, post := some 3 }, prog := { progress with runsCompleted := 1 } } ∧
          (t.mark 3).value = 1)) = true ∧
    (run (.accessCompletion 0#272) (ending { fill with runs := 255 } { runningChannel with stop := .afterCurrent }) fun t =>
      decide ((t.channel 0).state = .halted .stopped ∧ (t.channel 0).current = none)) = true ∧
    (run (.accessCompletion 0#272) (ending fill { runningChannel with pending := [{ fill with tag := 2 }] }) fun t =>
      decide ((t.channel 0).state = .running ∧ (t.channel 0).pending = [] ∧
        (t.channel 0).current.map (fun cur => cur.desc.tag) = some 2)) = true ∧
    (run (.accessCompletion 0#272) (ending fill { runningChannel with stop := .flush }) fun t =>
      decide ((t.channel 0).state = .idle ∧ (t.channel 0).stop = .none)) = true := by decide

theorem witness_ChannelCompletions_stopping :
    (run (.accessCompletion 0#272) (ending { fill with post := some 3 } { Channel.reset with state := .stopping, stop := .now })
      fun t => decide ((t.channel 0).state = .halted .stopped ∧ (t.mark 3).value = 1 ∧
        told t = [.descriptorDone 0 0x1234 .aborted 64 1])) = true ∧
    (run (.accessCompletion 0#272) (ending { fill with length := 96 } { Channel.reset with state := .stopping, stop := .flush })
      fun t => decide ((t.channel 0).state = .idle ∧ told t = [.descriptorDone 0 0x1234 .aborted 64 0])) = true ∧
    (run (.accessCompletion 0#272) (withSched (fun d => { d with
      list := d.list ++ [waitingEntry (.requester (.ch 0)) (.write ones) 32] })
        (ending fill { Channel.reset with state := .stopping, stop := .now })) fun t =>
          decide ((t.channel 0).state = .stopping ∧ doneOf t = some 64 ∧ told t = [])) = true := by decide

/-- The READ of channel 0 that is being made goes to this target; the channel has faulted or not. -/
def reading (d : Descriptor) (fault : Bool) (g : Target) (x : Channel) : State :=
  accessing { chRead with transfer := .read g } (bound.setChannel 0 { x with
    current := some { desc := d, prog := { progress with fault := fault } } })

theorem witness_ChannelCompletions_reads :
    (run (.accessCompletion 0#272) (reading copy false (.copySlot .b) { runningChannel with slotB := .reserved 32 }) fun t =>
      decide ((t.channel 0).slotB = .full 32 (List.replicate 32 0#8))) = true ∧
    (run (.accessCompletion 0#272) (reading copy true (.copySlot .b) { Channel.reset with state := .halted .fault }) fun t =>
      decide ((t.channel 0).current = none ∧ told t = [.descriptorDone 0 0x1234 .dataError 0 0])) = true ∧
    (run (.accessCompletion 3#272) (withSched (fun d => { d with
      list := d.list ++ [waitingEntry (.requester (.ch 0)) (.read (.copySlot .b)) 32] })
        (reading copy true (.copySlot .a) { Channel.reset with state := .halted .fault })) fun t =>
          decide ((t.channel 0).current.isSome = true ∧ told t = [.checkFault 0 (.ch 0)])) = true ∧
    (run (.accessCompletion 0#272) (accessing (ringEntry (.ch 0) (.read (.copySlot .a)) 0)
      ((running { copy with source := .region 2 0 } progress).setRing 2 { ring with
        readerClaim := some (.ch 0), readReserved := 32, committedFill := 32, front := 32 })) fun t =>
          ringHas (fun g => g.readReserved = 0 && g.committedFill = 32) t) = true := by decide +kernel

/-- Channel 0 plays out; two READs are reserved for, the older one's data here or not. -/
def playing (older : Option (List Byte)) (pos : Nat) : State :=
  (reading { fill with source := .region 1 0, dest := .playout 1 } false (.playout 1 pos) runningChannel).setPlayout 1
    { PlayoutPort.reset with
      enabled := true, binding := some 0, armed := false,
      reservations := [{ pos := 0, data := older }, { pos := 32, data := none }] }

theorem witness_ChannelCompletions_playout :
    (run (.accessCompletion 0#272) (playing none 32) fun t => decide (doneOf t = some 0 ∧
      (t.playout 1).fifo = [] ∧ (t.playout 1).reservations.map (fun r => r.data.isSome) = [false, true])) = true ∧
    (run (.accessCompletion 0#272) (playing none 0) fun t => decide (doneOf t = some 32 ∧
      (t.playout 1).fifo.length = 32 ∧ (t.playout 1).armed = true ∧
        (t.playout 1).reservations = [{ pos := 32, data := none }])) = true ∧
    (run (.accessCompletion 0#272) (playing (some ones) 32) fun t => decide ((t.channel 0).state = .idle ∧
      (t.playout 1).fifo = ones ++ List.replicate 32 0#8 ∧ (t.playout 1).reservations = [])) = true ∧
    (run (.accessCompletion 3#272) (playing (some ones) 32) fun t => decide ((t.playout 1).reservations = [] ∧
      (t.playout 1).fifo = [] ∧ (t.channel 0).state = .halted .fault ∧
        told t = [.checkFault 0 (.ch 0), .descriptorDone 0 0x1234 .dataError 0 0])) = true := by decide +kernel

/-! ## The arbiter -/

theorem witness_SetClass : live.takes 0x18#8 5#8 [6#8, 3#8] = true ∧
    (run (.setClass 5#8 [7#8, 0#8]) live (said .badValue [])) = true ∧
    (run (.setClass 5#8 [0#8, 4#8]) live (said .badValue [])) = true ∧
    (run (.setClass 5#8 [6#8, 3#8]) live fun t => said .ok [1#8] t && decide (t.arb.classOf .lau = 3)) = true ∧
    (run (.setClass 5#8 [0#8, 0#8]) (live.setArb (live.arb.setRun 2 4)) fun t =>
      said .ok [2#8] t && decide (t.arb.runOf 2 = 0)) = true := by decide

/-- CH0 and the LAU ready. -/
def contended : Arbiter :=
  { Arbiter.reset with readiness := ((Vector.replicate 7 .inactive).set 0 .ready).set 6 .ready }

theorem witness_ArbiterRules : contended.choose = some .lau ∧ { contended with holdOwner := some 0 }.choose = some .lau ∧
    (contended.setClass .lau 3).choose = some (.ch 0) ∧ Arbiter.reset.choose = none ∧
    (contended.afterRun (.ch 0) 2).runOf 2 = 1 ∧ ((contended.afterRun (.ch 0) 2).afterRun (.ch 0) 2).positionOf 2 = .ch 1 := by
  decide

theorem witness_ArbiterRules_readiness :
    mapped.readinessOf (.ch 0) = .inactive ∧ (running fill progress).readinessOf (.ch 0) = .ready ∧
    (running fill { progress with admitted := 64 }).readinessOf (.ch 0) = .limit ∧
    (withSched (fun d => { d with list := [chWrite, chWrite] }) (running fill progress)).readinessOf (.ch 0) = .limit ∧
    (running fill { progress with fault := true }).readinessOf (.ch 0) = .inactive ∧
    (running intoRing progress).readinessOf (.ch 0) = .endpoint ∧
    mapped.readinessOf .lau = .inactive ∧ (inService (service (.get 0 64) 64) [] mapped).readinessOf .lau = .ready ∧
    (inService (service (.get 0 64) 0) [] mapped).readinessOf .lau = .limit ∧
    (inService (ringService .reader (.take 64) 64) [] mapped).readinessOf .lau = .endpoint ∧
    (inService (ringService .reader (.take 64) 64) []
      (mapped.setRing 2 { ring with readerClaim := some .lau })).readinessOf .lau = .ready ∧
    (bound.reportBound (some 0)).arb = bound.arb ∧ (running fill progress).reportAll.arb.readinessOf (.ch 0) = .ready := by
  decide

/-- The next burst of channel 0 with this descriptor and these copy slots. -/
def next (d : Descriptor) (a b : CopySlot) (s : State) : Option Burst :=
  (s.setChannel 0 { runningChannel with slotA := a, slotB := b }).nextBurst 0 { desc := d, prog := progress }

theorem witness_ArbiterRules_next_burst :
    next { fill with source := .capture 3 } .empty .empty bound = none ∧
    next { fill with source := .capture 3 } .empty .empty (bound.setCapture 3 { CapturePort.reset with fifo := ones }) =
      some (.captureWrite 3) ∧
    next { fill with source := .region 1 0, dest := .playout 1 } .empty .empty bound = some (.playoutRead 1) ∧
    next { fill with source := .region 1 0, dest := .playout 1 } .empty .empty (bound.setPlayout 1 { PlayoutPort.reset with
      fifo := List.replicate 192 0#8, reservations := [{ pos := 0, data := none }, { pos := 32, data := none }] }) = none ∧
    next copy .empty .empty mapped = some (.copyRead .a) ∧
    next copy (.reserved 0) .empty mapped = some (.copyRead .b) ∧
    next copy (.reserved 0) (.full 32 ones) mapped = none ∧
    next copy (.full 0 ones) (.full 32 ones) mapped = some (.copyWrite .a 0 ones) ∧
    next copy (.full 64 ones) (.full 32 ones) mapped = some (.copyWrite .b 32 ones) ∧
    next { fill with source := .capture 3, dest := .playout 1 } .empty .empty bound = none := by decide +kernel

/-- Channel 0 fills, and has reported itself ready. -/
def offering : State := (running fill progress).reportAll

theorem witness_Admission : offering.arb.choose = some (.ch 0) ∧
    offering.nextBurst 0 { desc := fill, prog := progress } = some (.patternWrite 0x04030201) ∧
    offering.sched.list.length < 8 ∧
    (run .admission offering fun t => decide (t.sched.list.map BurstEntry.transfer =
      [.write ((List.replicate 8 [1#8, 2#8, 3#8, 4#8]).flatten)]) && run .admission t fun u =>
        decide (u.sched.list.map BurstEntry.addr = [0, 32]) && run .admission u fun v =>
          decide (v.sched.list.length = 2)) = true ∧
    (run .admission live fun t => decide (t.sched.list = [])) = true := by decide

/-- What ADMISSION leaves of the arbiter's records, channel 0 ready with this grant policy: the position and the run count
of its class, and the hold. -/
def granted (g : GrantPolicy) (n : Nat) : List (Requester × Nat × Option ChannelId) :=
  let records := fun t : State => (t.arb.positionOf 2, t.arb.runOf 2, t.arb.holdOwner)
  match exec .admission (running { fill with grant := g, runBurst := n } progress).reportAll with
  | .next t => match exec .admission t with
    | .next u => [records t, records u]
    | .fault _ => []
    | .refused _ => []
  | .fault _ => []
  | .refused _ => []

theorem witness_Admission_grant_policies :
    granted .single 2 = [(.ch 1, 0, none), (.ch 1, 0, none)] ∧
    granted .run 2 = [(.ch 0, 1, none), (.ch 1, 0, none)] ∧
    granted .run 3 = [(.ch 0, 1, none), (.ch 0, 2, none)] ∧
    granted .hold 2 = [(.ch 1, 0, some 0), (.ch 1, 0, some 0)] := by decide

theorem witness_Admission_entry :
    ((withSched (fun d => d.setBank 0 (.opened { openRow with closeAfterMark := true })) live).sched.admitEntry chWrite).list =
      [{ chWrite with state := .ready }] ∧
    ((withSched (fun d => d.setBank 0 (.opened { openRow with closeAfterMark := true })) live).sched.admitEntry chWrite).bank 0 =
      .opened openRow ∧
    ((withSched (fun d => { d.setBank 0 (.opened openRow) with list := [{ chWrite with state := .ready }] }) live).sched.admitEntry
      chWrite).list = [{ chWrite with state := .ready }, chWrite] ∧
    (live.sched.admitEntry chWrite).list = [chWrite] := by decide

/-- What the LAU admits first in this state, once it has reported. -/
def lauAdmits (s : State) (p : BurstEntry → State → Bool) : Bool := run .admission s.reportAll fun t =>
  match t.sched.list with
  | [e] => p e t
  | _ => false

theorem witness_Admission_lau :
    lauAdmits (inService (service (.put 32 ones) 32) [] mapped) (fun e _ => e = waitingEntry (.requester .lau) (.write ones) 32) =
      true ∧
    lauAdmits (inService (ringService .writer (.append ones) 32) [] (mapped.setRing 2 { ring with
      policy := .overwrite, committedFill := 1024, writerClaim := some .lau })) (fun e t =>
        e = ringEntry .lau (.write ones) 64 && decide (t.lau.service.map LauService.dropped = some 32) &&
          ringHas (fun g => g.committedFill = 992 && g.front = 32) t) = true ∧
    lauAdmits (inService (ringService .reader (.take 32) 32) [] (mapped.setRing 2 { ring with readerClaim := some .lau }))
      (fun e t => e = ringEntry .lau (.read (.lauBuffer 0)) 0 && ringHas (fun g => g.readReserved = 32) t) = true ∧
    lauAdmits (inService (ringService .reader (.take 32) 32) [] mapped) (fun _ _ => true) = false := by decide +kernel

/-! ## Channels -/

/-- An ENQUEUE payload: a fill of region 1 on a channel. -/
def enqueueFill (ch region off length : Nat) : List Byte :=
  [1#8] ++ u8 ch ++ [0x34#8, 0x12#8, 2#8, 0#8, 1#8, 2#8, 3#8, 4#8, 1#8] ++ u8 region ++ u32 off ++ u32 length ++
    [1#8, 0#8, 0#8, 0#8, 0xFF#8, 0#8, 0xFF#8, 0#8]

theorem witness_EnqueuePayload : readEnqueue (enqueueFill 0 1 0 64) = some (0, fill) ∧
    readEnqueue (enqueueFill 6 1 0 64) = none ∧ readEnqueue (enqueueFill 0 16 0 64) = none ∧
    readEnqueue (enqueueFill 0 1 0 31) = none ∧ readEnqueue (enqueueFill 0 1 0 16777248) = none ∧
    (readEnqueue (enqueueFill 5 15 0 16777216)).isSome = true ∧
    asks (.enqueue 5#8 (enqueueFill 6 1 0 64)) .badValue [] = true := by decide

theorem witness_Enqueue : mapped.takes 0x20#8 5#8 (enqueueFill 0 1 0 64) = true ∧
    asks (.enqueue 5#8 (enqueueFill 0 3 0 64)) .noRegion [] = true ∧
    asks (.enqueue 5#8 (enqueueFill 0 2 32 64)) .badValue [] = true ∧
    asks (.enqueue 5#8 (enqueueFill 0 1 16 64)) .alignment [] = true ∧
    asks (.enqueue 5#8 (enqueueFill 0 1 1984 64)) .ok [0#8] = true ∧
    asks (.enqueue 5#8 (enqueueFill 0 1 2016 64)) .outOfBounds [] = true ∧
    (run (.enqueue 5#8 (enqueueFill 0 1 0 64)) (running fill progress) fun t => said .ok [1#8] t &&
      decide ((t.channel 0).pending = [fill] ∧ (t.region 1).refCount = 1)) = true := by decide

theorem witness_Enqueue_other_checks :
    enqueueCheck 0 { fill with source := .capture 0, dest := .playout 0 } mapped = some .badValue ∧
    enqueueCheck 0 { copy with dest := .region 1 32 } mapped = some .overlap ∧
    enqueueCheck 0 { copy with dest := .region 1 64 } mapped = none ∧
    enqueueCheck 0 { fill with source := .capture 0 } mapped = some .portNotBound ∧
    enqueueCheck 0 fill ((running fill progress).setChannel 0 { (running fill progress).channel 0 with
      pending := [fill, fill, fill, fill] }) = some .queueFull := by decide

theorem witness_Promotion : enqueueCheck 0 fill mapped = none ∧ (mapped.channel 0).state = .idle ∧
    (mapped.channel 0).pending = [] ∧
    (run (.enqueue 5#8 (enqueueFill 0 1 0 64)) mapped fun t => said .ok [0#8] t &&
      decide (t.channel 0 = { Channel.reset with
        state := .running, current := some { desc := fill, prog := progress } })) = true ∧
    (run (.enqueue 5#8 (enqueueFill 0 2 0 64)) mapped fun t =>
      decide ((t.ring? 2).map (fun x => x.2.writerClaim) = some (some (.ch 0)) ∧ (t.channel 0).state = .running)) = true ∧
    (run (.enqueue 5#8 (enqueueFill 0 2 0 64)) (mapped.setRing 2 { ring with writerClaim := some .lau }) fun t =>
      decide ((t.ring? 2).map (fun x => x.2.writerWaiters) = some [0] ∧ (t.channel 0).state = .waiting .claim)) = true := by
  decide

theorem test_promotion_waits_for_its_mark :
    decide ((((mapped.setChannel 0 { Channel.reset with
      pending := [{ fill with wait := some { mark := 2, count := 3 } }] }).promote 0).channel 0).state =
        .waiting .mark) = true := by decide

/-- A copy from the ring into a second one, region 3. -/
def ringToRing : Descriptor := { copy with source := .region 2 0, dest := .region 3 0 }

/-- Channel 0 has this descriptor pending; the ring's reader claim and region 3's writer claim are held so. -/
def rings (reader writer : Option Requester) (d : Descriptor) : State :=
  ((mapped.setRing 2 { ring with readerClaim := reader }).setRegion 3
    { refCount := 0
      record := some { ringRecord with base := 4096, kind := .ring { ring with writerClaim := writer } } }).setChannel 0
        { Channel.reset with pending := [d] }

theorem witness_Promotion_two_rings :
    (let t := (rings none none ringToRing).promote 0
     (t.channel 0).state = .running ∧ (t.ring? 2).map (fun x => x.2.readerClaim) = some (some (.ch 0)) ∧
      (t.ring? 3).map (fun x => x.2.writerClaim) = some (some (.ch 0))) ∧
    (let t := (rings none (some .lau) ringToRing).promote 0
     (t.channel 0).state = .waiting .claim ∧ (t.ring? 2).map (fun x => x.2.readerClaim) = some (some (.ch 0)) ∧
      (t.ring? 3).map (fun x => x.2.writerWaiters) = some [0]) ∧
    (let t := (rings (some .lau) none ringToRing).promote 0
     (t.channel 0).state = .waiting .claim ∧ (t.ring? 2).map (fun x => x.2.readerWaiters) = some [0] ∧
      (t.ring? 3).map (fun x => x.2.writerClaim) = some none) ∧
    (let t := ((rings none none { ringToRing with wait := some { mark := 2, count := 3 } }).setMark 2
        { value := 3, saturated := false, waiters := [] }).promote 0
     (t.channel 0).state = .running ∧ (t.mark 2).value = 0) ∧
    ((rings none none ringToRing).setChannel 0 Channel.reset).promote 0 =
      (rings none none ringToRing).setChannel 0 Channel.reset := by decide

/-- Channel 0 WAITING for mark 2. -/
def held : State :=
  (mapped.setChannel 0 { Channel.reset with
    state := .waiting .mark, pending := [fill],
    current := some { desc := { fill with wait := some { mark := 2, count := 3 } }, prog := progress } }).setMark 2
      { value := 1, saturated := false, waiters := [{ channel := 0, count := 3 }] }

/-- Channel 0 HALTED with work pending. -/
def halted : State := mapped.setChannel 0 { Channel.reset with state := .halted .stopped, pending := [fill] }

theorem witness_ChannelStop : mapped.takes 0x21#8 5#8 [5#8, 2#8] = true ∧
    asks (.channelStop 5#8 [6#8, 0#8]) .badValue [] = true ∧ asks (.channelStop 5#8 [0#8, 3#8]) .badValue [] = true ∧
    asks (.channelStop 5#8 [5#8, 0#8]) .ok [4#8, 0#8] = true ∧ asks (.channelStop 5#8 [0#8, 1#8]) .ok [4#8, 0#8] = true ∧
    asks (.channelStop 5#8 [0#8, 2#8]) .ok [0#8, 0#8] = true ∧
    (run (.channelStop 5#8 [0#8, 0#8]) (running fill progress) fun t => said .ok [2#8, 0#8] t &&
      run (.channelStop 6#8 [0#8, 0#8]) t (said .ok [2#8, 0#8])) = true ∧
    (run (.channelStop 5#8 [0#8, 0#8]) held (said .ok [1#8, 0#8])) = true ∧
    (run (.channelStop 5#8 [0#8, 1#8]) held fun t => said .ok [4#8, 0#8] t &&
      decide ((t.mark 2).waiters = [] ∧ (t.channel 0).current = none)) = true ∧
    (run (.channelStop 5#8 [0#8, 2#8]) held (said .ok [0#8, 1#8])) = true ∧
    (run (.channelStop 5#8 [0#8, 1#8]) halted (said .ok [4#8, 0#8])) = true ∧
    (run (.channelStop 5#8 [0#8, 2#8]) halted (said .ok [0#8, 1#8])) = true := by decide

theorem test_channel_query_waiting_on_a_mark : (run (.channelQuery 5#8 [0#8]) held (said .ok
    ([1#8, 1#8, 0#8, 1#8, 2#8, 1#8, 0#8, 0#8, 0#8, 0#8, 0#8, 0#8] ++ [1#8, 0x34#8, 0x12#8] ++ List.replicate 15 0#8 ++
      [0#8, 0#8, 0#8, 1#8, 0x34#8, 0x12#8]))) = true := by decide

theorem witness_ChannelStop_running :
    (run (.channelStop 5#8 [0#8, 1#8]) (running fill { progress with admitted := 64 }) fun t =>
      said .ok [2#8, 0#8] t && run (.channelStop 6#8 [0#8, 1#8]) t (said .ok [2#8, 0#8])) = true ∧
    (run (.channelStop 5#8 [0#8, 1#8]) (running fill progress) fun t => said .ok [4#8, 0#8] t &&
      decide (t.notices.held.map Notice.body = [.descriptorDone 0 0x1234 .aborted 0 0])) = true ∧
    (run (.channelStop 5#8 [0#8, 1#8]) (accessing chWrite (running fill progress)) fun t => said .ok [3#8, 0#8] t &&
      run (.channelStop 6#8 [0#8, 1#8]) t (said .ok [3#8, 0#8])) = true ∧
    (run (.channelStop 5#8 [0#8, 2#8]) (running fill { progress with admitted := 64 }) (said .ok [2#8, 0#8])) = true ∧
    (run (.channelStop 5#8 [0#8, 2#8]) (accessing chWrite (running fill progress)) fun t => said .ok [3#8, 0#8] t &&
      run (.channelStop 6#8 [0#8, 2#8]) t (said .ok [3#8, 0#8])) = true := by decide

/-- Channel 1 waits for the ring's writer claim, which channel 0 holds while its last WRITE elsewhere is made. -/
def handingOn (x : Channel) : State :=
  ((ending { fill with dest := .region 2 0 } x).setRing 2 { ring with
    writerClaim := some (.ch 0), writerWaiters := [1] }).setChannel 1
      { Channel.reset with state := .waiting .claim, current := some { desc := intoRing, prog := progress } }

theorem witness_ChannelStop_notices :
    (run (.channelStop 5#8 [0#8, 2#8]) (held.setChannel 0 { held.channel 0 with
      pending := [{ fill with tag := 2 }, { fill with tag := 3 }] }) fun t => said .ok [0#8, 2#8] t &&
        decide (told t = [.descriptorDone 0 0x1234 .aborted 0 0, .descriptorDone 0 2 .discarded 0 0,
          .descriptorDone 0 3 .discarded 0 0])) = true ∧
    (run (.channelStop 5#8 [0#8, 2#8]) ((running fill progress).setChannel 0 { (running fill progress).channel 0 with
      pending := [{ fill with tag := 2 }] }) fun t => said .ok [0#8, 1#8] t &&
        decide (told t = [.descriptorDone 0 2 .discarded 0 0, .descriptorDone 0 0x1234 .aborted 0 0])) = true ∧
    (run (.channelStop 5#8 [0#8, 1#8]) ((mapped.setChannel 0 { Channel.reset with
      state := .waiting .claim, current := some { desc := intoRing, prog := progress } }).setRing 2 { ring with
        writerClaim := some .lau, writerWaiters := [0] }) fun t => said .ok [4#8, 0#8] t &&
      ringHas (fun g => g.writerWaiters = []) t && decide (told t = [.descriptorDone 0 0x1234 .aborted 0 0])) = true := by
  decide

theorem witness_ChannelStop_hands_the_claim_on :
    (run (.accessCompletion 0#272) (handingOn runningChannel) fun t =>
      decide ((t.channel 0).state = .idle ∧ (t.channel 1).state = .running) &&
        ringHas (fun g => g.writerClaim = some (.ch 1) && g.writerWaiters = []) t) = true := by decide

theorem witness_ChannelResume : mapped.takes 0x22#8 5#8 [5#8] = true ∧
    asks (.channelResume 5#8 [6#8]) .badValue [] = true ∧
    (run (.channelResume 5#8 [0#8]) (running fill progress) (said .wrongState [])) = true ∧
    (run (.channelResume 5#8 [0#8]) (halted.setChannel 0 { Channel.reset with state := .halted .fault }) fun t =>
      said .ok [0#8] t && decide ((t.channel 0).state = .idle)) = true ∧
    (run (.channelResume 5#8 [0#8]) halted fun t => said .ok [2#8] t && decide ((t.channel 0).pending = [])) = true := by decide

theorem witness_ChannelResume_waits :
    (run (.channelResume 5#8 [0#8]) (halted.setChannel 0 { halted.channel 0 with
      pending := [{ fill with wait := some { mark := 2, count := 3 } }] }) fun t => said .ok [1#8] t &&
        decide ((t.channel 0).state = .waiting .mark)) = true ∧
    (run (.channelResume 5#8 [0#8]) (halted.setChannel 0 { halted.channel 0 with pending := [intoRing] }) fun t =>
      said .ok [2#8] t && ringHas (fun g => g.writerClaim = some (.ch 0)) t) = true ∧
    ((mapped.setChannel 0 { Channel.reset with stop := .now, pending := [fill] }).moveOn 0).channel 0 =
      { Channel.reset with state := .halted .stopped, pending := [fill] } ∧
    (((mapped.setChannel 0 { Channel.reset with stop := .flush, pending := [fill] }).moveOn 0).channel 0).state = .running := by
  decide

/-! ## Marks -/

theorem witness_Marks : mapped.takes 0x24#8 5#8 [15#8, 0#8] = true ∧ mapped.takes 0x25#8 5#8 [15#8, 1#8] = true ∧
    serveWaiters 5 [{ channel := 0, count := 3 }, { channel := 1, count := 3 }, { channel := 2, count := 1 }] =
      (2, [{ channel := 1, count := 3 }, { channel := 2, count := 1 }], [0]) ∧
    asks (.markSet 5#8 [16#8, 0#8]) .badValue [] = true ∧ asks (.markSet 5#8 [15#8, 255#8]) .ok [0#8, 255#8, 0#8] = true ∧
    asks (.markAdd 5#8 [16#8, 1#8]) .badValue [] = true ∧ asks (.markAdd 5#8 [15#8, 0#8]) .badValue [] = true ∧
    (run (.markAdd 5#8 [2#8, 2#8]) held fun t => said .ok [0#8, 0#8, 1#8] t && decide ((t.channel 0).state = .running)) = true ∧
    (run (.markSet 5#8 [2#8, 3#8]) held (said .ok [1#8, 0#8, 1#8])) = true ∧
    (run (.markAdd 5#8 [0#8, 255#8]) mapped fun t => said .ok [255#8, 0#8, 0#8] t &&
      run (.markAdd 6#8 [0#8, 1#8]) t fun u => said .ok [255#8, 1#8, 0#8] u && u.attn) = true := by decide

/-- Channels 0 and 1 wait on mark 2, in this order. -/
def twoWait : State :=
  (held.setChannel 1 { held.channel 0 with pending := [] }).setMark 2
    { value := 1, saturated := false, waiters := [{ channel := 0, count := 3 }, { channel := 1, count := 1 }] }

theorem witness_Marks_leaving :
    (run (.channelStop 5#8 [0#8, 1#8]) twoWait fun t =>
      decide ((t.channel 1).state = .running ∧ (t.mark 2).value = 0 ∧ (t.mark 2).waiters = [])) = true ∧
    (run (.channelStop 5#8 [1#8, 1#8]) twoWait fun t =>
      decide ((t.channel 0).state = .waiting .mark ∧ (t.mark 2).value = 1)) = true ∧
    (run (.markAdd 5#8 [2#8, 3#8]) twoWait fun t => said .ok [0#8, 0#8, 2#8] t &&
      decide ((t.channel 0).state = .running ∧ (t.channel 1).state = .running)) = true ∧
    (run (.markAdd 5#8 [2#8, 255#8]) mapped fun t => run (.markAdd 6#8 [2#8, 1#8]) t fun u =>
      decide (told u = [.markSaturated 2])) = true := by decide

/-! ## Ports -/

theorem witness_PortRequests : mapped.takes 0x28#8 5#8 [0#8, 3#8] = true ∧ mapped.takes 0x29#8 5#8 [1#8, 1#8] = true ∧
    mapped.takes 0x2A#8 5#8 [0#8, 3#8, 5#8] = true ∧ mapped.takes 0x2B#8 5#8 [0#8, 3#8, 1#8] = true ∧
    asks (.portEnable 5#8 [2#8, 0#8]) .badValue [] = true ∧ asks (.portDisable 5#8 [0#8, 4#8]) .badValue [] = true ∧
    asks (.portQuery 5#8 [1#8, 2#8, 0#8]) .badValue [] = true ∧ asks (.portQuery 5#8 [1#8, 1#8, 2#8]) .badValue [] = true ∧
    asks (.portBind 5#8 [0#8, 3#8, 6#8]) .badValue [] = true ∧ asks (.portBind 5#8 [0#8, 3#8, 0xFF#8]) .ok [0xFF#8] = true ∧
    asks (.portBind 5#8 [0#8, 3#8, 5#8]) .ok [0xFF#8] = true ∧
    (run (.portBind 5#8 [0#8, 3#8, 5#8]) (bound.setChannel 0 { Channel.reset with
      pending := [{ fill with source := .capture 3 }] }) (said .inUse [])) = true := by decide

theorem test_ports_enable_and_query :
    (run (.portEnable 5#8 [0#8, 3#8]) mapped fun t => said .ok (u32 0) t && (t.capture 3).enabled) = true ∧
    (run (.portDisable 5#8 [1#8, 1#8]) bound fun t => said .ok (u32 2) t && !(t.playout 1).enabled) = true ∧
    (run (.portQuery 5#8 [1#8, 1#8, 1#8]) bound (said .ok
      ([1#8, 1#8, 0#8, 2#8, 0#8, 0#8, 0#8, 0#8, 0#8, 254#8, 0#8, 0#8, 0#8, 0#8, 0#8, 0#8, 0#8, 1#8]))) = true := by decide

theorem witness_StrobeAndPull :
    (run (.strobe 3 0x1234) bound fun t => decide ((t.capture 3).fifo = [0x34#8, 0x12#8])) = true ∧
    (run (.strobe 0 0x1234) bound fun t => decide ((t.capture 0).fifo = [])) = true ∧
    (run (.pull 1) bound fun t => decide ((t.playout 1).outputs = 0x1234) && run (.pull 1) t fun u =>
      decide ((u.playout 1).outputs = 0x1234 ∧ (u.playout 1).underrunCount = 1) && u.attn) = true ∧
    (run (.pull 0) bound fun t => decide ((t.playout 0).outputs = 0)) = true := by decide

theorem witness_StrobeAndPull_overflow :
    (run (.strobe 3 0x1234) (bound.setCapture 3 { CapturePort.reset with
      enabled := true, fifo := List.replicate 256 0#8 }) fun t =>
        decide ((t.capture 3).overflowCount = 1 ∧ (t.capture 3).fifo.length = 256) && t.attn) = true ∧
    (run (.strobe 3 0x1234) (bound.setCapture 3 { CapturePort.reset with
      enabled := true, fifo := List.replicate 254 0#8 }) fun t => decide ((t.capture 3).fifo.length = 256)) = true := by
  decide +kernel

/-! ## The link access unit -/

def putBytes (region off n : Nat) : List Byte := u8 region ++ u32 off ++ u16 n ++ List.replicate n 0x11#8
def getBytes (region off n : Nat) : List Byte := u8 region ++ u32 off ++ u16 n
def appendBytes (region n : Nat) : List Byte := u8 region ++ u16 n ++ List.replicate n 0x11#8
def takeBytesOf (region n : Nat) : List Byte := u8 region ++ u16 n

theorem witness_LauRequests_acceptance : mapped.takes 0x31#8 5#8 (getBytes 1 0 32) = true ∧
    asks (.get 5#8 (getBytes 16 0 32)) .badValue [] = true ∧ asks (.get 5#8 (getBytes 1 0 0)) .badValue [] = true ∧
    asks (.get 5#8 (getBytes 1 0 33)) .badValue [] = true ∧ asks (.get 5#8 (getBytes 1 0 288)) .badValue [] = true ∧
    asks (.get 5#8 (getBytes 1 16 32)) .alignment [] = true ∧ asks (.take 5#8 (takeBytesOf 2 16)) .badValue [] = true ∧
    asks (.put 5#8 (putBytes 1 0 31)) .badValue [] = true ∧ asks (.append 5#8 (appendBytes 2 0)) .badValue [] = true ∧
    asks (.put 5#8 (getBytes 1 0 32)) .badLength [] = true := by decide +kernel

theorem witness_LauRequests_service : mapped.lau.service = none ∧ mapped.lau.queue = [] ∧
    asks (.get 5#8 (getBytes 3 0 32)) .noRegion [] = true ∧ asks (.get 5#8 (getBytes 2 0 32)) .badValue [] = true ∧
    asks (.get 5#8 (getBytes 1 2016 64)) .outOfBounds [] = true ∧ asks (.take 5#8 (takeBytesOf 1 32)) .badValue [] = true ∧
    asks (.append 5#8 (appendBytes 1 32)) .badValue [] = true ∧
    (run (.get 5#8 (getBytes 1 1984 64)) mapped fun t => decide (t.lau.service.map LauService.toAdmit = some 64) &&
      run (.get 6#8 (getBytes 1 0 32)) t fun u => decide (u.lau.queue.length = 1)) = true ∧
    (run (.take 5#8 (takeBytesOf 2 256)) mapped fun t => decide (t.lau.service.map LauService.toAdmit = some 64 ∧
      (t.ring? 2).map (fun x => x.2.readerClaim) = some (some .lau))) = true ∧
    (run (.take 5#8 (takeBytesOf 2 32)) (mapped.setRing 2 (Ring.fresh .stop 0)) (said .ok [])) = true := by decide +kernel

theorem witness_LauRequests_writes :
    (run (.put 5#8 (putBytes 1 0 32)) mapped fun t => decide (t.lau.service.map LauService.toAdmit = some 32)) = true ∧
    (run (.append 5#8 (appendBytes 2 32)) mapped fun t =>
      decide ((t.ring? 2).map (fun x => x.2.writerClaim) = some (some .lau))) = true ∧
    (run (.append 5#8 (appendBytes 2 32)) (mapped.setRing 2 { ring with writerClaim := some (.ch 1) })
      (said .regionBusy [])) = true ∧
    (run (.append 5#8 (appendBytes 2 32)) (mapped.setRing 2 { ring with committedFill := 1024 }) (said .ringFull [])) = true ∧
    (run (.put 5#8 (putBytes 1 0 32)) (mapped.setRegion 1 { refCount := 0, record := some { linear with linkWrite := false } })
      (said .protected_ [])) = true := by decide +kernel

/-- The LAU in service of a request that has all its bursts admitted, and one READ or WRITE of it being made. -/
def serving (op : LauOp) (total done : Nat) (tr : Transfer) : State :=
  accessing (waitingEntry (.requester .lau) tr 32)
    (inService { service op total with admitted := total, completed := done } [] mapped)

theorem witness_LauCompletions :
    (run (.accessCompletion 0#272) (serving (.get 0 64) 64 0 (.read (.lauBuffer 32))) fun t =>
      decide (t.lau.service.map LauService.completed = some 32 ∧ t.link.readyList = [])) = true ∧
    (run (.accessCompletion 0#272) (serving (.get 0 32) 32 0 (.read (.lauBuffer 0)))
      (said .ok (List.replicate 32 0#8))) = true ∧
    (run (.accessCompletion 3#272) (serving (.get 0 64) 64 0 (.read (.lauBuffer 32))) fun t =>
      decide (t.lau.service.map LauService.firstFailure = some (some { pos := 32, offset := 32 }))) = true ∧
    (run (.accessCompletion 3#272) (serving (.get 0 32) 32 0 (.read (.lauBuffer 0))) (said .dataError (u32 32))) = true ∧
    (run (.accessCompletion 0#272) (serving (.put 0 ones) 32 0 (.write ones)) (said .ok [])) = true ∧
    (run (.accessCompletion 0#272) (serving (.put 0 (ones ++ ones)) 64 0 (.write ones)) fun t =>
      decide (t.lau.service.map LauService.completed = some 32)) = true := by decide +kernel

/-- The LAU serves an APPEND of 32 bytes, its WRITE being made, with others behind it; the ring's writer waiters are these. -/
def appending (q : List LauRequest) (waiters : List ChannelId) : State :=
  accessing (ringEntry .lau (.write ones) 64) (inService
    { ringService .writer (.append ones) 32 with admitted := 32, dropped := 32 } q
    ((running intoRing progress).setRing 2 { ring with
      writeList := [{ offset := 64, accessed := false }], writerClaim := some .lau, writerWaiters := waiters }))

theorem witness_LauCompletions_append :
    (run (.accessCompletion 0#272) (appending [] []) fun t => said .ok (u32 32) t &&
      ringHas (fun g => g.committedFill = 96 && g.writerClaim = none) t) = true ∧
    (run (.accessCompletion 0#272) (appending [] [0]) fun t => decide ((t.channel 0).state = .running) &&
      ringHas (fun g => g.writerClaim = some (.ch 0) && g.writerWaiters = []) t) = true ∧
    (run (.accessCompletion 0#272) (appending [{ behind with region := 3 }, { behind with tag := 7#8 }] []) fun t =>
      decide (answers t = [(5#8, .ok), (6#8, .noRegion)] ∧ t.lau.queue = [] ∧
        t.lau.service.map (fun sv => (sv.request.tag, sv.toAdmit)) = some (7#8, 32))) = true ∧
    (run (.accessCompletion 0#272) (appending [{ behind with region := 2, op := .take 32 }] []) fun t =>
      ringHas (fun g => g.readerClaim = some .lau) t) = true := by decide +kernel

/-- The LAU serves a TAKE of 96 bytes, the READ of this position being made; of the others this many are complete. -/
def taking (pos done : Nat) (f : Option LauFailure) (front : Nat) : State :=
  (accessing (ringEntry .lau (.read (.lauBuffer pos)) pos) (inService
    { ringService .reader (.take 96) 96 with admitted := 96, completed := done, firstFailure := f } []
    (mapped.setRing 2 { ring with front := front, readReserved := 96 - done, readerClaim := some .lau }))).setLau
      { queue := []
        buffer := (Vector.replicate 8 none).set 2 (some ones)
        service := some { ringService .reader (.take 96) 96 with admitted := 96, completed := done, firstFailure := f } }

/-- What the service of the LAU counts: completed, to admit, discarded, and its first failure. -/
def counts (t : State) : Option (Nat × Nat × Nat × Option LauFailure) :=
  t.lau.service.map fun sv => (sv.completed, sv.toAdmit, sv.discarded, sv.firstFailure)

theorem witness_LauCompletions_take :
    (run (.accessCompletion 0#272) (taking 0 32 none 96) fun t => decide (counts t = some (64, 96, 0, none)) &&
      ringHas (fun g => g.readReserved = 32 && g.committedFill = 64) t) = true ∧
    (run (.accessCompletion 3#272) (taking 0 32 none 96) fun t =>
      decide (counts t = some (64, 96, 32, some { pos := 0, offset := 0 }) ∧ told t = [.checkFault 2048 .lau] ∧
        t.lau.buffer = Vector.replicate 8 none)) = true ∧
    (run (.accessCompletion 3#272) (taking 0 32 (some { pos := 32, offset := 32 }) 96) fun t =>
      decide (counts t = some (64, 96, 64, some { pos := 0, offset := 0 }))) = true ∧
    (run (.accessCompletion 3#272) (taking 32 32 (some { pos := 0, offset := 0 }) 96) fun t =>
      decide (counts t = some (64, 96, 32, some { pos := 0, offset := 0 }))) = true ∧
    (run (.accessCompletion 0#272) (taking 64 32 (some { pos := 32, offset := 32 }) 96) fun t =>
      decide (counts t = some (64, 96, 0, some { pos := 32, offset := 32 })) &&
        ringHas (fun g => g.front = 64 && g.committedFill = 96 && g.readReserved = 32) t) = true ∧
    (run (.accessCompletion 0#272) (taking 64 32 (some { pos := 32, offset := 32 }) 128) fun t =>
      decide (counts t = some (64, 96, 32, some { pos := 32, offset := 32 })) &&
        ringHas (fun g => g.front = 128 && g.committedFill = 64 && g.readReserved = 32) t) = true := by decide +kernel

theorem witness_LauCompletions_ends :
    (run (.accessCompletion 0#272) (taking 0 64 none 96) (said .ok (List.replicate 32 0#8 ++ ones))) = true ∧
    (run (.accessCompletion 3#272) (taking 0 64 none 96) (said .dataError (u32 0 ++ u32 32))) = true ∧
    (run (.accessCompletion 0#272) (accessing (waitingEntry (.requester .lau) (.read (.lauBuffer 0)) 32) (inService
      { service (.get 32 64) 64 with
        admitted := 64, completed := 32, firstFailure := some { pos := 32, offset := 64 } } [] mapped))
          (said .dataError (u32 64 ++ List.replicate 32 0#8))) = true ∧
    (run (.accessCompletion 0#272) (accessing (waitingEntry (.requester .lau) (.write ones) 32) (inService
      { service (.put 0 (ones ++ ones)) 32 with admitted := 32, cutShort := true } [] mapped))
        (said .restarted (u32 32))) = true := by decide +kernel

theorem witness_LauCompletions_shortened :
    (let s := inService { ringService .reader (.take 64) 64 with admitted := 32, completed := 32 } [] (mapped.setRing 2
        { Ring.fresh .stop 1 with readerClaim := some .lau })
     s.report.lau.service = none ∧ (s.report.link.readyList.map fun r => (r.tag, r.status)) = [(5#8, .ok)] ∧
      (accessing (ringEntry .lau (.read (.lauBuffer 0)) 0) s).report.lau.service.map LauService.toAdmit = some 32 ∧
      (s.setRing 2 ring).report.lau.service.map LauService.toAdmit = some 64) ∧
    (live.handOver 5#8 .ok []).link = live.link := by decide +kernel

theorem test_lau_admits_what_it_serves :
    (run (.get 5#8 (getBytes 1 1984 64)) mapped fun t => run .admission t fun u =>
      decide (u.sched.list.map BurstEntry.addr = [1984] ∧ u.lau.service.map LauService.admitted = some 32)) = true := by
  decide +kernel

/-! ## Laws -/

theorem witness_SchedulerLawsKept : step { live with pending := [.settleExpiry] } = .next live := rfl

theorem witness_RecordLawsKept : live.MemoryLaw ∧ step live = .next live.idle := ⟨⟨rfl, rfl⟩, rfl⟩

theorem witness_RecordLawsKept_laws : mapped.RingLaw ∧ mapped.PlayoutLaw ∧ mapped.ChannelLaw ∧ mapped.ReferenceLaw := by
  refine ⟨?_, ?_, ?_, ?_⟩
  · intro r
    by_cases h : r = 2
    · subst h
      exact ⟨⟨by decide, rfl, rfl⟩, rfl⟩
    · rw [show mapped.ring? r = none by revert r; decide]
      rfl
  · intro k
    match k with
    | 0 | 1 => exact ⟨by decide, rfl, nofun⟩
  · unfold State.ChannelLaw
    decide
  · unfold State.ReferenceLaw
    decide

end Sys2Proof.Tests
end

/-!
R1: the address map. The bank is the last digit, base 8, of the page number `a / 1024`, and the row is what stands before
it. So addresses of one page lie in one bank and one row, and from page to page the bank counts up and carries into the
row.
-/
namespace Sys2Proof.Proofs

open Sys2Proof.Machine

/-! ## Column, bank and row as numbers -/

theorem colOf_eq_mod (a : Nat) : colOf a = a % 1024 := rfl

theorem bankOf_val_eq_page_mod (a : Nat) : (bankOf a).val = a / 1024 % 8 := rfl

theorem rowOf_eq_div (a : Nat) : rowOf a = a / 8192 := rfl

theorem rowOf_eq_page_div (a : Nat) : rowOf a = a / 1024 / 8 := by
  rw [rowOf_eq_div, Nat.div_div_eq_div_mul]

/-! ## One page, one bank and one row -/

theorem bankOf_rowOf_eq_of_page_eq {a b : Nat} (page : a / 1024 = b / 1024) :
    bankOf a = bankOf b ∧ rowOf a = rowOf b := by
  constructor
  · apply Fin.ext
    rw [bankOf_val_eq_page_mod, bankOf_val_eq_page_mod, page]
  · rw [rowOf_eq_page_div, rowOf_eq_page_div, page]

/-- A page is a whole number of bursts, so no burst crosses its end. -/
theorem burst_in_one_page {a i : Nat} (aligned : a % 32 = 0) (inBurst : i < 32) : (a + i) / 1024 = a / 1024 := by
  omega

theorem aligned_page_in_one_page {a i : Nat} (aligned : a % 1024 = 0) (inPage : i < 1024) :
    (a + i) / 1024 = a / 1024 := by
  omega

/-! ## The next page -/

theorem next_page (a : Nat) : (a + 1024) / 1024 = a / 1024 + 1 :=
  Nat.add_div_right a (by decide)

theorem bankOf_next_page (a : Nat) : (bankOf (a + 1024)).val = ((bankOf a).val + 1) % 8 := by
  rw [bankOf_val_eq_page_mod, bankOf_val_eq_page_mod, next_page, Nat.mod_add_mod]

/-- After the page in bank 7 comes the one in bank 0 of the next row. -/
theorem rowOf_next_page (a : Nat) :
    rowOf (a + 1024) = if (bankOf a).val = 7 then rowOf a + 1 else rowOf a := by
  rw [rowOf_eq_page_div, rowOf_eq_page_div, bankOf_val_eq_page_mod, next_page]
  split
  case isTrue lastBank => omega
  case isFalse notLastBank => omega

/-! ## The obligation -/

/-- Settles O8: bank and row depend on the page alone (`bankOf_rowOf_eq_of_page_eq`), and a burst or a page holds one
page number. -/
theorem addressMap : Obligations.AddressMap := by
  refine ⟨fun a => ⟨colOf_eq_mod a, bankOf_val_eq_page_mod a, rowOf_eq_div a⟩, ?burst, ?page, ?next, ?examples⟩
  case burst =>
    intro a i aligned inBurst
    exact bankOf_rowOf_eq_of_page_eq (burst_in_one_page aligned inBurst)
  case page =>
    intro a i aligned inPage
    exact bankOf_rowOf_eq_of_page_eq (aligned_page_in_one_page aligned inPage)
  case next =>
    intro a _
    exact ⟨bankOf_next_page a, rowOf_next_page a⟩
  case examples => decide

end Sys2Proof.Proofs

/-!
R59: CHECK_STATS at the check unit. The reply does not depend on the link and leaves it alone, so the reply to the request
as it was before the frame is the one the frame brings; what remains is the value of the clear field.
-/
namespace Sys2Proof.Proofs

open Sys2Proof.Machine Sys2Proof.Laws

/-! ## The clear field -/

theorem readFlag_zero : readFlag 0#8 = some false := rfl

theorem readFlag_one : readFlag 1#8 = some true := rfl

theorem readFlag_of_one_lt {b : Byte} (beyond : 1 < b.toNat) : readFlag b = none := by
  have notZero : b ≠ 0#8 := by rintro rfl; exact absurd beyond (by decide)
  have notOne : b ≠ 1#8 := by rintro rfl; exact absurd beyond (by decide)
  unfold readFlag
  rw [if_neg notZero, if_neg notOne]

/-! ## The reported data -/

theorem report_of_absent {c : CheckUnit} (absent : c.lastUncorrectable = none) :
    c.report = u32 c.corrected ++ u32 c.uncorrectable ++ [0#8, 0#8, 0#8, 0#8, 0#8] := by
  unfold CheckUnit.report
  rw [absent]
  rfl

theorem report_of_present {c : CheckUnit} {a : Nat} (present : c.lastUncorrectable = some a) :
    c.report = u32 c.corrected ++ u32 c.uncorrectable ++ ([1#8] ++ u32 a) := by
  unfold CheckUnit.report
  rw [present]
  rfl

/-! ## The reply of the check unit -/

theorem checkStats_of_keep {b : Byte} (s : State) (flag : readFlag b = some false) :
    checkStats [b] s = (.ok, s.check.report, s) := by
  simp [checkStats, flag]

theorem checkStats_of_clear {b : Byte} (s : State) (flag : readFlag b = some true) :
    checkStats [b] s = (.ok, s.check.report, s.setCheck CheckUnit.reset) := by
  simp [checkStats, flag]

theorem checkStats_of_noFlag {b : Byte} (s : State) (flag : readFlag b = none) :
    checkStats [b] s = (.badValue, [], s) := by
  simp [checkStats, flag]

/-- The reply to a request of one byte neither reads the link nor changes it. -/
theorem checkStats_setLink (b : Byte) (l : Link) (s : State) :
    checkStats [b] (s.setLink l) =
      ((checkStats [b] s).1, (checkStats [b] s).2.1, (checkStats [b] s).2.2.setLink l) := by
  cases flag : readFlag b with
  | none => rw [checkStats_of_noFlag _ flag, checkStats_of_noFlag _ flag]
  | some clear =>
    cases clear with
    | false =>
      rw [checkStats_of_keep _ flag, checkStats_of_keep _ flag]
      rfl
    | true =>
      rw [checkStats_of_clear _ flag, checkStats_of_clear _ flag]
      rfl

/-- A CHECK_STATS of one byte that reaches its owner is answered, in the same event, with the check unit's reply. -/
theorem exec_checkStats {s : State} {tag b : Byte} {st : Status} {data : List Byte} {t : State}
    (taken : s.takes 0x17#8 tag [b] = true) (ready : s.link.readiness = .ready)
    (reply : checkStats [b] s = (st, data, t)) :
    exec (.checkStats tag [b]) s = .next (t.setLink (s.link.answered 0x17#8 tag st data)) := by
  have gate : Gate.whenReady.status s.link.readiness = none := by rw [ready]; rfl
  have replyToFrame : checkStats [b] (s.working 0x17#8 tag) = (st, data, t.setLink (s.working 0x17#8 tag).link) := by
    have moved := checkStats_setLink b (s.working 0x17#8 tag).link s
    rwa [reply] at moved
  have answered := answers (ok := decide ([b].length = 1)) (f := checkStats [b]) taken rfl gate (by rw [replyToFrame]; rfl)
  rw [replyToFrame] at answered
  exact answered

/-! ## The obligation -/

/-- Settles O32: the reply by the value of the clear field, its data reported of the state before any clearing. -/
theorem checkStats : Obligations.CheckStats := by
  intro tag b s taken ready
  refine ⟨s.check.report, ?data, ?keep, ?clear, ?badValue⟩
  case data =>
    cases last : s.check.lastUncorrectable with
    | none => exact report_of_absent last
    | some a => exact report_of_present last
  case keep =>
    rintro rfl
    exact exec_checkStats taken ready (checkStats_of_keep s readFlag_zero)
  case clear =>
    rintro rfl
    exact exec_checkStats taken ready (checkStats_of_clear s readFlag_one)
  case badValue =>
    intro beyond
    exact exec_checkStats taken ready (checkStats_of_noFlag s (readFlag_of_one_lt beyond))

end Sys2Proof.Proofs

/-!
R68: SET_CLASS at the arbiter. First what `Arbiter.setClass` does to each record of the arbiter, in every case; then the
reply by the two fields of the request; the frame adds no more than the response.
-/
namespace Sys2Proof.Proofs

open Sys2Proof.Machine Sys2Proof.Laws

/-! ## Requesters and the requester field -/

theorem requester_index_val (r : Requester) : r.index.val = r.code := by
  cases r <;> rfl

theorem requester_at_code (r : Requester) : Requester.at r.code = r := by
  unfold Requester.at
  cases r with
  | ch c => rw [show (Requester.ch c).code = c.val from rfl, idx_val]
  | lau => rfl

theorem requester_index_injective : Function.Injective Requester.index := by
  intro x y sameIndex
  have sameCode : x.code = y.code := by rw [← requester_index_val, ← requester_index_val, sameIndex]
  rw [← requester_at_code x, ← requester_at_code y, sameCode]

theorem readRequester_of_code {b : Byte} {who : Requester} (code : who.code = b.toNat) :
    readRequester b = some who := by
  have inRange : b.toNat < 7 := by
    rw [← code, ← requester_index_val]
    exact who.index.isLt
  unfold readRequester
  rw [if_pos inRange, ← code, requester_at_code]

theorem readRequester_of_six_lt {b : Byte} (beyond : 6 < b.toNat) : readRequester b = none :=
  if_neg (by omega)

/-! ## The arbiter's records after SET_CLASS -/

theorem setClass_of_present {a : Arbiter} {r : Requester} {k : ClassId} (present : a.classOf r = k) :
    a.setClass r k = a :=
  if_pos present

theorem setClass_of_change {a : Arbiter} {r : Requester} {k : ClassId} (change : a.classOf r ≠ k) :
    a.setClass r k =
      { (if a.positionOf (a.classOf r) = r then a.setRun (a.classOf r) 0 else a) with
        classes := setAt a.classes r.index k } := by
  unfold Arbiter.setClass
  rw [if_neg change]
  split <;> rfl

theorem runOf_setRun (a : Arbiter) (k c : ClassId) (n : Nat) :
    (a.setRun k n).runOf c = if c = k then n else a.runOf c :=
  getAt_setAt a.runCount k c n

/-- SET_CLASS leaves the readiness, the positions and the hold. -/
theorem setClass_frame (a : Arbiter) (r : Requester) (k : ClassId) :
    (a.setClass r k).readiness = a.readiness ∧ (a.setClass r k).position = a.position ∧
      (a.setClass r k).holdOwner = a.holdOwner := by
  by_cases present : a.classOf r = k
  · rw [setClass_of_present present]
    exact ⟨rfl, rfl, rfl⟩
  · rw [setClass_of_change present]
    split <;> exact ⟨rfl, rfl, rfl⟩

theorem setClass_classOf (a : Arbiter) (r x : Requester) (k : ClassId) :
    (a.setClass r k).classOf x = if x = r then k else a.classOf x := by
  by_cases present : a.classOf r = k
  · rw [setClass_of_present present]
    split
    case isTrue same => rw [same, present]
    case isFalse => rfl
  · rw [setClass_of_change present]
    have classes := getAt_setAt a.classes r.index x.index k
    rwa [if_congr requester_index_injective.eq_iff rfl rfl] at classes

/-- The run count is cleared of the old class alone, and only where the requester stands at its position. -/
theorem setClass_runOf {a : Arbiter} {r : Requester} {k : ClassId} (change : a.classOf r ≠ k) (c : ClassId) :
    (a.setClass r k).runOf c = if c = a.classOf r ∧ a.positionOf c = r then 0 else a.runOf c := by
  rw [setClass_of_change change]
  by_cases atPosition : a.positionOf (a.classOf r) = r
  · rw [if_pos atPosition]
    have cleared := runOf_setRun a (a.classOf r) c 0
    have oldClass : (c = a.classOf r ∧ a.positionOf c = r) ↔ c = a.classOf r :=
      and_iff_left_of_imp (by rintro rfl; exact atPosition)
    rwa [← if_congr oldClass rfl rfl] at cleared
  · have elsewhere : ¬(c = a.classOf r ∧ a.positionOf c = r) := by
      rintro ⟨rfl, stands⟩
      exact atPosition stands
    rw [if_neg atPosition, if_neg elsewhere]
    rfl

/-! ## The reply of the arbiter -/

theorem setClass_reply_of_fields {r k : Byte} {who : Requester} {cls : ClassId} (s : State)
    (code : who.code = r.toNat) (number : cls.val = k.toNat) :
    setClass [r, k] s = (.ok, u8 (s.arb.classOf who).val, s.setArb (s.arb.setClass who cls)) := by
  simp only [setClass, readRequester_of_code code, ← number, idx_val]

theorem setClass_reply_of_beyond {r k : Byte} (s : State) (beyond : 6 < r.toNat ∨ 3 < k.toNat) :
    setClass [r, k] s = (.badValue, [], s) := by
  rcases beyond with badRequester | badClass
  · simp only [setClass, readRequester_of_six_lt badRequester]
  · simp only [setClass, idx_none (show 4 ≤ k.toNat from badClass)]
    cases readRequester r <;> rfl

/-- A SET_CLASS of two bytes that reaches its owner is answered, in the same event, with the arbiter's reply, whose
effect `t` is taken beside the link. -/
theorem exec_setClass {s t : State} {tag r k : Byte} {st : Status} {data : List Byte}
    (taken : s.takes 0x18#8 tag [r, k] = true) (serving : s.serving = true)
    (reply : setClass [r, k] (s.working 0x18#8 tag) = (st, data, t.setLink (s.working 0x18#8 tag).link)) :
    exec (.setClass tag [r, k]) s = .next (t.setLink (s.link.answered 0x18#8 tag st data)) := by
  have answered := answersServing (ok := decide ([r, k].length = 2)) (g := .whenReady) (f := setClass [r, k]) taken
    serving rfl (by rw [reply]; rfl)
  rw [reply] at answered
  exact answered

/-! ## The obligation -/

/-- Settles O45: the reply by the two fields; the arbiter it leaves is `Arbiter.setClass`, record by record. -/
theorem setClass : Obligations.SetClass := by
  intro tag r k s taken serving
  refine ⟨fun beyond => ?badValue,
    fun who cls code number => ⟨s.arb.setClass who cls, ?answer, ?present, ?change⟩⟩
  case badValue => exact exec_setClass taken serving (setClass_reply_of_beyond (s.working 0x18#8 tag) beyond)
  case answer => exact exec_setClass taken serving (setClass_reply_of_fields (s.working 0x18#8 tag) code number)
  case present => exact setClass_of_present
  case change =>
    intro change
    obtain ⟨readiness, position, holdOwner⟩ := setClass_frame s.arb who cls
    refine ⟨?own, fun x other => ?others, readiness, position, holdOwner, setClass_runOf change⟩
    case own => rw [setClass_classOf, if_pos rfl]
    case others => rw [setClass_classOf, if_neg other]

end Sys2Proof.Proofs

/-!
R161: NOTICE_REPLAY at the notice queue. A held sequence number names the place of its oldest notice, the send position
moves back to that place or stays behind it, and so stands before a held notice, which the reply reports.
-/
namespace Sys2Proof.Proofs

open Sys2Proof.Machine Sys2Proof.Laws

/-! ## The place of a sequence number -/

theorem placeOf_of_notHeld {q : NoticeQueue} {seq : Byte} (notHeld : ∀ n ∈ q.held, n.seq ≠ seq) :
    q.placeOf seq = none :=
  List.findIdx?_eq_none_iff.mpr fun n mem => decide_eq_false (notHeld n mem)

/-- The place is the number of notices older than the first of that number. -/
theorem placeOf_of_held {q : NoticeQueue} {seq : Byte} {older younger : List Notice} {n : Notice}
    (held : q.held = older ++ n :: younger) (named : n.seq = seq) (first : ∀ m ∈ older, m.seq ≠ seq) :
    q.placeOf seq = some older.length := by
  have olderHasNone : older.findIdx? (fun m => m.seq = seq) = none :=
    List.findIdx?_eq_none_iff.mpr fun m mem => decide_eq_false (first m mem)
  unfold NoticeQueue.placeOf
  rw [held, List.findIdx?_append, olderHasNone, List.findIdx?_cons, if_pos (decide_eq_true named)]
  simp

/-! ## The send position after a replay -/

theorem rewind_eq (k : Nat) (q : NoticeQueue) : q.rewind k = { q with sendPos := min k q.sendPos } := rfl

/-- The place replayed from is held, and the send position does not pass it: a held notice stands there. -/
theorem held_at_rewind {q : NoticeQueue} {k : Nat} (place : k < q.held.length) :
    ∃ m, q.held[min k q.sendPos]? = some m :=
  ⟨_, List.getElem?_eq_getElem (Nat.lt_of_le_of_lt (Nat.min_le_left k q.sendPos) place)⟩

theorem replayReport_of_held {q : NoticeQueue} {m : Notice} (next : q.held[q.sendPos]? = some m) :
    q.replayReport = [1#8, m.seq] ++ u8 (q.held.length - q.sendPos) := by
  unfold NoticeQueue.replayReport
  rw [next]
  rfl

/-! ## The reply of the notice queue -/

theorem noticeReplay_of_notHeld {seq : Byte} {s : State} (place : s.notices.placeOf seq = none) :
    noticeReplay [seq] s = (.notHeld, [], s) := by
  simp only [noticeReplay, place]

theorem noticeReplay_of_held {seq : Byte} {s : State} {k : Nat} (place : s.notices.placeOf seq = some k) :
    noticeReplay [seq] s = (.ok, (s.notices.rewind k).replayReport, s.setNotices (s.notices.rewind k)) := by
  simp only [noticeReplay, place]

/-- A NOTICE_REPLAY of one byte is answered, in the same event and in every readiness and mode, with the notice queue's
reply, whose effect `t` is taken beside the link. -/
theorem exec_noticeReplay {s t : State} {tag seq : Byte} {st : Status} {data : List Byte}
    (taken : s.takes 0x09#8 tag [seq] = true)
    (reply : noticeReplay [seq] (s.working 0x09#8 tag) = (st, data, t.setLink (s.working 0x09#8 tag).link)) :
    exec (.noticeReplay tag [seq]) s = .next (t.setLink (s.link.answered 0x09#8 tag st data)) := by
  have answered := answers (ok := decide ([seq].length = 1)) (g := .always) (f := noticeReplay [seq]) taken rfl rfl
    (by rw [reply]; rfl)
  rw [reply] at answered
  exact answered

/-! ## The obligation -/

/-- Settles O23: the reply by whether the number has a place; where it has one, `held_at_rewind` gives the notice at the
send position. -/
theorem noticeReplay : Obligations.NoticeReplay := by
  intro tag seq s taken
  refine ⟨fun notHeld => ?notHeld, fun older n younger held named first => ?held⟩
  case notHeld =>
    exact exec_noticeReplay taken (noticeReplay_of_notHeld (s := s.working 0x09#8 tag) (placeOf_of_notHeld notHeld))
  case held =>
    have place : s.notices.placeOf seq = some older.length := placeOf_of_held held named first
    obtain ⟨m, next⟩ := held_at_rewind (placeOf_lt place)
    have report : (s.notices.rewind older.length).replayReport =
        [1#8, m.seq] ++ u8 (s.notices.held.length - min older.length s.notices.sendPos) :=
      replayReport_of_held next
    have reply := noticeReplay_of_held (s := s.working 0x09#8 tag) place
    refine ⟨min older.length s.notices.sendPos, m, rfl, next, ?answer⟩
    rw [← report, ← rewind_eq]
    exact exec_noticeReplay (t := s.setNotices (s.notices.rewind older.length)) taken reply

end Sys2Proof.Proofs

/-!
R166: the CRC. The model takes a byte by adding it, as the high half of the register, and shifting eight times; the rule
takes the byte's bits one at a time, most significant first. Shifting and the polynomial are linear, so what is added to
the register beforehand can be carried beside it, its top bits joining the register's one by one (`crcShift_xor`).
-/
namespace Sys2Proof.Proofs

open Sys2Proof.Machine Sys2Proof.Laws

/-! ## One bit into the CRC -/

/-- One bit of the message into the remainder by 0x1021 (R166). -/
def crcBit (c : BitVec 16) (bit : Bool) : BitVec 16 := if c.msb ^^ bit then (c <<< 1) ^^^ 0x1021#16 else c <<< 1

/-- A shift of the register with a message `m` added is a bit step by the top bit of `m`, the rest still added. -/
theorem crcShift_succ_xor (n : Nat) (c m : BitVec 16) :
    crcShift (n + 1) (c ^^^ m) = crcShift n (crcBit c m.msb ^^^ m <<< 1) := by
  rw [crcShift, crcBit, BitVec.msb_xor, BitVec.shiftLeft_xor_distrib]
  split
  case isTrue => rw [BitVec.xor_assoc, BitVec.xor_comm (m <<< 1), ← BitVec.xor_assoc]
  case isFalse => rfl

theorem crcShift_xor (n : Nat) (c m : BitVec 16) :
    crcShift n (c ^^^ m) = ((List.range n).map m.getMsbD).foldl crcBit c ^^^ m <<< n := by
  induction n generalizing c m with
  | zero => simp [crcShift]
  | succ n ih =>
    have laterBits : (m <<< 1).getMsbD = m.getMsbD ∘ Nat.succ := by
      funext k
      exact BitVec.getMsbD_shiftLeft m 1
    rw [crcShift_succ_xor, ih, laterBits, ← BitVec.shiftLeft_add, Nat.add_comm 1 n, List.range_succ_eq_map,
      List.map_cons, List.foldl_cons, List.map_map, BitVec.msb_eq_getMsbD_zero]

/-! ## One byte into the CRC -/

/-- The top eight bits of a byte moved to the high half of the register are its bits, most significant first. -/
theorem highHalf_topBits (b : Byte) :
    (List.range 8).map (b.zeroExtend 16 <<< 8).getMsbD = [7, 6, 5, 4, 3, 2, 1, 0].map b.getLsbD := by
  simp [List.range_succ, BitVec.getMsbD_eq_getLsbD]

theorem highHalf_shiftLeft (b : Byte) : b.zeroExtend 16 <<< 8 <<< 8 = 0#16 := by
  rw [← BitVec.shiftLeft_add]
  exact BitVec.shiftLeft_eq_zero (Nat.le_refl 16)

theorem crcByte_eq_foldl_crcBit (c : BitVec 16) (b : Byte) :
    crcByte c b = ([7, 6, 5, 4, 3, 2, 1, 0].map b.getLsbD).foldl crcBit c := by
  rw [crcByte, crcShift_xor, highHalf_topBits, highHalf_shiftLeft, BitVec.xor_zero]

theorem crc16_nil : crc16 [] = 0xFFFF#16 := rfl

theorem crc16_concat (bytes : List Byte) (b : Byte) : crc16 (bytes ++ [b]) = crcByte (crc16 bytes) b :=
  List.foldl_concat ..

theorem crc16_check_value :
    crc16 [0x31#8, 0x32#8, 0x33#8, 0x34#8, 0x35#8, 0x36#8, 0x37#8, 0x38#8, 0x39#8] = 0x29B1#16 := by
  decide +kernel

/-! ## The CRC in a frame -/

theorem highByte_append_lowByte (c : BitVec 16) : highByte c ++ lowByte c = c :=
  BitVec.extractLsb'_append_extractLsb'

theorem frameBytes_eq (kind tag : Byte) (p : List Byte) :
    frameBytes kind tag p = [0xA5#8] ++ u16 (p.length + 2) ++ [kind, tag] ++ p ++
      [lowByte (crc16 (frameCore kind tag p)), highByte (crc16 (frameCore kind tag p))] := rfl

/-- The second CRC byte ends a body of KIND, TAG and payload: its frame is good exactly where the CRCs agree. -/
theorem takeByte_second_crc_byte (kind tag lo hi : Byte) (p : List Byte) :
    ((RxState.check (kind :: tag :: p) (some lo)).takeByte hi).2 =
      if crc16 (frameCore kind tag p) = hi ++ lo then .good kind tag p else .crcError := by
  show (rxCheckDone (kind :: tag :: p) (hi ++ lo)).2 = _
  unfold rxCheckDone
  rw [show u16 (kind :: tag :: p).length ++ kind :: tag :: p = frameCore kind tag p from rfl]
  split
  case isTrue => rfl
  case isFalse => rfl

/-! ## The obligation -/

/-- Settles O9: a byte into the CRC is eight bit steps (`crcByte_eq_foldl_crcBit`), and a frame's CRC is that of
`frameCore`, in the frames sent as in the check of a frame received. -/
theorem frameCrc : Obligations.FrameCrc := by
  refine ⟨crc16_nil, fun bytes b => ?byte, crc16_check_value, fun kind tag p => ?sent, fun _ => rfl, fun _ => rfl,
    takeByte_second_crc_byte⟩
  case byte =>
    rw [crc16_concat]
    exact crcByte_eq_foldl_crcBit (crc16 bytes) b
  case sent =>
    exact ⟨_, _, frameBytes_eq kind tag p, highByte_append_lowByte (crc16 (frameCore kind tag p))⟩

end Sys2Proof.Proofs

/-!
R172: the refusal slot. Checks 1 and 2 of the dispatch do not look at the KIND beyond naming it in the refusal, so one
equation (`dispatchFrame_refuses`) serves the requests and BAD_KIND alike; the slot's two cases are `Link.refuse`'s.
-/
namespace Sys2Proof.Proofs

open Sys2Proof.Machine Sys2Proof.Laws

/-! ## A refused frame -/

/-- The link refuses a frame with this tag: it fails check 1, or passes check 1 and fails check 2 (R170). -/
def Refuses (l : Link) (tag : Byte) (st : Status) : Prop :=
  (l.tagInUse tag = true ∧ st = .tagInUse) ∨ (l.tagInUse tag = false ∧ 8 ≤ l.table.length ∧ st = .busy)

/-- Whatever would become of the frame after checks 1 and 2 (`passed`), it is refused. -/
theorem firstChecks_refuse {s : State} {tag : Byte} {st : Status} (refuses : Refuses s.link tag st) (kind : Byte)
    (passed : State) :
    (if s.link.tagInUse tag then s.setLink (s.link.refuse .tagInUse tag kind)
      else if Config.tablePlaces ≤ s.link.table.length then s.setLink (s.link.refuse .busy tag kind)
      else passed) = s.setLink (s.link.refuse st tag kind) := by
  rcases refuses with ⟨inUse, rfl⟩ | ⟨free, full, rfl⟩
  · rw [if_pos inUse]
  · rw [if_neg (Bool.eq_false_iff.mp free), if_pos (show Config.tablePlaces ≤ s.link.table.length from full)]

theorem accept_refuses {s : State} {tag : Byte} {st : Status} (refuses : Refuses s.link tag st) (kind : Byte)
    (lenOk : Bool) (g : Gate) (own : State → State) :
    s.accept kind tag lenOk g own = s.setLink (s.link.refuse st tag kind) :=
  firstChecks_refuse refuses kind _

theorem dispatchBadKind_refuses {s : State} {tag : Byte} {st : Status} (refuses : Refuses s.link tag st) (kind : Byte)
    (p : List Byte) : dispatchBadKind kind tag p s = s.setLink (s.link.refuse st tag kind) :=
  firstChecks_refuse refuses kind _

/-- A frame that fails check 1 or 2 of R170 changes the link alone, whatever its KIND and its payload. -/
theorem dispatchFrame_refuses {s : State} {tag : Byte} {st : Status} (refuses : Refuses s.link tag st) (kind : Byte)
    (p : List Byte) : dispatchFrame kind tag p s = s.setLink (s.link.refuse st tag kind) := by
  cases request : requestCodes.contains kind with
  | true =>
    obtain ⟨own, accepts⟩ := dispatch_accept request tag p
    rw [accepts, accept_refuses refuses]
  | false =>
    have noRequest : kindIsNoRequest kind = true := by rw [kindIsNoRequest, request]; rfl
    rw [badKind_dispatch noRequest, dispatchBadKind_refuses refuses]

theorem exec_refuses {i : Instr} {kind tag : Byte} {p : List Byte} {s : State} {st : Status}
    (wellFormed : i.wellFormed = true) (frame : i.frame? = some (kind, tag, p))
    (arrives : s.link.frameCompletes kind tag p = true) (refuses : Refuses s.link tag st) :
    exec i s = .next (s.setLink (s.link.frameReceived.refuse st tag kind)) := by
  rw [exec_request wellFormed frame, if_pos arrives,
    dispatchFrame_refuses (s := s.received) (show Refuses s.received.link tag st from refuses)]
  rfl

/-! ## The slot empty and full -/

theorem refuse_of_empty {l : Link} (empty : l.refusal = none) (st : Status) (tag kind : Byte) :
    l.refuse st tag kind = { l with refusal := some { tag := tag, kind := kind, status := st, data := [] } } := by
  unfold Link.refuse
  split
  case h_1 => rfl
  case h_2 held => exact absurd (held.symm.trans empty) (Option.some_ne_none _)

theorem refuse_of_full {l : Link} (full : l.refusal ≠ none) (st : Status) (tag kind : Byte) :
    l.refuse st tag kind =
      { l with counters := { l.counters with refusalsDropped := satAdd 65535 1 l.counters.refusalsDropped } } := by
  unfold Link.refuse
  split
  case h_1 empty => exact absurd empty full
  case h_2 => rfl

/-! ## The slot emptied -/

/-- The refusal is the transmitter's first choice (R174). -/
theorem exec_frameBegin_of_refusal {s : State} {r : Response} (held : s.link.refusal = some r)
    (idle : s.link.tx = none) (released : s.link.resetHeld = false) :
    exec .frameBegin s = .next (s.setLink (s.link.beginRefusal r)) := by
  have idleTx : s.link.idleTx = true := by rw [Link.idleTx, idle, released]; rfl
  show execFrameBegin s = _
  rw [execFrameBegin, if_pos idleTx, State.beginFrame, held]

theorem pinReset_refusal (s : State) : s.pinReset.link.refusal = none := rfl

theorem readyReturn_refusal (s : State) : s.readyReturn.link.refusal = s.link.refusal := rfl

theorem takeBreak_refusal (s : State) : s.takeBreak.link.refusal = none := by
  unfold State.takeBreak
  split
  case isTrue => rw [readyReturn_refusal]; rfl
  case isFalse => rfl

theorem exec_linkBreak_of_receives {s : State} (receives : s.link.receives = true) :
    exec .linkBreak s = .next s.takeBreak := by
  show execLinkBreak s = _
  rw [execLinkBreak, if_pos receives]

/-! ## The obligation -/

/-- Settles O16: a refused frame comes to `Link.refuse` (`exec_refuses`), by whether the slot is full; the frame begun,
the pin reset and the break each leave it empty. -/
theorem refusalSlot : Obligations.RefusalSlot := by
  refine ⟨fun i kind tag p s st wellFormed frame arrives refuses => ⟨fun empty => ?filled, fun full => ?dropped⟩,
    fun s r held idle released => exec_frameBegin_of_refusal held idle released, fun s t reset => ?pinReset,
    fun s t receives broken => ?linkBreak⟩
  case filled =>
    rw [exec_refuses wellFormed frame arrives refuses, refuse_of_empty (l := s.link.frameReceived) empty]
  case dropped =>
    rw [exec_refuses wellFormed frame arrives refuses, refuse_of_full (l := s.link.frameReceived) full]
    rfl
  case pinReset =>
    cases reset
    exact pinReset_refusal s
  case linkBreak =>
    rw [exec_linkBreak_of_receives receives] at broken
    cases broken
    exact takeBreak_refusal s

end Sys2Proof.Proofs

/-!
The scheduler's laws (O59). Most of what the commands do to the scheduler ends with `Scheduler.settle`, which makes R23
hold whatever the list was and leaves the number of ACCESSING entries (`settle_laws`); the rest keeps the list, and each
bank OPEN on its row or CLOSED as it was (`laws_of_banks`). A refresh in progress rules out every bank move, since it has
every bank CLOSED (`refreshStart_none`).
-/
namespace Sys2Proof.Proofs

open Sys2Proof.Machine Sys2Proof.Laws

/-- The laws of the scheduler's records at a time. -/
structure SchedulerLaws (now : Nat) (d : Scheduler) : Prop where
  list : d.ListLaw
  entries : d.EntryLaw
  path : d.DataPathLaw
  history : d.HistoryLaw now
  debt : d.DebtLaw
  refresh : d.RefreshLaw

/-! ## The list's capacity (R22) -/

theorem bareList_length (l : List BurstEntry) : (bareList l).length = l.length := List.length_map _

theorem bareList_countP_owner (l : List BurstEntry) (o : EntryOwner) :
    ((bareList l).countP fun e => e.owner = o) = l.countP fun e => e.owner = o := by
  rw [bareList, List.countP_map]
  rfl

theorem listLaw_of_sublist {d d' : Scheduler} (sub : (bareList d'.list).Sublist (bareList d.list)) (h : d.ListLaw) :
    d'.ListLaw := by
  obtain ⟨places, each⟩ := h
  refine ⟨?_, fun o => ?_⟩
  · have shorter := sub.length_le
    rw [bareList_length, bareList_length] at shorter
    exact Nat.le_trans shorter places
  · have fewer := sub.countP_le (p := fun e => decide (e.owner = o))
    rw [bareList_countP_owner, bareList_countP_owner] at fewer
    exact Nat.le_trans fewer (each o)

theorem listLaw_of_bare {d d' : Scheduler} (same : bareList d'.list = bareList d.list) (h : d.ListLaw) : d'.ListLaw :=
  listLaw_of_sublist (same ▸ List.Sublist.refl _) h

/-- The list takes an entry where it has a place and the owner has fewer than two (R22). -/
theorem listLaw_append {d d' : Scheduler} {e : BurstEntry} (joined : bareList d'.list = bareList d.list ++ [e])
    (place : d.list.length < 8) (own : (d.list.countP fun x => x.owner = e.owner) < 2) (h : d.ListLaw) : d'.ListLaw := by
  refine ⟨?_, fun o => ?_⟩
  · have longer := congrArg List.length joined
    rw [List.length_append, bareList_length, bareList_length, List.length_singleton] at longer
    omega
  · have more := congrArg (List.countP fun x => x.owner = o) joined
    rw [List.countP_append, bareList_countP_owner, bareList_countP_owner, List.countP_singleton] at more
    have before := h.2 o
    by_cases isOwner : e.owner = o
    · subst isOwner
      rw [if_pos (decide_eq_true rfl)] at more
      omega
    · rw [if_neg (by simpa using isOwner)] at more
      omega

/-! ## The states R23 gives -/

theorem entryStateOf_accessing (banks : Vector Bank 8) (seen : List BankId) (e : BurstEntry) :
    entryStateOf banks seen e = .accessing ↔ e.state = .accessing := by
  unfold entryStateOf
  split
  case isTrue accessing => exact iff_of_true rfl accessing
  case isFalse other =>
    refine iff_of_false ?_ other
    split <;> simp

theorem entryStateOf_ready {banks : Vector Bank 8} {seen : List BankId} {e : BurstEntry} (other : e.state ≠ .accessing) :
    entryStateOf banks seen e = .ready ↔ e.bank ∉ seen ∧ (getAt banks e.bank).isOpenOn e.row = true := by
  unfold entryStateOf
  rw [if_neg other]
  split
  case isTrue ready => exact iff_of_true rfl (by simpa using ready)
  case isFalse waits => exact iff_of_false (by simp) (by simpa using waits)

/-- Where an entry of the settled list comes from: the same place, in the state R23 gives it. -/
theorem settleList_getElem (banks : Vector Bank 8) : ∀ (seen : List BankId) (l : List BurstEntry) (k : Nat)
    (hk : k < l.length) (hk' : k < (settleList banks seen l).length),
    (settleList banks seen l)[k] =
      { l[k] with state := entryStateOf banks (((l.take k).map BurstEntry.bank).reverse ++ seen) l[k] }
  | seen, e :: rest, 0, _, _ => rfl
  | seen, e :: rest, k + 1, hk, hk' => by
    have inRest := settleList_getElem banks (e.bank :: seen) rest k (Nat.lt_of_succ_lt_succ hk)
      (Nat.lt_of_succ_lt_succ hk')
    simpa [settleList] using inRest

theorem settleList_length (banks : Vector Bank 8) (seen : List BankId) (l : List BurstEntry) :
    (settleList banks seen l).length = l.length := by
  rw [← bareList_length, bareList_settle, bareList_length]

theorem mem_take_banks {l : List BurstEntry} {k : Nat} {b : BankId} (hk : k < l.length) :
    b ∉ (l.take k).map BurstEntry.bank ↔ ∀ (j : Nat) (hj : j < k), l[j].bank ≠ b := by
  simp only [List.mem_map, List.mem_take_iff_getElem, not_exists, not_and]
  constructor
  · intro h j hj
    exact h _ ⟨j, by omega, rfl⟩
  · rintro h _ ⟨j, hj, rfl⟩
    exact h j (by omega)

/-- Settling makes R23 hold. -/
theorem settle_entryLaw (d : Scheduler) : d.settle.EntryLaw := by
  intro k hk
  have inList : k < d.list.length := by rwa [← settleList_length d.banks [] d.list]
  have at_ : ∀ (j : Nat) (hj : j < d.settle.list.length) (hj' : j < d.list.length), d.settle.list[j] =
      { d.list[j] with
        state := entryStateOf d.banks (((d.list.take j).map BurstEntry.bank).reverse ++ []) d.list[j] } :=
    fun j hj hj' => settleList_getElem d.banks [] d.list j hj' hj
  have bank_ : ∀ (j : Nat) (hj : j < d.settle.list.length) (hj' : j < d.list.length),
      d.settle.list[j].bank = d.list[j].bank := fun j hj hj' => by rw [at_ j hj hj']; rfl
  rw [show d.settle.list[k].state = entryStateOf d.banks _ d.list[k] from by rw [at_ k hk inList],
    show d.settle.list[k].row = d.list[k].row from by rw [at_ k hk inList]; rfl, bank_ k hk inList]
  intro other
  rw [ne_eq, entryStateOf_accessing] at other
  rw [entryStateOf_ready other, List.append_nil, List.mem_reverse, mem_take_banks inList]
  refine and_congr ?_ Iff.rfl
  refine forall₂_congr fun j hj => ?_
  rw [bank_ j (Nat.lt_trans hj hk) (Nat.lt_trans hj inList)]

/-- Settling leaves the number of ACCESSING entries. -/
theorem settleList_accessing (banks : Vector Bank 8) : ∀ (seen : List BankId) (l : List BurstEntry),
    ((settleList banks seen l).countP fun e => e.state = .accessing) = l.countP fun e => e.state = .accessing
  | _, [] => rfl
  | seen, e :: rest => by
    rw [settleList, List.countP_cons, List.countP_cons, settleList_accessing banks _ rest]
    simp only [entryStateOf_accessing]

/-- A scheduler whose list has its capacity and its ACCESSING entry keeps the laws when it is settled. -/
theorem settle_laws {now : Nat} {d : Scheduler} (list : d.ListLaw) (path : d.DataPathLaw) (history : d.HistoryLaw now)
    (debt : d.DebtLaw) (refresh : d.RefreshLaw) : SchedulerLaws now d.settle where
  list := listLaw_of_bare (bareList_settle d.banks [] d.list) list
  entries := settle_entryLaw d
  path := (settleList_accessing d.banks [] d.list).trans path
  history := history
  debt := debt
  refresh := refresh

/-! ## Bank moves -/

theorem bank_setBank (d : Scheduler) (b k : BankId) (x : Bank) :
    (d.setBank b x).bank k = if k = b then x else d.bank k := getAt_setAt d.banks b k x

/-- While a bank is not CLOSED no refresh runs (R48). -/
theorem refreshStart_none {now : Nat} {d : Scheduler} (h : SchedulerLaws now d) {b : BankId}
    (notClosed : d.bank b ≠ .closed) : d.refreshStart = none := by
  by_contra running
  exact notClosed ((h.refresh running).1 b)

theorem moveBank_laws {now : Nat} {d : Scheduler} (h : SchedulerLaws now d) (still : d.refreshStart = none) (b : BankId)
    (x : Bank) : SchedulerLaws now (d.moveBank b x) :=
  settle_laws (d := d.setBank b x) h.list h.path h.history h.debt fun running => absurd still running

/-- A change that keeps the list, the data path, the history, the debt and the refresh, and of each bank the row it is OPEN
on and its being CLOSED, keeps the laws. -/
theorem laws_of_banks {now : Nat} {d d' : Scheduler} (h : SchedulerLaws now d) (list : d'.list = d.list) (path : d'.accessStart = d.accessStart)
    (history : d'.history = d.history) (debt : d'.refreshDebt ≤ 8) (refresh : d'.refreshStart = d.refreshStart)
    (onRow : ∀ b row, (d'.bank b).isOpenOn row = (d.bank b).isOpenOn row)
    (closed : ∀ b, d.bank b = .closed → d'.bank b = .closed) : SchedulerLaws now d' where
  list := listLaw_of_bare (congrArg bareList list) h.list
  entries := by
    have entries := h.entries
    unfold Scheduler.EntryLaw at entries ⊢
    simpa only [list, onRow] using entries
  path := by
    have law := h.path
    unfold Scheduler.DataPathLaw at law ⊢
    rwa [list, path]
  history := by
    have law := h.history
    unfold Scheduler.HistoryLaw at law ⊢
    rwa [history]
  debt := debt
  refresh := by
    intro running
    rw [refresh] at running
    obtain ⟨allClosed, noAccess⟩ := h.refresh running
    exact ⟨fun b => closed b (allClosed b), path.trans noAccess⟩

/-- A change beside the list, the banks, the data path, the history, the debt and the refresh keeps the laws. -/
theorem laws_of_same {now : Nat} {d d' : Scheduler} (h : SchedulerLaws now d) (list : d'.list = d.list) (path : d'.accessStart = d.accessStart)
    (history : d'.history = d.history) (debt : d'.refreshDebt ≤ 8) (refresh : d'.refreshStart = d.refreshStart)
    (banks : d'.banks = d.banks) : SchedulerLaws now d' := by
  have same : ∀ b, d'.bank b = d.bank b := fun b => by rw [Scheduler.bank, banks]; rfl
  exact laws_of_banks h list path history debt refresh (fun b row => by rw [same]) fun b hb => by rw [same, hb]

theorem setIdleLimit_laws {now : Nat} {d : Scheduler} (h : SchedulerLaws now d) (l : RowIdleLimit) (t : Nat) :
    SchedulerLaws now (d.setIdleLimit l t) := by
  have touched : ∀ b, (d.setIdleLimit l t).bank b = (d.bank b).touched t := getAt_mapTable (Bank.touched t) d.banks
  refine laws_of_banks h rfl rfl rfl h.debt rfl (fun b row => ?_) fun b hb => ?_
  · rw [touched]
    cases d.bank b <;> rfl
  · rw [touched, hb]
    rfl

theorem enterDraining_laws {now : Nat} {d : Scheduler} (h : SchedulerLaws now d) : SchedulerLaws now d.enterDraining := by
  refine laws_of_banks h rfl rfl rfl h.debt rfl (fun b row => ?_) fun b hb => ?_
  · unfold Scheduler.enterDraining Scheduler.bank
    rw [getAt_mapTable]
    cases getAt d.banks b <;> rfl
  · unfold Scheduler.enterDraining
    unfold Scheduler.bank at hb ⊢
    rw [getAt_mapTable, hb]

theorem testRefresh_laws {now : Nat} {d : Scheduler} (h : SchedulerLaws now d) : SchedulerLaws now d.testRefresh := by
  unfold Scheduler.testRefresh
  split
  · exact enterDraining_laws h
  · exact h

theorem testLazy_laws {now : Nat} {d : Scheduler} (h : SchedulerLaws now d) : SchedulerLaws now d.testLazy := by
  unfold Scheduler.testLazy
  split
  · exact enterDraining_laws h
  · exact h

/-! ## Admissions -/

/-- An admission that makes a new head leaves CLOSED banks CLOSED. -/
theorem admitHead_closed {x : Bank} (row : Nat) (closed : x = .closed) : x.admitHead row = .closed := by
  rw [closed]
  rfl

theorem admitEntry_laws {now : Nat} {d : Scheduler} (h : SchedulerLaws now d) {e : BurstEntry}
    (place : d.list.length < 8) (own : (d.list.countP fun x => x.owner = e.owner) < 2) :
    SchedulerLaws now (d.admitEntry e) := by
  have joined : ∀ t : Scheduler, t.list = d.list → t.accessStart = d.accessStart → t.history = d.history →
      t.refreshDebt = d.refreshDebt → t.RefreshLaw →
      SchedulerLaws now ({ t with list := t.list ++ [{ e with state := .waitingBank }] } : Scheduler).settle := by
    intro t list path history debt refresh
    refine settle_laws ?_ ?_ ?_ ?_ ?_
    · refine listLaw_append (d := d) (e := { e with state := .waitingBank }) ?_ place own h.list
      rw [list, bareList_append]
      rfl
    · have law := h.path
      unfold Scheduler.DataPathLaw at law ⊢
      rw [list, path, List.countP_append]
      exact law
    · have law := h.history
      unfold Scheduler.HistoryLaw at law ⊢
      rwa [history]
    · have law := h.debt
      unfold Scheduler.DebtLaw at law ⊢
      rwa [debt]
    · exact refresh
  unfold Scheduler.admitEntry
  split
  · refine joined (d.setBank e.bank ((d.bank e.bank).admitHead e.row)) rfl rfl rfl rfl fun running => ?_
    obtain ⟨closed, noAccess⟩ := h.refresh running
    refine ⟨fun b => ?_, noAccess⟩
    rw [bank_setBank]
    split
    · exact admitHead_closed e.row (closed e.bank)
    · exact closed b
  · exact joined d rfl rfl rfl rfl h.refresh

theorem sweepAdmit_laws {now : Nat} {d : Scheduler} (h : SchedulerLaws now d) : SchedulerLaws now d.sweepAdmit := by
  unfold Scheduler.sweepAdmit
  split
  case isTrue admits =>
    simp only [Bool.and_eq_true, decide_eq_true_eq] at admits
    obtain ⟨⟨_, own⟩, place⟩ := admits
    have moved : SchedulerLaws now { d with sweepPos := d.sweepPos + 32 } := laws_of_same h rfl rfl rfl h.debt rfl rfl
    exact admitEntry_laws moved place own
  case isFalse => exact h

/-! ## Openings (R29) -/

/-- Where R29 permits an opening the newest start is at least 6 ns old. -/
theorem historyPermits_spacing {now : Nat} {l : List Nat} (permits : historyPermits now l = true) :
    ∀ t, l.getLast? = some t → t + 6 ≤ now := by
  intro t newest
  unfold historyPermits at permits
  rw [newest] at permits
  simp only [Bool.and_eq_true, decide_eq_true_eq] at permits
  exact permits.1

/-- In an ascending history no start is later than the newest. -/
theorem le_getLast {l : List Nat} (ascending : l.Pairwise fun t u => t + 6 ≤ u) {t last : Nat} (mem : t ∈ l)
    (newest : l.getLast? = some last) : t ≤ last := by
  obtain ⟨older, rfl⟩ := List.getLast?_eq_some_iff.mp newest
  rw [List.pairwise_append] at ascending
  obtain ⟨_, _, before⟩ := ascending
  rcases List.mem_append.mp mem with old | new
  · exact Nat.le_trans (Nat.le_add_right t 6) (before t old last (List.mem_singleton_self last))
  · exact Nat.le_of_eq (List.mem_singleton.mp new)

theorem pushOpening_history {now : Nat} {d : Scheduler} (h : d.HistoryLaw now)
    (permits : historyPermits now d.history = true) :
    ({ d with history := pushOpening now d.history } : Scheduler).HistoryLaw now := by
  obtain ⟨atMost, ascending, past⟩ := h
  have spaced : ∀ t ∈ d.history, t + 6 ≤ now := by
    intro t mem
    obtain ⟨last, newest⟩ := Option.isSome_iff_exists.mp (List.getLast?_isSome.mpr (List.ne_nil_of_mem mem))
    have notLater := le_getLast ascending mem newest
    have old := historyPermits_spacing permits last newest
    omega
  have joined : ∀ l : List Nat, l.Sublist d.history → l.length < 4 →
      ({ d with history := l ++ [now] } : Scheduler).HistoryLaw now := by
    intro l sub short
    refine ⟨?_, ?_, ?_⟩
    · show (l ++ [now]).length ≤ 4
      rw [List.length_append, List.length_singleton]
      omega
    · refine List.pairwise_append.mpr ⟨ascending.sublist sub, List.pairwise_singleton _ _, fun t mem u new => ?_⟩
      rw [List.mem_singleton.mp new]
      exact spaced t (sub.subset mem)
    · intro t mem
      rcases List.mem_append.mp mem with old | new
      · exact past t (sub.subset old)
      · exact Nat.le_of_eq (List.mem_singleton.mp new)
  unfold pushOpening
  split
  case isTrue full =>
    have full' : 4 ≤ d.history.length := full
    exact joined d.history.tail (List.tail_sublist _) (by rw [List.length_tail]; omega)
  case isFalse room => exact joined d.history (List.Sublist.refl _) (Nat.lt_of_not_le room)

theorem serves_refreshStart {e : BurstEntry} {d : Scheduler} (serves : d.serves e = true) : d.refreshStart = none := by
  unfold Scheduler.serves at serves
  rw [Bool.and_eq_true] at serves
  exact Option.isNone_iff_eq_none.mp serves.2

theorem startOpening_laws {now : Nat} {d d' : Scheduler} (h : SchedulerLaws now d)
    (start : d.startOpening now = some d') : SchedulerLaws now d' := by
  unfold Scheduler.startOpening at start
  split at start
  case h_1 => cases start
  case h_2 e _ =>
    split at start
    case isFalse => cases start
    case isTrue allowed =>
      rw [Bool.and_eq_true] at allowed
      obtain ⟨serves, permits⟩ := allowed
      obtain rfl := Option.some.inj start
      have pushed : SchedulerLaws now { d with history := pushOpening now d.history } :=
        { h with history := pushOpening_history h.history permits }
      exact moveBank_laws pushed (serves_refreshStart serves) e.bank _

/-! ## Accesses (R32, R34) -/

/-- The start of an access changes the state of one entry, to ACCESSING. -/
theorem startOldest_getElem : ∀ (l : List BurstEntry) (k : Nat) (hk : k < l.length) (hk' : k < (startOldest l).length),
    (startOldest l)[k] = l[k] ∨ (startOldest l)[k] = { l[k] with state := .accessing }
  | e :: rest, k, hk, hk' => by
    by_cases ready : e.state = .ready
    · cases k with
      | zero => exact .inr (by simp [startOldest, ready])
      | succ k => exact .inl (by simp [startOldest, ready])
    · cases k with
      | zero => exact .inl (by simp [startOldest, ready])
      | succ k =>
        have inRest := startOldest_getElem rest k (Nat.lt_of_succ_lt_succ hk) (by
          simpa [startOldest, ready] using hk')
        simpa [startOldest, ready] using inRest

theorem startOldest_accessing : ∀ (l : List BurstEntry) (e : BurstEntry), l.find? (fun x => x.state = .ready) = some e →
    ((startOldest l).countP fun x => x.state = .accessing) = (l.countP fun x => x.state = .accessing) + 1
  | x :: rest, e, found => by
    by_cases ready : x.state = .ready
    · simp [startOldest, ready]
    · have inRest : rest.find? (fun x => x.state = .ready) = some e := by simpa [ready] using found
      rw [startOldest, if_neg ready, List.countP_cons, List.countP_cons, startOldest_accessing rest e inRest]
      omega

theorem accessStart_laws {now start : Nat} {d : Scheduler} (h : SchedulerLaws now d) {e : BurstEntry}
    (ready : d.readyHead? = some e) (free : d.busy = false) (serves : d.serves e = true) :
    SchedulerLaws now { d with list := startOldest d.list, accessStart := some start } where
  list := listLaw_of_bare (bareList_startOldest d.list) h.list
  entries := by
    have same : (startOldest d.list).length = d.list.length := by
      rw [← bareList_length, bareList_startOldest, bareList_length]
    have bank_ : ∀ (j : Nat) (hj : j < (startOldest d.list).length) (hj' : j < d.list.length),
        (startOldest d.list)[j].bank = d.list[j].bank := by
      intro j hj hj'
      rcases startOldest_getElem d.list j hj' hj with kept | started
      · rw [kept]
      · rw [started]
        rfl
    intro k hk other
    have hk' : k < d.list.length := same ▸ hk
    have kept : (startOldest d.list)[k] = d.list[k] := by
      rcases startOldest_getElem d.list k hk' hk with kept | started
      · exact kept
      · exact absurd (by show ((startOldest d.list)[k]).state = _; rw [started]) other
    have law := h.entries k hk'
    rw [← kept] at law
    refine (law other).trans (and_congr (forall₂_congr fun j hj => ?_) Iff.rfl)
    rw [← bank_ j (Nat.lt_trans hj hk) (Nat.lt_trans hj hk')]
  path := by
    have none : d.accessStart.isSome = false := free
    have before := h.path
    unfold Scheduler.DataPathLaw at before ⊢
    rw [none] at before
    rw [startOldest_accessing d.list e ready, before]
    rfl
  history := h.history
  debt := h.debt
  refresh := fun running => absurd (serves_refreshStart serves) running

theorem completeAccess_laws {now start t : Nat} {d : Scheduler} (h : SchedulerLaws now d) {e : BurstEntry}
    (busy : d.accessStart = some start) (found : d.accessing? = some e) : SchedulerLaws now (d.completeAccess e t) := by
  have still : d.refreshStart = none := by
    by_contra running
    rw [(h.refresh running).2] at busy
    cases busy
  have dropped : (dropAccessing d.list).countP (fun x => x.state = .accessing) = 0 := by
    have one := h.path
    unfold Scheduler.DataPathLaw at one
    rw [busy] at one
    have fewer := dropAccessing_count d.list e (fun x => decide (x.state = .accessing)) found
      (by simpa using List.find?_some found)
    rw [one] at fewer
    exact Nat.succ.inj fewer
  have entered : ∀ u : Scheduler, u.list = dropAccessing d.list → u.accessStart = none → u.history = d.history →
      u.refreshDebt = d.refreshDebt → u.refreshStart = d.refreshStart → SchedulerLaws now u.settle := by
    intro u list path history debt refresh
    refine settle_laws ?_ ?_ ?_ ?_ ?_
    · obtain ⟨older, younger, before, after⟩ := bareList_dropAccessing found
      refine listLaw_of_sublist ?_ h.list
      rw [list, before, after]
      exact (List.Sublist.refl older).append (List.sublist_cons_self _ _)
    · unfold Scheduler.DataPathLaw
      rw [list, path]
      exact dropped
    · have law := h.history
      unfold Scheduler.HistoryLaw at law ⊢
      rwa [history]
    · have law := h.debt
      unfold Scheduler.DebtLaw at law ⊢
      rwa [debt]
    · exact fun running => absurd (refresh.trans still) running
  unfold Scheduler.completeAccess Scheduler.applyCloseAfter
  split
  · exact entered _ rfl rfl rfl rfl rfl
  · exact entered _ rfl rfl rfl rfl rfl

/-! ## Refreshes (R48, R53) -/

theorem allClosed_iff (d : Scheduler) : d.allClosed = true ↔ ∀ b, d.bank b = .closed := by
  unfold Scheduler.allClosed Scheduler.bank getAt
  simp only [List.all_eq_true, decide_eq_true_eq, Vector.mem_toList_iff, Vector.mem_iff_getElem]
  constructor
  · intro all b
    exact all _ ⟨b.val, b.isLt, rfl⟩
  · rintro all _ ⟨i, hi, rfl⟩
    exact all ⟨i, hi⟩

theorem beginRefresh_laws {now t : Nat} {d : Scheduler} (h : SchedulerLaws now d) (can : d.refreshCanStart = true) :
    SchedulerLaws now (d.beginRefresh t) := by
  unfold Scheduler.refreshCanStart at can
  simp only [Bool.and_eq_true, Bool.not_eq_true'] at can
  obtain ⟨⟨⟨closed, free⟩, _⟩, _⟩ := can
  have noAccess : d.accessStart = none := by simpa [Scheduler.busy] using free
  exact { h with refresh := fun _ => ⟨(allClosed_iff d).mp closed, noAccess⟩ }

/-- A refresh that follows another finds the banks CLOSED and the data path free as the other had them. -/
theorem afterRefresh_laws {now t start : Nat} {d : Scheduler} (h : SchedulerLaws now d)
    (running : d.refreshStart = some start) : SchedulerLaws now (d.payDebt.afterRefresh t) := by
  have closed : (∀ b, d.bank b = .closed) ∧ d.accessStart = none := h.refresh (by rw [running]; simp)
  have paid : d.payDebt.refreshDebt ≤ 8 := Nat.le_trans (Nat.sub_le _ _) h.debt
  have again : ∀ (m : SchedMode) (r : Option Nat),
      SchedulerLaws now { d.payDebt with refreshStart := r, mode := m } := fun m r =>
    { list := h.list, entries := h.entries, path := h.path, history := h.history, debt := paid,
      refresh := fun _ => closed }
  unfold Scheduler.afterRefresh
  split
  · split
    · exact again _ _
    · exact sweepAdmit_laws (sweepAdmit_laws (again _ _))
  · split
    · exact again _ _
    · exact again _ _

/-! ## Every move -/

theorem SchedulerLaws.later {now t : Nat} {d : Scheduler} (h : SchedulerLaws now d) (le : now ≤ t) :
    SchedulerLaws t d :=
  { h with history := ⟨h.history.1, h.history.2.1, fun u mem => Nat.le_trans (h.history.2.2 u mem) le⟩ }

theorem beginClear_laws {now t : Nat} {d : Scheduler} (h : SchedulerLaws now d) : SchedulerLaws now (d.beginClear t) := by
  unfold Scheduler.beginClear
  exact sweepAdmit_laws (sweepAdmit_laws (laws_of_same h rfl rfl rfl h.debt rfl rfl))

/-- After a pin reset the list, the history and the debt are empty and the banks CLOSED (R19). -/
theorem pinReset_laws (now : Nat) (stage : Option BringupStage) :
    SchedulerLaws now { Scheduler.reset with stage := stage } where
  list := ⟨Nat.zero_le _, fun _ => Nat.zero_le _⟩
  entries := fun _ hk => absurd hk (Nat.not_lt_zero _)
  path := rfl
  history := ⟨Nat.zero_le _, List.Pairwise.nil, fun _ mem => absurd mem List.not_mem_nil⟩
  debt := Nat.zero_le _
  refresh := fun running => absurd rfl running

/-- The part's scheduler keeps its laws. -/
def SchedulerKept (s : State) : Prop := SchedulerLaws s.now s.sched

theorem schedulerKept_moves : Moves SchedulerKept where
  ring := fun _ _ _ _ _ _ _ h => h
  goes := fun _ _ _ _ h => h
  arb := fun _ _ h => h
  post := fun _ _ h => h
  raise := fun _ _ _ h => h
  served := fun _ _ h => h
  waiters := fun _ _ _ h => h
  refs := fun _ _ _ h => h
  channel := fun _ _ _ h => h
  reservations := fun _ _ h => h
  lau := fun _ _ h => h
  link := fun _ _ _ h => h
  openQueue := fun _ h => h
  region := fun _ _ _ h => h
  entry := fun _ _ _ _ h => h
  ack := fun _ _ _ h => h
  rewind := fun _ _ _ h => h
  assigned := fun _ _ _ _ h => h
  capture := fun _ _ _ _ h => h
  playout := fun _ _ _ h => h
  clock := fun t s h => SchedulerLaws.later h (Nat.le_max_left s.now t)
  check := fun _ _ h => h
  rewindAll := fun _ h => h
  sendNext := fun _ _ h => h
  strobed := fun _ _ _ h => h
  resetBlocks := fun _ h => laws_of_same h rfl rfl rfl h.debt rfl rfl
  pinReset := fun s _ => pinReset_laws s.now none
  idleLimit := fun l s h => setIdleLimit_laws h l s.now
  rate := fun _ _ h => laws_of_same h rfl rfl rfl h.debt rfl rfl
  settled := fun _ _ h => laws_of_same h rfl rfl rfl h.debt rfl rfl
  clear := fun _ _ h => beginClear_laws h
  failed := fun _ _ h => laws_of_same h rfl rfl rfl h.debt rfl rfl
  settling := fun _ _ h => laws_of_same h rfl rfl rfl h.debt rfl rfl
  interval := fun _ h => laws_of_same h rfl rfl rfl (Nat.min_le_left 8 _) rfl rfl
  testRefresh := fun _ h => testRefresh_laws h
  closing := fun b _ _ opened _ _ h => moveBank_laws h (refreshStart_none h (b := b) (by rw [opened]; simp)) b _
  closed := fun b _ _ closing _ h => moveBank_laws h (refreshStart_none h (b := b) (by rw [closing]; simp)) b _
  opening := fun _ _ start h => startOpening_laws h start
  opened := fun b _ _ _ opening _ h => moveBank_laws h (refreshStart_none h (b := b) (by rw [opening]; simp)) b _
  accessStart := fun _ _ ready free serves h => accessStart_laws h ready free serves
  refreshStart := fun _ can h => beginRefresh_laws h can
  refreshEnd := fun _ _ running _ h => afterRefresh_laws h running
  admitEntry := fun _ s opportunity own h => by
    rw [Scheduler.opportunity, Bool.and_eq_true, decide_eq_true_eq] at opportunity
    exact admitEntry_laws h opportunity.2 own
  sweep := fun _ h => sweepAdmit_laws h
  bringupEnds := fun _ h => laws_of_same h rfl rfl rfl h.debt rfl rfl
  testLazy := fun _ h => testLazy_laws h
  accessEnd := fun _ _ _ busy found _ h => completeAccess_laws h busy found
  write := fun _ _ _ _ h => h
  read := fun _ _ _ _ h => h

/-! ## The obligation -/

/-- A property that the moves of the commands keep, and with them the queue and the clock, is kept by a step. -/
theorem step_keeps {P : State → Prop} (M : Moves P) (queue : ∀ l s, P s → P (State.setPending l s)) {s t : State}
    (h : P s) (taken : step s = .next t) (idle : P s.idle) : P t := by
  unfold step at taken
  split at taken
  · exact next_keeps idle taken
  · exact exec_keeps M _ (queue _ _ h) taken

/-- Settles O59: the laws together are kept by every move of the commands (`schedulerKept_moves`), and so by a step. -/
theorem schedulerLawsKept : Obligations.SchedulerLawsKept := by
  intro s t list entries path history debt refresh taken
  have kept : SchedulerKept s := ⟨list, entries, path, history, debt, refresh⟩
  have after : SchedulerKept t :=
    step_keeps schedulerKept_moves (fun _ _ h => h) kept taken (kept.later (Nat.le_succ s.now))
  exact ⟨after.list, after.entries, after.path, after.history, after.debt, after.refresh⟩

end Sys2Proof.Proofs

/-!
The laws of the link, the notices, the marks, the capture ports and the die (first part of O60). Each speaks of one record
of the part, so every move but that record's own keeps it by not touching it: `RecordMoves` lists the moves by record, with
that argument as the default, and each law states its own record's moves.
-/
namespace Sys2Proof.Proofs

open Sys2Proof.Machine Sys2Proof.Laws

/-- The moves of the requests that belong neither to the scheduler nor to the check unit, by record. -/
structure RequestRecordMoves (P : State → Prop) : Prop where
  region : ∀ r x s, P s → P (State.setRegion r x s) := by intros; assumption
  channel : ∀ c x s, P s → P (State.setChannel c x s) := by intros; assumption
  playout : ∀ k x s, P s → P (State.setPlayout k x s) := by intros; assumption
  arb : ∀ x s, P s → P (State.setArb x s) := by intros; assumption
  lau : ∀ x s, P s → P (State.setLau x s) := by intros; assumption
  link : ∀ l s, (tagsOf l).Sublist (tagsOf s.link) → P s → P (State.setLink l s) := by intros; assumption
  entry : ∀ e s, s.link.tagInUse e.tag = false → s.link.table.length < Config.tablePlaces → P s →
    P (s.setLink (s.link.addEntry e)) := by intros; assumption
  post : ∀ b s, P s → P (State.post b s) := by intros; assumption
  openQueue : ∀ s, P s → P (s.setNotices { s.notices with isOpen := true }) := by intros; assumption
  ack : ∀ k s, k < s.notices.held.length → P s → P (s.setNotices (s.notices.removeThrough k).reportLost) := by
    intros; assumption
  rewind : ∀ k s, k < s.notices.held.length → P s → P (s.setNotices (s.notices.rewind k)) := by intros; assumption
  raise : ∀ m k s, P s → P (State.setMark m ((s.mark m).raised k) s) := by intros; assumption
  served : ∀ m s, P s → P (State.setMark m (s.mark m).served s) := by intros; assumption
  waiters : ∀ m l s, P s → P (State.setMark m { s.mark m with waiters := l } s) := by intros; assumption
  assigned : ∀ m v s, v ≤ Config.maxMark → P s → P (s.setMark m ((s.mark m).assigned v)) := by intros; assumption
  capture : ∀ k x s,
    x.fifo = (s.capture k).fifo ∨ x.fifo = [] ∨ x.fifo = (s.capture k).fifo.drop Config.burstBytes → P s →
    P (State.setCapture k x s) := by intros; assumption

/-- The moves of all commands but an access completion. -/
structure OtherRecordMoves (P : State → Prop) : Prop extends RequestRecordMoves P where
  check : ∀ x s, P s → P (State.setCheck x s) := by intros; assumption
  sched : ∀ x s, P s → P (State.setSched x s) := by intros; assumption
  clock : ∀ t s, P s → P (State.clockTo t s) := by intros; assumption
  rewindAll : ∀ s, P s → P (s.setNotices { s.notices with sendPos := 0 }) := by intros; assumption
  sendNext : ∀ s, s.notices.sendPos < s.notices.held.length → P s →
    P (s.setNotices { s.notices with sendPos := s.notices.sendPos + 1 }) := by intros; assumption
  strobed : ∀ k w s, P s → P (s.setCapture k ((s.capture k).strobed w)) := by intros; assumption
  resetBlocks : ∀ s, P s → P s.resetBlocks := by intros; assumption
  pinReset : ∀ s, P s → P s.pinReset := by intros; assumption

/-- The moves of all commands: an access completion also moves the die. -/
structure RecordMoves (P : State → Prop) : Prop extends OtherRecordMoves P where
  write : ∀ a data s, P s → P (State.dieWrite a data s) := by intros; assumption
  read : ∀ a flips s, P s → P (State.dieRead a flips s) := by intros; assumption

theorem RequestRecordMoves.moves {P : State → Prop} (M : RequestRecordMoves P) : RequestMoves P where
  ring := fun _ _ _ _ _ _ _ h => M.region _ _ _ h
  goes := fun _ _ _ _ h => M.channel _ _ _ h
  arb := M.arb
  post := M.post
  raise := M.raise
  served := M.served
  waiters := M.waiters
  refs := fun _ _ _ h => M.region _ _ _ h
  channel := M.channel
  reservations := fun _ _ h => M.playout _ _ _ h
  lau := M.lau
  link := M.link
  openQueue := M.openQueue
  region := M.region
  entry := M.entry
  ack := M.ack
  rewind := M.rewind
  assigned := M.assigned
  capture := M.capture
  playout := M.playout

theorem OtherRecordMoves.moves {P : State → Prop} (M : OtherRecordMoves P) : OtherMoves P where
  toRequestMoves := M.toRequestRecordMoves.moves
  clock := M.clock
  check := M.check
  rewindAll := M.rewindAll
  sendNext := M.sendNext
  strobed := M.strobed
  resetBlocks := M.resetBlocks
  pinReset := M.pinReset
  idleLimit := fun _ _ h => M.sched _ _ h
  rate := fun _ _ h => M.sched _ _ h
  settled := fun _ _ h => M.sched _ _ h
  clear := fun _ _ h => M.sched _ _ h
  failed := fun _ _ h => M.sched _ _ h
  settling := fun _ _ h => M.sched _ _ h
  interval := fun _ h => M.sched _ _ h
  testRefresh := fun _ h => M.sched _ _ h
  closing := fun _ _ _ _ _ _ h => M.sched _ _ h
  closed := fun _ _ _ _ _ h => M.sched _ _ h
  opening := fun _ _ _ h => M.sched _ _ h
  opened := fun _ _ _ _ _ _ h => M.sched _ _ h
  accessStart := fun _ _ _ _ _ h => M.sched _ _ h
  refreshStart := fun _ _ h => M.sched _ _ h
  refreshEnd := fun _ _ _ _ h => M.sched _ _ h
  admitEntry := fun _ _ _ _ h => M.sched _ _ h
  sweep := fun _ h => M.sched _ _ h
  bringupEnds := fun _ h => M.sched _ _ h
  testLazy := fun _ h => M.sched _ _ h
  accessEnd := fun _ _ _ _ _ _ h => M.sched _ _ h

theorem RecordMoves.moves {P : State → Prop} (M : RecordMoves P) : Moves P where
  toOtherMoves := M.toOtherRecordMoves.moves
  write := fun _ _ _ _ h => M.write _ _ _ h
  read := fun _ _ _ _ h => M.read _ _ _ h

theorem idle_eq_clockTo (s : State) : s.idle = s.clockTo (s.now + 1) := by
  unfold State.idle State.clockTo
  rw [Nat.max_eq_right (Nat.le_succ s.now)]

/-! ## The outstanding request table (R169) -/

theorem tableLaw_iff (l : Link) : l.TableLaw ↔ (tagsOf l).length ≤ 8 ∧ (tagsOf l).Nodup := by
  rw [show (tagsOf l).length = l.table.length from List.length_map _]
  rfl

theorem tableLaw_of_sublist {l l' : Link} (sub : (tagsOf l').Sublist (tagsOf l)) (h : l.TableLaw) : l'.TableLaw := by
  rw [tableLaw_iff] at h ⊢
  exact ⟨Nat.le_trans sub.length_le h.1, h.2.sublist sub⟩

/-- A request's entry joins where its tag is free and the table has a place. -/
theorem tableLaw_addEntry {l : Link} {e : OutEntry} (free : l.tagInUse e.tag = false) (place : l.table.length < 8)
    (h : l.TableLaw) : (l.addEntry e).TableLaw := by
  refine ⟨by rw [Link.addEntry, List.length_append]; exact place, ?_⟩
  rw [Link.addEntry, List.map_append]
  refine h.2.append (List.nodup_singleton _) fun tag mem new => ?_
  obtain ⟨x, held, rfl⟩ := List.mem_map.mp mem
  exact tagInUse_false free x held (List.mem_singleton.mp new)

theorem tableLaw_moves : RecordMoves fun s => s.link.TableLaw where
  link := fun _ _ sub h => tableLaw_of_sublist sub h
  entry := fun _ _ free place h => tableLaw_addEntry free place h
  pinReset := fun _ _ => ⟨Nat.zero_le _, List.nodup_nil⟩

/-! ## The notice queue (R156) -/

theorem queueLaw_join {q : NoticeQueue} (b : NoticeBody) (place : q.held.length < 32) (h : q.QueueLaw) :
    (q.join b).QueueLaw := by
  obtain ⟨_, position, numbered⟩ := h
  refine ⟨?_, ?_, fun k hk => ?_⟩
  · rw [NoticeQueue.join, List.length_append]
    exact place
  · rw [NoticeQueue.join, List.length_append]
    exact Nat.le_add_right_of_le position
  · have len : (q.join b).held.length = q.held.length + 1 := List.length_append
    rw [len] at hk
    rcases Nat.lt_succ_iff_lt_or_eq.mp hk with older | rfl
    · have kept : (q.join b).held[k] = q.held[k] := List.getElem_append_left older
      rw [kept, len, Nat.succ_sub (Nat.le_of_lt older), ← Nat.add_one, BitVec.ofNat_add, ← BitVec.add_assoc, numbered k older]
      rfl
    · have new : (q.join b).held[q.held.length] = { seq := q.nextSeq, body := b } := List.getElem_concat_length rfl _
      rw [new, len, Nat.add_sub_cancel_left]
      rfl

theorem queueLaw_post {q : NoticeQueue} (b : NoticeBody) (h : q.QueueLaw) : (q.post b).QueueLaw := by
  unfold NoticeQueue.post
  split
  case isTrue takes =>
    rw [Bool.and_eq_true, decide_eq_true_eq] at takes
    exact queueLaw_join b takes.2 h
  case isFalse => exact h

theorem queueLaw_removeThrough {q : NoticeQueue} {k : Nat} (h : q.QueueLaw) : (q.removeThrough k).QueueLaw := by
  obtain ⟨places, position, numbered⟩ := h
  have len : (q.removeThrough k).held.length = q.held.length - (k + 1) := List.length_drop
  refine ⟨by omega, ?_, fun j hj => ?_⟩
  · rw [len]
    exact Nat.sub_le_sub_right position (k + 1)
  · rw [len] at hj
    have kept : (q.removeThrough k).held[j] = q.held[k + 1 + j] := List.getElem_drop
    rw [kept, len, Nat.sub_sub]
    exact numbered (k + 1 + j) (by omega)

/-- An acknowledgement removes at least one notice, so NOTICES_LOST finds a place. -/
theorem queueLaw_ack {q : NoticeQueue} {k : Nat} (place : k < q.held.length) (h : q.QueueLaw) :
    (q.removeThrough k).reportLost.QueueLaw := by
  have removed := queueLaw_removeThrough (k := k) h
  have len : (q.removeThrough k).held.length = q.held.length - (k + 1) := List.length_drop
  have places := h.1
  unfold NoticeQueue.reportLost
  split
  · exact removed
  · exact queueLaw_join _ (by omega) removed

theorem queueLaw_sendPos {q : NoticeQueue} {k : Nat} (position : k ≤ q.held.length) (h : q.QueueLaw) :
    ({ q with sendPos := k } : NoticeQueue).QueueLaw := ⟨h.1, position, h.2.2⟩

theorem queueLaw_empty {q : NoticeQueue} (empty : q.held = []) (position : q.sendPos = 0) : q.QueueLaw := by
  refine ⟨by simp [empty], by simp [position], fun k hk => ?_⟩
  rw [empty] at hk
  exact absurd hk (Nat.not_lt_zero k)

theorem queueLaw_moves : RecordMoves fun s => s.notices.QueueLaw where
  post := fun b _ h => queueLaw_post b h
  openQueue := fun _ h => h
  ack := fun _ _ place h => queueLaw_ack place h
  rewind := fun _ _ place h => queueLaw_sendPos (Nat.le_trans (Nat.min_le_left _ _) (Nat.le_of_lt place)) h
  rewindAll := fun _ h => queueLaw_sendPos (Nat.zero_le _) h
  sendNext := fun _ next h => queueLaw_sendPos next h
  resetBlocks := fun _ _ => queueLaw_empty rfl rfl
  pinReset := fun _ _ => queueLaw_empty rfl rfl

/-! ## The marks (R117) -/

theorem markLaw_setMark {s : State} {m : MarkId} {x : Mark} (value : x.value ≤ 255) (h : s.MarkLaw) :
    (s.setMark m x).MarkLaw := by
  intro k
  rw [mark_setMark]
  split
  · exact value
  · exact h k

theorem raised_value_le (k : Nat) (x : Mark) : (x.raised k).value ≤ 255 := by
  rw [raised_eq]
  exact Nat.min_le_left 255 _

/-- Serving takes from the value. -/
theorem served_value_le (x : Mark) : x.served.value ≤ x.value := by
  obtain ⟨served, kept, _, _, _, result⟩ := serveWaiters_eq x.waiters x.value
  rw [Mark.served, result]
  exact Nat.sub_le _ _

theorem markLaw_moves : RecordMoves State.MarkLaw where
  raise := fun _ _ _ h => markLaw_setMark (raised_value_le _ _) h
  served := fun m _ h => markLaw_setMark (Nat.le_trans (served_value_le _) (h m)) h
  waiters := fun m _ _ h => markLaw_setMark (h m) h
  assigned := fun _ _ _ value h => markLaw_setMark value h
  resetBlocks := fun s _ m => by
    rw [show s.resetBlocks.mark m = Mark.reset from Vector.getElem_replicate ..]
    exact Nat.zero_le _
  pinReset := fun s _ m => by
    rw [show s.pinReset.mark m = Mark.reset from Vector.getElem_replicate ..]
    exact Nat.zero_le _

/-! ## The capture FIFOs (8.2) -/

/-- What the law of capture ports says of one FIFO. -/
def FifoKept (fifo : List Byte) : Prop := fifo.length ≤ 256 ∧ fifo.length % 2 = 0

theorem captureLaw_setCapture {s : State} {k : CaptureId} {x : CapturePort} (fifo : FifoKept x.fifo)
    (h : s.CaptureLaw) : (s.setCapture k x).CaptureLaw := by
  intro j
  rw [capture_setCapture]
  split
  · exact fifo
  · exact h j

theorem fifoKept_drop {fifo : List Byte} (h : FifoKept fifo) : FifoKept (fifo.drop Config.burstBytes) := by
  unfold FifoKept at h ⊢
  rw [List.length_drop, show Config.burstBytes = 32 from rfl]
  omega

theorem fifoKept_nil : FifoKept [] := ⟨Nat.zero_le _, rfl⟩

/-- A strobe adds a word of two bytes where the FIFO is not full. -/
theorem fifoKept_strobed {p : CapturePort} (w : Word16) (h : FifoKept p.fifo) : FifoKept (p.strobed w).fifo := by
  unfold CapturePort.strobed
  split
  · exact h
  · split
    case isTrue room =>
      have room' : p.fifo.length < 256 := room
      unfold FifoKept at h ⊢
      rw [List.length_append, show (wordBytes w).length = 2 from rfl]
      omega
    case isFalse => exact h

theorem captureLaw_moves : RecordMoves State.CaptureLaw where
  capture := fun k x s fifo h => by
    refine captureLaw_setCapture ?_ h
    rcases fifo with kept | empty | taken
    · rw [kept]
      exact h k
    · rw [empty]
      exact fifoKept_nil
    · rw [taken]
      exact fifoKept_drop (h k)
  strobed := fun k w s h => captureLaw_setCapture (fifoKept_strobed w (h k)) h
  resetBlocks := fun s _ k => by
    rw [show s.resetBlocks.capture k = CapturePort.reset from Vector.getElem_replicate ..]
    exact fifoKept_nil
  pinReset := fun s _ k => by
    rw [show s.pinReset.capture k = CapturePort.reset from Vector.getElem_replicate ..]
    exact fifoKept_nil

/-! ## The die's tables (log entry 4) -/

theorem memoryLaw_moves : RecordMoves State.MemoryLaw where
  write := fun a data _ h => dieWrite_memory h a data
  read := fun a flips _ h => dieRead_memory h a flips

end Sys2Proof.Proofs

/-!
The laws of the rings, the play-out ports, and of the channels with the reference counts (second part of O60). These speak
of records the requests write in many ways, so each names what the commands do to its own records: the requests
(`RequestActs`), the admissions, the pulls and the completions.
-/
namespace Sys2Proof.Proofs

open Sys2Proof.Machine Sys2Proof.Laws

variable {P : State → Prop}

/-! ## What the three have in common -/

/-- A pull writes the play-out port, and may post a notice and report the bound channel. -/
theorem pull_keeps_of_port (C : ClaimMoves P) {k : PlayoutId} {s t : State}
    (pulled : P (s.setPlayout k (s.playout k).pulled)) (ht : execPull k s = .next t) : P t := by
  refine next_keeps (reportBound_keeps C _ ?_) ht
  unfold State.postUnderrun
  split
  · exact C.post _ _ pulled
  · exact pulled

/-- An admission is a channel's or the LAU's, of the requester chosen. -/
theorem admission_keeps_of {s t : State} (h : P s) (channel : ∀ c, P (s.admitChannel c)) (lau : P s.admitLau)
    (ht : execAdmission s = .next t) : P t := by
  refine next_keeps ?_ ht
  split
  · exact h
  · exact channel _
  · exact lau

/-- A channel's admission forms the entry of its next burst. -/
theorem admitChannel_keeps_of {s : State} (h : P s) (c : ChannelId)
    (formed : ∀ cur b e t, s.nextBurst c cur = some b → s.formChannel c cur b = some (e, t) →
      P (t.admitted e (Arbiter.afterChannel c cur.desc))) : P (s.admitChannel c) := by
  unfold State.admitChannel
  split
  · exact h
  · split
    case h_1 => exact h
    case h_2 next =>
      split
      case h_1 => exact h
      case h_2 form => exact formed _ _ _ _ next form

/-- The LAU's admission forms the entry of its service, where it is ready. -/
theorem admitLau_keeps_of {s : State} (h : P s)
    (formed : ∀ sv e t, s.lauReadiness = .ready → s.lau.service = some sv → s.formLau sv = some (e, t) →
      P (t.admitted e (Arbiter.afterSingle .lau))) : P s.admitLau := by
  unfold State.admitLau
  split
  case isTrue ready =>
    split
    case h_1 => exact h
    case h_2 service =>
      split
      case h_1 => exact h
      case h_2 form => exact formed _ _ _ ready service form
  case isFalse => exact h

/-- The part once the accessed entry has left the burst list (R34), before its WRITE or READ is made. -/
def endAccess (e : BurstEntry) (start : Nat) (s : State) : State :=
  (s.clockTo (start + Config.accessNs)).setSched (s.sched.completeAccess e (s.clockTo (start + Config.accessNs)).now)

/-- An access completion takes the accessed entry off the list, makes its WRITE or READ, and ends with the lazy test and
the report. -/
theorem accessCompletion_keeps_of (S : ServiceMoves P) (lazy : ∀ s, P s → P (s.setSched s.sched.testLazy))
    {flips : BurstBits} {s t : State} (h : P s)
    (write : ∀ e start data, s.sched.accessing? = some e → e.transfer = .write data →
      P ((endAccess e start s).writeCompletes e data))
    (read : ∀ e start g, s.sched.accessing? = some e → e.transfer = .read g →
      P ((endAccess e start s).readCompletes e g flips))
    (ht : execAccessCompletion flips s = .next t) : P t := by
  unfold execAccessCompletion at ht
  split at ht
  case h_1 start e _ accessing =>
    split at ht
    case isTrue =>
      refine next_keeps (report_keeps S (lazy _ ?_)) ht
      cases transfer : e.transfer with
      | write data => exact write e start data accessing transfer
      | read g => exact read e start g accessing transfer
    case isFalse => cases ht
  case h_2 => exact next_keeps h ht

theorem sweepDone_keeps_of (S : ServiceMoves P)
    (ends : ∀ s, P s → P (s.setSched { s.sched with mode := .normal, stage := none }))
    (sweep : ∀ s, P s → P (s.setSched s.sched.sweepAdmit)) (addr : Nat) {s : State} (h : P s) : P (s.sweepDone addr) := by
  unfold State.sweepDone
  split
  · exact S.link _ _ (List.Sublist.refl _) (S.post _ _ (ends _ h))
  · exact sweep _ h

theorem countOutcome_keeps_of (post : ∀ b s, P s → P (State.post b s)) (check : ∀ x s, P s → P (State.setCheck x s))
    (a : Nat) (o : EntryOwner) (out : ReadOutcome) {s : State} (h : P s) : P (s.countOutcome a o out) := by
  cases out with
  | good => exact h
  | corrected => exact check _ _ h
  | uncorrectable =>
    cases o with
    | requester => exact post _ _ (check _ _ h)
    | scheduler => exact check _ _ h

/-- A READ's report: a channel delivers its data, faults, or only counts; the LAU serves. -/
theorem reportRead_keeps_of (S : ServiceMoves P) (after : ∀ c s, P s → P (State.afterCompletion c s))
    (fault : ∀ c cur s, P s → P (State.channelFault c cur s)) (e : BurstEntry) (g : Target) (out : ReadOutcome)
    (back : Bool) (deliver : ∀ c data s, out.data? = some data → P s → P (State.deliver c g data s)) {s : State}
    (h : P s) : P (s.reportRead e g out back) := by
  have channel : ∀ c, P (s.channelReadDone c g out) := by
    intro c
    unfold State.channelReadDone
    split
    case h_1 => exact h
    case h_2 =>
      split
      case isTrue => exact after _ _ h
      case isFalse =>
        split
        case h_1 data => exact after _ _ (deliver _ _ _ data h)
        case h_2 =>
          split
          case isTrue => exact fault _ _ _ h
          case isFalse => exact after _ _ h
  unfold State.reportRead
  split
  · exact channel _
  · exact lauReadDone_keeps S _ _ _ _ h
  · exact h

/-! ## The rings (R8) -/

theorem ringFrame : FrameMoves State.RingLaw where
  entry := fun _ _ _ _ h => h
  ack := fun _ _ _ h => h
  rewind := fun _ _ _ h => h
  assigned := fun _ _ _ _ h => h
  capture := fun _ _ _ _ h => h

/-- REGION_DEFINE makes a ring empty. -/
theorem readDefine_ring {p : List Byte} {f : DefineFields} {g : Ring} (read : readDefine p = some f)
    (ring : f.kind = .ring g) : ∃ policy threshold, g = Ring.fresh policy threshold := by
  have fromKind : ∀ {k pol : Byte} {len t : Nat} {kind : RegionKind}, readKind k pol len t = some kind →
      kind = .ring g → ∃ policy threshold, g = Ring.fresh policy threshold := by
    intro k pol len t kind read isRing
    unfold readKind at read
    split at read
    · cases read
      cases isRing
    · split at read
      · split at read
        · cases read
          exact ⟨_, _, (RegionKind.ring.inj isRing).symm⟩
        · cases read
      · cases read
    · cases read
  unfold readDefine at read
  split at read
  case h_1 =>
    split at read
    case h_1 kind =>
      split at read
      · cases read
      · cases read
        exact fromKind kind ring
    case h_2 => cases read
  case h_2 => cases read

theorem defineCheck_free {f : DefineFields} {s : State} (passes : defineCheck f s = none) :
    (s.region f.region).record = none := by
  by_contra defined
  have some_ : (s.region f.region).record.isSome = true := Option.isSome_iff_ne_none.mpr defined
  unfold defineCheck at passes
  rw [if_pos some_] at passes
  split at passes
  · cases passes
  · split at passes <;> cases passes

theorem ringLaw_define (p : List Byte) {s : State} (h : s.RingLaw) : (regionDefine p s).2.2.RingLaw := by
  unfold regionDefine
  split
  case h_1 => exact h
  case h_2 f read =>
    split
    case h_1 => exact h
    case h_2 passes =>
      have noReads : s.readRefs f.region = 0 := readRefs_of_no_ring h (ring_none_free (defineCheck_free passes))
      refine ringLaw_setRegion noReads (fun d g record ring => ?_) h
      cases record
      obtain ⟨policy, threshold, rfl⟩ := readDefine_ring read ring
      exact ⟨⟨Nat.zero_le _, rfl, rfl⟩, rfl⟩

theorem busy_false {g : Ring} (idle : g.busy = false) : g.readReserved = 0 ∧ g.writeList = [] := by
  simp only [Ring.busy, Bool.or_eq_false_iff, Bool.not_eq_false', decide_eq_false_iff_not, not_not,
    List.isEmpty_iff] at idle
  exact ⟨idle.1.2, idle.2⟩

theorem ringLaw_delete (r : RegionId) {s : State} (h : s.RingLaw) : (regionDelete r s).2.2.RingLaw := by
  unfold regionDelete
  split
  case h_1 => exact h
  case h_2 d record =>
    split
    case isTrue => exact h
    case isFalse unused =>
      refine ringLaw_setRegion ?_ (fun _ _ record => nomatch record) h
      cases kind : d.kind with
      | linear => exact readRefs_of_no_ring h (ring_none_linear record kind)
      | ring g =>
        have idle : g.busy = false := by
          rw [Bool.not_eq_true, Region.inUse, kind, Bool.or_eq_false_iff] at unused
          exact unused.2
        have reserved := (readRefs_of_ring h (ring_eq record kind)).2
        rw [(busy_false idle).1] at reserved
        omega

theorem ringLaw_reset (r : RegionId) {s : State} (h : s.RingLaw) : (ringReset r s).2.2.RingLaw := by
  unfold ringReset
  split
  case h_1 => exact h
  case h_2 d record =>
    split
    case h_1 => exact h
    case h_2 g kind =>
      split
      case isTrue => exact h
      case isFalse idle =>
        have ring := ring_eq record kind
        obtain ⟨reserved, written⟩ := busy_false (Bool.eq_false_iff.mpr idle)
        refine ringLaw_setRing (g' := g.emptied) ring ⟨?_, rfl, ?_⟩ (readRefs_of_ring h ring).2 h
        · show 0 + g.readReserved + 32 * g.writeList.length ≤ d.length
          rw [reserved, written]
          exact Nat.zero_le _
        · show g.readReserved % 32 = 0
          rw [reserved]

theorem ringRequests : RequestActs State.RingLaw where
  toServiceMoves := ringLau.toServiceMoves
  toFrameMoves := ringFrame
  playoutKept := fun _ _ _ _ _ h => h
  define := fun p _ h => ringLaw_define p h
  delete := fun r _ h => ringLaw_delete r h
  emptied := fun r _ h => ringLaw_reset r h
  enqueue := fun p _ h => enqueue_keeps ringLau.toWorkMoves p h
  stop := fun p _ h => channelStop_keeps ringLau.toWorkMoves p h
  resume := fun c _ h => channelResume_keeps ringLau.toWorkMoves c h

theorem ringLaw_setSched {d : Scheduler} {s : State} (same : ∀ r, (s.setSched d).readRefs r = s.readRefs r)
    (h : s.RingLaw) : (s.setSched d).RingLaw := ringLaw_of_eq (s := s) (fun _ => rfl) same h

theorem ringLaw_resetBlocks {s : State} (h : s.RingLaw) : s.resetBlocks.RingLaw := by
  rw [ringLaw_iff] at h ⊢
  intro r
  have kept := h r
  rw [ring_resetBlocks, show s.resetBlocks.readRefs r = s.readRefs r from rfl]
  cases ring : s.ring? r with
  | none => rwa [ring] at kept
  | some x => rwa [ring] at kept

theorem ringLaw_pinReset (s : State) : s.pinReset.RingLaw := by
  rw [ringLaw_iff]
  intro r
  have free : s.pinReset.region r = Region.reset := Vector.getElem_replicate ..
  rw [ring_none_free (by rw [free]; rfl)]
  rfl

theorem ringScheduler : SchedulerMoves State.RingLaw :=
  schedulerMoves_of_refs (fun _ _ same h => ringLaw_setSched same h) (fun _ _ h => h) (fun _ _ h => h)
    (fun _ _ h => h) (fun _ _ _ h => h) (fun _ h => ringLaw_resetBlocks h) (fun s _ => ringLaw_pinReset s)

theorem ringActs : OtherActs State.RingLaw where
  toRequestActs := ringRequests
  toSchedulerMoves := ringScheduler
  admission := fun _ _ h ht => admission_keeps_of h
    (fun c => admitChannel_keeps_of h c fun _ _ _ _ next form => ringLaw_admitted (formChannel_rings h next form) _)
    (admitLau_keeps_of h fun _ _ _ ready service form =>
      ringLaw_admitted (formLau_rings h (lauAllows_of_ready ready service) form) _) ht
  pull := fun _ _ _ h ht => pull_keeps_of_port ringClaims h ht

theorem ringLaw_testLazy {s : State} (h : s.RingLaw) : (s.setSched s.sched.testLazy).RingLaw := by
  refine ringLaw_setSched (fun r => readRefs_of_bare ?_ r) h
  show bareList s.sched.testLazy.list = bareList s.sched.list
  unfold Scheduler.testLazy
  split <;> rfl

theorem ringLaw_sweepDone (addr : Nat) {s : State} (h : s.RingLaw) : (s.sweepDone addr).RingLaw := by
  refine sweepDone_keeps_of ringLau.toServiceMoves (fun _ h => h) (fun s h => ringLaw_setSched (fun r => ?_) h) addr h
  rw [readRefs_bare, readRefs_bare]
  exact readRefs_sweepAdmit s.sched r

/-- A READ that has left the list is taken off the reservation of its ring, or refers to none. -/
theorem ringLaw_onRef {e : BurstEntry} {g : Target} (transfer : e.transfer = .read g) (back : Bool) {s : State}
    (h : RingsWith e s) : (s.onRef e.ringRef fun r v => v.ringReadDone r back).RingLaw := by
  have isRead : e.isWrite = false := by rw [BurstEntry.isWrite, transfer]
  cases ref : e.ringRef with
  | none => exact (ringsWith_of_no_read (readsRing_of_no_ref ref)).mp h
  | some r => exact ringReadDone_rings back isRead ref h

theorem ringLaw_accessCompletion {flips : BurstBits} {s t : State} (h : s.RingLaw)
    (ht : execAccessCompletion flips s = .next t) : t.RingLaw := by
  refine accessCompletion_keeps_of ringLau.toServiceMoves (fun _ h => ringLaw_testLazy h) h
    (fun e start data accessing transfer => ?write) (fun e start g accessing transfer => ?read) ht
  case write =>
    have left : RingsWith e (endAccess e start s) := rings_completing h accessing _
    have isWrite : e.isWrite = true := by rw [BurstEntry.isWrite, transfer]
    have stored : ((endAccess e start s).dieWrite e.addr data).RingLaw :=
      (ringsWith_of_no_read (readsRing_of_write isWrite)).mp left
    exact reportWrite_keeps ringLau (fun addr _ h => ringLaw_sweepDone addr h) _ _ _
      (onRef_keeps _ (fun r _ h => ringWriteDone_rings r h) stored)
  case read =>
    have left : RingsWith e (endAccess e start s) := rings_completing h accessing _
    refine reportRead_keeps ringLau (fun _ _ _ _ h => h) _ _ _ _ (ringLaw_onRef transfer _ ?_)
    exact countOutcome_keeps_of (P := RingsWith e) (fun _ _ h => h) (fun _ _ h => h) _ _ _ left

/-! ## The play-out ports (R133, R134) -/

theorem playoutRegions : RegionMoves State.PlayoutLaw where
  ring := fun _ _ _ _ _ _ _ h => h
  goes := fun _ _ _ _ h => h
  arb := fun _ _ h => h
  post := fun _ _ h => h
  raise := fun _ _ _ h => h
  served := fun _ _ h => h
  waiters := fun _ _ _ h => h
  refs := fun _ _ _ h => h
  channel := fun _ _ _ h => h
  reservations := fun k _ h => playout_setPlayout_kept h
    ⟨Nat.le_trans (Nat.le_add_right _ _) (h k).1, (h k).2.1, fun _ mem => absurd mem List.not_mem_nil⟩
  lau := fun _ _ h => h
  link := fun _ _ _ h => h
  openQueue := fun _ h => h
  region := fun _ _ _ h => h

theorem playoutRequests : RequestActs State.PlayoutLaw where
  toServiceMoves := playoutRegions.toServiceMoves
  entry := fun _ _ _ _ h => h
  ack := fun _ _ _ h => h
  rewind := fun _ _ _ h => h
  assigned := fun _ _ _ _ h => h
  capture := fun _ _ _ _ h => h
  playoutKept := fun k x s fifo reservations h => playout_setPlayout_kept h (by
    unfold PortKept
    rw [fifo, reservations]
    exact h k)
  define := fun p s h => by
    unfold regionDefine
    split
    · exact h
    · split <;> exact h
  delete := fun r s h => by
    unfold regionDelete
    split
    · exact h
    · split <;> exact h
  emptied := fun r s h => by
    unfold ringReset
    split
    · exact h
    · split
      · exact h
      · split <;> exact h
  enqueue := fun p _ h => enqueue_keeps playoutRegions.toWorkMoves p h
  stop := fun p _ h => channelStop_keeps playoutRegions.toWorkMoves p h
  resume := fun c _ h => channelResume_keeps playoutRegions.toWorkMoves c h

theorem portKept_of_empty {p : PlayoutPort} (fifo : p.fifo = []) (reservations : p.reservations = []) : PortKept p := by
  unfold PortKept
  rw [fifo, reservations]
  exact ⟨Nat.zero_le _, rfl, fun _ mem => absurd mem List.not_mem_nil⟩

theorem playoutScheduler : SchedulerMoves State.PlayoutLaw :=
  schedulerMoves_of_refs (fun _ _ _ h => h) (fun _ _ h => h) (fun _ _ h => h) (fun _ _ h => h) (fun _ _ _ h => h)
    (fun s _ k => by
      rw [show s.resetBlocks.playout k = (s.playout k).restarted from getAt_mapTable ..]
      exact portKept_of_empty rfl rfl)
    (fun s _ k => by
      rw [show s.pinReset.playout k = PlayoutPort.reset from Vector.getElem_replicate ..]
      exact portKept_of_empty rfl rfl)

/-- A channel's burst reserves room only as a READ to a play-out port, which has it (R134). -/
theorem playoutLaw_formChannel {c : ChannelId} {cur : Current} {b : Burst} {s t : State} {e : BurstEntry}
    (h : s.PlayoutLaw) (next : s.nextBurst c cur = some b) (form : s.formChannel c cur b = some (e, t)) :
    t.PlayoutLaw := by
  cases b with
  | captureWrite p => exact (channelWrite_keeps playoutRegions (P := State.PlayoutLaw) (s := s.setCapture p _) h form).1
  | patternWrite v => exact (channelWrite_keeps playoutRegions h form).1
  | playoutRead p =>
    have room := (nextBurst_asks next).2.2 p rfl
    have reserved := playout_setPlayout_kept (k := p) h
      (portKept_reserved (h p) room (x := { pos := cur.prog.admitted, data := none }) rfl)
    exact (channelRead_keeps playoutRegions reserved form).1
  | copyWrite slot pos data =>
    exact (channelWrite_keeps playoutRegions (modChannel_keeps playoutRegions.toWorkMoves c _ h) form).1
  | copyRead slot =>
    exact (channelRead_keeps playoutRegions (modChannel_keeps playoutRegions.toWorkMoves c _ h) form).1

theorem playoutLaw_admitted {e : BurstEntry} {f : Arbiter → Arbiter} {s : State} (h : s.PlayoutLaw) :
    (s.admitted e f).PlayoutLaw :=
  report_keeps playoutRegions.toServiceMoves (s := (s.setSched (s.sched.admitEntry e)).setArb (f s.arb)) h

theorem playoutActs : OtherActs State.PlayoutLaw where
  toRequestActs := playoutRequests
  toSchedulerMoves := playoutScheduler
  admission := fun _ _ h ht => admission_keeps_of h
    (fun c => admitChannel_keeps_of h c fun _ _ _ _ next form =>
      playoutLaw_admitted (playoutLaw_formChannel h next form))
    (admitLau_keeps_of h fun _ _ _ _ _ form => playoutLaw_admitted (formLau_keeps playoutRegions h form).1) ht
  pull := fun k _ _ h ht =>
    pull_keeps_of_port playoutRegions.toClaimMoves (playout_setPlayout_kept h (portKept_pulled (h k))) ht

theorem playoutLaw_deliver {c : ChannelId} {g : Target} {data : List Byte} {s : State} (length : data.length = 32)
    (h : s.PlayoutLaw) : (s.deliver c g data).PlayoutLaw := by
  cases g with
  | copySlot slot => exact h
  | playout k pos => exact playout_setPlayout_kept h (portKept_delivered (h k) pos length)
  | lauBuffer pos => exact h

theorem playoutLaw_accessCompletion {flips : BurstBits} {s t : State} (h : s.PlayoutLaw)
    (ht : execAccessCompletion flips s = .next t) : t.PlayoutLaw := by
  have W := playoutRegions.toWorkMoves
  refine accessCompletion_keeps_of playoutRegions.toServiceMoves (fun _ h => h) h
    (fun e start data _ _ => ?write) (fun e start g _ _ => ?read) ht
  case write =>
    have sweep : ∀ addr s, State.PlayoutLaw s → (s.sweepDone addr).PlayoutLaw := fun addr _ h =>
      sweepDone_keeps_of playoutRegions.toServiceMoves (fun _ h => h) (fun _ h => h) addr h
    exact reportWrite_keeps playoutRegions.toLauMoves sweep _ _ _
      (onRef_keeps _ (fun r _ h => ringWriteDone_keeps playoutRegions r h)
        (s := (endAccess e start s).dieWrite e.addr data) h)
  case read =>
    refine reportRead_keeps_of playoutRegions.toServiceMoves (fun c _ h => afterCompletion_keeps W c h)
      (fun c cur _ h => channelFault_keeps W c cur h) _ _ _ _
      (fun _ _ _ yields h => playoutLaw_deliver (burst_length yields) h)
      (onRef_keeps _ (fun r _ h => ringReadDone_keeps playoutRegions r _ h) ?_)
    exact countOutcome_keeps_of (P := State.PlayoutLaw) (fun _ _ h => h) (fun _ _ h => h) _ _ _ h

end Sys2Proof.Proofs

/-!
The channels' law with the reference counts' (R76, R7; last part of O60), in the form `Counted none`: what each request,
an admission and a completion do to the descriptors and the counts; then the obligation.
-/
namespace Sys2Proof.Proofs

open Sys2Proof.Machine Sys2Proof.Laws

theorem counted_beside {s t : State} (h : Counted none s) (regions : t.regions = s.regions)
    (channels : t.channels = s.channels) : Counted none t :=
  counted_same (fun r => by rw [State.region, regions]; rfl) (fun c => by rw [State.channel, channels]; rfl) h

/-! ## Regions defined, deleted and emptied -/

theorem counted_define (p : List Byte) {s : State} (h : Counted none s) : Counted none (regionDefine p s).2.2 := by
  unfold regionDefine
  split
  case h_1 => exact h
  case h_2 f _ =>
    split
    case h_1 => exact h
    case h_2 passes => exact h.setRegion (h.free_slot f.region (defineCheck_free passes)).symm fun record => nomatch record

theorem counted_delete (r : RegionId) {s : State} (h : Counted none s) : Counted none (regionDelete r s).2.2 := by
  unfold regionDelete
  split
  case h_1 => exact h
  case h_2 =>
    split
    case isTrue => exact h
    case isFalse unused =>
      rw [Bool.not_eq_true, Region.inUse, Bool.or_eq_false_iff] at unused
      have unreferenced : (s.region r).refCount = 0 := by simpa using unused.1
      exact h.setRegion unreferenced.symm fun _ => rfl

theorem counted_reset (r : RegionId) {s : State} (h : Counted none s) : Counted none (ringReset r s).2.2 := by
  unfold ringReset
  split
  · exact h
  · split
    · exact h
    · split
      · exact h
      · exact counted_setRing h r _

/-! ## ENQUEUE (R78, R79) -/

theorem mem_endpoints {d : Descriptor} {r : RegionId} :
    d.namesRegion r = true ↔ ∃ off, (r, off) ∈ d.endpoints := by
  unfold Descriptor.namesRegion Descriptor.endpoints
  cases d.source <;> cases d.dest <;> simp [@eq_comm RegionId r, exists_or]

/-- A descriptor that passes the checks names DEFINED regions and finds a place in the queue. -/
theorem enqueueCheck_passes {c : ChannelId} {d : Descriptor} {s : State} (passes : enqueueCheck c d s = none) :
    (∀ r, d.namesRegion r = true → (s.region r).record ≠ none) ∧
      ((s.channel c).state ≠ .idle → (s.channel c).pending.length < 4) := by
  unfold enqueueCheck at passes
  split_ifs at passes with _ undefined _ _ _ _ _ full
  refine ⟨fun r names => ?_, fun busy => ?_⟩
  · obtain ⟨off, mem⟩ := mem_endpoints.mp names
    have all : d.endpoints.all (fun e => s.isDefined e.1) = true := by
      rwa [Bool.not_eq_true, Bool.not_eq_false'] at undefined
    exact Option.isSome_iff_ne_none.mp (List.all_eq_true.mp all _ mem)
  · by_contra noPlace
    refine full ?_
    rw [Bool.and_eq_true, decide_eq_true_eq, decide_eq_true_eq]
    exact ⟨busy, Nat.le_of_not_lt noPlace⟩

theorem references_append (x : Channel) (d : Descriptor) (r : RegionId) :
    ({ x with pending := x.pending ++ [d] } : Channel).references r =
      x.references r + if d.namesRegion r then 1 else 0 := by
  unfold Channel.references
  rw [List.countP_append, List.countP_singleton, Nat.add_assoc]

/-- The descriptor joins the queue and each region it names has one reference more. -/
theorem counted_joined {c : ChannelId} {d : Descriptor} {s : State} (h : Counted none s)
    (defined : ∀ r, d.namesRegion r = true → (s.region r).record ≠ none) (place : (s.channel c).pending.length < 4) :
    Counted (some c) ((s.addRefs d).modChannel c fun x => { x with pending := x.pending ++ [d] }) := by
  obtain ⟨v, counts, added⟩ := addRefs_eq d s
  rw [added]
  have counted : ∀ r, (getAt v r).refCount = namedBy r s + if d.namesRegion r then 1 else 0 := by
    intro r
    rw [counts r, h.counts r]
  refine ⟨fun b => ?_, fun b other => ?_, fun r => ?_, fun r free => ?_⟩
  · show ((((s.setRegions v).setChannel c _).channel b).pending).length ≤ 4
    rw [channel_setChannel]
    split
    · rw [List.length_append]
      exact place
    · exact h.places b
  · show (((s.setRegions v).setChannel c _).channel b).state = _ → _
    rw [State.modChannel, channel_setChannel_ne _ _ fun same => other (congrArg some same.symm)]
    exact h.idle b nofun
  · have named := named_setChannel c { s.channel c with pending := (s.channel c).pending ++ [d] } s r
    rw [references_append] at named
    show (getAt v r).refCount = namedBy r (s.setChannel c { s.channel c with pending := (s.channel c).pending ++ [d] })
    rw [counted r]
    omega
  · have record : (s.region r).record = none := by
      have same : (getAt v r).record = (s.region r).record := by rw [counts r]
      rw [← same]
      exact free
    have notNamed : d.namesRegion r = false := by
      by_contra names
      exact defined r (by simpa using names) record
    show (getAt v r).refCount = 0
    rw [counted r, notNamed, ← h.counts r, h.free_slot r record]
    rfl

theorem counted_acceptDescriptor {c : ChannelId} {d : Descriptor} {s : State} (h : Counted none s)
    (passes : enqueueCheck c d s = none) : Counted none (s.acceptDescriptor c d) := by
  obtain ⟨defined, place⟩ := enqueueCheck_passes passes
  obtain ⟨v, _, added⟩ := addRefs_eq d s
  have before : (s.addRefs d).channel c = s.channel c := by rw [added]; rfl
  have room : (s.channel c).pending.length < 4 := by
    by_cases idle : (s.channel c).state = .idle
    · rw [(h.idle c nofun idle).2]
      exact Nat.zero_lt_succ 3
    · exact place idle
  have joined := counted_joined h defined room
  refine reportAll_keeps (countedClaims none) ?_
  split
  case isTrue idle =>
    refine counted_promote c joined ?_
    rw [channel_modChannel_self, before] at idle ⊢
    exact (h.idle c nofun idle).1
  case isFalse busy => exact joined.settled fun idle => absurd idle busy

theorem counted_enqueue (p : List Byte) {s : State} (h : Counted none s) : Counted none (enqueue p s).2.2 := by
  unfold enqueue
  split
  case h_1 => exact h
  case h_2 =>
    split
    case h_1 => exact h
    case h_2 passes => exact counted_acceptDescriptor h passes

/-! ## CHANNEL_STOP and CHANNEL_RESUME -/

/-- A change of a channel's state and stop request, not to IDLE unless it has neither descriptor. -/
theorem counted_setState {c : ChannelId} {st : ChannelState} {stop : StopRequest} {s : State} (h : Counted none s)
    (idle : st = .idle → (s.channel c).current = none ∧ (s.channel c).pending = []) :
    Counted none (s.modChannel c fun x => { x with state := st, stop := stop }) :=
  h.modChannel c (fun _ _ => rfl) (fun _ => rfl) idle

theorem counted_setStop (c : ChannelId) (r : StopRequest) {s : State} (h : Counted none s) :
    Counted none (s.setStop c r) := h.modChannel c (fun _ _ => rfl) (fun _ => rfl) (h.idle c nofun)

theorem counted_haltStopped (c : ChannelId) {s : State} (h : Counted none s) : Counted none (s.haltStopped c) :=
  counted_setState h nofun

theorem counted_abortWait (c : ChannelId) (why : WaitReason) {s : State} (h : Counted none s) :
    Counted none (s.abortWait c why) := counted_retire c .aborted (leaveWait_keeps (countedClaims none) c why h)

theorem counted_stopRunning (c : ChannelId) (r : StopRequest) {s : State} (h : Counted none s) :
    Counted none (s.stopRunning c r) := by
  unfold State.stopRunning
  split
  · exact h
  · split
    · exact counted_setStop c r h
    · exact counted_afterCompletion c (counted_setState h nofun)

theorem discardPending_channel (s : State) (c : ChannelId) :
    (s.discardPending c).channel c = { s.channel c with pending := [] } := by
  obtain ⟨v, _, discards⟩ := discardPending_eq s c
  rw [discards, channel_setChannel_self]

theorem counted_becomeIdle {c : ChannelId} {s : State} (h : Counted none s) (none_ : (s.channel c).current = none) :
    Counted none ((s.discardPending c).becomeIdle c) := by
  refine counted_setState (counted_discards c h) fun _ => ?_
  rw [discardPending_channel]
  exact ⟨none_, rfl⟩

theorem counted_stopChannel (c : ChannelId) (m : StopRequest) {s : State} (h : Counted none s) :
    Counted none (s.stopChannel c m) := by
  cases m with
  | none => exact h
  | afterCurrent =>
    show Counted none (s.stopAfterCurrent c)
    unfold State.stopAfterCurrent
    split
    · exact counted_haltStopped c h
    · split
      · exact counted_setStop c _ h
      · exact h
    · exact counted_setStop c _ h
    · exact h
    · exact h
  | now =>
    show Counted none (s.stopNow c)
    unfold State.stopNow
    split
    · exact counted_haltStopped c h
    · exact counted_haltStopped c (counted_abortWait c _ h)
    · split
      · exact h
      · exact counted_stopRunning c _ h
    · exact h
    · exact h
  | flush =>
    show Counted none (s.stopFlush c)
    unfold State.stopFlush
    split
    · exact h
    · exact counted_becomeIdle (counted_abortWait c _ h) (retire_current c .aborted _)
    · exact counted_stopRunning c _ (counted_discards c h)
    · exact counted_setStop c _ (counted_discards c h)
    · split
      case isTrue => exact counted_discards c h
      case isFalse absent => exact counted_becomeIdle h (by simpa using absent)

theorem counted_channelStop (p : List Byte) {s : State} (h : Counted none s) : Counted none (channelStop p s).2.2 := by
  unfold channelStop
  split
  · split
    · exact reportAll_keeps (countedClaims none) (counted_stopChannel _ _ h)
    · exact h
  · exact h

theorem resumable_iff (x : Channel) : x.resumable = true ↔ (∃ why, x.state = .halted why) ∧ x.current = none := by
  unfold Channel.resumable
  cases x.state <;> simp

theorem counted_channelResume (c : ChannelId) {s : State} (h : Counted none s) :
    Counted none (channelResume c s).2.2 := by
  unfold channelResume
  split
  case isTrue resumable =>
    have absent := ((resumable_iff _).mp resumable).2
    refine reportAll_keeps (countedClaims none) (counted_promote c ?_ ?_)
    · exact h.any.setChannel (fun _ => rfl) (h.places c) fun other => absurd rfl other
    · rw [channel_modChannel_self]
      exact absent
  case isFalse => exact h

/-! ## The other requests, the resets and the clock -/

theorem countedRequests : RequestActs (Counted none) where
  toServiceMoves := countedService none
  entry := fun _ _ _ _ h => counted_beside h rfl rfl
  ack := fun _ _ _ h => counted_beside h rfl rfl
  rewind := fun _ _ _ h => counted_beside h rfl rfl
  assigned := fun _ _ _ _ h => counted_beside h rfl rfl
  capture := fun _ _ _ _ h => counted_beside h rfl rfl
  playoutKept := fun _ _ _ _ _ h => counted_beside h rfl rfl
  define := fun p _ h => counted_define p h
  delete := fun r _ h => counted_delete r h
  emptied := fun r _ h => counted_reset r h
  enqueue := fun p _ h => counted_enqueue p h
  stop := fun p _ h => counted_channelStop p h
  resume := fun c _ h => counted_channelResume c h

theorem countedScheduler : SchedulerMoves (Counted none) :=
  schedulerMoves_of_refs (fun _ _ _ h => counted_beside h rfl rfl) (fun _ _ h => counted_beside h rfl rfl)
    (fun _ _ h => counted_beside h rfl rfl) (fun _ _ h => counted_beside h rfl rfl)
    (fun _ _ _ h => counted_beside h rfl rfl)
    (fun s _ => counted_zero (fun c => Vector.getElem_replicate ..) fun r => by
      rw [show s.resetBlocks.region r = (s.region r).restarted from getAt_mapTable ..]
      rfl)
    (fun s _ => counted_zero (fun c => Vector.getElem_replicate ..) fun r => by
      rw [show s.pinReset.region r = Region.reset from Vector.getElem_replicate ..]
      rfl)

/-! ## Admissions -/

theorem counted_writePlace {r : RegionId} {off : Nat} {s : State} {p : Place} (h : Counted none s)
    (place : s.writePlace r off = some p) : Counted none p.after := by
  unfold State.writePlace at place
  split at place
  · cases place
  · split at place <;> cases place
    · exact h
    · exact counted_setRing h _ _

theorem counted_readPlace {r : RegionId} {off : Nat} {s : State} {p : Place} (h : Counted none s)
    (place : s.readPlace r off = some p) : Counted none p.after := by
  unfold State.readPlace at place
  split at place
  · cases place
  · split at place <;> cases place
    · exact h
    · exact counted_setRing h _ _

theorem counted_channelWrite {c : ChannelId} {d : Descriptor} {pos : Nat} {data : List Byte} {s t : State}
    {e : BurstEntry} (h : Counted none s) (form : s.channelWrite c d pos data = some (e, t)) : Counted none t := by
  unfold State.channelWrite at form
  split at form
  · cases form
  · obtain ⟨p, place, formed⟩ := Option.map_eq_some_iff.mp form
    cases formed
    exact counted_modProg c _ (counted_writePlace h place)

theorem counted_channelRead {c : ChannelId} {d : Descriptor} {pos : Nat} {g : Target} {f : Progress → Progress}
    {s t : State} {e : BurstEntry} (h : Counted none s) (form : s.channelRead c d pos g f = some (e, t)) :
    Counted none t := by
  unfold State.channelRead at form
  split at form
  · cases form
  · obtain ⟨p, place, formed⟩ := Option.map_eq_some_iff.mp form
    cases formed
    exact counted_modProg c _ (counted_readPlace h place)

theorem counted_setSlot (c : ChannelId) (slot : CopySlotId) (v : CopySlot) {s : State} (h : Counted none s) :
    Counted none (s.modChannel c (Channel.setSlot slot v)) := by
  refine h.modChannel c (fun _ x => ?_) (fun x => ?_) (fun idle => ?_)
  · cases slot <;> rfl
  · cases slot <;> rfl
  · cases slot <;> exact h.idle c nofun idle

theorem counted_formChannel {c : ChannelId} {cur : Current} {b : Burst} {s t : State} {e : BurstEntry}
    (h : Counted none s) (form : s.formChannel c cur b = some (e, t)) : Counted none t := by
  cases b with
  | captureWrite p => exact counted_channelWrite (s := s.setCapture p _) (counted_beside h rfl rfl) form
  | patternWrite v => exact counted_channelWrite h form
  | playoutRead p => exact counted_channelRead (s := s.setPlayout p _) (counted_beside h rfl rfl) form
  | copyWrite slot pos data => exact counted_channelWrite (counted_setSlot c slot _ h) form
  | copyRead slot => exact counted_channelRead (counted_setSlot c slot _ h) form

theorem counted_formLau {sv : LauService} {s t : State} {e : BurstEntry} (h : Counted none s)
    (form : s.formLau sv = some (e, t)) : Counted none t := by
  unfold State.formLau at form
  split at form
  · cases form
    exact counted_beside h rfl rfl
  · cases form
    exact counted_beside h rfl rfl
  · obtain ⟨p, place, formed⟩ := Option.map_eq_some_iff.mp form
    cases formed
    exact counted_beside (counted_writePlace h place) rfl rfl
  · obtain ⟨p, place, formed⟩ := Option.map_eq_some_iff.mp form
    cases formed
    exact counted_beside (counted_readPlace h place) rfl rfl

theorem counted_admitted {e : BurstEntry} {f : Arbiter → Arbiter} {s : State} (h : Counted none s) :
    Counted none (s.admitted e f) :=
  report_keeps (countedService none) (s := (s.setSched (s.sched.admitEntry e)).setArb (f s.arb))
    (counted_beside h rfl rfl)

theorem countedActs : OtherActs (Counted none) where
  toRequestActs := countedRequests
  toSchedulerMoves := countedScheduler
  admission := fun _ _ h ht => admission_keeps_of h
    (fun c => admitChannel_keeps_of h c fun _ _ _ _ _ form => counted_admitted (counted_formChannel h form))
    (admitLau_keeps_of h fun _ _ _ _ _ form => counted_admitted (counted_formLau h form)) ht
  pull := fun _ _ _ h ht => pull_keeps_of_port (countedClaims none) (counted_beside h rfl rfl) ht

/-! ## Completions -/

theorem counted_ringRose (r : RegionId) (g : Ring) {s : State} (h : Counted none s) : Counted none (s.ringRose r g) := by
  unfold State.ringRose
  dsimp only
  split
  · exact (countedClaims none).post _ _ (counted_setRing h r _)
  · exact counted_setRing h r _

theorem counted_ringWriteDone (ref : RingRef) {s : State} (h : Counted none s) : Counted none (s.ringWriteDone ref) := by
  unfold State.ringWriteDone
  split
  · exact h
  · split
    · exact counted_setRing h _ _
    · exact counted_ringRose _ _ h

theorem counted_ringReadDone (ref : RingRef) (back : Bool) {s : State} (h : Counted none s) :
    Counted none (s.ringReadDone ref back) := by
  unfold State.ringReadDone
  split
  · exact h
  · split
    · exact counted_ringRose _ _ h
    · exact counted_setRing h _ _

theorem counted_fillSlot (c : ChannelId) (slot : CopySlotId) (data : List Byte) {s : State} (h : Counted none s) :
    Counted none (s.modChannel c (Channel.fillSlot slot data)) := by
  refine h.modChannel c (fun _ x => ?_) (fun x => ?_) (fun idle => ?_)
  · unfold Channel.fillSlot
    split <;> rfl
  · unfold Channel.fillSlot
    split <;> rfl
  · unfold Channel.fillSlot at idle ⊢
    split at idle <;> exact h.idle c nofun idle

theorem counted_deliver {c : ChannelId} {g : Target} {data : List Byte} {s : State} (h : Counted none s) :
    Counted none (s.deliver c g data) := by
  cases g with
  | copySlot slot => exact counted_fillSlot c slot data h
  | playout k pos => exact counted_modProg c _ (s := s.setPlayout k _) (counted_beside h rfl rfl)
  | lauBuffer pos => exact h

theorem counted_reportWrite (o : EntryOwner) (addr n : Nat) {s : State} (h : Counted none s) :
    Counted none (s.reportWrite o addr n) := by
  cases o with
  | scheduler =>
    exact sweepDone_keeps_of (countedService none) (fun _ h => counted_beside h rfl rfl)
      (fun _ h => counted_beside h rfl rfl) addr h
  | requester r =>
    cases r with
    | ch c => exact counted_afterCompletion c (counted_modProg c _ h)
    | lau => exact lauWriteDone_keeps (countedService none) n h

theorem counted_accessCompletion {flips : BurstBits} {s t : State} (h : Counted none s)
    (ht : execAccessCompletion flips s = .next t) : Counted none t := by
  have ended : ∀ e start, Counted none (endAccess e start s) := fun _ _ => counted_beside h rfl rfl
  refine accessCompletion_keeps_of (countedService none) (fun _ h => counted_beside h rfl rfl) h
    (fun e start data _ _ => ?write) (fun e start g _ _ => ?read) ht
  case write =>
    exact counted_reportWrite _ _ _ (onRef_keeps _ (fun r _ h => counted_ringWriteDone r h)
      (s := (endAccess e start s).dieWrite e.addr data) (counted_beside (ended e start) rfl rfl))
  case read =>
    refine reportRead_keeps_of (countedService none) (fun c _ h => counted_afterCompletion c h)
      (fun c cur _ h => counted_channelFault c cur h) _ _ _ _ (fun _ _ _ _ h => counted_deliver h)
      (onRef_keeps _ (fun r _ h => counted_ringReadDone r _ h) ?_)
    exact countOutcome_keeps_of (countedClaims none).post (fun _ _ h => counted_beside h rfl rfl) _ _ _
      (s := (endAccess e start s).dieRead e.addr flips) (counted_beside (ended e start) rfl rfl)

/-! ## The obligation -/

/-- A law whose acts all commands keep, with the queue and the clock, is kept by a step. -/
theorem step_acts {P : State → Prop} (M : OtherActs P) (queue : ∀ l s, P s → P (State.setPending l s))
    (completion : ∀ flips s t, P s → execAccessCompletion flips s = .next t → P t) {s t : State} (h : P s)
    (taken : step s = .next t) (idle : P s.idle) : P t := by
  unfold step at taken
  split at taken
  · exact next_keeps idle taken
  · refine exec_acts M _ (queue _ _ h) (fun flips access => ?_) taken
    rw [access] at taken
    exact completion flips _ _ (queue _ _ h) taken

/-- Settles O60: the laws of one record are kept by every move (`RecordMoves.moves`), those of rings, play-out ports,
channels and reference counts by every act of the commands. -/
theorem recordLawsKept : Obligations.RecordLawsKept := by
  intro s t taken
  have records : ∀ {P : State → Prop}, RecordMoves P → (∀ l s, P s → P (State.setPending l s)) → P s → P t :=
    fun M queue h => step_keeps M.moves queue h taken (by rw [idle_eq_clockTo]; exact M.clock _ _ h)
  refine ⟨records tableLaw_moves fun _ _ h => h, records queueLaw_moves fun _ _ h => h,
    records markLaw_moves fun _ _ h => h, records captureLaw_moves fun _ _ h => h,
    records memoryLaw_moves fun _ _ h => h, fun h => ?rings, fun h => ?ports, fun channels references => ?counts⟩
  case rings =>
    exact step_acts ringActs (fun _ _ h => h) (fun _ _ _ h ht => ringLaw_accessCompletion h ht) h taken h
  case ports =>
    exact step_acts playoutActs (fun _ _ h => h) (fun _ _ _ h ht => playoutLaw_accessCompletion h ht) h taken h
  case counts =>
    have h := (counted_iff s).mpr ⟨channels, references⟩
    exact (counted_iff t).mp (step_acts countedActs (fun _ _ h => counted_beside h rfl rfl)
      (fun _ _ _ h ht => counted_accessCompletion h ht) h taken (counted_beside h rfl rfl))

end Sys2Proof.Proofs

/-!
What no command does, and what each kind of command leaves as it is (O1 to O5): the frame statements are the moves of
`RecordMoves` for the part of the state they speak of.
-/
namespace Sys2Proof.Proofs

open Sys2Proof.Machine Sys2Proof.Laws

/-! ## The step -/

/-- Settles O1: the step takes the front of the queue by its definition. -/
theorem stepTakesFront : Obligations.StepTakesFront := by
  intro c rest s front
  unfold step
  rw [front]

theorem step_of_empty_queue {s : State} (empty : s.pending = []) : step s = .next s.idle := by
  unfold step
  rw [empty]

/-! ## The queue and the clock -/

theorem queueClock_moves (l : List Instr) (n : Nat) : RecordMoves fun u => u.pending = l ∧ n ≤ u.now where
  clock := fun _ _ ⟨queue, forward⟩ => ⟨queue, Nat.le_trans forward (Nat.le_max_left ..)⟩

/-- Settles O2: every move of a command keeps the queue and does not turn the clock back. -/
theorem queueKeptClockForward : Obligations.QueueKeptClockForward :=
  ⟨fun i s _ taken => exec_keeps (queueClock_moves s.pending s.now).moves i ⟨rfl, Nat.le_refl s.now⟩ taken,
    fun _ empty => step_of_empty_queue empty⟩

/-! ## The die and the memory side -/

theorem die_moves (m : List Host.Cell) (w : List (Nat × BurstBits)) :
    OtherRecordMoves fun u => u.mem = m ∧ u.wrongBits = w where

/-- Settles O4: no move but an access completion's is a move of the die. -/
theorem dieKeptByOtherCommands : Obligations.DieKeptByOtherCommands := by
  intro i s t taken other
  exact exec_keeps_but (die_moves s.mem s.wrongBits).moves i ⟨rfl, rfl⟩
    (fun flips access => absurd access (other flips)) taken

/-- The scheduler, the check unit, the die and the clock are those of `s`. -/
def SameMemorySide (s u : State) : Prop :=
  u.sched = s.sched ∧ u.check = s.check ∧ u.mem = s.mem ∧ u.wrongBits = s.wrongBits ∧ u.now = s.now

theorem sameMemorySide_moves (s : State) : RequestRecordMoves (SameMemorySide s) where

/-- Settles O5: a request of another block is made of moves that leave the memory side. -/
theorem requestsLeaveTheMemorySide : Obligations.RequestsLeaveTheMemorySide := by
  intro i kind tag p s t wellFormed frame other taken
  rw [exec_request wellFormed frame] at taken
  refine next_keeps (P := SameMemorySide s) (if_keeps (fun _ => ?dispatched) ⟨rfl, rfl, rfl, rfl, rfl⟩) taken
  case dispatched =>
    exact requestFrame_keeps (sameMemorySide_moves s).moves.acts kind tag p (fun memorySide => absurd memorySide other)
      ⟨rfl, rfl, rfl, rfl, rfl⟩

/-! ## Completion -/

theorem completes_or_noBurst (flips : BurstBits) (s : State) :
    (∃ t : State, exec (.accessCompletion flips) s = .next t) ∨
      ∃ e, s.sched.accessing? = some e ∧ isBurst e.addr = false ∧
        exec (.accessCompletion flips) s = .fault (.noSuchBurst e.addr) := by
  show (∃ t, execAccessCompletion flips s = _) ∨ ∃ e, _ ∧ _ ∧ execAccessCompletion flips s = _
  unfold execAccessCompletion
  split
  case h_1 start e started accessing =>
    split
    case isTrue => exact .inl ⟨_, rfl⟩
    case isFalse noBurst => exact .inr ⟨e, accessing, Bool.eq_false_iff.mpr noBurst, rfl⟩
  case h_2 => exact .inl ⟨_, rfl⟩

theorem badKind_completes (kind tag : Byte) (p : List Byte) (s : State) :
    ∃ t : State, exec (.badKind kind tag p) s = .next t := by
  show ∃ t, execBadKind kind tag p s = _
  unfold execBadKind
  split <;> exact ⟨_, rfl⟩

/-- Settles O3: every command's outcome is written as a next state, but an access completion's. -/
theorem commandsComplete : Obligations.CommandsComplete := by
  intro i s
  cases i
  case accessCompletion flips =>
    rcases completes_or_noBurst flips s with completes | ⟨e, accessing, noBurst, faults⟩
    · exact .inl completes
    · exact .inr ⟨flips, e, rfl, accessing, noBurst, faults⟩
  case badKind kind tag p => exact .inl (badKind_completes kind tag p s)
  all_goals exact .inl ⟨_, rfl⟩

end Sys2Proof.Proofs

/-!
The part right after a pin reset (O6, O7), and its laws (O58).
-/
namespace Sys2Proof.Proofs

open Sys2Proof.Machine Sys2Proof.Laws

/-! ## The part right after reset -/

theorem reset_region (r : RegionId) : State.reset.region r = Region.reset := Vector.getElem_replicate ..

theorem reset_channel (c : ChannelId) : State.reset.channel c = Channel.reset := Vector.getElem_replicate ..

theorem reset_mark (m : MarkId) : State.reset.mark m = Mark.reset := Vector.getElem_replicate ..

theorem reset_capture (k : CaptureId) : State.reset.capture k = CapturePort.reset := Vector.getElem_replicate ..

theorem reset_playout (k : PlayoutId) : State.reset.playout k = PlayoutPort.reset := Vector.getElem_replicate ..

theorem reset_bank (b : BankId) : State.reset.sched.bank b = .closed := Vector.getElem_replicate ..

theorem reset_ring (r : RegionId) : State.reset.ring? r = none := by
  unfold State.ring?
  rw [reset_region]
  rfl

theorem reset_classOf_channel (c : ChannelId) : State.reset.arb.classOf (.ch c) = 2 := by
  revert c
  decide

theorem reset_readinessOf (r : Requester) : State.reset.arb.readinessOf r = .inactive := Vector.getElem_replicate ..

theorem reset_positions (k : ClassId) : State.reset.arb.positionOf k = .ch 0 ∧ State.reset.arb.runOf k = 0 :=
  ⟨Vector.getElem_replicate .., Vector.getElem_replicate ..⟩

/-- Settles O6: the tables of the reset state hold one record throughout; the other fields are as it is written. -/
theorem resetState : Obligations.ResetState := by
  refine ⟨reset_region, ⟨rfl, reset_bank, rfl, rfl, rfl, rfl, rfl, rfl, rfl, rfl, rfl, rfl⟩, rfl, ?arbiter, reset_channel,
    reset_mark, reset_capture, reset_playout, rfl, rfl, ⟨rfl, rfl, rfl, rfl, rfl, rfl, rfl, rfl⟩, rfl⟩
  case arbiter => exact ⟨reset_classOf_channel, rfl, reset_positions, reset_readinessOf, rfl⟩

/-! ## The pin reset -/

theorem resetHeld_receives {l : Link} (held : l.resetHeld = true) : l.receives = false := by
  rw [Link.receives, held]
  rfl

theorem byteTaken_of_not_receives {s : State} (b : Byte) (deaf : s.link.receives = false) :
    exec (.byteTaken b) s = .next s := by
  show execByteTaken b s = _
  rw [execByteTaken, if_neg (by rw [deaf]; exact Bool.false_ne_true)]

theorem frameBegin_of_busy {s : State} (busy : s.link.idleTx = false) : exec .frameBegin s = .next s := by
  show execFrameBegin s = _
  rw [execFrameBegin, if_neg (by rw [busy]; exact Bool.false_ne_true)]

/-- Settles O7: while RESET is held the link neither receives nor sends, and at its end the straps give the line rate. -/
theorem pinReset : Obligations.PinReset := by
  intro s spd1 spd0
  refine ⟨s.pinReset, rfl, rfl, fun b => byteTaken_of_not_receives b (resetHeld_receives rfl), frameBegin_of_busy rfl, ?ends⟩
  case ends => cases spd1 <;> cases spd0 <;> rfl

/-! ## The laws after reset -/

/-- Settles O58: every table, queue and count is empty after reset, so each law speaks of nothing. -/
theorem resetKeepsTheLaws : Obligations.ResetKeepsTheLaws := by
  have counted : Counted none State.reset := counted_zero reset_channel fun r => by rw [reset_region]; rfl
  obtain ⟨channels, references⟩ := (counted_iff State.reset).mp counted
  refine ⟨⟨Nat.zero_le 8, fun _ => Nat.zero_le 2⟩, nofun, rfl, ⟨Nat.zero_le 4, List.Pairwise.nil, nofun⟩, Nat.zero_le 8,
    fun refresh => absurd rfl refresh, fun m => ?marks, ⟨Nat.zero_le 32, Nat.le_refl 0, nofun⟩,
    ⟨Nat.zero_le 8, List.nodup_nil⟩, ⟨rfl, rfl⟩, fun k => ?captures, fun r => ?rings, channels, references, fun k => ?playouts⟩
  case marks => rw [reset_mark]; exact Nat.zero_le 255
  case captures => rw [reset_capture]; exact ⟨Nat.zero_le 256, rfl⟩
  case rings => rw [reset_ring]; rfl
  case playouts => rw [reset_playout]; exact ⟨Nat.zero_le 256, rfl, nofun⟩

end Sys2Proof.Proofs

/-!
The receiver (11.3): what one byte does in each of its states, what the bytes of a frame do one after another, and the
requests whose frame does not arrive (O10 to O13, O15).
-/
namespace Sys2Proof.Proofs

open Sys2Proof.Machine Sys2Proof.Laws

/-! ## One byte at the receiver -/

theorem takeByte_sync : RxState.hunt.takeByte 0xA5#8 = (.length none, .none) := rfl

theorem takeByte_hunt_other {b : Byte} (other : b ≠ 0xA5#8) : RxState.hunt.takeByte b = (.hunt, .none) := if_neg other

theorem takeByte_len_fits {lo hi : Byte} (fits : 2 ≤ lo.toNat + 256 * hi.toNat ∧ lo.toNat + 256 * hi.toNat ≤ 300) :
    (RxState.length (some lo)).takeByte hi = (.body (lo.toNat + 256 * hi.toNat) [], .none) := by
  refine if_pos ?_
  rw [Bool.and_eq_true, decide_eq_true_eq, decide_eq_true_eq]
  exact fits

theorem takeByte_len_beyond {lo hi : Byte} (beyond : lo.toNat + 256 * hi.toNat < 2 ∨ 300 < lo.toNat + 256 * hi.toNat) :
    (RxState.length (some lo)).takeByte hi = (.hunt, .oversize) := by
  refine if_neg ?_
  rw [Bool.and_eq_true, decide_eq_true_eq, decide_eq_true_eq]
  show ¬ (2 ≤ lo.toNat + 256 * hi.toNat ∧ lo.toNat + 256 * hi.toNat ≤ 300)
  omega

theorem takeByte_body_more {len : Nat} {got : List Byte} (b : Byte) (more : got.length + 1 < len) :
    (RxState.body len got).takeByte b = (.body len (got ++ [b]), .none) := by
  refine if_pos ?_
  rw [List.length_append]
  exact more

theorem takeByte_body_last {len : Nat} {got : List Byte} (b : Byte) (last : len ≤ got.length + 1) :
    (RxState.body len got).takeByte b = (.check (got ++ [b]) none, .none) := by
  refine if_neg ?_
  rw [List.length_append]
  exact Nat.not_lt.mpr last

theorem takeByte_check_bad {got : List Byte} {lo hi : Byte} (bad : crc16 (u16 got.length ++ got) ≠ hi ++ lo) :
    (RxState.check got (some lo)).takeByte hi = (.hunt, .crcError) := if_neg bad

theorem takeByte_check_good {kind tag lo hi : Byte} {p : List Byte} (good : crc16 (frameCore kind tag p) = hi ++ lo) :
    (RxState.check (kind :: tag :: p) (some lo)).takeByte hi = (.hunt, .good kind tag p) := if_pos good

/-! ## The bytes of a frame at the receiver -/

/-- A byte that brings nothing about leaves the others to the receiver's next state. -/
theorem takeAll_cons {r r' : RxState} {b : Byte} (quiet : r.takeByte b = (r', .none)) (c : Byte) (rest : List Byte) :
    r.takeAll (b :: c :: rest) = r'.takeAll (c :: rest) := by
  rw [RxState.takeAll, quiet]

/-- The rest of a body, then the CRC bytes. -/
theorem takeAll_body (lo hi : Byte) : ∀ (rest got : List Byte) (len : Nat), got.length + rest.length = len → rest ≠ [] →
    (RxState.body len got).takeAll (rest ++ [lo, hi]) = (RxState.check (got ++ rest) none).takeAll [lo, hi]
  | [b], got, len, total, _ => takeAll_cons (takeByte_body_last b (Nat.le_of_eq total.symm)) lo [hi]
  | b :: c :: rest, got, len, total, _ => by
    have more : got.length + 1 < len := by
      rw [← total, List.length_cons, List.length_cons]
      omega
    rw [List.cons_append, List.cons_append, takeAll_cons (takeByte_body_more b more), ← List.cons_append,
      takeAll_body lo hi (c :: rest) (got ++ [b]) len ?total (List.cons_ne_nil _ _), List.append_assoc]
    · rfl
    case total =>
      simp only [← total, List.length_append, List.length_cons, List.length_nil]
      omega

/-- Settles O10: SYNC, the length, the body (`takeAll_body`) and the CRC of the same bytes. -/
theorem frameRoundTrip : Obligations.FrameRoundTrip := by
  intro kind tag p fits
  have len : nat16 (BitVec.ofNat 8 (p.length + 2)) (BitVec.ofNat 8 ((p.length + 2) / 256)) = p.length + 2 :=
    nat16_u16 (by omega)
  have lenByte : (RxState.length (some (BitVec.ofNat 8 (p.length + 2)))).takeByte (BitVec.ofNat 8 ((p.length + 2) / 256)) =
      (.body (p.length + 2) [], .none) := by
    have taken := takeByte_len_fits (lo := BitVec.ofNat 8 (p.length + 2)) (hi := BitVec.ofNat 8 ((p.length + 2) / 256))
    rw [← nat16, len] at taken
    exact taken ⟨Nat.le_add_left 2 _, by omega⟩
  have body := takeAll_body (lowByte (crc16 (frameCore kind tag p))) (highByte (crc16 (frameCore kind tag p)))
    (kind :: tag :: p) [] (p.length + 2) (by rw [List.length_nil, Nat.zero_add]; rfl) (List.cons_ne_nil _ _)
  have crc := takeByte_check_good (p := p) (highByte_append_lowByte (crc16 (frameCore kind tag p))).symm
  calc RxState.hunt.takeAll (frameBytes kind tag p)
      = (RxState.body (p.length + 2) []).takeAll ((kind :: tag :: p) ++
          [lowByte (crc16 (frameCore kind tag p)), highByte (crc16 (frameCore kind tag p))]) :=
        (takeAll_cons takeByte_sync _ _).trans ((takeAll_cons rfl _ _).trans (takeAll_cons lenByte _ _))
    _ = (.hunt, .good kind tag p) := body.trans ((takeAll_cons rfl _ _).trans crc)

/-! ## One byte at the link -/

theorem byteTaken_of_receives {s : State} (receives : s.link.receives = true) (b : Byte) :
    exec (.byteTaken b) s = .next (s.onByte (s.link.rx.takeByte b)) := by
  show execByteTaken b s = _
  rw [execByteTaken, if_pos receives]

theorem byteTaken_quiet {s : State} {b : Byte} {r : RxState} (receives : s.link.receives = true)
    (quiet : s.link.rx.takeByte b = (r, .none)) :
    exec (.byteTaken b) s = .next (s.setLink (s.link.moveReceiver r s.now)) := by
  rw [byteTaken_of_receives receives, quiet]
  rfl

theorem byteTaken_oversize {s : State} {b : Byte} (receives : s.link.receives = true)
    (discarded : s.link.rx.takeByte b = (.hunt, .oversize)) :
    exec (.byteTaken b) s = .next (s.setLink (s.link.discardFrame.count LinkCounters.countOversize)) := by
  rw [byteTaken_of_receives receives, discarded]
  rfl

theorem byteTaken_crcError {s : State} {b : Byte} (receives : s.link.receives = true)
    (discarded : s.link.rx.takeByte b = (.hunt, .crcError)) :
    exec (.byteTaken b) s = .next (s.setLink (s.link.discardFrame.count LinkCounters.countCrc)) := by
  rw [byteTaken_of_receives receives, discarded]
  rfl

theorem byteTaken_good {s : State} {b kind tag : Byte} {p : List Byte} {r : RxState} (receives : s.link.receives = true)
    (good : s.link.rx.takeByte b = (r, .good kind tag p)) :
    exec (.byteTaken b) s = .next (dispatchFrame kind tag p s.received) := by
  rw [byteTaken_of_receives receives, good]
  rfl

/-! ## A frame that arrives -/

theorem payloadFits_of_wellFormed {i : Instr} {kind tag : Byte} {p : List Byte} (wellFormed : i.wellFormed = true)
    (frame : i.frame? = some (kind, tag, p)) : payloadFits p = true := by
  cases i
  case badKind =>
    cases frame
    exact (Bool.and_eq_true_iff.mp wellFormed).2
  all_goals cases frame <;> exact wellFormed

theorem frameCompletes_of_prefix {l : Link} {kind tag : Byte} {p : List Byte} (receives : l.receives = true)
    (fits : payloadFits p = true) (partial_ : l.rx.taken <+: frameBytes kind tag p) :
    l.frameCompletes kind tag p = true := by
  rw [Link.frameCompletes, receives, fits]
  exact List.isPrefixOf_iff_prefix.mpr partial_

theorem exec_of_prefix {i : Instr} {kind tag : Byte} {p : List Byte} {s : State} (wellFormed : i.wellFormed = true)
    (frame : i.frame? = some (kind, tag, p)) (receives : s.link.receives = true)
    (partial_ : s.link.rx.taken <+: frameBytes kind tag p) : exec i s = .next (dispatchFrame kind tag p s.received) := by
  rw [exec_request wellFormed frame,
    if_pos (frameCompletes_of_prefix receives (payloadFits_of_wellFormed wellFormed frame) partial_)]

/-- Bytes that end with a good frame, taken one after another, dispatch it; those before the last touch only the
receiver, which the frame's arrival puts back into HUNT. -/
theorem takeBytes_good {kind tag : Byte} {p : List Byte} {r : RxState} : ∀ (bytes : List Byte) (s : State),
    s.link.receives = true → s.link.rx.takeAll bytes = (r, .good kind tag p) →
    takeBytes bytes s = .next (dispatchFrame kind tag p s.received)
  | [], _, _, taken => nomatch taken
  | [b], s, receives, taken => by
    rw [takeBytes, byteTaken_good receives taken]
    rfl
  | b :: c :: rest, s, receives, taken => by
    rw [RxState.takeAll] at taken
    split at taken
    case h_1 r' quiet =>
      rw [takeBytes, byteTaken_quiet receives quiet]
      exact takeBytes_good (c :: rest) (s.setLink (s.link.moveReceiver r' s.now)) receives taken
    case h_2 => exact nomatch taken

/-- Settles O11: a receiver in HUNT has taken no byte of the frame, which is then dispatched at its last byte. -/
theorem bytesAreTheRequest : Obligations.BytesAreTheRequest := by
  intro i kind tag p s wellFormed frame hunting receives
  have fits : p.length ≤ 298 := of_decide_eq_true (payloadFits_of_wellFormed wellFormed frame)
  have roundTrip := frameRoundTrip kind tag p fits
  rw [← hunting] at roundTrip
  rw [takeBytes_good _ s receives roundTrip, exec_of_prefix wellFormed frame receives ?hunt]
  case hunt =>
    rw [hunting]
    exact List.nil_prefix

/-- All of the frame but its last byte has been taken where one CRC byte is left to come. -/
theorem taken_prefix {kind tag lo hi : Byte} {p : List Byte} (good : crc16 (frameCore kind tag p) = hi ++ lo) :
    (RxState.check (kind :: tag :: p) (some lo)).taken <+: frameBytes kind tag p := by
  have low : lowByte (crc16 (frameCore kind tag p)) = lo := by
    rw [good]
    exact BitVec.extractLsb'_append_eq_right
  refine ⟨[highByte (crc16 (frameCore kind tag p))], ?_⟩
  rw [frameBytes_eq, low]
  show 0xA5#8 :: (frameCore kind tag p ++ [lo] ++ [_]) = 0xA5#8 :: (u16 (p.length + 2) ++ [kind, tag] ++ p ++ [lo, _])
  rw [frameCore, List.append_assoc, List.append_assoc, List.append_assoc, List.append_assoc]
  rfl

/-- Settles O12: the receiver's move for each of its states, then the link's for each event. -/
theorem byteMoves : Obligations.ByteMoves := by
  intro s b receives
  have quiet : ∀ {rx r : RxState}, s.link.rx = rx → rx.takeByte b = (r, .none) →
      exec (.byteTaken b) s = .next (s.setLink (s.link.moveReceiver r s.now)) := by
    rintro _ r rfl taken
    exact byteTaken_quiet receives taken
  refine ⟨fun hunt other => quiet hunt (takeByte_hunt_other other), fun hunt sync => ?sync, fun length => quiet length rfl,
    fun lo length fits => quiet length (takeByte_len_fits fits), fun lo length beyond => ?oversize,
    fun len got body more => quiet body (takeByte_body_more b more),
    fun len got body last => quiet body (takeByte_body_last b last), fun got check => quiet check rfl,
    fun got lo check bad => ?crcError, fun kind tag p lo i check good wellFormed frame => ?good⟩
  case sync =>
    subst sync
    exact quiet hunt takeByte_sync
  case oversize => exact byteTaken_oversize receives (by rw [length, takeByte_len_beyond beyond])
  case crcError => exact byteTaken_crcError receives (by rw [check, takeByte_check_bad bad])
  case good =>
    have good : crc16 (frameCore kind tag p) = b ++ lo := good
    rw [byteTaken_good receives (by rw [check]; exact takeByte_check_good good),
      exec_of_prefix wellFormed frame receives (by rw [check]; exact taken_prefix good)]

/-! ## Discards -/

theorem exec_crcError (bytes : List Byte) (s : State) : exec (.crcError bytes) s =
    .next (if s.link.receives = true ∧ (s.link.rx.takeAll bytes).2 = .crcError then
      s.setLink (s.link.discardFrame.count LinkCounters.countCrc) else s) := by
  show execCrcError bytes s = _
  simp only [execCrcError, Bool.and_eq_true, decide_eq_true_eq]

theorem exec_oversize (bytes : List Byte) (s : State) : exec (.oversize bytes) s =
    .next (if s.link.receives = true ∧ (s.link.rx.takeAll bytes).2 = .oversize then
      s.setLink (s.link.discardFrame.count LinkCounters.countOversize) else s) := by
  show execOversize bytes s = _
  simp only [execOversize, Bool.and_eq_true, decide_eq_true_eq]

theorem exec_interByteTimeout_of_running {s : State} {last : Nat} (running : s.link.timer = some last) :
    exec .interByteTimeout s = .next ((s.clockTo (last + Config.interByteNs)).setLink
      (s.link.discardFrame.count LinkCounters.countTimeout)) := by
  show execInterByteTimeout s = _
  unfold execInterByteTimeout
  rw [running]
  rfl

theorem exec_interByteTimeout_of_stopped {s : State} (stopped : s.link.timer = none) :
    exec .interByteTimeout s = .next s := by
  show execInterByteTimeout s = _
  unfold execInterByteTimeout
  rw [stopped]

/-- Settles O13: each discard command by its condition. -/
theorem receiverDiscards : Obligations.ReceiverDiscards := by
  refine ⟨fun s bytes receives => ⟨fun bad => ?_, fun good => ?_, fun beyond => ?_, fun fits => ?_⟩,
    fun s bytes deaf => ⟨?_, ?_⟩, fun s last running => exec_interByteTimeout_of_running running,
    fun s stopped => exec_interByteTimeout_of_stopped stopped⟩
  · rw [exec_crcError, if_pos ⟨receives, bad⟩]
    rfl
  · rw [exec_crcError, if_neg fun both => good both.2]
  · rw [exec_oversize, if_pos ⟨receives, beyond⟩]
    rfl
  · rw [exec_oversize, if_neg fun both => fits both.2]
  · rw [exec_crcError, if_neg fun both => Bool.false_ne_true (deaf.symm.trans both.1)]
  · rw [exec_oversize, if_neg fun both => Bool.false_ne_true (deaf.symm.trans both.1)]

/-! ## A frame that does not arrive -/

theorem onFrame_of_missing {s : State} {kind tag : Byte} {p : List Byte} (dispatch : Byte → List Byte → State → State)
    (missing : s.link.frameCompletes kind tag p = false) : onFrame kind dispatch tag p s = .next s := by
  rw [onFrame, if_neg (by rw [missing]; exact Bool.false_ne_true)]

/-- Settles O15: a request does nothing without its frame, a KIND that is a request's own command does nothing at all. -/
theorem requestNeedsItsFrame : Obligations.RequestNeedsItsFrame := by
  intro i kind tag p s frame missing
  cases i
  case badKind =>
    cases frame
    show execBadKind _ _ _ _ = _
    unfold execBadKind
    split
    · exact onFrame_of_missing _ missing
    · rfl
  all_goals cases frame <;> exact onFrame_of_missing _ missing

end Sys2Proof.Proofs

/-!
The checks of the dispatch (O17, O18) and the break at the link (O14).
-/
namespace Sys2Proof.Proofs

open Sys2Proof.Machine Sys2Proof.Laws

/-! ## Checks 3 to 5 -/

section
variable {s : State} {kind tag : Byte} {p : List Byte}

/-- A frame that passes checks 1 and 2 and is answered by the link itself. -/
theorem firstChecks_pass (taken : s.takes kind tag p = true) (passed : State) :
    (if s.received.link.tagInUse tag then s.received.setLink (s.received.link.refuse .tagInUse tag kind)
      else if Config.tablePlaces ≤ s.received.link.table.length then
        s.received.setLink (s.received.link.refuse .busy tag kind)
      else passed) = passed := by
  obtain ⟨-, free, place⟩ := takes_iff taken
  rw [if_neg (show ¬ s.received.link.tagInUse tag = true from Bool.eq_false_iff.mp free),
    if_neg (show ¬ Config.tablePlaces ≤ s.received.link.table.length from Nat.not_le.mpr place)]

theorem dispatchBadKind_takes (taken : s.takes kind tag p = true) :
    dispatchBadKind kind tag p s.received = s.answered kind tag .badKind [] := firstChecks_pass taken _

theorem accept_badLength (taken : s.takes kind tag p = true) (g : Gate) (own : State → State) :
    s.received.accept kind tag false g own = s.answered kind tag .badLength [] := firstChecks_pass taken _

theorem accept_gated (taken : s.takes kind tag p = true) {g : Gate} {st : Status}
    (gated : g.status s.link.readiness = some st) (own : State → State) :
    s.received.accept kind tag true g own = s.answered kind tag st [] := by
  have gated : g.status s.received.link.readiness = some st := gated
  refine (firstChecks_pass taken _).trans ?_
  rw [gated]
  rfl

end

theorem exec_of_takes {i : Instr} {kind tag : Byte} {p : List Byte} {s : State} (wellFormed : i.wellFormed = true)
    (frame : i.frame? = some (kind, tag, p)) (taken : s.takes kind tag p = true) :
    exec i s = .next (dispatchFrame kind tag p s.received) := by
  rw [exec_request wellFormed frame, if_pos (takes_iff taken).1]

theorem exec_accept {i : Instr} {kind tag : Byte} {p : List Byte} {s : State} (wellFormed : i.wellFormed = true)
    (frame : i.frame? = some (kind, tag, p)) (taken : s.takes kind tag p = true) (request : kind ∈ requestCodes) :
    ∃ own : State → State, exec i s = .next (s.received.accept kind tag (lengthOk kind p) (gateOf kind) own) := by
  obtain ⟨own, accepts⟩ := dispatch_accept (List.contains_iff_mem.mpr request) tag p
  exact ⟨own, by rw [exec_of_takes wellFormed frame taken, accepts]⟩

theorem exec_badLength {i : Instr} {kind tag : Byte} {p : List Byte} {s : State} (wellFormed : i.wellFormed = true)
    (frame : i.frame? = some (kind, tag, p)) (taken : s.takes kind tag p = true) (request : kind ∈ requestCodes)
    (bad : lengthOk kind p = false) : exec i s = .next (s.answered kind tag .badLength []) := by
  obtain ⟨own, accepts⟩ := exec_accept wellFormed frame taken request
  rw [accepts, bad, accept_badLength taken]

theorem exec_gated {i : Instr} {kind tag : Byte} {p : List Byte} {s : State} {st : Status}
    (wellFormed : i.wellFormed = true) (frame : i.frame? = some (kind, tag, p)) (taken : s.takes kind tag p = true)
    (request : kind ∈ requestCodes) (good : lengthOk kind p = true)
    (gated : (gateOf kind).status s.link.readiness = some st) : exec i s = .next (s.answered kind tag st []) := by
  obtain ⟨own, accepts⟩ := exec_accept wellFormed frame taken request
  rw [accepts, good, accept_gated taken gated]

theorem gateOf_of_gated {kind : Byte} (gated : kind ∉ alwaysDispatched) :
    gateOf kind = if kind = 0x04#8 then .restart else .whenReady := by
  rw [gateOf, if_neg fun always => gated (List.contains_iff_mem.mp always)]

theorem gate_bringup {kind : Byte} (gated : kind ∉ alwaysDispatched) :
    (gateOf kind).status .bringup = some .notReady := by
  rw [gateOf_of_gated gated]
  split <;> rfl

theorem gate_restarting {kind : Byte} (gated : kind ∉ alwaysDispatched) :
    (gateOf kind).status .restarting = some (if kind = 0x04#8 then .wrongState else .notReady) := by
  rw [gateOf_of_gated gated]
  split <;> rfl

/-- Settles O17: each check by the branch of the dispatch it is. -/
theorem checksBeforeTheOwner : Obligations.ChecksBeforeTheOwner := by
  intro i kind tag p s wellFormed frame taken
  refine ⟨fun noRequest => ?badKind, fun request bad => exec_badLength wellFormed frame taken request bad,
    fun request good gated bringup => ?bringup, fun request good gated restarting => ?restarting⟩
  case badKind =>
    have noRequest : kindIsNoRequest kind = true := by
      simpa [kindIsNoRequest] using noRequest
    rw [exec_of_takes wellFormed frame taken, badKind_dispatch noRequest, dispatchBadKind_takes taken]
  case bringup =>
    exact exec_gated wellFormed frame taken request good (by rw [bringup]; exact gate_bringup gated)
  case restarting =>
    exact exec_gated wellFormed frame taken request good (by rw [restarting]; exact gate_restarting gated)

/-! ## FAILED -/

/-- The requests refused in FAILED (R55): all but those of `takenInFailed`. -/
def refusedInFailed : List Byte :=
  [0x30#8, 0x32#8, 0x04#8, 0x10#8, 0x11#8, 0x12#8, 0x13#8, 0x18#8, 0x19#8, 0x20#8, 0x21#8, 0x22#8, 0x23#8, 0x24#8, 0x25#8,
    0x26#8, 0x28#8, 0x29#8, 0x2A#8, 0x2B#8, 0x31#8, 0x33#8]

theorem mem_refusedInFailed {kind : Byte} (request : kind ∈ requestCodes) (other : kind ∉ takenInFailed) :
    kind ∈ refusedInFailed := by
  have split : requestCodes.all fun k => takenInFailed.contains k || refusedInFailed.contains k := by decide
  have either := List.all_eq_true.mp split kind request
  rw [Bool.or_eq_true, List.contains_iff_mem, List.contains_iff_mem] at either
  exact either.resolve_left other

/-- The owners of these requests look at FAILED first. -/
theorem dispatch_unlessFailed {kind : Byte} (refused : kind ∈ refusedInFailed) (tag : Byte) (p : List Byte) :
    ∃ own : State → State, ∀ s, dispatchFrame kind tag p s =
      s.accept kind tag (lengthOk kind p) (gateOf kind) fun t => t.unlessFailed tag own := by
  simp only [refusedInFailed, List.mem_cons, List.not_mem_nil, or_false] at refused
  rcases refused with rfl | rfl | others
  · exact ⟨lauPut tag p, fun s => by rw [lengthOk_put]; rfl⟩
  · exact ⟨lauAppend tag p, fun s => by rw [lengthOk_append]; rfl⟩
  · rcases others with rfl | rfl | rfl | rfl | rfl | rfl | rfl | rfl | rfl | rfl | rfl | rfl | rfl | rfl | rfl | rfl |
      rfl | rfl | rfl | rfl
    all_goals exact ⟨_, fun _ => rfl⟩

/-- Settles O18: the owner, which the request reaches, refuses it before it looks at the payload. -/
theorem failedRefuses : Obligations.FailedRefuses := by
  intro i kind tag p s wellFormed frame taken ready failed request good other
  obtain ⟨own, accepts⟩ := dispatch_unlessFailed (mem_refusedInFailed request other) tag p
  have failedOwner : (s.working kind tag).unlessFailed tag own = s.answered kind tag .dramFault [] := by
    rw [State.unlessFailed, if_pos (show (s.working kind tag).sched.mode = .failed from failed)]
    exact handOver_working (takes_iff taken).2.1 rfl _ _
  have gate : (gateOf kind).status s.link.readiness = none := by
    rw [ready]
    cases gateOf kind <;> rfl
  rw [exec_of_takes wellFormed frame taken, accepts, accept_works _ taken good gate, failedOwner]

/-! ## The break -/

theorem breakEndsRestart_iff (l : Link) :
    l.breakEndsRestart = true ↔ ∃ e ∈ l.table, l.restartTag = some e.tag ∧ e.stage ≠ .working := by
  simp [Link.breakEndsRestart, OutEntry.survives]

theorem deaf_of_rxdLow {l : Link} (low : l.rxdLow = true) : l.receives = false := by
  rw [Link.receives, low]
  exact Bool.and_false _

theorem exec_linkBreak_of_deaf {s : State} (deaf : s.link.receives = false) : exec .linkBreak s = .next s := by
  show execLinkBreak s = _
  rw [execLinkBreak, if_neg (by rw [deaf]; exact Bool.false_ne_true)]

/-- Settles O14: the break by whether it ends the RESTART; after it the line is low, and the link takes nothing. -/
theorem breakAtTheLink : Obligations.BreakAtTheLink := by
  intro s receives
  refine ⟨_, rfl, fun working => ?goesOn, fun ends => ?ends, fun b => byteTaken_of_not_receives b (deaf_of_rxdLow rfl),
    exec_linkBreak_of_deaf (deaf_of_rxdLow rfl), rfl⟩
  case goesOn =>
    have goesOn : ¬ s.link.breakEndsRestart = true := by
      rw [breakEndsRestart_iff]
      rintro ⟨e, held, restart, other⟩
      exact other (working e held restart)
    rw [exec_linkBreak_of_receives receives, State.takeBreak, if_neg goesOn]
    rfl
  case ends =>
    rw [exec_linkBreak_of_receives receives, State.takeBreak, if_pos ((breakEndsRestart_iff _).mpr ends)]
    rfl

end Sys2Proof.Proofs

/-!
The link's own requests that only report (O19, O20), and the notice queue: posting and acknowledging (O21, O22).
-/
namespace Sys2Proof.Proofs

open Sys2Proof.Machine Sys2Proof.Laws

/-! ## IDENTIFY and ECHO (R178) -/

theorem exec_identify {s : State} {tag : Byte} (taken : s.takes 0x01#8 tag [] = true) :
    exec (.identify tag []) s = .next (s.answered 0x01#8 tag .ok (identity s.link.lineRate)) :=
  answers (ok := decide (([] : List Byte).length = 0)) (g := .always)
    (f := fun u => (.ok, identity u.link.lineRate, u)) taken rfl rfl rfl

theorem exec_echo {s : State} {tag : Byte} {p : List Byte} (taken : s.takes 0x02#8 tag p = true)
    (fits : p.length ≤ 297) : exec (.echo tag p) s = .next (s.answered 0x02#8 tag .ok p) :=
  answers (ok := decide (p.length ≤ 297)) (g := .always) (f := fun u => (.ok, p, u)) taken (decide_eq_true fits) rfl rfl

/-- Settles O19: ECHO's one payload too long to come back is of BAD_LENGTH by check 4 (`exec_badLength`). -/
theorem identifyAndEcho : Obligations.IdentifyAndEcho := by
  refine ⟨fun tag s taken => ?identify, fun tag p s taken fits => exec_echo taken fits, fun tag p s taken tooLong => ?long⟩
  case identify =>
    rw [exec_identify taken]
    cases s.link.lineRate <;> rfl
  case long =>
    refine exec_badLength (kind := 0x02#8) (p := p) ?_ rfl taken (by decide) (decide_eq_false (by omega))
    exact decide_eq_true (Nat.le_of_eq tooLong)

/-! ## LINK_STATS (R179) -/

theorem linkStats_of_flag {b : Byte} {clear : Bool} (s : State) (flag : readFlag b = some clear) :
    linkStats [b] s =
      (.ok, s.link.report, if clear then s.setLink { s.link with counters := LinkCounters.reset } else s) := by
  simp only [linkStats, flag]

theorem linkStats_of_noFlag {b : Byte} (s : State) (flag : readFlag b = none) : linkStats [b] s = (.badValue, [], s) := by
  simp only [linkStats, flag]

/-- LINK_STATS may change the link's counters before the response is handed over. -/
theorem exec_linkStats {s t : State} {tag b : Byte} {st : Status} {data : List Byte}
    (taken : s.takes 0x03#8 tag [b] = true) (reply : linkStats [b] (s.working 0x03#8 tag) = (st, data, t))
    (table : t.link.table = (s.working 0x03#8 tag).link.table) :
    exec (.linkStats tag [b]) s = .next (t.setLink { t.link with
      table := s.link.table ++ [{ tag := tag, kind := 0x03#8, stage := .answered, orphaned := false }],
      readyList := t.link.readyList ++ [{ tag := tag, kind := 0x03#8, status := st, data := data }] }) := by
  have answered : (s.working 0x03#8 tag).answerWith tag (linkStats [b]) = t.handOver tag st data := by
    rw [State.answerWith, reply]
  show onFrame 0x03#8 dispatchLinkStats tag [b] s = _
  rw [onFrame_arrives _ (takes_iff taken).1, dispatchLinkStats, accept_works (lenOk := decide ([b].length = 1)) _ taken rfl rfl,
    answered, handOver_fresh (takes_iff taken).2.1 table]

/-- The report of the request's own event counts its frame and its entry. -/
theorem report_working (s : State) (tag : Byte) : (s.working 0x03#8 tag).link.report =
    u16 (satAdd 65535 1 s.link.counters.goodFrames) ++ u16 s.link.counters.crcErrors ++ u16 s.link.counters.oversizes ++
      u16 s.link.counters.timeouts ++ u16 s.link.counters.breaks ++ u16 s.link.counters.refusalsDropped ++
      u8 (s.link.table.length + 1) ++ u8 (s.link.table.countP fun e => e.orphaned) ++ u8 s.link.readiness.code := by
  have entries : (s.working 0x03#8 tag).link.table.length = s.link.table.length + 1 := List.length_append
  have orphans : ((s.working 0x03#8 tag).link.table.countP fun e => e.orphaned) =
      s.link.table.countP fun e => e.orphaned := List.countP_append
  rw [Link.report, entries, orphans]
  rfl

theorem readFlag_of_other {b : Byte} (notZero : b ≠ 0#8) (notOne : b ≠ 1#8) : readFlag b = none := by
  rw [readFlag, if_neg notZero, if_neg notOne]

/-- Settles O20: the reply by the clear field; the counters are cleared after they are read. -/
theorem linkStats : Obligations.LinkStats := by
  intro tag b s taken
  refine ⟨_, rfl, ?keep, ?clear, fun notZero notOne => ?badValue⟩
  case keep =>
    rintro rfl
    rw [← report_working s tag]
    exact exec_linkStats taken (linkStats_of_flag _ readFlag_zero) rfl
  case clear =>
    rintro rfl
    rw [← report_working s tag]
    exact exec_linkStats taken (linkStats_of_flag _ readFlag_one) rfl
  case badValue => exact exec_linkStats taken (linkStats_of_noFlag _ (readFlag_of_other notZero notOne)) rfl

/-! ## Posting a notice (R157) -/

theorem post_of_place {q : NoticeQueue} (b : NoticeBody) (isOpen : q.isOpen = true) (place : q.held.length < 32) :
    q.post b = q.join b := if_pos (by rw [isOpen]; exact decide_eq_true place)

theorem post_of_none {q : NoticeQueue} (b : NoticeBody) (none_ : q.isOpen = false ∨ 32 ≤ q.held.length) :
    q.post b = q.lose := by
  refine if_neg fun takes => ?_
  rw [Bool.and_eq_true, decide_eq_true_eq] at takes
  obtain ⟨isOpen, place⟩ := takes
  rcases none_ with closed | full
  · exact Bool.false_ne_true (closed.symm.trans isOpen)
  · exact absurd place (Nat.not_lt.mpr full)

/-- Settles O21: a notice joins where the queue is open and has a place. -/
theorem postingANotice : Obligations.PostingANotice :=
  fun _ b => ⟨fun isOpen place => post_of_place b isOpen place, fun none_ => post_of_none b none_⟩

/-! ## NOTICE_ACK (R162, R158) -/

theorem noticeAck_of_notHeld {seq : Byte} {s : State} (place : s.notices.placeOf seq = none) :
    noticeAck [seq] s =
      (.notHeld, u8 s.notices.held.length ++ indicated 1 (fun n => [n.seq]) s.notices.held.head?, s) := by
  simp only [noticeAck, place]

theorem noticeAck_of_held {seq : Byte} {s : State} {k : Nat} (place : s.notices.placeOf seq = some k) :
    noticeAck [seq] s = (.ok, u8 (k + 1) ++ u8 (s.notices.removeThrough k).reportLost.held.length,
      s.setNotices (s.notices.removeThrough k).reportLost) := by
  simp only [noticeAck, place]

theorem exec_noticeAck {s t : State} {tag seq : Byte} {st : Status} {data : List Byte}
    (taken : s.takes 0x08#8 tag [seq] = true)
    (reply : noticeAck [seq] (s.working 0x08#8 tag) = (st, data, t.setLink (s.working 0x08#8 tag).link)) :
    exec (.noticeAck tag [seq]) s = .next (t.setLink (s.link.answered 0x08#8 tag st data)) := by
  have answered := answers (ok := decide ([seq].length = 1)) (g := .always) (f := noticeAck [seq]) taken rfl rfl
    (by rw [reply]; rfl)
  rw [reply] at answered
  exact answered

theorem reportLost_of_zero {q : NoticeQueue} (zero : q.lost = 0) : q.reportLost = q := if_pos zero

theorem reportLost_of_lost {q : NoticeQueue} (lost : q.lost ≠ 0) :
    q.reportLost = { q.join (.noticesLost q.lost) with lost := 0 } := if_neg lost

/-- What NOTICES_LOST joining leaves as it is. -/
theorem reportLost_frame (q : NoticeQueue) :
    q.reportLost.isOpen = q.isOpen ∧ q.reportLost.sendPos = q.sendPos ∧ q.reportLost.lost = 0 := by
  by_cases lost : q.lost = 0
  · rw [reportLost_of_zero lost]
    exact ⟨rfl, rfl, lost⟩
  · rw [reportLost_of_lost lost]
    exact ⟨rfl, rfl, rfl⟩

theorem attn_iff (s : State) : s.attn = decide (s.notices.held ≠ []) := by
  unfold State.attn
  cases s.notices.held <;> rfl

/-- Settles O22: the reply by whether the number has a place; what is removed is the front of the queue, through it. -/
theorem noticeAck : Obligations.NoticeAck := by
  intro tag seq s taken
  refine ⟨fun notHeld => ?notHeld, fun older n younger held named first => ?held⟩
  case notHeld =>
    have reply := noticeAck_of_notHeld (s := s.working 0x08#8 tag) (placeOf_of_notHeld notHeld)
    refine (exec_noticeAck (t := s) taken reply).trans ?_
    show Host.Outcome.next (s.answered 0x08#8 tag .notHeld
      (u8 s.notices.held.length ++ indicated 1 (fun n => [n.seq]) s.notices.held.head?)) = _
    cases s.notices.held <;> rfl
  case held =>
    have place : s.notices.placeOf seq = some older.length := placeOf_of_held held named first
    have rest : (s.notices.removeThrough older.length).held = younger := by
      show s.notices.held.drop (older.length + 1) = younger
      rw [held, List.append_cons]
      exact List.drop_left' (by simp)
    obtain ⟨isOpen, sendPos, lost⟩ := reportLost_frame (s.notices.removeThrough older.length)
    refine ⟨(s.notices.removeThrough older.length).reportLost, _,
      exec_noticeAck (t := s.setNotices _) taken (noticeAck_of_held (s := s.working 0x08#8 tag) place), rfl,
      isOpen, sendPos, lost, fun none_ => ?noneLost, fun some_ => ?someLost, attn_iff _⟩
    case noneLost =>
      rw [reportLost_of_zero (q := s.notices.removeThrough older.length) none_]
      exact ⟨rest, rfl⟩
    case someLost =>
      rw [reportLost_of_lost (q := s.notices.removeThrough older.length) some_]
      exact ⟨congrArg (· ++ _) rest, rfl⟩

end Sys2Proof.Proofs

/-!
R174, R160: the transmitter (O24).
-/
namespace Sys2Proof.Proofs

open Sys2Proof.Machine Sys2Proof.Laws

/-! ## The frames sent -/

/-- The statuses in the order of their codes (R183). -/
def statusesByCode : List Status :=
  [.ok, .busy, .tagInUse, .badKind, .badLength, .badValue, .notReady, .queueFull, .noRegion, .outOfBounds, .alignment,
    .overlap, .inUse, .portNotBound, .regionBusy, .ringFull, .protected_, .wrongState, .dataError, .notHeld, .restarted,
    .dramFault]

theorem code_of_place {k : Nat} {st : Status} (place : statusesByCode[k]? = some st) : st.code = k := by
  have codes : statusesByCode.map Status.code = List.range 22 := rfl
  have code : (statusesByCode.map Status.code)[k]? = some st.code := by rw [List.getElem?_map, place]; rfl
  rw [codes] at code
  obtain ⟨_, atPlace⟩ := List.getElem?_eq_some_iff.mp code
  rw [← atPlace, List.getElem_range]

theorem payload_responseFrame {r : Response} {k : Nat} (place : statusesByCode[k]? = some r.status) :
    r.payload = u8 k ++ r.data := by
  rw [Response.payload, code_of_place place]

theorem responseKind_eq (kind : Byte) :
    responseKind kind = if kind ∈ requestCodes then kind + 0x80#8 else 0xFF#8 :=
  if_congr List.contains_iff_mem rfl rfl

/-! ## The transmitter's choice -/

section
variable {s : State}

theorem frameBegin_of_idle (idle : s.link.tx = none) (released : s.link.resetHeld = false) :
    exec .frameBegin s = .next s.beginFrame := by
  show execFrameBegin s = _
  rw [execFrameBegin, if_pos (by rw [Link.idleTx, idle, released]; rfl)]

theorem beginFrame_of_response {r : Response} {rest : List Response} (empty : s.link.refusal = none)
    (ready : s.link.readyList = r :: rest) : s.beginFrame = s.setLink (s.link.beginResponse r rest) := by
  rw [State.beginFrame, empty, ready]

theorem beginFrame_of_notice {n : Notice} (empty : s.link.refusal = none) (noResponse : s.link.readyList = [])
    (next : s.notices.held[s.notices.sendPos]? = some n) : s.beginFrame = s.beginNotice n := by
  rw [State.beginFrame, empty, noResponse, next]

theorem beginFrame_of_nothing (empty : s.link.refusal = none) (noResponse : s.link.readyList = [])
    (noNotice : s.notices.held[s.notices.sendPos]? = none) : s.beginFrame = s := by
  rw [State.beginFrame, empty, noResponse, noNotice]

/-! ## The end of a frame -/

theorem frameEnd_of_tx {f : TxFrame} (sending : s.link.tx = some f) : exec .frameEnd s = .next (s.endFrame f) := by
  show execFrameEnd s = _
  rw [execFrameEnd, sending]

theorem endFrame_of_other {f : TxFrame} (other : ∀ tag, f.source ≠ .response tag) :
    s.endFrame f = s.setLink { s.link with tx := none } := by
  rw [State.endFrame]
  split
  case h_1 tag response => exact absurd response (other tag)
  case h_2 => rfl
  case h_3 => rfl

theorem endFrame_of_response {f : TxFrame} {tag : Byte} (response : f.source = .response tag) :
    s.endFrame f = (s.setLink { s.link with tx := none }).entryLeaves tag := by
  rw [State.endFrame, response]

theorem entryLeaves_of_other {tag : Byte} (other : s.link.restartTag ≠ some tag) :
    s.entryLeaves tag = s.setLink (s.link.dropEntry tag) := if_neg other

theorem entryLeaves_of_restart {tag : Byte} (restart : s.link.restartTag = some tag) :
    s.entryLeaves tag = (s.setLink (s.link.dropEntry tag)).readyReturn := if_pos restart

end

/-- Settles O24: the frames by the codes of their fields, the transmitter's choice and the end of a frame by their
branches. -/
theorem transmitter : Obligations.Transmitter := by
  refine ⟨fun r k place => ?response, fun n => ?notice, fun s idle released => ⟨fun r held => ?refusal,
    fun r rest empty ready => ?begins, fun n empty noResponse next => ?sends, fun empty noResponse noNotice => ?nothing⟩,
    fun s f sending => ⟨?busy, fun other => ?ends, fun tag response => ⟨_, rfl, fun other => ?leaves, fun restart => ?returns⟩⟩⟩
  case response => rw [Response.frame, responseKind_eq, payload_responseFrame place]; rfl
  case notice =>
    obtain ⟨seq, body⟩ := n
    cases body with
    | ready cause => cases cause <;> rfl
    | dramFault => rfl
    | descriptorDone c tag st done runs => cases st <;> rfl
    | checkFault a r => cases r <;> rfl
    | portOverflow p k => rfl
    | portUnderrun p k => rfl
    | ringHighWater r fill => rfl
    | markSaturated m => rfl
    | refreshMissed k => rfl
    | noticesLost k => rfl
  case refusal => exact exec_frameBegin_of_refusal held idle released
  case begins => rw [frameBegin_of_idle idle released, beginFrame_of_response empty ready]; rfl
  case sends => rw [frameBegin_of_idle idle released, beginFrame_of_notice empty noResponse next]; rfl
  case nothing => rw [frameBegin_of_idle idle released, beginFrame_of_nothing empty noResponse noNotice]
  case busy => exact frameBegin_of_busy (by rw [Link.idleTx, sending]; rfl)
  case ends => rw [frameEnd_of_tx sending, endFrame_of_other other]
  case leaves =>
    rw [frameEnd_of_tx sending, endFrame_of_response response,
      entryLeaves_of_other (s := s.setLink { s.link with tx := none }) other]
    rfl
  case returns =>
    rw [frameEnd_of_tx sending, endFrame_of_response response,
      entryLeaves_of_restart (s := s.setLink { s.link with tx := none }) restart]
    rfl

end Sys2Proof.Proofs

/-!
R8 to R14: a ring's accounting (O30).
-/
namespace Sys2Proof.Proofs

open Sys2Proof.Machine Sys2Proof.Laws

theorem rearm_eq (g : Ring) : g.rearm = { g with armed := g.armed || decide (g.committedFill < g.threshold) } := by
  unfold Ring.rearm
  split
  case isTrue below => rw [decide_eq_true below, Bool.or_true]
  case isFalse above => rw [decide_eq_false above, Bool.or_false]

/-! ## Reservations (R9, R11, R12) -/

theorem reserveWrite_of_space {len : Nat} {g : Ring} (space : 32 ≤ g.space len) :
    g.reserveWrite len = { g with
      writeList := g.writeList ++ [{ offset := g.back, accessed := false }], back := ringNext len g.back } := by
  have keeps : ¬ g.mustDrop len = true := by
    rw [Ring.mustDrop, decide_eq_true_eq]
    exact Nat.not_lt.mpr space
  unfold Ring.reserveWrite
  rw [if_neg keeps]

theorem reserveWrite_of_drop {len : Nat} {g : Ring} (full : g.space len < 32) :
    g.reserveWrite len = { g with
      front := ringNext len g.front, committedFill := g.committedFill - 32, lostBytes := satAdd Config.max32 32 g.lostBytes,
      armed := g.armed || decide (g.committedFill - 32 < g.threshold),
      writeList := g.writeList ++ [{ offset := g.back, accessed := false }], back := ringNext len g.back } := by
  unfold Ring.reserveWrite
  rw [if_pos (show g.mustDrop len = true from decide_eq_true full), Ring.drop, rearm_eq]
  rfl

theorem reserveRead_eq (len : Nat) (g : Ring) : g.reserveRead len = { g with
    front := ringNext len g.front, committedFill := g.committedFill - 32, readReserved := g.readReserved + 32,
    armed := g.armed || decide (g.committedFill - 32 < g.threshold) } := by
  unfold Ring.reserveRead
  rw [rearm_eq]
  rfl

theorem spaceLaw_reserveWrite_of_space {len : Nat} {g : Ring} (law : g.SpaceLaw len) (space : 32 ≤ g.space len) :
    (g.reserveWrite len).SpaceLaw len := by
  obtain ⟨fits, fill, reserved⟩ := law
  rw [reserveWrite_of_space space]
  refine ⟨?_, fill, reserved⟩
  rw [Ring.space] at space
  simp only [List.length_append, List.length_singleton]
  omega

theorem spaceLaw_reserveWrite_of_drop {len : Nat} {g : Ring} (law : g.SpaceLaw len) (full : g.space len < 32)
    (committed : 32 ≤ g.committedFill) : (g.reserveWrite len).SpaceLaw len := by
  obtain ⟨fits, fill, reserved⟩ := law
  rw [reserveWrite_of_drop full]
  refine ⟨?_, ?_, reserved⟩
  · simp only [List.length_append, List.length_singleton]
    omega
  · show (g.committedFill - 32) % 32 = 0
    omega

theorem spaceLaw_reserveRead {len : Nat} {g : Ring} (law : g.SpaceLaw len) (committed : 32 ≤ g.committedFill) :
    (g.reserveRead len).SpaceLaw len := by
  obtain ⟨fits, fill, reserved⟩ := law
  rw [reserveRead_eq]
  refine ⟨?_, ?_, ?_⟩
  · show g.committedFill - 32 + (g.readReserved + 32) + 32 * g.writeList.length ≤ len
    omega
  · show (g.committedFill - 32) % 32 = 0
    omega
  · show (g.readReserved + 32) % 32 = 0
    omega

/-! ## Commits (R10) -/

theorem commitRun_of_waiting {rest : List WriteReservation} (waits : ∀ x y, rest = x :: y → x.accessed = false) :
    commitRun rest = (0, rest) := by
  cases rest with
  | nil => rfl
  | cons x y => rw [commitRun, if_neg (by rw [waits x y rfl]; exact Bool.false_ne_true)]

theorem commitRun_of_accessed {x : WriteReservation} (accessed : x.accessed = true) (rest : List WriteReservation) :
    commitRun (x :: rest) = ((commitRun rest).1 + 1, (commitRun rest).2) := by
  rw [commitRun, if_pos accessed]

theorem markAccessed_of_other {off : Nat} {l : List WriteReservation} (other : ∀ x ∈ l, x.offset ≠ off) :
    markAccessed off l = l :=
  (List.map_congr_left fun x mem => if_neg (other x mem)).trans (List.map_id l)

theorem markAccessed_oldest {w : WriteReservation} {rest : List WriteReservation}
    (other : ∀ x ∈ rest, x.offset ≠ w.offset) :
    markAccessed w.offset (w :: rest) = { w with accessed := true } :: rest := by
  rw [show markAccessed w.offset (w :: rest) = (if w.offset = w.offset then { w with accessed := true } else w) ::
    markAccessed w.offset rest from rfl, if_pos rfl, markAccessed_of_other other]

theorem commit_eq {g : Ring} {off n : Nat} {rest : List WriteReservation}
    (run : commitRun (markAccessed off g.writeList) = (n, rest)) :
    g.commit off = { g with writeList := rest, committedFill := g.committedFill + 32 * n } := by
  rw [Ring.commit, Ring.committing, run]

/-- The oldest reservation is committed, and those after it that were accessed before it. -/
theorem commit_oldest {g : Ring} {w : WriteReservation} {rest : List WriteReservation} (list : g.writeList = w :: rest)
    (other : ∀ x ∈ rest, x.offset ≠ w.offset) :
    g.commit w.offset = { g with
      writeList := (commitRun rest).2, committedFill := g.committedFill + 32 * ((commitRun rest).1 + 1) } :=
  commit_eq (by rw [list, markAccessed_oldest other, commitRun_of_accessed rfl])

/-- A reservation behind one that waits is only marked. -/
theorem commit_second {g : Ring} {w x : WriteReservation} (list : g.writeList = [w, x]) (other : x.offset ≠ w.offset)
    (waits : w.accessed = false) : g.commit x.offset = { g with writeList := [w, { x with accessed := true }] } := by
  have marked : markAccessed x.offset g.writeList = [w, { x with accessed := true }] := by
    rw [list]
    show [if w.offset = x.offset then _ else w, if x.offset = x.offset then _ else x] = _
    rw [if_neg (Ne.symm other), if_pos rfl]
  refine commit_eq (n := 0) ?_
  rw [marked]
  exact commitRun_of_waiting fun y l same => by cases same; exact waits

/-! ## Consumption and giving back (R13, R14) -/

theorem spaceLaw_consume {len : Nat} {g : Ring} (law : g.SpaceLaw len) : g.consume.SpaceLaw len := by
  obtain ⟨fits, fill, reserved⟩ := law
  refine ⟨?_, fill, ?_⟩
  · show g.committedFill + (g.readReserved - 32) + 32 * g.writeList.length ≤ len
    omega
  · show (g.readReserved - 32) % 32 = 0
    omega

theorem spaceLaw_giveBack {len : Nat} {g : Ring} (off : Nat) (law : g.SpaceLaw len) (reads : 32 ≤ g.readReserved) :
    (g.giveBack off).SpaceLaw len := by
  obtain ⟨fits, fill, reserved⟩ := law
  refine ⟨?_, ?_, ?_⟩
  · show g.committedFill + 32 + (g.readReserved - 32) + 32 * g.writeList.length ≤ len
    omega
  · show (g.committedFill + 32) % 32 = 0
    omega
  · show (g.readReserved - 32) % 32 = 0
    omega

/-- Settles O30: one equation and one space law for each operation. -/
theorem ringAccounting : Obligations.RingAccounting := by
  intro len g law _
  refine ⟨fun space => ⟨reserveWrite_of_space space, spaceLaw_reserveWrite_of_space law space⟩, fun full committed => ?drop,
    fun committed => ?read, fun w rest list other => ⟨(commit_space law _).1, fun waits => ?commitOne, fun x second accessed => ?commitTwo,
    fun x second waits => ?marks⟩, fun reads => ⟨rfl, spaceLaw_consume law, fun off => ⟨rfl, spaceLaw_giveBack off law reads, ?back⟩⟩⟩
  case drop =>
    refine ⟨_, rfl, spaceLaw_reserveWrite_of_drop law full committed, ?_⟩
    rw [reserveWrite_of_drop full]
    exact ⟨rfl, rfl, rfl, rfl, rfl, rfl, rfl⟩
  case read =>
    refine ⟨_, rfl, spaceLaw_reserveRead law committed, ?_⟩
    rw [reserveRead_eq]
    exact ⟨rfl, rfl, rfl, rfl, rfl, rfl⟩
  case commitOne =>
    rw [commit_oldest list other, commitRun_of_waiting waits]
    rfl
  case commitTwo =>
    rw [commit_oldest list other, second, commitRun_of_accessed accessed]
    rfl
  case marks =>
    subst second
    exact commit_second list (other x (List.mem_singleton_self x)) waits
  case back => exact decide_eq_true_iff

end Sys2Proof.Proofs

/-!
The region table's requests: REGION_DEFINE (O27), REGION_DELETE and RING_RESET (O28), REGION_QUERY (O29).
-/
namespace Sys2Proof.Proofs

open Sys2Proof.Machine Sys2Proof.Laws

/-- A request that its owner answers at once and refuses in FAILED, by its owner's reply, whose effect `t` is taken
beside the link. -/
theorem repliesServing {s t : State} {kind tag : Byte} {p data : List Byte} {ok : Bool} {g : Gate} {f : State → Reply}
    {st : Status} (taken : s.takes kind tag p = true) (serving : s.serving = true) (lenOk : ok = true)
    (reply : f (s.working kind tag) = (st, data, t.setLink (s.working kind tag).link)) :
    onFrame kind (fun tag _ u => u.accept kind tag ok g fun v => v.unlessFailed tag fun w => w.answerWith tag f) tag p s =
      .next (t.setLink (s.link.answered kind tag st data)) := by
  have answered := answersServing (g := g) (f := f) taken serving lenOk (by rw [reply]; rfl)
  rw [reply] at answered
  exact answered

/-! ## Bytes of small value -/

theorem byte_le_one {b : Byte} (small : b.toNat ≤ 1) : b = 0#8 ∨ b = 1#8 := by
  rcases Nat.le_one_iff_eq_zero_or_eq_one.mp small with zero | one
  · exact .inl (BitVec.eq_of_toNat_eq zero)
  · exact .inr (BitVec.eq_of_toNat_eq one)

theorem readFlag_of_le_one {b : Byte} (small : b.toNat ≤ 1) : readFlag b = some (decide (b = 1#8)) := by
  rcases byte_le_one small with rfl | rfl <;> rfl

/-! ## The fields of REGION_DEFINE -/

theorem readPolicy_of_le_one {b : Byte} (small : b.toNat ≤ 1) :
    readPolicy b = some (if b = 0#8 then .stop else .overwrite) := by
  rcases byte_le_one small with rfl | rfl <;> rfl

theorem readPolicy_of_beyond {b : Byte} (beyond : 1 < b.toNat) : readPolicy b = none := by
  unfold readPolicy
  split
  case h_1 zero => omega
  case h_2 one => omega
  case h_3 => rfl

theorem readKind_linear (policy : Byte) (length threshold : Nat) : readKind 0#8 policy length threshold = some .linear :=
  rfl

theorem readKind_ring {policy : Byte} {length threshold : Nat} (small : policy.toNat ≤ 1)
    (fits : threshold * 1024 ≤ length) : readKind 1#8 policy length threshold =
      some (.ring (Ring.fresh (if policy = 0#8 then .stop else .overwrite) threshold)) := by
  show (match readPolicy policy with | some p => _ | none => none) = _
  rw [readPolicy_of_le_one small]
  exact if_pos fits

/-- The kind that REGION_DEFINE's good fields make. -/
def definedKind (kind policy : Byte) (threshold : Nat) : RegionKind :=
  if kind = 0#8 then .linear else .ring (Ring.fresh (if policy = 0#8 then .stop else .overwrite) threshold)

theorem readKind_of_good {kind policy : Byte} {length threshold : Nat} (small : kind.toNat ≤ 1)
    (ring : kind = 1#8 → policy.toNat ≤ 1 ∧ threshold * 1024 ≤ length) :
    readKind kind policy length threshold = some (definedKind kind policy threshold) := by
  rcases byte_le_one small with rfl | rfl
  · exact readKind_linear ..
  · exact readKind_ring (ring rfl).1 (ring rfl).2

theorem readKind_of_badRing {policy : Byte} {length threshold : Nat}
    (bad : 1 < policy.toNat ∨ length < threshold * 1024) : readKind 1#8 policy length threshold = none := by
  show (match readPolicy policy with | some p => _ | none => none) = _
  rcases Nat.lt_or_ge 1 policy.toNat with beyond | small
  · rw [readPolicy_of_beyond beyond]
  · rw [readPolicy_of_le_one small]
    exact if_neg (Nat.not_le.mpr (bad.resolve_left (Nat.not_lt.mpr small)))

theorem readKind_of_beyond {kind : Byte} (beyond : 1 < kind.toNat) (policy : Byte) (length threshold : Nat) :
    readKind kind policy length threshold = none := by
  unfold readKind
  split
  case h_1 zero => omega
  case h_2 one => omega
  case h_3 => rfl

/-- The payload of REGION_DEFINE (R183). -/
def definePayload (r base length threshold : Nat) (kind lw policy : Byte) : List Byte :=
  u8 r ++ u32 base ++ u32 length ++ [kind, lw, policy] ++ u16 threshold

section
variable {r base length threshold : Nat} {kind lw policy : Byte}

theorem readDefine_fields (hr : r < 256) (hb : base < 4294967296) (hl : length < 4294967296) (ht : threshold < 65536)
    {region : RegionId} {linkWrite : Bool} {k : RegionKind} (number : region.val = r) (flag : readFlag lw = some linkWrite)
    (isKind : readKind kind policy length threshold = some k) (nonzero : length ≠ 0) :
    readDefine (definePayload r base length threshold kind lw policy) =
      some { region := region, base := base, length := length, linkWrite := linkWrite, kind := k } := by
  have index : idx? 16 r = some region := by rw [← number, idx_val]
  show readDefine [_, _, _, _, _, _, _, _, _, _, _, _, _, _] = _
  simp only [readDefine, nat32_u32 hb, nat32_u32 hl, nat16_u16 ht, toNat_ofNat8, Nat.mod_eq_of_lt hr, index, flag, isKind,
    if_neg nonzero]

theorem readDefine_bad (hr : r < 256) (hl : length < 4294967296) (ht : threshold < 65536)
    (bad : 15 < r ∨ 1 < lw.toNat ∨ readKind kind policy length threshold = none ∨ length = 0) :
    readDefine (definePayload r base length threshold kind lw policy) = none := by
  show readDefine [_, _, _, _, _, _, _, _, _, _, _, _, _, _] = _
  simp only [readDefine, nat32_u32 hl, nat16_u16 ht, toNat_ofNat8, Nat.mod_eq_of_lt hr]
  split
  case h_1 region linkWrite k number flag isKind =>
    refine if_pos ?_
    rcases bad with beyond | badFlag | badKind | zero
    · rw [idx_none beyond] at number
      cases number
    · rw [readFlag_of_one_lt badFlag] at flag
      cases flag
    · rw [badKind] at isKind
      cases isKind
    · exact zero
  case h_2 => rfl

end

/-! ## The checks of REGION_DEFINE -/

theorem overlaps_iff (base length : Nat) (d : RegionRecord) :
    d.overlaps base length = true ↔ base < d.base + d.length ∧ d.base < base + length := by
  rw [RegionRecord.overlaps, Bool.and_eq_true, decide_eq_true_eq, decide_eq_true_eq]

theorem region_overlaps_iff (base length : Nat) (x : Region) :
    x.overlaps base length = true ↔ ∃ d, x.record = some d ∧ base < d.base + d.length ∧ d.base < base + length := by
  unfold Region.overlaps
  cases x.record with
  | none => simp
  | some d => simp [overlaps_iff]

theorem any_region_iff (s : State) (f : Region → Bool) : s.regions.toList.any f = true ↔ ∃ q, f (s.region q) = true := by
  rw [List.any_eq_true]
  constructor
  · rintro ⟨x, mem, holds⟩
    obtain ⟨i, inRange, rfl⟩ := Vector.mem_iff_getElem.mp (Vector.mem_toList_iff.mp mem)
    exact ⟨⟨i, inRange⟩, holds⟩
  · rintro ⟨q, holds⟩
    exact ⟨s.region q, Vector.mem_toList_iff.mpr (Vector.getElem_mem q.isLt), holds⟩

section
variable {f : DefineFields} {s : State}

theorem defineCheck_alignment (unaligned : f.base % 1024 ≠ 0 ∨ f.length % 1024 ≠ 0) :
    defineCheck f s = some .alignment := by
  refine if_pos ?_
  rw [Bool.or_eq_true, decide_eq_true_eq, decide_eq_true_eq]
  exact unaligned

/-- A range that begins and ends at pages, as R4 asks first. -/
def FieldsAligned (f : DefineFields) : Prop := f.base % 1024 = 0 ∧ f.length % 1024 = 0

theorem defineCheck_aligned (aligned : FieldsAligned f) :
    defineCheck f s = if 67108864 < f.base + f.length then some .outOfBounds
      else if (s.region f.region).record.isSome then some .inUse
      else if s.regions.toList.any fun x => x.overlaps f.base f.length then some .overlap
      else none := by
  refine if_neg ?_
  rw [Bool.or_eq_true, decide_eq_true_eq, decide_eq_true_eq]
  exact fun unaligned => unaligned.elim (fun h => h aligned.1) (fun h => h aligned.2)

theorem defineCheck_outOfBounds (aligned : FieldsAligned f) (beyond : 67108864 < f.base + f.length) :
    defineCheck f s = some .outOfBounds := by
  rw [defineCheck_aligned aligned, if_pos beyond]

theorem defineCheck_inUse (aligned : FieldsAligned f) (fits : f.base + f.length ≤ 67108864)
    (used : (s.region f.region).record ≠ none) : defineCheck f s = some .inUse := by
  rw [defineCheck_aligned aligned, if_neg (Nat.not_lt.mpr fits), if_pos (Option.isSome_iff_ne_none.mpr used)]

theorem defineCheck_unused (aligned : FieldsAligned f) (fits : f.base + f.length ≤ 67108864)
    (free : (s.region f.region).record = none) :
    defineCheck f s = if s.regions.toList.any fun x => x.overlaps f.base f.length then some .overlap else none := by
  have unused : ¬ (s.region f.region).record.isSome = true := by
    rw [free]
    exact Bool.false_ne_true
  rw [defineCheck_aligned aligned, if_neg (Nat.not_lt.mpr fits), if_neg unused]

theorem defineCheck_overlap (aligned : FieldsAligned f) (fits : f.base + f.length ≤ 67108864)
    (free : (s.region f.region).record = none)
    (overlaps : ∃ q d, (s.region q).record = some d ∧ f.base < d.base + d.length ∧ d.base < f.base + f.length) :
    defineCheck f s = some .overlap := by
  obtain ⟨q, d, record, low, high⟩ := overlaps
  rw [defineCheck_unused aligned fits free]
  exact if_pos ((any_region_iff ..).mpr ⟨q, (region_overlaps_iff ..).mpr ⟨d, record, low, high⟩⟩)

theorem defineCheck_pass (aligned : FieldsAligned f) (fits : f.base + f.length ≤ 67108864)
    (free : (s.region f.region).record = none)
    (apart : ∀ q d, (s.region q).record = some d → d.base + d.length ≤ f.base ∨ f.base + f.length ≤ d.base) :
    defineCheck f s = none := by
  rw [defineCheck_unused aligned fits free]
  refine if_neg ?_
  rw [any_region_iff]
  rintro ⟨q, overlaps⟩
  obtain ⟨d, record, low, high⟩ := (region_overlaps_iff ..).mp overlaps
  have := apart q d record
  omega

end

/-! ## The reply of REGION_DEFINE -/

theorem regionDefine_of_bad {p : List Byte} {s : State} (bad : readDefine p = none) :
    regionDefine p s = (.badValue, [], s) := by
  rw [regionDefine, bad]

theorem regionDefine_of_check {p : List Byte} {s : State} {f : DefineFields} {st : Status} (read : readDefine p = some f)
    (fails : defineCheck f s = some st) : regionDefine p s = (st, [], s) := by
  rw [regionDefine, read]
  show (match defineCheck f s with | some st => _ | none => _) = _
  rw [fails]

theorem regionDefine_of_pass {p : List Byte} {s : State} {f : DefineFields} (read : readDefine p = some f)
    (passes : defineCheck f s = none) : regionDefine p s = (.ok, [], s.setRegion f.region f.slot) := by
  rw [regionDefine, read]
  show (match defineCheck f s with | some st => _ | none => _) = _
  rw [passes]

theorem exec_regionDefine {s t : State} {tag : Byte} {p data : List Byte} {st : Status}
    (taken : s.takes 0x10#8 tag p = true) (serving : s.serving = true) (len : p.length = 14)
    (reply : regionDefine p (s.working 0x10#8 tag) = (st, data, t.setLink (s.working 0x10#8 tag).link)) :
    exec (.regionDefine tag p) s = .next (t.setLink (s.link.answered 0x10#8 tag st data)) :=
  repliesServing (ok := decide (p.length = 14)) (g := .whenReady) (f := regionDefine p) taken serving (decide_eq_true len)
    reply

/-- Settles O27: the fields read (`readDefine_fields`, `readDefine_bad`), then the checks in their order. -/
theorem regionDefine : Obligations.RegionDefine := by
  rintro tag s r base length threshold kind lw policy hr hb hl ht p rfl taken serving
  have answers : ∀ {t : State} {st : Status}, Machine.regionDefine (definePayload r base length threshold kind lw policy)
        (s.working 0x10#8 tag) = (st, [], t.setLink (s.working 0x10#8 tag).link) →
      exec (.regionDefine tag (definePayload r base length threshold kind lw policy)) s =
        .next (t.setLink (s.link.answered 0x10#8 tag st [])) := fun reply => exec_regionDefine taken serving rfl reply
  refine ⟨fun bad => ?badValue, fun id number smallKind smallFlag nonzero ring => ?good⟩
  case badValue =>
    refine answers (t := s) (regionDefine_of_bad (readDefine_bad hr hl ht ?_))
    rcases bad with beyond | badKind | badFlag | zero | ⟨rfl, badRing⟩
    · exact .inl beyond
    · exact .inr (.inr (.inl (readKind_of_beyond badKind ..)))
    · exact .inr (.inl badFlag)
    · exact .inr (.inr (.inr zero))
    · exact .inr (.inr (.inl (readKind_of_badRing badRing)))
  case good =>
    have read := readDefine_fields hr hb hl ht number (readFlag_of_le_one smallFlag) (readKind_of_good smallKind ring)
      nonzero
    have checks : ∀ st, defineCheck _ (s.working 0x10#8 tag) = some st → _ :=
      fun st fails => answers (t := s) (regionDefine_of_check read fails)
    refine ⟨fun unaligned => checks _ (defineCheck_alignment unaligned), fun baseAligned lengthAligned => ?aligned⟩
    have aligned : FieldsAligned ⟨id, base, length, decide (lw = 1#8), definedKind kind policy threshold⟩ :=
      ⟨baseAligned, lengthAligned⟩
    exact ⟨fun beyond => checks _ (defineCheck_outOfBounds aligned beyond),
      fun fits used => checks _ (defineCheck_inUse aligned fits used),
      fun fits free => ⟨fun overlaps => checks _ (defineCheck_overlap aligned fits free overlaps),
        fun apart => answers (t := s.setRegion id _) (regionDefine_of_pass read (defineCheck_pass aligned fits free apart))⟩⟩

end Sys2Proof.Proofs

/-!
REGION_DELETE and RING_RESET (O28), REGION_QUERY (O29): requests whose payload is one region number.
-/
namespace Sys2Proof.Proofs

open Sys2Proof.Machine Sys2Proof.Laws

/-! ## The region number -/

theorem onRegion_of_number {b : Byte} {r : RegionId} (number : r.val = b.toNat) (f : RegionId → State → Reply)
    (s : State) : onRegion [b] f s = f r s := by
  simp only [onRegion, ← number, idx_val]

theorem onRegion_of_beyond {b : Byte} (beyond : 15 < b.toNat) (f : RegionId → State → Reply) (s : State) :
    onRegion [b] f s = (.badValue, [], s) := by
  simp only [onRegion, idx_none (show 16 ≤ b.toNat from beyond)]

section
variable {s t : State} {tag b : Byte} {st : Status} {data : List Byte}

theorem exec_regionDelete (taken : s.takes 0x11#8 tag [b] = true) (serving : s.serving = true)
    (reply : onRegion [b] regionDelete (s.working 0x11#8 tag) = (st, data, t.setLink (s.working 0x11#8 tag).link)) :
    exec (.regionDelete tag [b]) s = .next (t.setLink (s.link.answered 0x11#8 tag st data)) :=
  repliesServing (ok := decide ([b].length = 1)) (g := .whenReady) (f := onRegion [b] regionDelete) taken serving rfl reply

theorem exec_regionQuery (taken : s.takes 0x12#8 tag [b] = true) (serving : s.serving = true)
    (reply : onRegion [b] regionQuery (s.working 0x12#8 tag) = (st, data, t.setLink (s.working 0x12#8 tag).link)) :
    exec (.regionQuery tag [b]) s = .next (t.setLink (s.link.answered 0x12#8 tag st data)) :=
  repliesServing (ok := decide ([b].length = 1)) (g := .whenReady) (f := onRegion [b] regionQuery) taken serving rfl reply

theorem exec_ringReset (taken : s.takes 0x13#8 tag [b] = true) (serving : s.serving = true)
    (reply : onRegion [b] ringReset (s.working 0x13#8 tag) = (st, data, t.setLink (s.working 0x13#8 tag).link)) :
    exec (.ringReset tag [b]) s = .next (t.setLink (s.link.answered 0x13#8 tag st data)) :=
  repliesServing (ok := decide ([b].length = 1)) (g := .whenReady) (f := onRegion [b] ringReset) taken serving rfl reply

end

/-! ## Rings and regions in use (R5, R16) -/

theorem busy_iff (g : Ring) : g.busy = true ↔
    g.writerClaim ≠ none ∨ g.readerClaim ≠ none ∨ g.readReserved ≠ 0 ∨ g.writeList ≠ [] := by
  simp [Ring.busy, Option.isSome_iff_ne_none, or_assoc]

theorem not_busy {g : Ring} (writer : g.writerClaim = none) (reader : g.readerClaim = none) (reads : g.readReserved = 0)
    (writes : g.writeList = []) : ¬ g.busy = true := by
  rw [busy_iff]
  rintro (h | h | h | h)
  · exact h writer
  · exact h reader
  · exact h reads
  · exact h writes

theorem inUse_iff (x : Region) (d : RegionRecord) :
    x.inUse d = true ↔ x.refCount ≠ 0 ∨ ∃ g, d.kind = .ring g ∧ g.busy = true := by
  unfold Region.inUse
  cases d.kind <;> simp

section
variable {r : RegionId} {s : State}

theorem regionDelete_of_free (free : (s.region r).record = none) : regionDelete r s = (.noRegion, [], s) := by
  rw [regionDelete, free]

theorem regionDelete_of_defined {d : RegionRecord} (record : (s.region r).record = some d) : regionDelete r s =
    if (s.region r).inUse d then (.inUse, [], s) else (.ok, [], s.setRegion r Region.reset) := by
  rw [regionDelete, record]

theorem ringReset_of_free (free : (s.region r).record = none) : ringReset r s = (.noRegion, [], s) := by
  rw [ringReset, free]

theorem ringReset_of_linear {d : RegionRecord} (record : (s.region r).record = some d) (linear : d.kind = .linear) :
    ringReset r s = (.badValue, [], s) := by
  simp only [ringReset, record, linear]

theorem ringReset_of_ring {d : RegionRecord} {g : Ring} (record : (s.region r).record = some d) (ring : d.kind = .ring g) :
    ringReset r s = if g.busy then (.inUse, [], s) else (.ok, [], s.setRing r g.emptied) := by
  simp only [ringReset, record, ring]

theorem setRing_of_record {d : RegionRecord} (record : (s.region r).record = some d) (g : Ring) :
    s.setRing r g = s.setRegion r { s.region r with record := some { d with kind := .ring g } } := by
  rw [State.setRing, Region.setRing, record]

end

/-- Settles O28: both requests by the slot named, what is in use by `inUse_iff` and `busy_iff`. -/
theorem regionDeleteAndRingReset : Obligations.RegionDeleteAndRingReset := by
  refine ⟨fun tag b s taken serving => ⟨fun beyond => ?deleteBeyond, fun r number => ?delete⟩,
    fun tag b s taken serving => ⟨fun beyond => ?resetBeyond, fun r number => ?reset⟩⟩
  case deleteBeyond => exact exec_regionDelete (t := s) taken serving (onRegion_of_beyond beyond _ _)
  case resetBeyond => exact exec_ringReset (t := s) taken serving (onRegion_of_beyond beyond _ _)
  case delete =>
    have owner := onRegion_of_number number regionDelete (s.working 0x11#8 tag)
    refine ⟨fun free => ?free, fun d record => ⟨fun used => ?used, fun noRefs idle => ?unused⟩⟩
    case free =>
      exact exec_regionDelete (t := s) taken serving (owner.trans (regionDelete_of_free (s := s.working 0x11#8 tag) free))
    case used =>
      have used : (s.region r).inUse d = true := by
        refine (inUse_iff _ _).mpr (used.imp id ?_)
        rintro ⟨g, ring, busy⟩
        exact ⟨g, ring, (busy_iff g).mpr busy⟩
      have reply := owner.trans (regionDelete_of_defined (s := s.working 0x11#8 tag) record)
      exact exec_regionDelete (t := s) taken serving (reply.trans (if_pos used))
    case unused =>
      have unused : ¬ (s.region r).inUse d = true := by
        rw [inUse_iff]
        rintro (refs | ⟨g, ring, busy⟩)
        · exact refs noRefs
        · obtain ⟨writer, reader, reads, writes⟩ := idle g ring
          exact not_busy writer reader reads writes busy
      have reply := owner.trans (regionDelete_of_defined (s := s.working 0x11#8 tag) record)
      exact exec_regionDelete (t := s.setRegion r Region.reset) taken serving (reply.trans (if_neg unused))
  case reset =>
    have owner := onRegion_of_number number ringReset (s.working 0x13#8 tag)
    refine ⟨fun free => ?resetFree, fun d record => ⟨fun linear => ?linear, fun g ring => ⟨fun used => ?busy,
      fun writer reader reads writes => ?idle⟩⟩⟩
    case resetFree =>
      exact exec_ringReset (t := s) taken serving (owner.trans (ringReset_of_free (s := s.working 0x13#8 tag) free))
    case linear =>
      exact exec_ringReset (t := s) taken serving
        (owner.trans (ringReset_of_linear (s := s.working 0x13#8 tag) record linear))
    case busy =>
      have reply := owner.trans (ringReset_of_ring (s := s.working 0x13#8 tag) record ring)
      exact exec_ringReset (t := s) taken serving (reply.trans (if_pos ((busy_iff g).mpr used)))
    case idle =>
      have reply := owner.trans (ringReset_of_ring (s := s.working 0x13#8 tag) record ring)
      have answered := exec_ringReset (t := s.setRing r g.emptied) taken serving
        (reply.trans (if_neg (not_busy writer reader reads writes)))
      rw [setRing_of_record record] at answered
      exact answered

/-! ## REGION_QUERY (R6) -/

/-- The first four fields of a DEFINED region, then its ring fields. -/
theorem report_of_defined {x : Region} {d : RegionRecord} (record : x.record = some d) :
    x.report = u8 1 ++ u8 x.refCount ++ u32 d.base ++ u32 d.length ++ u8 d.kind.code ++ flagByte d.linkWrite ++
      ringReport d.kind := by
  rw [Region.report, record]

theorem report_of_free {x : Region} (free : x.record = none) :
    x.report = [0#8] ++ u8 x.refCount ++ List.replicate 35 0#8 ++ [0xFF#8, 0xFF#8] ++ [0#8, 0#8] := by
  rw [Region.report, free]
  rfl

theorem holderByte_eq (h : Option Requester) : holderByte h = match h with
    | none => [0xFF#8]
    | some (.ch c) => u8 c.val
    | some .lau => [6#8] := by
  cases h with
  | none => rfl
  | some r => cases r <;> rfl

theorem policyByte_eq (p : OverwritePolicy) : u8 p.code = match p with
    | .stop => [0#8]
    | .overwrite => [1#8] := by
  cases p <;> rfl

/-- Settles O29: the report by the slot's record and its kind. -/
theorem regionQuery : Obligations.RegionQuery := by
  intro tag b s taken serving
  refine ⟨fun beyond => exec_regionQuery (t := s) taken serving (onRegion_of_beyond beyond _ _), fun r number => ?report⟩
  have answers : exec (.regionQuery tag [b]) s = .next (s.answered 0x12#8 tag .ok (s.region r).report) :=
    exec_regionQuery (t := s) taken serving (onRegion_of_number number Machine.regionQuery (s.working 0x12#8 tag))
  refine ⟨fun free => ?free, fun d record linear => ?linear, fun d g record ring => ?ring⟩
  case free => rw [answers, report_of_free free]
  case linear =>
    rw [answers, report_of_defined record, linear]
    cases d.linkWrite <;> rfl
  case ring =>
    rw [answers, report_of_defined record, ring, ringReport, policyByte_eq, holderByte_eq, holderByte_eq]
    simp only [List.flatMap_cons, List.flatMap_nil, List.append_assoc, List.append_nil]
    rfl

end Sys2Proof.Proofs

/-!
ROW_POLICY and RETENTION_RATE (O31), and the queries that report records as they stand (O33).
-/
namespace Sys2Proof.Proofs

open Sys2Proof.Machine Sys2Proof.Laws

/-- A request that its owner answers at once in every mode once the part is READY, by its owner's reply, whose effect `t`
is taken beside the link. -/
theorem repliesReady {s t : State} {kind tag : Byte} {p data : List Byte} {ok : Bool} {f : State → Reply} {st : Status}
    (taken : s.takes kind tag p = true) (ready : s.link.readiness = .ready) (lenOk : ok = true)
    (reply : f (s.working kind tag) = (st, data, t.setLink (s.working kind tag).link)) :
    onFrame kind (fun tag _ u => u.accept kind tag ok .whenReady fun w => w.answerWith tag f) tag p s =
      .next (t.setLink (s.link.answered kind tag st data)) := by
  have gate : Gate.whenReady.status s.link.readiness = none := by rw [ready]; rfl
  have answered := answers (f := f) taken lenOk gate (by rw [reply]; rfl)
  rw [reply] at answered
  exact answered

/-! ## ROW_POLICY (R38) -/

/-- The limits in the order of their codes (R183). -/
def rowIdleLimits : List RowIdleLimit := [.off, .quarterUs, .halfUs, .us1, .us2, .us4, .us8, .us16]

theorem readRowIdleLimit_eq (b : Byte) : readRowIdleLimit b = rowIdleLimits[b.toNat]? := by
  unfold readRowIdleLimit
  match b.toNat with
  | 0 | 1 | 2 | 3 | 4 | 5 | 6 | 7 => rfl
  | _ + 8 => rfl

theorem rowPolicy_of_limit {b : Byte} {l : RowIdleLimit} (s : State) (read : readRowIdleLimit b = some l) :
    rowPolicy [b] s = (.ok, [], s.setSched (s.sched.setIdleLimit l s.now)) := by
  simp only [rowPolicy, read]

theorem rowPolicy_of_none {b : Byte} (s : State) (read : readRowIdleLimit b = none) :
    rowPolicy [b] s = (.badValue, [], s) := by
  simp only [rowPolicy, read]

theorem touched_eq (now : Nat) (x : Bank) : x.touched now = match x with
    | .opened o => .opened { o with lastActivity := now }
    | x => x := by
  cases x <;> rfl

/-! ## RETENTION_RATE (R49) -/

theorem readRetentionRate_eq (b : Byte) : readRetentionRate b = [RetentionRate.normal, .double][b.toNat]? := by
  unfold readRetentionRate
  match b.toNat with
  | 0 | 1 => rfl
  | _ + 2 => rfl

theorem retentionRate_of_rate {b : Byte} {r : RetentionRate} (s : State) (read : readRetentionRate b = some r) :
    retentionRate [b] s = (.ok, [], s.setSched { s.sched with retentionRate := r }) := by
  simp only [retentionRate, read]

theorem retentionRate_of_none {b : Byte} (s : State) (read : readRetentionRate b = none) :
    retentionRate [b] s = (.badValue, [], s) := by
  simp only [retentionRate, read]

section
variable {s t : State} {tag b : Byte} {st : Status} {data : List Byte}

theorem exec_rowPolicy (taken : s.takes 0x15#8 tag [b] = true) (ready : s.link.readiness = .ready)
    (reply : rowPolicy [b] (s.working 0x15#8 tag) = (st, data, t.setLink (s.working 0x15#8 tag).link)) :
    exec (.rowPolicy tag [b]) s = .next (t.setLink (s.link.answered 0x15#8 tag st data)) :=
  repliesReady (ok := decide ([b].length = 1)) (f := rowPolicy [b]) taken ready rfl reply

theorem exec_retentionRate (taken : s.takes 0x16#8 tag [b] = true) (ready : s.link.readiness = .ready)
    (reply : retentionRate [b] (s.working 0x16#8 tag) = (st, data, t.setLink (s.working 0x16#8 tag).link)) :
    exec (.retentionRate tag [b]) s = .next (t.setLink (s.link.answered 0x16#8 tag st data)) :=
  repliesReady (ok := decide ([b].length = 1)) (f := retentionRate [b]) taken ready rfl reply

end

/-- Settles O31: both requests by the place of their value in the list of the settings. -/
theorem rowPolicyAndRetentionRate : Obligations.RowPolicyAndRetentionRate := by
  refine ⟨rfl, rfl, fun _ => rfl, fun tag b s taken ready => ⟨fun l place => ?policy, fun beyond => ?noPolicy⟩,
    fun tag b s taken ready => ⟨fun r place => ?rate, fun beyond => ?noRate⟩, fun d now => ⟨fun rate => ?normal, fun rate => ?double⟩⟩
  case policy =>
    refine ⟨mapTable (Bank.touched s.now) s.sched.banks, fun k => ?_, ?_⟩
    · rw [getAt_mapTable]
      exact touched_eq ..
    · exact exec_rowPolicy (t := s.setSched (s.sched.setIdleLimit l s.now)) taken ready
        (rowPolicy_of_limit (s.working 0x15#8 tag) ((readRowIdleLimit_eq b).trans place))
  case noPolicy =>
    exact exec_rowPolicy (t := s) taken ready
      (rowPolicy_of_none _ ((readRowIdleLimit_eq b).trans (List.getElem?_eq_none beyond)))
  case rate =>
    exact exec_retentionRate (t := s.setSched { s.sched with retentionRate := r }) taken ready
      (retentionRate_of_rate (s.working 0x16#8 tag) ((readRetentionRate_eq b).trans place))
  case noRate =>
    exact exec_retentionRate (t := s) taken ready
      (retentionRate_of_none _ ((readRetentionRate_eq b).trans (List.getElem?_eq_none beyond)))
  case normal => rw [Scheduler.expireInterval, rate]; rfl
  case double => rw [Scheduler.expireInterval, rate]; rfl

/-! ## SCHED_QUERY (R43) -/

theorem bankReport_eq (d : Scheduler) (b : BankId) : d.bankReport b =
    (match d.bank b with
      | .closed => u8 0 ++ u16 0
      | .opening row _ => u8 1 ++ u16 row
      | .opened o => u8 2 ++ u16 o.row
      | .closing _ => u8 3 ++ u16 0) ++ u8 (d.list.countP fun e => bankOf e.addr = b) := by
  unfold Scheduler.bankReport
  cases d.bank b <;> rfl

theorem exec_schedQuery {s : State} {tag : Byte} (taken : s.takes 0x14#8 tag [] = true)
    (ready : s.link.readiness = .ready) :
    exec (.schedQuery tag []) s = .next (s.answered 0x14#8 tag .ok s.sched.report) :=
  repliesReady (t := s) (ok := decide (([] : List Byte).length = 0)) (f := fun u => (.ok, u.sched.report, u)) taken ready
    rfl rfl

theorem flatMap_bankReport (d : Scheduler) (l : List BankId) : l.flatMap d.bankReport = l.flatMap fun b =>
    (match d.bank b with
      | .closed => u8 0 ++ u16 0
      | .opening row _ => u8 1 ++ u16 row
      | .opened o => u8 2 ++ u16 o.row
      | .closing _ => u8 3 ++ u16 0) ++ u8 (d.list.countP fun e => bankOf e.addr = b) :=
  List.flatMap_congr fun b _ => bankReport_eq d b

/-! ## ARB_QUERY (R74) -/

theorem exec_arbQuery {s : State} {tag : Byte} (taken : s.takes 0x19#8 tag [] = true) (serving : s.serving = true) :
    exec (.arbQuery tag []) s = .next (s.answered 0x19#8 tag .ok s.arb.report) :=
  repliesServing (t := s) (ok := decide (([] : List Byte).length = 0)) (g := .whenReady)
    (f := fun u => (.ok, u.arb.report, u)) taken serving rfl rfl

theorem ownerByte_eq (h : Option ChannelId) : ownerByte h = match h with
    | none => [0xFF#8]
    | some c => u8 c.val := by
  cases h <;> rfl

/-! ## MARK_QUERY (R125) -/

theorem toList_eq_map_getAt {α : Type} {n : Nat} (v : Vector α n) : v.toList = (List.finRange n).map (getAt v) := by
  refine List.ext_getElem (by simp) fun i _ _ => ?_
  simp [getAt]

theorem markReport_eq (k : Mark) : k.report = u8 k.value ++ flagByte k.saturated ++ u8 k.waiters.length ++
    match k.waiters with
      | [] => [0#8, 0#8, 0#8]
      | w :: _ => [1#8] ++ u8 w.channel.val ++ u8 w.count := by
  unfold Mark.report
  cases k.waiters <;> rfl

theorem exec_markQuery {s : State} {tag : Byte} (taken : s.takes 0x26#8 tag [] = true) (serving : s.serving = true) :
    exec (.markQuery tag []) s = .next (s.answered 0x26#8 tag .ok (s.marks.toList.flatMap Mark.report)) :=
  repliesServing (t := s) (ok := decide (([] : List Byte).length = 0)) (g := .whenReady)
    (f := fun u => (.ok, u.marks.toList.flatMap Mark.report, u)) taken serving rfl rfl

/-! ## CHANNEL_QUERY (R100) -/

theorem onChannel_of_number {b : Byte} {c : ChannelId} (number : c.val = b.toNat) (f : ChannelId → State → Reply)
    (s : State) : onChannel [b] f s = f c s := by
  simp only [onChannel, ← number, idx_val]

theorem onChannel_of_beyond {b : Byte} (beyond : 5 < b.toNat) (f : ChannelId → State → Reply) (s : State) :
    onChannel [b] f s = (.badValue, [], s) := by
  simp only [onChannel, idx_none (show 6 ≤ b.toNat from beyond)]

theorem exec_channelQuery {s t : State} {tag b : Byte} {st : Status} {data : List Byte}
    (taken : s.takes 0x23#8 tag [b] = true) (serving : s.serving = true)
    (reply : onChannel [b] channelQuery (s.working 0x23#8 tag) = (st, data, t.setLink (s.working 0x23#8 tag).link)) :
    exec (.channelQuery tag [b]) s = .next (t.setLink (s.link.answered 0x23#8 tag st data)) :=
  repliesServing (ok := decide ([b].length = 1)) (g := .whenReady) (f := onChannel [b] channelQuery) taken serving rfl reply

/-- The channel waits for the claim of this role on this region. -/
def WaitsFor (s : State) (c : ChannelId) (role : Role) (r : RegionId) : Prop :=
  (s.channel c).state = .waiting .claim ∧ ∃ g, s.roleRing role c = some (r, g) ∧ c ∈ g.waiters role

theorem waitsFor_iff (s : State) (c : ChannelId) (role : Role) (r : RegionId) : WaitsFor s c role r ↔
    (s.channel c).state = .waiting .claim ∧ ∃ cur off d g, (s.channel c).current = some cur ∧ s.ring? r = some (d, g) ∧
      ((role = .reader ∧ cur.desc.source = .region r off ∧ c ∈ g.readerWaiters) ∨
        (role = .writer ∧ cur.desc.dest = .region r off ∧ c ∈ g.writerWaiters)) := by
  refine and_congr_right fun _ => ?_
  cases current : (s.channel c).current with
  | none =>
    have noRing : s.roleRing role c = none := by rw [State.roleRing, current]
    simp [noRing]
  | some cur =>
    cases role with
    | reader =>
      constructor
      · rintro ⟨g, ring, waits⟩
        obtain ⟨d, ⟨off, source⟩, ring⟩ := (roleRing_reader_iff current r g).mp ring
        exact ⟨cur, off, d, g, rfl, ring, .inl ⟨rfl, source, waits⟩⟩
      · rintro ⟨_, off, d, g, same, ring, ⟨_, source, waits⟩ | ⟨role, _⟩⟩
        · cases same
          exact ⟨g, (roleRing_reader_iff current r g).mpr ⟨d, ⟨off, source⟩, ring⟩, waits⟩
        · cases role
    | writer =>
      constructor
      · rintro ⟨g, ring, waits⟩
        obtain ⟨d, ⟨off, dest⟩, ring⟩ := (roleRing_writer_iff current r g).mp ring
        exact ⟨cur, off, d, g, rfl, ring, .inr ⟨rfl, dest, waits⟩⟩
      · rintro ⟨_, off, d, g, same, ring, ⟨role, _⟩ | ⟨_, dest, waits⟩⟩
        · cases role
        · cases same
          exact ⟨g, (roleRing_writer_iff current r g).mpr ⟨d, ⟨off, dest⟩, ring⟩, waits⟩

/-- What the search of `State.claimWait?` finds for one role. -/
def claimOf (s : State) (c : ChannelId) (role : Role) : Option (RegionId × Role) :=
  match s.roleRing role c with
  | none => none
  | some (r, g) => if (g.waiters role).contains c then some (r, role) else none

theorem claimOf_eq_some_iff {s : State} {c : ChannelId} (waits : (s.channel c).state = .waiting .claim) (role : Role)
    (w : RegionId × Role) : claimOf s c role = some w ↔ w.2 = role ∧ WaitsFor s c role w.1 := by
  obtain ⟨q, k⟩ := w
  unfold claimOf WaitsFor
  cases ring : s.roleRing role c with
  | none => simp
  | some rg =>
    obtain ⟨r, g⟩ := rg
    by_cases mem : c ∈ g.waiters role
    · simp only [List.contains_iff_mem.mpr mem, if_true, Option.some.injEq, Prod.mk.injEq]
      constructor
      · rintro ⟨rfl, rfl⟩
        exact ⟨rfl, waits, g, ⟨rfl, rfl⟩, mem⟩
      · rintro ⟨rfl, _, _, ⟨rfl, _⟩, _⟩
        exact ⟨rfl, rfl⟩
    · have absent : (g.waiters role).contains c = false := by simpa using mem
      simp only [absent, Bool.false_eq_true, if_false, Option.some.injEq, Prod.mk.injEq, reduceCtorEq, false_iff]
      rintro ⟨_, _, _, ⟨_, rfl⟩, held⟩
      exact mem held

theorem claimOf_eq_none {s : State} {c : ChannelId} (waits : (s.channel c).state = .waiting .claim) {role : Role}
    (none_ : ∀ r, ¬ WaitsFor s c role r) : claimOf s c role = none :=
  Option.eq_none_iff_forall_ne_some.mpr fun w found => none_ w.1 ((claimOf_eq_some_iff waits role w).mp found).2

/-- The reader's claim is looked for first (R100). -/
theorem claimWait_eq {s : State} {c : ChannelId} (waits : (s.channel c).state = .waiting .claim) :
    s.claimWait? c = (claimOf s c .reader).or (claimOf s c .writer) := by
  rw [State.claimWait?, if_pos waits]
  show [Role.reader, Role.writer].findSome? (claimOf s c) = _
  rw [List.findSome?_cons, List.findSome?_cons]
  cases claimOf s c .reader with
  | some w => rfl
  | none => cases claimOf s c .writer <;> rfl

/-- The claim a channel waits for, as CHANNEL_QUERY reports it. -/
def claimBytes (s : State) (c : ChannelId) : List Byte :=
  indicated 2 (fun w => u8 w.1.val ++ u8 w.2.code) (s.claimWait? c)

theorem claimBytes_of_reader {s : State} {c : ChannelId} {r : RegionId} (waits : WaitsFor s c .reader r) :
    claimBytes s c = [1#8] ++ u8 r.val ++ [1#8] := by
  have found : claimOf s c .reader = some (r, .reader) := (claimOf_eq_some_iff waits.1 _ _).mpr ⟨rfl, waits⟩
  rw [claimBytes, claimWait_eq waits.1, found]
  rfl

theorem claimBytes_of_writer {s : State} {c : ChannelId} {r : RegionId} (waits : WaitsFor s c .writer r)
    (noReader : ∀ q, ¬ WaitsFor s c .reader q) : claimBytes s c = [1#8] ++ u8 r.val ++ [0#8] := by
  have found : claimOf s c .writer = some (r, .writer) := (claimOf_eq_some_iff waits.1 _ _).mpr ⟨rfl, waits⟩
  rw [claimBytes, claimWait_eq waits.1, claimOf_eq_none waits.1 noReader, found]
  rfl

theorem claimBytes_of_none {s : State} {c : ChannelId} (none_ : ∀ role r, ¬ WaitsFor s c role r) :
    claimBytes s c = [0#8, 0#8, 0#8] := by
  by_cases waits : (s.channel c).state = .waiting .claim
  · rw [claimBytes, claimWait_eq waits, claimOf_eq_none waits (none_ .reader), claimOf_eq_none waits (none_ .writer)]
    rfl
  · rw [claimBytes, State.claimWait?, if_neg waits]
    rfl

theorem length_takeWhile_eq_findIdx (c : ChannelId) (l : List MarkWaiter) :
    (l.takeWhile fun k => k.channel ≠ c).length = l.findIdx fun w => w.channel = c := by
  have found : (fun w : MarkWaiter => !decide (w.channel ≠ c)) = fun w => decide (w.channel = c) := by
    funext w
    rw [decide_not, Bool.not_not]
  rw [List.takeWhile_eq_take_findIdx_not, List.length_take, Nat.min_eq_left List.findIdx_le_length, found]

/-- The mark a channel waits for, as CHANNEL_QUERY reports it. -/
theorem markBytes_eq (s : State) (c : ChannelId) :
    indicated 2 (fun w => u8 w.1.val ++ u8 w.2) (s.markWait? c) =
      match (s.channel c).state, (s.channel c).current.bind fun cur => cur.desc.wait with
      | .waiting .mark, some w =>
        [1#8] ++ u8 w.mark.val ++ u8 (((s.mark w.mark).waiters.takeWhile fun k => k.channel ≠ c).length + 1)
      | _, _ => [0#8, 0#8, 0#8] := by
  rw [State.markWait?]
  cases (s.channel c).state with
  | waiting why =>
    cases why with
    | claim => rfl
    | mark =>
      rw [if_pos rfl]
      cases (s.channel c).current.bind fun cur => cur.desc.wait with
      | none => rfl
      | some w =>
        show [1#8] ++ (u8 w.mark.val ++ u8 ((s.mark w.mark).placeOf c)) = _
        rw [Mark.placeOf, ← length_takeWhile_eq_findIdx]
        rfl
  | idle => rfl
  | running => rfl
  | stopping => rfl
  | halted why => rfl

theorem stateByte_eq (x : ChannelState) : u8 x.code = match x with
    | .idle => [0#8]
    | .waiting _ => [1#8]
    | .running => [2#8]
    | .stopping => [3#8]
    | .halted _ => [4#8] := by
  cases x <;> rfl

theorem waitBytes_eq (x : ChannelState) : indicated 1 (fun w => u8 w.code) x.waitReason? = match x with
    | .waiting .mark => [1#8, 0#8]
    | .waiting .claim => [1#8, 1#8]
    | _ => [0#8, 0#8] := by
  cases x with
  | waiting why => cases why <;> rfl
  | idle => rfl
  | running => rfl
  | stopping => rfl
  | halted why => rfl

theorem haltBytes_eq (x : ChannelState) : indicated 1 (fun w => u8 w.code) x.haltReason? = match x with
    | .halted .stopped => [1#8, 0#8]
    | .halted .fault => [1#8, 1#8]
    | _ => [0#8, 0#8] := by
  cases x with
  | halted why => cases why <;> rfl
  | idle => rfl
  | running => rfl
  | stopping => rfl
  | waiting why => rfl

theorem stopByte_eq (x : StopRequest) : u8 x.code = match x with
    | .none => [0#8]
    | .afterCurrent => [1#8]
    | .now => [2#8]
    | .flush => [3#8] := by
  cases x <;> rfl

theorem slotByte_eq (x : CopySlot) : u8 x.code = match x with
    | .empty => [0#8]
    | .reserved _ => [1#8]
    | .full _ _ => [2#8] := by
  cases x <;> rfl

theorem currentBytes_eq (x : Option Current) : indicated 17 Current.report x = match x with
    | none => List.replicate 18 0#8
    | some cur => [1#8] ++ u16 cur.desc.tag.toNat ++ u32 cur.prog.sourceAdmitted ++ u32 cur.prog.admitted ++
        u32 cur.prog.done ++ u16 cur.prog.runsCompleted ++ flagByte cur.prog.fault := by
  cases x <;> rfl

/-- Settles O33: each query's data, piece by piece. -/
theorem queries : Obligations.Queries := by
  refine ⟨fun tag s taken ready => ?sched, fun tag s taken serving => ?arb, fun tag s taken serving => ?mark,
    fun tag b s taken serving => ⟨fun beyond => ?beyond, fun c x number isChannel waits claim waitsIff cases_ => ?channel⟩⟩
  case sched =>
    rw [exec_schedQuery taken ready, Scheduler.report, flatMap_bankReport]
    rfl
  case arb =>
    rw [exec_arbQuery taken serving, Arbiter.report, ownerByte_eq]
    rfl
  case mark =>
    simp only [exec_markQuery taken serving, toList_eq_map_getAt, List.flatMap_map, markReport_eq]
    rfl
  case beyond => exact exec_channelQuery (t := s) taken serving (onChannel_of_beyond beyond _ _)
  case channel =>
    subst isChannel
    have iff : ∀ role r, waits role r ↔ WaitsFor s c role r := fun role r => (waitsIff role r).trans (waitsFor_iff ..).symm
    have claimed : claimBytes s c = claim := by
      rcases cases_ with ⟨r, reads, rfl⟩ | ⟨r, writes, noReader, rfl⟩ | ⟨none_, rfl⟩
      · exact claimBytes_of_reader ((iff ..).mp reads)
      · exact claimBytes_of_writer ((iff ..).mp writes) fun q reads => noReader q ((iff ..).mpr reads)
      · exact claimBytes_of_none fun role r both => none_ role r ((iff ..).mpr both)
    have answers : exec (.channelQuery tag [b]) s = .next (s.answered 0x23#8 tag .ok (s.channelReport c)) :=
      exec_channelQuery (t := s) taken serving (onChannel_of_number number channelQuery (s.working 0x23#8 tag))
    rw [answers, State.channelReport, stateByte_eq, waitBytes_eq, markBytes_eq, ← claimBytes, claimed, haltBytes_eq,
      stopByte_eq, currentBytes_eq, slotByte_eq, slotByte_eq]
    simp only [List.flatMap_cons, List.flatMap_nil, List.append_nil, List.append_assoc]
    rfl

end Sys2Proof.Proofs

/-!
Bring-up (O34), the end of a refresh interval (O35) and the expiries that only move the clock (O36).
-/
namespace Sys2Proof.Proofs

open Sys2Proof.Machine Sys2Proof.Laws

/-! ## Admissions to a list whose banks are CLOSED -/

theorem setAt_getAt {α : Type} {n : Nat} (v : Vector α n) (i : Fin n) : setAt v i (getAt v i) = v :=
  table_ext fun j => by
    rw [getAt_setAt]
    split
    case isTrue same => rw [same]
    case isFalse => rfl

theorem setBank_same (d : Scheduler) (b : BankId) : d.setBank b (d.bank b) = d := by
  show { d with banks := setAt d.banks b (getAt d.banks b) } = d
  rw [setAt_getAt]

theorem settleList_of_allClosed {banks : Vector Bank 8} (closed : ∀ b, getAt banks b = .closed) :
    ∀ (seen : List BankId) (l : List BurstEntry), (∀ e ∈ l, e.state = .waitingBank) → settleList banks seen l = l
  | _, [], _ => rfl
  | seen, e :: rest, waiting => by
    have waits := waiting e (List.mem_cons_self ..)
    have own : entryStateOf banks seen e = e.state := by
      unfold entryStateOf
      rw [waits, closed, show Bank.closed.isOpenOn e.row = false from rfl, Bool.and_false]
      rfl
    rw [settleList, own, settleList_of_allClosed closed _ rest fun x mem => waiting x (List.mem_cons_of_mem _ mem)]

/-- The banks as an admission finds them: a new head of the row its bank is OPEN on clears the close-after mark (R36). -/
def admitBanks (e : BurstEntry) (d : Scheduler) : Scheduler :=
  match d.head? e.bank with
  | none => d.setBank e.bank ((d.bank e.bank).admitHead e.row)
  | some _ => d

theorem admitEntry_eq (d : Scheduler) (e : BurstEntry) : d.admitEntry e =
    { admitBanks e d with list := d.list ++ [{ e with state := .waitingBank }] }.settle := by
  unfold Scheduler.admitEntry admitBanks
  cases d.head? e.bank <;> rfl

theorem admitBanks_of_closed {d : Scheduler} {e : BurstEntry} (closed : d.bank e.bank = .closed) : admitBanks e d = d := by
  unfold admitBanks
  split
  case h_1 => rw [closed, Bank.admitHead, ← closed, setBank_same]
  case h_2 => rfl

/-- With every bank CLOSED an entry joins at the end, waiting like the others, and no bank changes. -/
theorem admitEntry_of_allClosed {d : Scheduler} (closed : ∀ b, d.bank b = .closed)
    (waiting : ∀ x ∈ d.list, x.state = .waitingBank) (e : BurstEntry) :
    d.admitEntry e = { d with list := d.list ++ [{ e with state := .waitingBank }] } := by
  have all : ∀ x ∈ d.list ++ [{ e with state := .waitingBank }], x.state = .waitingBank := by
    intro x mem
    rcases List.mem_append.mp mem with old | new
    · exact waiting x old
    · rw [List.mem_singleton.mp new]
  rw [admitEntry_eq, admitBanks_of_closed (closed e.bank), Scheduler.settle, settleList_of_allClosed closed [] _ all]

/-! ## The clear sweep (R52, R53) -/

theorem sweepAdmit_of_place {d : Scheduler} (noDebt : d.refreshDebt = 0) (remains : d.sweepPos < 67108864)
    (own : (d.list.countP fun e => e.owner = .scheduler) < 2) (place : d.list.length < 8) :
    d.sweepAdmit = { d with sweepPos := d.sweepPos + 32 }.admitEntry (sweepEntry d.sweepPos) := by
  refine if_pos ?_
  rw [Bool.and_eq_true, Bool.and_eq_true, Bool.and_eq_true, decide_eq_true_eq, decide_eq_true_eq, decide_eq_true_eq,
    decide_eq_true_eq]
  exact ⟨⟨⟨noDebt, remains⟩, own⟩, place⟩

theorem sweepAdmit_of_none {d : Scheduler} (none_ : 1 ≤ d.refreshDebt ∨ 67108864 ≤ d.sweepPos ∨
    2 ≤ (d.list.countP fun e => e.owner = .scheduler) ∨ 8 ≤ d.list.length) : d.sweepAdmit = d := by
  refine if_neg ?_
  rw [Bool.and_eq_true, Bool.and_eq_true, Bool.and_eq_true, decide_eq_true_eq, decide_eq_true_eq, decide_eq_true_eq,
    decide_eq_true_eq]
  show ¬ (((d.refreshDebt = 0 ∧ d.sweepPos < 67108864) ∧ (d.list.countP fun e => e.owner = .scheduler) < 2) ∧
    d.list.length < 8)
  omega

theorem sweepAdmit_of_allClosed {d : Scheduler} (closed : ∀ b, d.bank b = .closed)
    (waiting : ∀ x ∈ d.list, x.state = .waitingBank) (noDebt : d.refreshDebt = 0) (remains : d.sweepPos < 67108864)
    (few : d.list.length < 2) :
    d.sweepAdmit = { d with sweepPos := d.sweepPos + 32, list := d.list ++ [sweepEntry d.sweepPos] } := by
  have own : (d.list.countP fun e => e.owner = .scheduler) < 2 := Nat.lt_of_le_of_lt List.countP_le_length few
  rw [sweepAdmit_of_place noDebt remains own (Nat.lt_trans few (by decide))]
  exact admitEntry_of_allClosed (d := { d with sweepPos := d.sweepPos + 32 }) closed waiting _

theorem sweepAdmit_twice {d : Scheduler} (closed : ∀ b, d.bank b = .closed) (empty : d.list = [])
    (noDebt : d.refreshDebt = 0) (start : d.sweepPos = 0) :
    d.sweepAdmit.sweepAdmit = { d with sweepPos := 64, list := [sweepEntry 0, sweepEntry 32] } := by
  have first : d.sweepAdmit = { d with sweepPos := 32, list := [sweepEntry 0] } := by
    rw [sweepAdmit_of_allClosed closed (by rw [empty]; nofun) noDebt (by rw [start]; decide) (by rw [empty]; decide), empty,
      start]
    rfl
  rw [first]
  refine sweepAdmit_of_allClosed (d := { d with sweepPos := 32, list := [sweepEntry 0] }) closed ?_ noDebt
    (show 32 < 67108864 by decide) (Nat.lt_succ_self 1)
  intro x mem
  rw [List.mem_singleton.mp mem]
  rfl

/-- CLEAR begins with the sweep's first two entries in the list. -/
theorem beginClear_eq {d : Scheduler} (now : Nat) (empty : d.list = []) (noDebt : d.refreshDebt = 0)
    (closed : ∀ b, d.bank b = .closed) : d.beginClear now = { d with
      stage := some .clear, sweepPos := 64, list := [sweepEntry 0, sweepEntry 32],
      interval := some { lengthNs := d.retentionRate.intervalNs, endsAt := now + d.retentionRate.intervalNs } } :=
  sweepAdmit_twice (d := { d with
    stage := some .clear, sweepPos := 0,
    interval := some { lengthNs := d.retentionRate.intervalNs, endsAt := now + d.retentionRate.intervalNs } })
    closed empty noDebt rfl

/-! ## Bring-up's ends (R51) -/

theorem exec_settleExpiry (s : State) : exec .settleExpiry s =
    .next (if s.sched.stage = some .settle then s.setSched { s.sched with stage := some .calibrate } else s) := rfl

theorem exec_calibrationCompletion (pass : Bool) (s : State) : exec (.calibrationCompletion pass) s =
    .next (if s.sched.stage = some .calibrate then
      if pass then s.setSched (s.sched.beginClear s.now) else s.failBringup else s) := rfl

/-- Settles O34: the events by the stage they belong to, the sweep by its four conditions. -/
theorem bringUp : Obligations.BringUp := by
  refine ⟨fun s settle => ?settled, fun s other => ?notSettled, fun s calibrate => ⟨?failed, fun empty noDebt closed => ?clear⟩,
    fun s pass other => ?notCalibrate, fun d => ⟨sweepAdmit_of_place, sweepAdmit_of_none⟩⟩
  case settled => rw [exec_settleExpiry, if_pos settle]
  case notSettled => rw [exec_settleExpiry, if_neg other]
  case failed =>
    rw [exec_calibrationCompletion, if_pos calibrate]
    rfl
  case clear =>
    refine ⟨s.sched.beginClear s.now, by rw [exec_calibrationCompletion, if_pos calibrate, if_pos rfl], ?_⟩
    rw [beginClear_eq s.now empty noDebt closed]
    exact ⟨rfl, rfl, rfl, rfl, rfl⟩
  case notCalibrate => rw [exec_calibrationCompletion, if_neg other]

/-! ## The refresh tests (R46, R47) -/

theorem urgent_or_lazyDue_iff (d : Scheduler) : (d.urgent || d.lazyDue) = true ↔
    4 ≤ d.refreshDebt ∨ (1 ≤ d.refreshDebt ∧ d.list = [] ∧ d.accessStart = none) := by
  have lazy : d.lazyDue = true ↔ 1 ≤ d.refreshDebt ∧ d.list = [] ∧ d.accessStart = none := by
    simp [Scheduler.lazyDue, Scheduler.busy, and_assoc]
  rw [Bool.or_eq_true, lazy, Scheduler.urgent, decide_eq_true_eq]
  rfl

/-- The condition under which NORMAL goes over to DRAINING at an interval's end. -/
def RefreshDue (d : Scheduler) : Prop :=
  d.mode = .normal ∧ (4 ≤ d.refreshDebt ∨ (1 ≤ d.refreshDebt ∧ d.list = [] ∧ d.accessStart = none))

theorem testRefresh_cond_iff (d : Scheduler) :
    (decide (d.mode = .normal) && (d.urgent || d.lazyDue)) = true ↔ RefreshDue d := by
  rw [Bool.and_eq_true, decide_eq_true_eq, urgent_or_lazyDue_iff]
  rfl

theorem testRefresh_of_due {d : Scheduler} (due : RefreshDue d) : d.testRefresh = d.enterDraining :=
  if_pos ((testRefresh_cond_iff d).mpr due)

theorem testRefresh_of_not {d : Scheduler} (not : ¬ RefreshDue d) : d.testRefresh = d :=
  if_neg fun due => not ((testRefresh_cond_iff d).mp due)

theorem enterDraining_bank (d : Scheduler) (b : BankId) : d.enterDraining.bank b = match d.bank b with
    | .opened o => .opened { o with closeAfterMark := false }
    | x => x := by
  refine (getAt_mapTable _ d.banks b).trans ?_
  show _ = match getAt d.banks b with
    | .opened o => Bank.opened { o with closeAfterMark := false }
    | x => x
  cases getAt d.banks b <;> rfl

theorem testRefresh_drains {d : Scheduler} (due : RefreshDue d) :
    d.testRefresh.mode = .draining ∧ d.testRefresh.list = d.list ∧ d.testRefresh.refreshDebt = d.refreshDebt ∧
      d.testRefresh.interval = d.interval ∧ d.testRefresh.missedRefreshes = d.missedRefreshes ∧
      ∀ b, d.testRefresh.bank b = match d.bank b with
        | .opened o => .opened { o with closeAfterMark := false }
        | x => x := by
  rw [testRefresh_of_due due]
  exact ⟨rfl, rfl, rfl, rfl, rfl, enterDraining_bank d⟩

/-! ## The end of an interval (R45) -/

theorem exec_intervalExpiry_of_none {s : State} (none_ : s.sched.interval = none) :
    exec .intervalExpiry s = .next s := by
  show execIntervalExpiry s = _
  rw [execIntervalExpiry, none_]

theorem exec_intervalExpiry_of_interval {s : State} {iv : Interval} (running : s.sched.interval = some iv) :
    exec .intervalExpiry s = .next (s.clockTo iv.endsAt).intervalEnds := by
  show execIntervalExpiry s = _
  rw [execIntervalExpiry, running]

theorem postMissed_eq (found : Nat) (s : State) : s.postMissed found = s.setNotices
    (if 8 ≤ found then s.notices.post (.refreshMissed s.sched.missedRefreshes) else s.notices) := by
  show (if 8 ≤ found then _ else _) = _
  split <;> rfl

theorem intervalEnds_eq (s : State) : s.intervalEnds =
    (s.setNotices (if 8 ≤ s.sched.refreshDebt then
        s.notices.post (.refreshMissed (s.sched.expireInterval s.now).missedRefreshes) else s.notices)).setSched
      (s.sched.expireInterval s.now).testRefresh := by
  unfold State.intervalEnds
  rw [postMissed_eq]
  rfl

/-- Settles O35: the interval's end as one equation (`intervalEnds_eq`), then the refresh tests by whether one is due. -/
theorem intervalExpiry : Obligations.IntervalExpiry := by
  refine ⟨fun s none_ => exec_intervalExpiry_of_none none_, fun s iv running => ?_⟩
  refine ⟨_, _, exec_intervalExpiry_of_interval running, by rw [intervalEnds_eq]; rfl, rfl, ?_⟩
  rw [intervalEnds_eq]
  exact ⟨fun low => if_neg (Nat.not_le.mpr low), fun high => if_pos high, fun due => testRefresh_drains due,
    fun not => testRefresh_of_not not, rfl⟩

/-! ## The other expiries -/

theorem exec_spacingExpiry (s : State) : exec .spacingExpiry s = .next (match s.sched.history.getLast? with
    | none => s
    | some t => s.clockTo (t + 6)) := rfl

theorem exec_windowExpiry (s : State) :
    exec .windowExpiry s = .next (match s.sched.history.find? fun t => s.now < t + 30 with
      | none => s
      | some t => s.clockTo (t + 30)) := rfl

theorem exec_minOpenExpiry_of_opened {s : State} {b : BankId} {o : OpenRow} (bank : s.sched.bank b = .opened o) :
    exec (.minOpenExpiry b) s = .next (s.clockTo (o.openingStart + 34)) := by
  show execMinOpenExpiry b s = _
  rw [execMinOpenExpiry, bank]
  rfl

theorem exec_recoveryExpiry_of_opened {s : State} {b : BankId} {o : OpenRow} (bank : s.sched.bank b = .opened o) :
    exec (.recoveryExpiry b) s = .next (match o.recoveryEnd with
      | some t => s.clockTo t
      | none => s) := by
  show execRecoveryExpiry b s = _
  rw [execRecoveryExpiry, bank] <;> rfl

theorem exec_expiries_of_other {s : State} {b : BankId} (other : ∀ o, s.sched.bank b ≠ .opened o) :
    exec (.minOpenExpiry b) s = .next s ∧ exec (.recoveryExpiry b) s = .next s := by
  show execMinOpenExpiry b s = _ ∧ execRecoveryExpiry b s = _
  unfold execMinOpenExpiry execRecoveryExpiry
  cases bank : s.sched.bank b with
  | opened o => exact absurd bank (other o)
  | closed => exact ⟨rfl, rfl⟩
  | opening row start => exact ⟨rfl, rfl⟩
  | closing start => exact ⟨rfl, rfl⟩

/-- Settles O36: each expiry by the record that makes it due. -/
theorem expiries : Obligations.Expiries := by
  refine ⟨fun s older t history => ?spacing, fun s empty => ?noSpacing, fun s old => ?noWindow,
    fun s older younger t history old young => ?window,
    fun s b o bank => ⟨exec_minOpenExpiry_of_opened bank, fun t ends => ?recovery, fun none_ => ?noRecovery⟩,
    fun s b other => exec_expiries_of_other other⟩
  case spacing =>
    rw [exec_spacingExpiry, history, List.getLast?_concat]
    rfl
  case noSpacing =>
    rw [exec_spacingExpiry, empty]
    rfl
  case noWindow =>
    have none_ : (s.sched.history.find? fun t => s.now < t + 30) = none :=
      List.find?_eq_none.mpr fun u mem => by simpa using old u mem
    rw [exec_windowExpiry, none_]
  case window =>
    have found : (s.sched.history.find? fun u => s.now < u + 30) = some t := by
      have none_ : (older.find? fun u => s.now < u + 30) = none :=
        List.find?_eq_none.mpr fun u mem => by simpa using old u mem
      rw [history, List.find?_append, none_,
        List.find?_cons_of_pos (p := fun u => decide (s.now < u + 30)) (decide_eq_true young)]
      rfl
    rw [exec_windowExpiry, found]
    show Host.Outcome.next (s.setNow (max s.now (t + 30))) = _
    rw [Nat.max_eq_right (Nat.le_of_lt young)]
  case recovery =>
    rw [exec_recoveryExpiry_of_opened bank, ends]
    rfl
  case noRecovery => rw [exec_recoveryExpiry_of_opened bank, none_]

end Sys2Proof.Proofs

/-!
Openings (O37), closings (O38), the start of an access (O39) and refreshes (O40).
-/
namespace Sys2Proof.Proofs

open Sys2Proof.Machine Sys2Proof.Laws

theorem find?_first {α : Type} {q : α → Prop} [DecidablePred q] {l older younger : List α} {x : α}
    (list : l = older ++ x :: younger) (others : ∀ y ∈ older, ¬ q y) (own : q x) :
    (l.find? fun y => decide (q y)) = some x :=
  List.find?_eq_some_iff_append.mpr
    ⟨decide_eq_true own, older, younger, list, fun y mem => by rw [decide_eq_false (others y mem)]; rfl⟩

/-! ## Bank moves -/

/-- The entries but for their states, each shown READY. -/
def shownReady (l : List BurstEntry) : List BurstEntry := l.map fun x => { x with state := .ready }

theorem shownReady_eq_bare (l : List BurstEntry) :
    shownReady l = (bareList l).map fun x => { x with state := .ready } := by
  unfold shownReady bareList
  rw [List.map_map]
  rfl

theorem shownReady_settle (d : Scheduler) : shownReady d.settle.list = shownReady d.list := by
  rw [shownReady_eq_bare, shownReady_eq_bare, Scheduler.settle, bareList_settle]

theorem moveBank_bank (d : Scheduler) (b k : BankId) (x : Bank) :
    (d.moveBank b x).bank k = if k = b then x else d.bank k := bank_setBank d b k x

theorem moveBank_bank_self (d : Scheduler) (b : BankId) (x : Bank) : (d.moveBank b x).bank b = x := by
  rw [moveBank_bank, if_pos rfl]

theorem moveBank_bank_ne (d : Scheduler) {b k : BankId} (other : k ≠ b) (x : Bank) : (d.moveBank b x).bank k = d.bank k := by
  rw [moveBank_bank, if_neg other]

theorem shownReady_moveBank (d : Scheduler) (b : BankId) (x : Bank) : shownReady (d.moveBank b x).list = shownReady d.list :=
  shownReady_settle _

/-- The entry behind older ones, after a settling. -/
theorem settle_getElem? {d : Scheduler} {older younger : List BurstEntry} {e : BurstEntry}
    (list : d.list = older ++ e :: younger) : d.settle.list[older.length]? =
      some { e with state := entryStateOf d.banks (older.map BurstEntry.bank).reverse e } := by
  have place : older.length < d.list.length := by
    rw [list, List.length_append, List.length_cons]
    omega
  have place' : older.length < d.settle.list.length := by
    rw [Scheduler.settle, settleList_length]
    exact place
  have at_ := settleList_getElem d.banks [] d.list older.length place place'
  rw [List.getElem?_eq_getElem place']
  refine congrArg some (at_.trans ?_)
  simp [list]

/-! ## Openings (R27 to R29) -/

section
variable {d : Scheduler} {now : Nat}

theorem historyPermits_iff (now : Nat) (h : List Nat) : historyPermits now h = true ↔
    (∀ u, h.getLast? = some u → u + 6 ≤ now) ∧ (h.countP fun u => now < u + 30) < 4 := by
  unfold historyPermits
  rw [Bool.and_eq_true]
  refine and_congr ?_ decide_eq_true_iff
  cases h.getLast? with
  | none => exact iff_of_true rfl nofun
  | some u =>
    rw [decide_eq_true_eq]
    exact ⟨fun old _ same => Option.some.inj same ▸ old, fun old => old u rfl⟩

theorem serves_iff (d : Scheduler) (e : BurstEntry) : d.serves e = true ↔
    (d.mode = .normal ∨ (d.mode = .bringup ∧ d.stage = some .clear ∧ e.owner = .scheduler)) ∧ d.refreshStart = none := by
  simp [Scheduler.serves, and_assoc]

theorem startOpening_of_head {older younger : List BurstEntry} {e : BurstEntry} (list : d.list = older ++ e :: younger)
    (others : ∀ x ∈ older, d.bank x.bank ≠ .closed) (closed : d.bank e.bank = .closed) (serves : d.serves e = true)
    (permits : historyPermits now d.history = true) :
    d.startOpening now = some ({ d with history := pushOpening now d.history }.moveBank e.bank (.opening e.row now)) := by
  have head : d.openingHead? = some e := find?_first list others closed
  rw [Scheduler.startOpening, head]
  exact if_pos (by rw [serves, permits]; rfl)

/-- Where an opening starts, there is a CLOSED bank's entry that is served, and the history permits it. -/
theorem startOpening_some {d' : Scheduler} (starts : d.startOpening now = some d') :
    (∃ e ∈ d.list, d.bank e.bank = .closed ∧ d.serves e = true) ∧ historyPermits now d.history = true := by
  unfold Scheduler.startOpening at starts
  split at starts
  case h_1 => cases starts
  case h_2 e head =>
    split at starts
    case isTrue both =>
      rw [Bool.and_eq_true] at both
      have closed : decide (d.bank e.bank = .closed) = true :=
        List.find?_some (p := fun x : BurstEntry => decide (d.bank x.bank = .closed)) head
      exact ⟨⟨e, List.mem_of_find?_eq_some head, of_decide_eq_true closed, both.1⟩, both.2⟩
    case isFalse => cases starts

end

theorem exec_openingStart (s : State) : exec .openingStart s = .next (match s.sched.startOpening s.now with
    | some d => s.setSched d
    | none => s) := rfl

theorem exec_openingStart_of_none {s : State} (none_ : s.sched.startOpening s.now = none) :
    exec .openingStart s = .next s := by
  rw [exec_openingStart, none_]

theorem exec_openingStart_of_some {s : State} {d : Scheduler} (starts : s.sched.startOpening s.now = some d) :
    exec .openingStart s = .next (s.setSched d) := by
  rw [exec_openingStart, starts]

theorem exec_openingCompletion_of_opening {s : State} {b : BankId} {row start : Nat}
    (bank : s.sched.bank b = .opening row start) : exec (.openingCompletion b) s =
      .next ((s.clockTo (start + 14)).setSched (s.sched.moveBank b (Bank.openedAt row start (max s.now (start + 14))))) := by
  show execOpeningCompletion b s = _
  rw [execOpeningCompletion, bank]
  rfl

theorem exec_openingCompletion_of_other {s : State} {b : BankId} (other : ∀ row start, s.sched.bank b ≠ .opening row start) :
    exec (.openingCompletion b) s = .next s := by
  show execOpeningCompletion b s = _
  unfold execOpeningCompletion
  cases bank : s.sched.bank b with
  | opening row start => exact absurd bank (other row start)
  | closed => rfl
  | opened o => rfl
  | closing start => rfl

theorem pushOpening_of_few {now : Nat} {h : List Nat} (few : h.length < 4) : pushOpening now h = h ++ [now] :=
  if_neg (Nat.not_le.mpr few)

theorem pushOpening_of_full {now : Nat} {h : List Nat} (full : 4 ≤ h.length) : pushOpening now h = h.tail ++ [now] :=
  if_pos full

/-- Settles O37: an opening starts for the oldest entry whose bank is CLOSED, under the conditions of
`startOpening_some`. -/
theorem openings : Obligations.Openings := by
  refine ⟨fun s older younger e list others closed mode still spacing window => ?starts, fun s prevented => ?none,
    fun s b row start bank => ?completes, fun s b other => exec_openingCompletion_of_other other⟩
  case starts =>
    have opens := startOpening_of_head (now := s.now) list others closed ((serves_iff ..).mpr ⟨mode, still⟩)
      ((historyPermits_iff ..).mpr ⟨spacing, window⟩)
    refine ⟨_, exec_openingStart_of_some opens, moveBank_bank_self .., fun b other => moveBank_bank_ne _ other _,
      fun few => pushOpening_of_few few, fun full => pushOpening_of_full full, shownReady_moveBank .., rfl, rfl, rfl, rfl⟩
  case none =>
    refine exec_openingStart_of_none (Option.eq_none_iff_forall_ne_some.mpr fun d starts => ?_)
    obtain ⟨⟨e, mem, closed, serves⟩, permits⟩ := startOpening_some starts
    obtain ⟨mode, still⟩ := (serves_iff ..).mp serves
    obtain ⟨spacing, window⟩ := (historyPermits_iff ..).mp permits
    rcases prevented with noneClosed | bringup | draining | refreshing | failed | refresh | ⟨u, newest, young⟩ | full
    · exact noneClosed e mem closed
    · rcases mode with normal | ⟨_, clear, _⟩
      · rw [normal] at bringup
        exact nomatch bringup.1
      · exact bringup.2 clear
    · simp [draining] at mode
    · simp [refreshing] at mode
    · simp [failed] at mode
    · exact refresh still
    · have := spacing u newest
      omega
    · omega
  case completes =>
    refine ⟨_, exec_openingCompletion_of_opening bank, ⟨_, moveBank_bank_self .., rfl, rfl, rfl, rfl, rfl⟩,
      fun c other => moveBank_bank_ne _ other _, rfl, fun older e younger list others own onRow idle => ?_⟩
    refine (settle_getElem? (d := s.sched.setBank b _) list).trans (congrArg (fun st => some { e with state := st }) ?_)
    refine (entryStateOf_ready idle).mpr ⟨?head, ?open_⟩
    case head =>
      rw [List.mem_reverse, List.mem_map]
      rintro ⟨x, mem, same⟩
      exact others x mem (same.trans own)
    case open_ =>
      have opened : getAt (s.sched.setBank b (Bank.openedAt row start (max s.now (start + 14)))).banks e.bank =
          Bank.openedAt row start (max s.now (start + 14)) := by
        rw [own]
        exact getAt_setAt_self ..
      rw [opened]
      exact decide_eq_true onRow.symm

end Sys2Proof.Proofs

/-!
Closings (O38), the start of an access (O39) and refreshes (O40).
-/
namespace Sys2Proof.Proofs

open Sys2Proof.Machine Sys2Proof.Laws

/-! ## Closings (R30, R31, R36, R37, R40) -/

section
variable {d : Scheduler} {now : Nat} {b : BankId} {o : OpenRow}

theorem closes_iff (m : SchedMode) : m.closes = true ↔ m ≠ .refreshing ∧ m ≠ .failed := by
  cases m <;> simp [SchedMode.closes]

theorem accessingOn_iff (d : Scheduler) (b : BankId) :
    d.accessingOn b = true ↔ ∃ e ∈ d.list, e.bank = b ∧ e.state = .accessing := by
  simp [Scheduler.accessingOn]

/-- R30: min-open and write recovery past, and no access running on the bank. -/
theorem mayClose_iff (d : Scheduler) (now : Nat) (b : BankId) (o : OpenRow) : d.mayClose now b o = true ↔
    o.openingStart + 34 ≤ now ∧ (∀ t, o.recoveryEnd = some t → t ≤ now) ∧
      ∀ e ∈ d.list, e.bank = b → e.state ≠ .accessing := by
  have recovery : (match o.recoveryEnd with
      | none => true
      | some t => decide (t ≤ now)) = true ↔ ∀ t, o.recoveryEnd = some t → t ≤ now := by
    cases o.recoveryEnd with
    | none => exact iff_of_true rfl nofun
    | some u =>
      rw [decide_eq_true_eq]
      exact ⟨fun past _ same => Option.some.inj same ▸ past, fun past => past u rfl⟩
  have free : (!d.accessingOn b) = true ↔ ∀ e ∈ d.list, e.bank = b → e.state ≠ .accessing := by
    rw [Bool.not_eq_true', ← Bool.not_eq_true, accessingOn_iff]
    exact ⟨fun none_ e mem own running => none_ ⟨e, mem, own, running⟩,
      fun none_ ⟨e, mem, own, running⟩ => none_ e mem own running⟩
  unfold Scheduler.mayClose
  rw [Bool.and_eq_true, Bool.and_eq_true]
  exact (and_congr (and_congr decide_eq_true_iff recovery) free).trans and_assoc

theorem head?_none_iff (d : Scheduler) (b : BankId) : d.head? b = none ↔ ∀ e ∈ d.list, e.bank ≠ b := by
  simp [Scheduler.head?]

theorem conflicting_iff (d : Scheduler) (b : BankId) (o : OpenRow) :
    d.conflicting b o = true ↔ ∃ e, d.head? b = some e ∧ e.row ≠ o.row := by
  unfold Scheduler.conflicting
  cases d.head? b with
  | none => simp
  | some e => simp

theorem idleExpired_iff (d : Scheduler) (now : Nat) (b : BankId) (o : OpenRow) : d.idleExpired now b o = true ↔
    d.head? b = none ∧ ∃ n, d.rowIdleLimit.ns = some n ∧ o.lastActivity + n ≤ now := by
  unfold Scheduler.idleExpired
  rw [Bool.and_eq_true, Option.isNone_iff_eq_none]
  refine and_congr_right fun _ => ?_
  cases d.rowIdleLimit.ns with
  | none => simp
  | some n => simp

theorem closingCause_iff (d : Scheduler) (now : Nat) (b : BankId) (o : OpenRow) : d.closingCause now b o = true ↔
    (∃ e, d.head? b = some e ∧ e.row ≠ o.row) ∨ o.closeAfterMark = true ∨ d.mode = .draining ∨
      (d.head? b = none ∧ ∃ n, d.rowIdleLimit.ns = some n ∧ o.lastActivity + n ≤ now) := by
  rw [Scheduler.closingCause, Bool.or_eq_true, Bool.or_eq_true, Bool.or_eq_true, conflicting_iff, idleExpired_iff,
    decide_eq_true_eq, or_assoc, or_assoc, or_comm (b := d.mode = .draining)]

/-- In a settled list the entries of a bank that is not OPEN wait for it, but for one being accessed. -/
theorem settleList_waiting {banks : Vector Bank 8} {b : BankId} (notOpen : ∀ row, (getAt banks b).isOpenOn row = false) :
    ∀ (seen : List BankId) (l : List BurstEntry), (∀ x ∈ l, x.bank = b → x.state ≠ .accessing) →
      ∀ e ∈ settleList banks seen l, e.bank = b → e.state = .waitingBank
  | seen, x :: rest, idle, e, mem, own => by
    rcases List.mem_cons.mp mem with rfl | later
    · have own : x.bank = b := own
      show entryStateOf banks seen x = .waitingBank
      unfold entryStateOf
      rw [if_neg (idle x (List.mem_cons_self ..) own), own, notOpen, Bool.and_false]
      rfl
    · exact settleList_waiting notOpen (x.bank :: seen) rest (fun y mem => idle y (List.mem_cons_of_mem _ mem)) e later own

end

section
variable {s : State} {b : BankId} {o : OpenRow} {cause : Bool}

theorem closeFor_of_all (isCause : cause = true) (mode : s.sched.mode.closes = true)
    (free : s.sched.mayClose s.now b o = true) : s.closeFor b o cause = s.startClosing b :=
  if_pos (by rw [isCause, mode, free]; rfl)

theorem closeFor_of_not (not : ¬ (cause = true ∧ s.sched.mode.closes = true ∧ s.sched.mayClose s.now b o = true)) :
    s.closeFor b o cause = s := by
  refine if_neg fun all => not ?_
  rw [Bool.and_eq_true, Bool.and_eq_true] at all
  exact ⟨all.1.1, all.1.2, all.2⟩

theorem exec_closingStart_of_opened (bank : s.sched.bank b = .opened o) :
    exec (.closingStart b) s = .next (s.closeFor b o (s.sched.closingCause s.now b o)) := by
  show execClosingStart b s = _
  rw [execClosingStart, bank]

theorem exec_closingStart_of_other (other : ∀ o, s.sched.bank b ≠ .opened o) : exec (.closingStart b) s = .next s := by
  show execClosingStart b s = _
  unfold execClosingStart
  cases bank : s.sched.bank b with
  | opened o => exact absurd bank (other o)
  | closed => rfl
  | opening row start => rfl
  | closing start => rfl

theorem exec_closingCompletion_of_closing {start : Nat} (bank : s.sched.bank b = .closing start) :
    exec (.closingCompletion b) s = .next ((s.clockTo (start + 14)).setSched (s.sched.moveBank b .closed)) := by
  show execClosingCompletion b s = _
  rw [execClosingCompletion, bank]
  rfl

theorem exec_closingCompletion_of_other (other : ∀ start, s.sched.bank b ≠ .closing start) :
    exec (.closingCompletion b) s = .next s := by
  show execClosingCompletion b s = _
  unfold execClosingCompletion
  cases bank : s.sched.bank b with
  | closing start => exact absurd bank (other start)
  | closed => rfl
  | opening row start => rfl
  | opened o => rfl

theorem exec_idleExpiry_of_limit {n : Nat} (bank : s.sched.bank b = .opened o) (limit : s.sched.rowIdleLimit.ns = some n) :
    exec (.idleExpiry b) s = .next ((s.clockTo (o.lastActivity + n)).closeFor b o
      (s.sched.idleExpired (max s.now (o.lastActivity + n)) b o)) := by
  show execIdleExpiry b s = _
  rw [execIdleExpiry, bank, limit]
  rfl

theorem exec_idleExpiry_of_other (other : ∀ o, s.sched.bank b ≠ .opened o) : exec (.idleExpiry b) s = .next s := by
  show execIdleExpiry b s = _
  unfold execIdleExpiry
  split
  case h_1 o n bank limit => exact absurd bank (other o)
  case h_2 => rfl

theorem exec_idleExpiry_of_off (off : s.sched.rowIdleLimit = .off) : exec (.idleExpiry b) s = .next s := by
  show execIdleExpiry b s = _
  unfold execIdleExpiry
  rw [off]
  cases s.sched.bank b <;> rfl

end

/-- Settles O38: the conditions of R30 by `mayClose_iff` and `closingCause_iff`; at an idle expiry no entry addresses the
bank, so none is being accessed. -/
theorem closings : Obligations.Closings := by
  refine ⟨fun s b o bank free cause freeIff causeIff => ?start, fun s b start bank => ?completes,
    fun s b => ⟨fun other => ⟨exec_closingStart_of_other other, exec_idleExpiry_of_other other⟩,
      fun other => exec_closingCompletion_of_other other, fun off => exec_idleExpiry_of_off off⟩,
    fun s b o n bank limit due closes isDue closesIff => ?idle⟩
  case start =>
    have freeIff : free ↔ s.sched.mayClose s.now b o = true := freeIff.trans (mayClose_iff ..).symm
    have causeIff : cause ↔ s.sched.closingCause s.now b o = true := causeIff.trans (closingCause_iff ..).symm
    refine ⟨fun isFree isCause notRefreshing notFailed => ?closes, fun prevented => ?stays⟩
    case closes =>
      have may := freeIff.mp isFree
      have starts := closeFor_of_all (causeIff.mp isCause) ((closes_iff _).mpr ⟨notRefreshing, notFailed⟩) may
      refine ⟨_, by rw [exec_closingStart_of_opened bank, starts]; rfl, moveBank_bank_self ..,
        fun c other => moveBank_bank_ne _ other _, ?waiting, shownReady_moveBank ..⟩
      case waiting =>
        refine settleList_waiting (fun row => ?_) [] s.sched.list ((mayClose_iff ..).mp may).2.2
        rw [show getAt (s.sched.setBank b (.closing s.now)).banks b = .closing s.now from getAt_setAt_self ..]
        rfl
    case stays =>
      rw [exec_closingStart_of_opened bank, closeFor_of_not]
      rintro ⟨isCause, mode, may⟩
      obtain ⟨notRefreshing, notFailed⟩ := (closes_iff _).mp mode
      rcases prevented with notFree | noCause | refreshing | failed
      · exact notFree (freeIff.mpr may)
      · exact noCause (causeIff.mpr isCause)
      · exact notRefreshing refreshing
      · exact notFailed failed
  case completes =>
    exact ⟨_, exec_closingCompletion_of_closing bank, moveBank_bank_self .., fun c other => moveBank_bank_ne _ other _⟩
  case idle =>
    have expired : s.sched.idleExpired due b o = true ↔ ∀ e ∈ s.sched.list, e.bank ≠ b := by
      rw [idleExpired_iff, head?_none_iff]
      exact and_iff_left ⟨n, limit, by omega⟩
    have all : closes ↔ s.sched.idleExpired due b o = true ∧ s.sched.mode.closes = true ∧
        s.sched.mayClose due b o = true := by
      rw [closesIff, expired, closes_iff, mayClose_iff]
      constructor
      · rintro ⟨none_, notRefreshing, notFailed, minOpen, recovery⟩
        exact ⟨none_, ⟨notRefreshing, notFailed⟩, minOpen, recovery, fun e mem own => absurd own (none_ e mem)⟩
      · rintro ⟨none_, ⟨notRefreshing, notFailed⟩, minOpen, recovery, _⟩
        exact ⟨none_, notRefreshing, notFailed, minOpen, recovery⟩
    subst isDue
    refine ⟨fun stays => ?_, fun goes => ?_⟩
    · rw [exec_idleExpiry_of_limit bank limit, closeFor_of_not fun h => stays (all.mpr h)]
      rfl
    · obtain ⟨isCause, mode, may⟩ := all.mp goes
      refine ⟨_, ?_, moveBank_bank_self ..,
        fun c other => moveBank_bank_ne _ other _, shownReady_moveBank ..⟩
      rw [exec_idleExpiry_of_limit bank limit, closeFor_of_all (s := s.clockTo (o.lastActivity + n)) isCause mode may]
      rfl

/-! ## The start of an access (R32) -/

theorem startOldest_append {older younger : List BurstEntry} {e : BurstEntry} (others : ∀ x ∈ older, x.state ≠ .ready)
    (ready : e.state = .ready) :
    startOldest (older ++ e :: younger) = older ++ { e with state := .accessing } :: younger := by
  induction older with
  | nil => exact if_pos ready
  | cons x rest ih =>
    rw [List.cons_append, startOldest, if_neg (others x (List.mem_cons_self ..)),
      ih fun y mem => others y (List.mem_cons_of_mem _ mem)]
    rfl

theorem exec_accessStart_of_none {s : State}
    (none_ : ∀ e, s.sched.readyHead? = some e → ¬ (s.sched.accessStart = none ∧ s.sched.serves e = true)) :
    exec .accessStart s = .next s := by
  show execAccessStart s = _
  unfold execAccessStart
  cases head : s.sched.readyHead? with
  | none => rfl
  | some e =>
    refine congrArg _ (if_neg fun both => none_ e head ?_)
    rw [Bool.and_eq_true] at both
    exact ⟨by simpa [Scheduler.busy] using both.1, both.2⟩

theorem exec_accessStart_of_ready {s : State} {e : BurstEntry} (head : s.sched.readyHead? = some e)
    (free : s.sched.accessStart = none) (serves : s.sched.serves e = true) : exec .accessStart s =
      .next (s.setSched { s.sched with list := startOldest s.sched.list, accessStart := some s.now }) := by
  show execAccessStart s = _
  unfold execAccessStart
  rw [head]
  exact congrArg _ (if_pos (by rw [Scheduler.busy, free, serves]; rfl))

/-- Settles O39: the oldest READY entry is `Scheduler.readyHead?`. -/
theorem accessStart : Obligations.AccessStart := by
  refine ⟨fun s older younger e list others ready free mode still => ?starts, fun s prevented => ?none⟩
  case starts =>
    have head : s.sched.readyHead? = some e := find?_first list others ready
    rw [exec_accessStart_of_ready head free ((serves_iff ..).mpr ⟨mode, still⟩), list, startOldest_append others ready]
  case none =>
    refine exec_accessStart_of_none fun e head ⟨free, serves⟩ => ?_
    obtain ⟨mode, still⟩ := (serves_iff ..).mp serves
    rcases prevented with busy | draining | refreshing | failed | ⟨bringup, notClear⟩ | refresh | noneReady
    · exact busy free
    · simp [draining] at mode
    · simp [refreshing] at mode
    · simp [failed] at mode
    · rw [bringup] at mode
      rcases mode with normal | ⟨_, clear, _⟩
      · exact nomatch normal
      · exact notClear clear
    · exact refresh still
    · have ready : decide (e.state = .ready) = true :=
        List.find?_some (p := fun x : BurstEntry => decide (x.state = .ready)) head
      exact noneReady e (List.mem_of_find?_eq_some head) (of_decide_eq_true ready)

/-! ## Refreshes (R48, R53) -/

theorem refreshCanStart_iff (d : Scheduler) : d.refreshCanStart = true ↔
    (∀ b, d.bank b = .closed) ∧ d.accessStart = none ∧ d.refreshStart = none ∧
      (d.mode = .draining ∨ (d.mode = .bringup ∧ d.stage = some .clear ∧ 1 ≤ d.refreshDebt ∧ d.list = [])) := by
  simp only [Scheduler.refreshCanStart, Bool.and_eq_true, allClosed_iff, Scheduler.busy, Bool.not_eq_true',
    Option.isSome_eq_false_iff, Option.isNone_iff_eq_none, Bool.or_eq_true, decide_eq_true_eq, List.isEmpty_iff, and_assoc]

theorem exec_refreshStart (s : State) : exec .refreshStart s =
    .next (if s.sched.refreshCanStart then s.setSched (s.sched.beginRefresh s.now) else s) := rfl

theorem exec_refreshStart_of_can {s : State} (closed : ∀ b, s.sched.bank b = .closed) (free : s.sched.accessStart = none)
    (still : s.sched.refreshStart = none) (mode : s.sched.mode = .draining ∨ (s.sched.mode = .bringup ∧
      s.sched.stage = some .clear ∧ 1 ≤ s.sched.refreshDebt ∧ s.sched.list = [])) :
    exec .refreshStart s = .next (s.setSched (s.sched.beginRefresh s.now)) := by
  rw [exec_refreshStart, if_pos ((refreshCanStart_iff _).mpr ⟨closed, free, still, mode⟩)]

theorem beginRefresh_of_bringup {d : Scheduler} (now : Nat) (bringup : d.mode = .bringup) :
    d.beginRefresh now = { d with refreshStart := some now } := by
  rw [Scheduler.beginRefresh, if_pos bringup, ← bringup]

theorem beginRefresh_of_other {d : Scheduler} (now : Nat) (other : d.mode ≠ .bringup) :
    d.beginRefresh now = { d with refreshStart := some now, mode := .refreshing } := by
  rw [Scheduler.beginRefresh, if_neg other]

theorem exec_refreshCompletion_of_refresh {s : State} {start : Nat} (running : s.sched.refreshStart = some start) :
    exec .refreshCompletion s = .next ((s.clockTo (start + 260)).setSched
      (s.sched.payDebt.afterRefresh (max s.now (start + 260)))) := by
  show execRefreshCompletion s = _
  rw [execRefreshCompletion, running]
  rfl

section
variable {d : Scheduler} (now : Nat)

theorem afterRefresh_bringup_owed (bringup : d.mode = .bringup) (owed : 1 ≤ d.refreshDebt) :
    d.afterRefresh now = { d with refreshStart := some now } := by
  rw [Scheduler.afterRefresh, if_pos bringup, if_pos owed]

theorem afterRefresh_bringup_paid (bringup : d.mode = .bringup) (paid : d.refreshDebt = 0) :
    d.afterRefresh now = { d with refreshStart := none }.sweepAdmit.sweepAdmit := by
  rw [Scheduler.afterRefresh, if_pos bringup, if_neg (by omega)]

theorem again_iff (d : Scheduler) : (d.urgent || (decide (1 ≤ d.refreshDebt) && d.list.isEmpty)) = true ↔
    4 ≤ d.refreshDebt ∨ (1 ≤ d.refreshDebt ∧ d.list = []) := by
  rw [Bool.or_eq_true, Bool.and_eq_true, decide_eq_true_eq, List.isEmpty_iff, Scheduler.urgent, decide_eq_true_eq]
  rfl

theorem afterRefresh_again (other : d.mode ≠ .bringup) (again : 4 ≤ d.refreshDebt ∨ (1 ≤ d.refreshDebt ∧ d.list = [])) :
    d.afterRefresh now = { d with refreshStart := some now, mode := .refreshing } := by
  rw [Scheduler.afterRefresh, if_neg other, if_pos ((again_iff d).mpr again)]

theorem afterRefresh_ends (other : d.mode ≠ .bringup) (low : d.refreshDebt < 4) (done : d.refreshDebt = 0 ∨ d.list ≠ []) :
    d.afterRefresh now = { d with refreshStart := none, mode := .normal } := by
  rw [Scheduler.afterRefresh, if_neg other, if_neg]
  rw [again_iff]
  rintro (high | ⟨owed, empty⟩)
  · omega
  · rcases done with paid | listed
    · omega
    · exact listed empty

end

/-- Settles O40: the start by `refreshCanStart_iff`, the completion by the mode and the debt left. -/
theorem refreshes : Obligations.Refreshes := by
  refine ⟨fun s draining closed free still => ?drains, fun s bringup clear owed empty closed free still => ?clears,
    fun s prevented => ?none, fun s start now running bringup isNow => ⟨fun owed => ?owed, fun paid => ?paid⟩,
    fun s start running refreshing => ⟨_, rfl, fun again => ?again, fun low done => ?ends⟩, fun s none_ => ?noRefresh⟩
  case drains =>
    rw [exec_refreshStart_of_can closed free still (.inl draining),
      beginRefresh_of_other _ (by rw [draining]; nofun)]
  case clears =>
    rw [exec_refreshStart_of_can closed free still (.inr ⟨bringup, clear, owed, empty⟩),
      beginRefresh_of_bringup _ bringup]
  case none =>
    rw [exec_refreshStart, if_neg]
    rw [refreshCanStart_iff]
    rintro ⟨closed, free, still, mode⟩
    rcases prevented with normal | refreshing | failed | ⟨bringup, not⟩ | ⟨b, open_⟩ | busy | refresh
    · simp [normal] at mode
    · simp [refreshing] at mode
    · simp [failed] at mode
    · obtain ⟨_, clear, owed, empty⟩ := mode.resolve_left (by simp [bringup])
      rcases not with notClear | paid | listed
      · exact notClear clear
      · omega
      · exact listed empty
    · exact open_ (closed b)
    · exact busy free
    · exact refresh still
  case owed =>
    subst isNow
    have left : 1 ≤ s.sched.payDebt.refreshDebt := Nat.le_sub_one_of_lt owed
    rw [exec_refreshCompletion_of_refresh running, afterRefresh_bringup_owed (d := s.sched.payDebt) _ bringup left]
    rfl
  case paid =>
    subst isNow
    have left : s.sched.refreshDebt - 1 = 0 := Nat.sub_eq_zero_of_le paid
    rw [exec_refreshCompletion_of_refresh running, afterRefresh_bringup_paid (d := s.sched.payDebt) _ bringup left,
      Scheduler.payDebt, left]
    rfl
  case again =>
    have other : s.sched.payDebt.mode ≠ .bringup := by
      show s.sched.mode ≠ .bringup
      rw [refreshing]
      nofun
    rw [exec_refreshCompletion_of_refresh running, afterRefresh_again _ other again, ← refreshing]
    rfl
  case ends =>
    have other : s.sched.payDebt.mode ≠ .bringup := by
      show s.sched.mode ≠ .bringup
      rw [refreshing]
      nofun
    rw [exec_refreshCompletion_of_refresh running, afterRefresh_ends _ other low done]
    rfl
  case noRefresh =>
    show execRefreshCompletion s = _
    rw [execRefreshCompletion, none_]

end Sys2Proof.Proofs

/-!
The scheduler's records at an access completion (O41).
-/
namespace Sys2Proof.Proofs

open Sys2Proof.Machine Sys2Proof.Laws

theorem dropAccessing_append {older younger : List BurstEntry} {e : BurstEntry} (others : ∀ x ∈ older, x.state ≠ .accessing)
    (running : e.state = .accessing) : dropAccessing (older ++ e :: younger) = older ++ younger := by
  induction older with
  | nil => exact if_pos running
  | cons x rest ih =>
    rw [List.cons_append, dropAccessing, if_neg (others x (List.mem_cons_self ..)),
      ih fun y mem => others y (List.mem_cons_of_mem _ mem)]
    rfl

/-- The records before the entries' states follow. -/
def Completing (e : BurstEntry) (now : Nat) (d : Scheduler) : Scheduler :=
  { d.setBank e.bank ((d.bank e.bank).accessed now e.isWrite) with list := dropAccessing d.list, accessStart := none }

theorem completeAccess_eq (d : Scheduler) (e : BurstEntry) (now : Nat) :
    d.completeAccess e now = ((Completing e now d).applyCloseAfter e).settle := rfl

/-- Whether no entry of the open row is at the head of the bank. -/
def noHeadOnRow (e : BurstEntry) (row : Nat) (l : List BurstEntry) : Bool :=
  match l.find? fun x => x.bank = e.bank with
  | none => true
  | some x => decide (x.row ≠ row)

theorem headOnOpenRow_eq {d : Scheduler} {e : BurstEntry} {o : OpenRow} (bank : d.bank e.bank = .opened o) :
    (!d.headOnOpenRow e.bank) = noHeadOnRow e o.row d.list := by
  unfold Scheduler.headOnOpenRow noHeadOnRow Scheduler.head?
  cases d.list.find? fun x => x.bank = e.bank with
  | none => rfl
  | some x =>
    show (!(d.bank e.bank).isOpenOn x.row) = _
    rw [bank]
    simp [Bank.isOpenOn, eq_comm]

/-- The close-after flag sets the mark of an OPEN bank where no head waits on the open row (R36). -/
theorem applyCloseAfter_of_opened {d : Scheduler} {e : BurstEntry} {o : OpenRow} (bank : d.bank e.bank = .opened o) :
    d.applyCloseAfter e = d.setBank e.bank (.opened { o with
      closeAfterMark := o.closeAfterMark || (e.closeAfter && noHeadOnRow e o.row d.list) }) := by
  rw [Scheduler.applyCloseAfter, headOnOpenRow_eq bank]
  cases e.closeAfter && noHeadOnRow e o.row d.list with
  | false =>
    rw [Bool.or_false, ← bank, setBank_same]
    rfl
  | true =>
    rw [Bool.or_true, bank]
    rfl

theorem completing_bank {d : Scheduler} {e : BurstEntry} {o : OpenRow} (now : Nat) (bank : d.bank e.bank = .opened o) :
    (Completing e now d).bank e.bank = .opened { o with
      lastActivity := now, recoveryEnd := if e.isWrite then some (now + 15) else none } := by
  show (d.setBank e.bank _).bank e.bank = _
  rw [bank_setBank, if_pos rfl, bank]
  rfl

section
variable {d : Scheduler} {now : Nat} {older younger : List BurstEntry} {e : BurstEntry} {o : OpenRow}
variable (list : d.list = older ++ e :: younger) (others : ∀ x ∈ older, x.state ≠ .accessing)
variable (running : e.state = .accessing) (bank : d.bank e.bank = .opened o)
include list others running bank

/-- All that an access completion does to the scheduler's records, but for the states of the entries left. -/
theorem completeAccess_of_opened : d.completeAccess e now =
    ({ d with list := older ++ younger, accessStart := none }.setBank e.bank (.opened { o with
      lastActivity := now, recoveryEnd := (if e.isWrite then some (now + 15) else none),
      closeAfterMark := o.closeAfterMark || (e.closeAfter && noHeadOnRow e o.row (older ++ younger)) })).settle := by
  have dropped : (Completing e now d).list = older ++ younger := by
    show dropAccessing d.list = _
    rw [list, dropAccessing_append others running]
  rw [completeAccess_eq, applyCloseAfter_of_opened (completing_bank now bank), dropped]
  refine congrArg Scheduler.settle ?_
  show { d with list := (Completing e now d).list, accessStart := none, banks := setAt (setAt d.banks _ _) _ _ } =
    { d with list := older ++ younger, accessStart := none, banks := setAt d.banks _ _ }
  rw [dropped]
  congr 1
  exact table_ext fun k => by
    simp only [getAt_setAt]
    split <;> rfl

theorem completeAccess_list_eq_nil : (d.completeAccess e now).list = [] ↔ older ++ younger = [] := by
  rw [completeAccess_of_opened list others running bank, ← List.length_eq_zero_iff, ← List.length_eq_zero_iff]
  exact Eq.congr_left (settleList_length ..)

end

theorem testLazy_cond_iff (d : Scheduler) : (decide (d.mode = .normal) && d.lazyDue) = true ↔
    d.mode = .normal ∧ 1 ≤ d.refreshDebt ∧ d.list = [] ∧ d.accessStart = none := by
  simp [Scheduler.lazyDue, Scheduler.busy, and_assoc]

/-- Settles O41: the fields of the one equation `completeAccess_of_opened`. -/
theorem accessRecords : Obligations.AccessRecords := by
  intro d now older younger e o list others running bank
  have eq := completeAccess_of_opened (now := now) list others running bank
  have lazy : (decide ((d.completeAccess e now).mode = .normal) && (d.completeAccess e now).lazyDue) = true ↔
      d.mode = .normal ∧ 1 ≤ d.refreshDebt ∧ older ++ younger = [] := by
    rw [testLazy_cond_iff, completeAccess_list_eq_nil list others running bank, eq]
    exact and_congr_right fun _ => and_congr_right fun _ => and_iff_left rfl
  refine ⟨?path, ?list, ?bank, fun b other => ?banks, ?history, ?mode, ?debt, ?interval, if_congr lazy rfl rfl⟩
  case list => rw [eq]; exact shownReady_settle _
  case bank => rw [eq]; exact getAt_setAt_self ..
  case banks => rw [eq]; exact getAt_setAt_ne _ _ other
  all_goals rw [eq]; rfl

end Sys2Proof.Proofs


/-! # The WRITE of an access completion (O42) -/

namespace Sys2Proof.Proofs

open Sys2Proof.Machine Sys2Proof.Laws

/-- The state in which the die is accessed: the clock at the end of the access, the entry off the scheduler's list. -/
def accessEnded (e : BurstEntry) (start : Nat) (s : State) : State :=
  { s with now := max s.now (start + 10), sched := s.sched.completeAccess e (max s.now (start + 10)) }

/-- What follows the requester's part of a completion: the test for a lazy refresh, and the report (R47). -/
def afterAccess (v : State) : State := (v.setSched v.sched.testLazy).report

theorem isBurst_iff (a : Nat) : isBurst a = true ↔ a % 32 = 0 ∧ a + 32 ≤ 67108864 := by
  unfold isBurst
  rw [Bool.and_eq_true, decide_eq_true_iff, decide_eq_true_iff]
  exact Iff.rfl

section
variable {s : State} {start : Nat} {e : BurstEntry} {flips : BurstBits}

theorem exec_accessCompletion_of_burst (began : s.sched.accessStart = some start)
    (accessing : s.sched.list.find? (fun x => x.state = .accessing) = some e) (aligned : e.addr % 32 = 0)
    (inside : e.addr + 32 ≤ 67108864) :
    exec (.accessCompletion flips) s = .next (s.completeAccess e start flips) := by
  have burst := (isBurst_iff e.addr).mpr ⟨aligned, inside⟩
  have entry : s.sched.accessing? = some e := accessing
  show execAccessCompletion flips s = _
  unfold execAccessCompletion
  rw [began, entry]
  dsimp only
  rw [if_pos burst]

theorem completeAccess_write {data : List Byte} (transfer : e.transfer = .write data) :
    s.completeAccess e start flips = afterAccess ((accessEnded e start s).writeCompletes e data) := by
  unfold State.completeAccess
  rw [transfer]
  rfl

theorem completeAccess_read {target : Target} (transfer : e.transfer = .read target) :
    s.completeAccess e start flips = afterAccess ((accessEnded e start s).readCompletes e target flips) := by
  unfold State.completeAccess
  rw [transfer]
  rfl

end

/-! ## What is left of the memory side -/

theorem afterAccess_memorySide (v : State) : SameMemorySide (v.setSched v.sched.testLazy) (afterAccess v) :=
  report_keeps (sameMemorySide_moves _).moves.toServiceMoves ⟨rfl, rfl, rfl, rfl, rfl⟩

/-- The check unit, the die and the clock are those of `s`. -/
def SameDie (s u : State) : Prop := u.check = s.check ∧ u.mem = s.mem ∧ u.wrongBits = s.wrongBits ∧ u.now = s.now

theorem SameMemorySide.die {s u : State} (same : SameMemorySide s u) : SameDie s u := same.2

theorem SameDie.trans {s t u : State} (first : SameDie s t) (second : SameDie t u) : SameDie s u := by
  obtain ⟨check, mem, wrong, now⟩ := second
  exact ⟨check.trans first.1, mem.trans first.2.1, wrong.trans first.2.2.1, now.trans first.2.2.2⟩

theorem afterAccess_die (v : State) : SameDie v (afterAccess v) := (afterAccess_memorySide v).die

theorem afterAccess_sched (v : State) : (afterAccess v).sched = v.sched.testLazy := (afterAccess_memorySide v).1

theorem onRef_ringWriteDone_memorySide (s : State) (ref : Option RingRef) :
    SameMemorySide s (s.onRef ref State.ringWriteDone) :=
  onRef_keeps ref (fun _ _ kept => ringWriteDone_keeps (sameMemorySide_moves s).moves.toRegionMoves _ kept)
    ⟨rfl, rfl, rfl, rfl, rfl⟩

theorem SameMemorySide.trans {s t u : State} (first : SameMemorySide s t) (second : SameMemorySide t u) :
    SameMemorySide s u :=
  ⟨second.1.trans first.1, first.die.trans second.die⟩

/-- A requester's part leaves the memory side. -/
theorem reportWrite_memorySide (s : State) {o : EntryOwner} (requester : o ≠ .scheduler) (addr n : Nat) :
    SameMemorySide s (s.reportWrite o addr n) := by
  have moves := (sameMemorySide_moves s).moves
  cases o with
  | scheduler => exact absurd rfl requester
  | requester r =>
    cases r with
    | ch c =>
      exact afterCompletion_keeps moves.toWorkMoves c
        (modProg_keeps moves.toWorkMoves c (Progress.addDone n) ⟨rfl, rfl, rfl, rfl, rfl⟩)
    | lau => exact lauWriteDone_keeps moves.toServiceMoves n ⟨rfl, rfl, rfl, rfl, rfl⟩

theorem sweepDone_last (s : State) : s.sweepDone 67108832 = s.endBringup := if_pos rfl

theorem sweepDone_of_ne {addr : Nat} (other : addr ≠ 67108832) (s : State) :
    s.sweepDone addr = s.setSched s.sched.sweepAdmit := if_neg other

theorem reportWrite_die (s : State) (o : EntryOwner) (addr n : Nat) : SameDie s (s.reportWrite o addr n) := by
  cases o with
  | scheduler =>
    show SameDie s (s.sweepDone addr)
    rcases eq_or_ne addr 67108832 with rfl | other
    · rw [sweepDone_last]
      exact ⟨rfl, rfl, rfl, rfl⟩
    · rw [sweepDone_of_ne other]
      exact ⟨rfl, rfl, rfl, rfl⟩
  | requester r => exact (reportWrite_memorySide s (o := .requester r) nofun addr n).die

theorem writeCompletes_die (e : BurstEntry) (data : List Byte) (s : State) :
    SameDie (s.dieWrite e.addr data) (s.writeCompletes e data) :=
  (onRef_ringWriteDone_memorySide _ _).die.trans (reportWrite_die _ _ _ _)

/-! ## The bytes written -/

theorem readByte_writeBytes_of_mem : ∀ (l : List Byte) (m : List Host.Cell) (a i : Nat) (inside : i < l.length),
    Memory.wf m = true → readByte (writeBytes m a l) (a + i) = l[i]
  | b :: rest, m, a, 0, _, wf => by
    rw [Nat.add_zero, writeBytes, readByte_writeBytes_of_not_mem rest _ _ _ (Or.inl (Nat.lt_succ_self a)),
      readByte_writeByte wf]
    exact if_pos rfl
  | b :: rest, m, a, i + 1, inside, wf => by
    have step := readByte_writeBytes_of_mem rest (writeByte m a b) (a + 1) i (Nat.lt_of_succ_lt_succ inside)
      (writeByte_wf m a b wf)
    rw [show a + (i + 1) = a + 1 + i by omega]
    exact step

/-- Settles O42: the die's write, then what a requester's part and the clear sweep leave of the memory side. -/
theorem writeCompletion : Obligations.WriteCompletion := by
  intro s start e data flips began accessing transfer length aligned inside law
  have done := exec_accessCompletion_of_burst (flips := flips) began accessing aligned inside
  rw [completeAccess_write transfer] at done
  let v := (accessEnded e start s).writeCompletes e data
  have die : SameDie ((accessEnded e start s).dieWrite e.addr data) v := writeCompletes_die e data _
  obtain ⟨check, mem, wrong, now⟩ := die.trans (afterAccess_die v)
  have sched : (afterAccess v).sched = v.sched.testLazy := afterAccess_sched v
  refine ⟨afterAccess v, s.sched.completeAccess e (max s.now (start + 10)), done, now, ?records, ?written, ?elsewhere,
    ?repaired, ?kept, check, ?requester, ?lastSweep, ?sweep⟩
  case records => rw [now]; rfl
  case written => rw [mem]; exact fun i h => readByte_writeBytes_of_mem data s.mem e.addr i h law.1
  case elsewhere =>
    rw [mem]
    exact fun a outside => readByte_writeBytes_of_not_mem data s.mem e.addr a (by rw [length]; exact outside)
  case repaired => rw [wrong]; exact lookup_store_self _ _ s.wrongBits law.2
  case kept => rw [wrong]; exact fun a other => lookup_store_ne _ _ other.symm s.wrongBits
  case requester =>
    intro requester
    have same := (onRef_ringWriteDone_memorySide ((accessEnded e start s).dieWrite e.addr data) e.ringRef).trans
      (reportWrite_memorySide _ requester e.addr (((accessEnded e start s).dieWrite e.addr data).committedBy e.ringRef))
    rw [sched]
    exact congrArg Scheduler.testLazy same.1
  case lastSweep =>
    intro owner last noRing idle
    have ended : v = ((accessEnded e start s).dieWrite e.addr data).endBringup := by
      show State.reportWrite _ _ _ _ = _
      rw [owner, last, noRing]
      exact sweepDone_last _
    have reported : afterAccess v = (v.setSched v.sched.testLazy).reportAll :=
      report_of_idle (by rw [ended]; exact idle)
    rw [reported, ended]
    exact ⟨rfl, rfl, rfl⟩
  case sweep =>
    intro owner other
    have admits : v = (((accessEnded e start s).dieWrite e.addr data).onRef e.ringRef State.ringWriteDone).setSched
        (((accessEnded e start s).dieWrite e.addr data).onRef e.ringRef State.ringWriteDone).sched.sweepAdmit := by
      show State.reportWrite _ _ _ _ = _
      rw [owner]
      exact sweepDone_of_ne other _
    have same := onRef_ringWriteDone_memorySide ((accessEnded e start s).dieWrite e.addr data) e.ringRef
    rw [sched, admits]
    show (Scheduler.sweepAdmit _).testLazy = _
    rw [same.1]
    rfl

end Sys2Proof.Proofs


/-! # The READ of an access completion (O43) -/

namespace Sys2Proof.Proofs

open Sys2Proof.Machine Sys2Proof.Laws

/-! ## The outcome of a READ (R57) -/

theorem readOutcome_of_zero {m : BurstBits} (none_wrong : wrongCount m = 0) (data : List Byte) :
    readOutcome data m = .good data := if_pos none_wrong

theorem readOutcome_of_one {m : BurstBits} (one_wrong : wrongCount m = 1) (data : List Byte) :
    readOutcome data m = .corrected data := by
  unfold readOutcome
  rw [if_neg (by omega), if_pos one_wrong]

theorem readOutcome_of_two {m : BurstBits} (two_wrong : wrongCount m = 2) (data : List Byte) :
    readOutcome data m = .uncorrectable := by
  unfold readOutcome
  rw [if_neg (by omega), if_neg (by omega), if_pos two_wrong]

/-- The check unit's part of a READ: the burst's errors kept, the outcome counted and an uncorrectable one told (R57,
R58). -/
def readMade (e : BurstEntry) (flips : BurstBits) (s : State) : State :=
  (s.dieRead e.addr flips).countOutcome e.addr e.owner (s.outcomeAt e.addr flips)

theorem countOutcome_fields (a : Nat) (o : EntryOwner) (out : ReadOutcome) (s : State) :
    s.countOutcome a o out =
      { s with check := (s.countOutcome a o out).check, notices := (s.countOutcome a o out).notices } := by
  cases out with
  | good data => rfl
  | corrected data => rfl
  | uncorrectable => cases o <;> rfl

theorem readMade_fields (e : BurstEntry) (flips : BurstBits) (s : State) :
    readMade e flips s = { s with
      check := (readMade e flips s).check,
      notices := (readMade e flips s).notices,
      wrongBits := store 0#272 s.wrongBits e.addr (lookup 0#272 s.wrongBits e.addr ^^^ flips) } :=
  countOutcome_fields e.addr e.owner (s.outcomeAt e.addr flips) (s.dieRead e.addr flips)

/-- A READ that delivers data is not told of. -/
theorem countOutcome_notices_of_data {out : ReadOutcome} (delivers : out.data? ≠ none) (a : Nat) (o : EntryOwner)
    (s : State) : (s.countOutcome a o out).notices = s.notices := by
  cases out with
  | good data => rfl
  | corrected data => rfl
  | uncorrectable => exact absurd rfl delivers

theorem countOutcome_notices_of_none {out : ReadOutcome} (fails : out.data? = none) (a : Nat) (r : Requester) (s : State) :
    (s.countOutcome a (.requester r) out).notices = s.notices.post (.checkFault a r) := by
  cases out with
  | good data => exact nomatch fails
  | corrected data => exact nomatch fails
  | uncorrectable => rfl

theorem countOutcome_check_of_uncorrectable (a : Nat) (o : EntryOwner) (s : State) :
    (s.countOutcome a o .uncorrectable).check = s.check.countUncorrectable a := by
  cases o <;> rfl

/-! ## What the requester's part of a READ leaves -/

/-- The region table's part of a READ: what was consumed, or given back where the requester asks for it (R13, R14). -/
def readConsumed (e : BurstEntry) (target : Target) (out : ReadOutcome) (s : State) : State :=
  s.onRef e.ringRef fun r v => v.ringReadDone r (s.givesBack r (s.asksBack e target out.data?.isSome))

theorem readCompletes_eq (e : BurstEntry) (target : Target) (flips : BurstBits) (s : State) :
    s.readCompletes e target flips =
      (readConsumed e target (s.outcomeAt e.addr flips) (readMade e flips s)).reportRead e target (s.outcomeAt e.addr flips)
        (match e.ringRef with
          | some r => (readMade e flips s).givesBack r
              ((readMade e flips s).asksBack e target (s.outcomeAt e.addr flips).data?.isSome)
          | none => false) := by
  unfold State.readCompletes readConsumed
  cases e.ringRef <;> rfl

theorem readCompletes_memorySide (e : BurstEntry) (target : Target) (flips : BurstBits) (s : State) :
    SameMemorySide (readMade e flips s) (s.readCompletes e target flips) := by
  have moves := (sameMemorySide_moves (readMade e flips s)).moves
  exact reportRead_keeps moves.toLauMoves (fun k _ _ _ kept => moves.playout k _ _ kept) e target _ _
    (onRef_keeps _ (fun _ _ kept => ringReadDone_keeps moves.toRegionMoves _ _ kept) ⟨rfl, rfl, rfl, rfl, rfl⟩)

/-- Settles O43: the check unit's part of the READ, and that the rest leaves the memory side. -/
theorem readCompletion : Obligations.ReadCompletion := by
  intro s start e target flips m began accessing transfer aligned inside law bits
  have done := exec_accessCompletion_of_burst (flips := flips) began accessing aligned inside
  rw [completeAccess_read transfer] at done
  let u := accessEnded e start s
  have same := readCompletes_memorySide e target flips u
  obtain ⟨check, mem, wrong, now⟩ := same.die.trans (afterAccess_die (u.readCompletes e target flips))
  have fields := readMade_fields e flips u
  have outcome : u.outcomeAt e.addr flips = readOutcome (readBytes s.mem e.addr 32) m := by rw [bits]; rfl
  refine ⟨afterAccess (u.readCompletes e target flips), done, ?moment, ?bytes, ?records, ?errors, ?otherErrors, ?good,
    ?corrected, ?uncorrectable⟩
  case moment => rw [now, fields]; rfl
  case bytes => rw [mem, fields]; rfl
  case records => rw [afterAccess_sched, same.1, now, fields]; rfl
  case errors => rw [wrong, fields, bits]; exact lookup_store_self _ _ s.wrongBits law.2
  case otherErrors => rw [wrong, fields]; exact fun a other => lookup_store_ne _ _ other.symm s.wrongBits
  case good =>
    intro count
    rw [check, readMade, outcome, readOutcome_of_zero count]
    rfl
  case corrected =>
    intro count
    rw [check, readMade, outcome, readOutcome_of_one count]
    rfl
  case uncorrectable =>
    intro count
    rw [check, readMade, outcome, readOutcome_of_two count]
    exact countOutcome_check_of_uncorrectable e.addr e.owner _

end Sys2Proof.Proofs


/-! # After a channel's completion: runs, and the retirement of a channel that waits for no claim -/

namespace Sys2Proof.Proofs

open Sys2Proof.Machine Sys2Proof.Laws

/-! ## Progress -/

section
variable {s : State} {c : ChannelId} {cur : Current}

theorem modProg_of_current (current : (s.channel c).current = some cur) (f : Progress → Progress) :
    s.modProg c f = s.setChannel c { s.channel c with current := some { cur with prog := f cur.prog } } := by
  have moved : (s.channel c).current.map (Current.modProg f) = some { cur with prog := f cur.prog } := by
    rw [current]
    rfl
  exact congrArg (fun x => s.setChannel c { s.channel c with current := x }) moved

theorem faulted_of_current (current : (s.channel c).current = some cur) :
    (s.channel c).faulted = { s.channel c with
      state := .halted .fault, stop := .none, slotA := .empty, slotB := .empty,
      current := some { cur with prog := { cur.prog with fault := true } } } := by
  unfold Channel.faulted
  rw [current]
  rfl

theorem promotes_current {t : State} (P : Promotes s t) (b : ChannelId) :
    (t.channel b).current = (s.channel b).current := by
  have bare := congrArg Channel.current (P.channels b)
  exact bare

/-! ## The end of a run (R93) -/

/-- The state in which a descriptor's mark has been posted. -/
def runPosted (d : Descriptor) (s : State) : State :=
  match d.post with
  | some m => s.addMark m 1
  | none => s

theorem addMark_current (s : State) (m : MarkId) (k : Nat) (b : ChannelId) :
    ((s.addMark m k).channel b).current = (s.channel b).current := by
  rw [addMark_eq]
  exact promotes_current (promotes_serveMark m _) b

theorem runPosted_current (d : Descriptor) (s : State) (b : ChannelId) :
    ((runPosted d s).channel b).current = (s.channel b).current := by
  unfold runPosted
  cases d.post with
  | none => rfl
  | some m => exact addMark_current s m 1 b

theorem endRun_eq (current : (s.channel c).current = some cur) :
    s.endRun c cur.desc = (runPosted cur.desc s).setChannel c { (runPosted cur.desc s).channel c with
      current := some { cur with prog := { cur.prog with runsCompleted := satAdd 65535 1 cur.prog.runsCompleted } } } :=
  modProg_of_current ((runPosted_current cur.desc s c).trans current) Progress.runDone

theorem goesOn_iff (runs : Nat) (stop : StopRequest) (d : Descriptor) :
    d.goesOn runs stop = true ↔ (d.runs = 255 ∨ runs < d.runs) ∧ stop = .none := by
  unfold Descriptor.goesOn
  rw [Bool.and_eq_true, Bool.or_eq_true, decide_eq_true_iff, decide_eq_true_iff, decide_eq_true_iff]
  exact Iff.rfl

theorem afterCompletion_running (current : (s.channel c).current = some cur) (running : (s.channel c).state = .running) :
    s.afterCompletion c = if cur.prog.done = cur.desc.length then s.completeRun c cur else s := by
  unfold State.afterCompletion
  rw [current, running]

theorem afterCompletion_stopping (current : (s.channel c).current = some cur)
    (stopping : (s.channel c).state = .stopping) :
    s.afterCompletion c = if s.entriesOf (.ch c) = 0 then s.retireStopped c cur else s := by
  unfold State.afterCompletion
  rw [current, stopping]

theorem afterCompletion_halted {why : HaltReason} (current : (s.channel c).current = some cur)
    (halted : (s.channel c).state = .halted why) :
    s.afterCompletion c = if s.entriesOf (.ch c) = 0 then s.retire c .dataError else s := by
  unfold State.afterCompletion
  rw [current, halted]

end

/-! ## Channels on no waiter list

A release passes the claim to another channel, so that a channel which itself waits on no list of its descriptor's rings
keeps its record through its own retirement. -/

/-- From `s` to `t` the channel's record stays, and it joins no waiter list. -/
def JoinsNoList (c : ChannelId) (s t : State) : Prop :=
  t.channel c = s.channel c ∧ ∀ role q y h, t.ring? q = some (y, h) → c ∈ h.waiters role →
    ∃ x g, s.ring? q = some (x, g) ∧ c ∈ g.waiters role

theorem JoinsNoList.refl (c : ChannelId) (s : State) : JoinsNoList c s s := ⟨rfl, fun _ _ y h ring mem => ⟨y, h, ring, mem⟩⟩

theorem JoinsNoList.trans {c : ChannelId} {s t u : State} (first : JoinsNoList c s t) (second : JoinsNoList c t u) :
    JoinsNoList c s u := by
  refine ⟨second.1.trans first.1, fun role q y h ring mem => ?_⟩
  obtain ⟨x, g, ring', mem'⟩ := second.2 role q y h ring mem
  exact first.2 role q x g ring' mem'

theorem joinsNoList_setRing {c : ChannelId} {s : State} {r : RegionId} {x : RegionRecord} {g k : Ring}
    (ring : s.ring? r = some (x, g)) (shrinks : ∀ role, c ∈ k.waiters role → c ∈ g.waiters role) :
    JoinsNoList c s (s.setRing r k) := by
  refine ⟨rfl, fun role q y h ring' mem => ?_⟩
  rw [ring_setRing ring] at ring'
  by_cases here : q = r
  · rw [if_pos here] at ring'
    cases ring'
    exact ⟨x, g, here ▸ ring, shrinks role mem⟩
  · rw [if_neg here] at ring'
    exact ⟨y, h, ring', mem⟩

theorem joinsNoList_setChannel {c b : ChannelId} (other : c ≠ b) (x : Channel) (s : State) :
    JoinsNoList c s (s.setChannel b x) :=
  ⟨channel_setChannel_ne _ _ other, fun _ _ y h ring mem => ⟨y, h, ring, mem⟩⟩

theorem waiters_setHolder (role lists : Role) (h : Option Requester) (g : Ring) :
    (g.setHolder role h).waiters lists = g.waiters lists := by
  cases role <;> cases lists <;> rfl

theorem waiters_setWaiters_self (role : Role) (l : List ChannelId) (g : Ring) :
    (g.setWaiters role l).waiters role = l := by
  cases role <;> rfl

theorem waiters_setWaiters_ne {role lists : Role} (other : lists ≠ role) (l : List ChannelId) (g : Ring) :
    (g.setWaiters role l).waiters lists = g.waiters lists := by
  cases role <;> cases lists
  case reader.reader | writer.writer => exact absurd rfl other
  case reader.writer | writer.reader => rfl

theorem joinsNoList_takeClaim {c b : ChannelId} (other : c ≠ b) (role : Role) {next : State → State}
    (goesOn : ∀ t, JoinsNoList c t (next t)) (s : State) : JoinsNoList c s (s.takeClaim role b next) := by
  cases named : s.roleRing role b with
  | none => rw [takeClaim_of_no_ring named]; exact goesOn s
  | some x =>
    obtain ⟨r, g⟩ := x
    obtain ⟨d, ring⟩ := roleRing_some named
    by_cases free : g.holder role = none ∨ g.holder role = some (.ch b)
    · rw [takeClaim_free named free]
      exact (joinsNoList_setRing ring fun lists mem => by rwa [waiters_setHolder] at mem).trans (goesOn _)
    · obtain ⟨taken, foreign⟩ := not_or.mp free
      rw [takeClaim_held named taken foreign]
      refine (joinsNoList_setRing ring fun lists mem => ?_).trans (joinsNoList_setChannel other _ _)
      rcases eq_or_ne lists role with rfl | elsewhere
      · rw [waiters_setWaiters_self, List.mem_append, List.mem_singleton] at mem
        exact mem.resolve_right other
      · rwa [waiters_setWaiters_ne elsewhere] at mem

theorem joinsNoList_takeClaims {c b : ChannelId} (other : c ≠ b) (s : State) : JoinsNoList c s (s.takeClaims b) :=
  joinsNoList_takeClaim other .reader
    (fun _ => joinsNoList_takeClaim other .writer (fun _ => joinsNoList_setChannel other _ _) _) s

theorem joinsNoList_releaseClaim {c : ChannelId} {role : Role} {r : RegionId} {s : State}
    (off : ∀ x g, s.ring? r = some (x, g) → c ∉ g.waiters role) : JoinsNoList c s (s.releaseClaim role r) := by
  unfold State.releaseClaim
  cases ring : s.ring? r with
  | none => exact JoinsNoList.refl c s
  | some p =>
    obtain ⟨x, g⟩ := p
    have notHere := off x g ring
    dsimp only
    unfold Ring.release
    cases waiting : g.waiters role with
    | nil => exact joinsNoList_setRing ring fun lists mem => by rwa [waiters_setHolder] at mem
    | cons b rest =>
      rw [waiting, List.mem_cons, not_or] at notHere
      refine (joinsNoList_setRing ring fun lists mem => ?_).trans (joinsNoList_takeClaims notHere.1 _)
      rcases eq_or_ne lists role with rfl | elsewhere
      · rw [waiters_setWaiters_self] at mem
        exact absurd mem notHere.2
      · rwa [waiters_setWaiters_ne elsewhere, waiters_setHolder] at mem

/-- The channel waits on no list of a ring its descriptor names. -/
def WaitsForNoClaim (c : ChannelId) (s : State) : Prop :=
  ∀ role r g, s.roleRing role c = some (r, g) → c ∉ g.waiters role

theorem roleRing_eq_some {s : State} {role : Role} {c : ChannelId} {r : RegionId} {g : Ring}
    (named : s.roleRing role c = some (r, g)) :
    ∃ cur x, (s.channel c).current = some cur ∧ cur.desc.endpointRegion role = some r ∧ s.ring? r = some (x, g) := by
  cases current : (s.channel c).current with
  | none => rw [State.roleRing, current] at named; cases named
  | some cur =>
    obtain ⟨x, ring⟩ := roleRing_some named
    refine ⟨cur, x, rfl, ?_, ring⟩
    rw [roleRing_of_current current] at named
    cases endpoint : cur.desc.endpointRegion role with
    | none => rw [endpoint] at named; cases named
    | some q =>
      rw [endpoint] at named
      obtain ⟨p, -, same⟩ := Option.map_eq_some_iff.mp named
      cases same
      rfl

theorem JoinsNoList.waitsForNoClaim {c : ChannelId} {s t : State} (stays : JoinsNoList c s t)
    (off : WaitsForNoClaim c s) : WaitsForNoClaim c t := by
  intro role r h named mem
  obtain ⟨cur, y, current, endpoint, ring⟩ := roleRing_eq_some named
  obtain ⟨x, g, before, member⟩ := stays.2 role r y h ring mem
  rw [stays.1] at current
  refine off role r g ?_ member
  rw [roleRing_of_current current, endpoint]
  show (s.ring? r).map _ = _
  rw [before]
  rfl

theorem joinsNoList_releaseHeld {c : ChannelId} {s : State} (off : WaitsForNoClaim c s) (role : Role) :
    JoinsNoList c s (s.releaseHeld role c) := by
  unfold State.releaseHeld
  cases named : s.roleRing role c with
  | none => exact JoinsNoList.refl c s
  | some p =>
    obtain ⟨r, g⟩ := p
    dsimp only
    split
    case isTrue =>
      refine joinsNoList_releaseClaim fun x h ring => ?_
      obtain ⟨y, ring'⟩ := roleRing_some named
      rw [ring] at ring'
      cases ring'
      exact off role r g named
    case isFalse => exact JoinsNoList.refl c s

/-- A channel that waits for no claim is left by its retirement with no descriptor and an empty copy buffer. -/
theorem retire_channel_self {c : ChannelId} {s : State} {cur : Current} (off : WaitsForNoClaim c s) (st : DoneStatus)
    (current : (s.channel c).current = some cur) :
    (s.retire c st).channel c = { s.channel c with current := none, slotA := .empty, slotB := .empty } := by
  obtain ⟨u, v, rfl, -, retired⟩ := retire_eq st current
  have first := joinsNoList_releaseHeld off .reader
  have second := joinsNoList_releaseHeld (first.waitsForNoClaim off) .writer
  rw [retired, channel_setChannel_self, (first.trans second).1]

theorem retire_notices {c : ChannelId} {s : State} {cur : Current} (st : DoneStatus)
    (current : (s.channel c).current = some cur) :
    (s.retire c st).notices = if st ≠ .done ∨ cur.desc.notify = true then
      s.notices.post (.descriptorDone c cur.desc.tag st cur.prog.done cur.prog.runsCompleted) else s.notices := by
  obtain ⟨u, v, -, -, retired⟩ := retire_eq st current
  rw [retired]
  rfl

end Sys2Proof.Proofs


/-! # A channel's completions (O44) -/

namespace Sys2Proof.Proofs

open Sys2Proof.Machine Sys2Proof.Laws

/-! ## One entry less -/

theorem entriesOf_accessEnded {s : State} {e : BurstEntry} {r : Requester} (start : Nat)
    (accessing : s.sched.list.find? (fun x => x.state = .accessing) = some e) (owner : e.owner = .requester r) :
    (accessEnded e start s).entriesOf r + 1 = s.entriesOf r := by
  have entry : s.sched.accessing? = some e := accessing
  obtain ⟨older, younger, before, after⟩ := bareList_completeAccess entry (max s.now (start + 10))
  show List.countP _ (s.sched.completeAccess e (max s.now (start + 10))).list + 1 = List.countP _ s.sched.list
  rw [← bareList_countP_owner, after, ← bareList_countP_owner s.sched.list, before, List.countP_append, List.countP_append,
    List.countP_cons_of_pos (by simpa using owner)]
  rfl

theorem afterAccess_of_idle {v : State} (idle : v.lau.service = none) :
    afterAccess v = (v.setSched v.sched.testLazy).reportAll :=
  report_of_idle (s := v.setSched v.sched.testLazy) idle

/-! ## A channel's WRITE -/

section
variable {s : State} {start : Nat} {e : BurstEntry} {data : List Byte} {flips : BurstBits} {c : ChannelId} {cur : Current}

theorem exec_channelWrite (began : s.sched.accessStart = some start)
    (accessing : s.sched.list.find? (fun x => x.state = .accessing) = some e) (transfer : e.transfer = .write data)
    (aligned : e.addr % 32 = 0) (inside : e.addr + 32 ≤ 67108864) (owner : e.owner = .requester (.ch c)) :
    exec (.accessCompletion flips) s = .next (afterAccess
      ((((accessEnded e start s).dieWrite e.addr data).onRef e.ringRef State.ringWriteDone).channelWriteDone c
        (((accessEnded e start s).dieWrite e.addr data).committedBy e.ringRef))) := by
  rw [exec_accessCompletion_of_burst began accessing aligned inside, completeAccess_write transfer]
  unfold State.writeCompletes
  rw [owner]
  rfl

theorem channelWriteDone_eq {w : State} (same : w.channel c = s.channel c) (current : (s.channel c).current = some cur)
    (n : Nat) : w.channelWriteDone c n = (w.setChannel c { s.channel c with
      current := some { cur with prog := { cur.prog with done := cur.prog.done + n } } }).afterCompletion c := by
  unfold State.channelWriteDone
  rw [modProg_of_current (cur := cur) (by rw [same]; exact current), same]
  rfl

/-! ## A channel's READ -/

theorem asksBack_of_channel (owner : e.owner = .requester (.ch c)) (target : Target) (good : Bool) (u : State) :
    u.asksBack e target good = false := by
  unfold State.asksBack
  rw [owner]

theorem givesBack_unasked (ref : RingRef) (u : State) : u.givesBack ref false = false := by
  unfold State.givesBack
  cases u.ring? ref.region <;> rfl

/-- What a channel's READ consumes of its ring (R13). -/
theorem readConsumed_of_channel (owner : e.owner = .requester (.ch c)) (target : Target) (out : ReadOutcome) (u : State) :
    readConsumed e target out u = u.onRef e.ringRef fun ref v => v.ringReadDone ref false := by
  unfold readConsumed
  rw [asksBack_of_channel owner]
  simp only [givesBack_unasked]

theorem ringReadDone_of_none {ref : RingRef} {u : State} (noRing : u.ring? ref.region = none) (back : Bool) :
    u.ringReadDone ref back = u := by
  unfold State.ringReadDone
  rw [noRing]

theorem ringReadDone_consumes {ref : RingRef} {u : State} {x : RegionRecord} {g : Ring}
    (ring : u.ring? ref.region = some (x, g)) :
    u.ringReadDone ref false = u.setRing ref.region { g with readReserved := g.readReserved - 32 } := by
  unfold State.ringReadDone
  rw [ring]
  rfl

theorem exec_channelRead {target : Target} (began : s.sched.accessStart = some start)
    (accessing : s.sched.list.find? (fun x => x.state = .accessing) = some e) (transfer : e.transfer = .read target)
    (aligned : e.addr % 32 = 0) (inside : e.addr + 32 ≤ 67108864) (owner : e.owner = .requester (.ch c)) :
    exec (.accessCompletion flips) s = .next (afterAccess
      (((readMade e flips (accessEnded e start s)).onRef e.ringRef fun ref v => v.ringReadDone ref false).channelReadDone c
        target ((accessEnded e start s).outcomeAt e.addr flips))) := by
  rw [exec_accessCompletion_of_burst began accessing aligned inside, completeAccess_read transfer, readCompletes_eq,
    readConsumed_of_channel owner]
  unfold State.reportRead
  rw [owner]

end

/-- The fault of a channel, before the last entry's retirement (R112). -/
def faultRecorded (c : ChannelId) (cur : Current) (w : State) : State :=
  (w.setChannel c { w.channel c with
    state := .halted .fault, stop := .none, slotA := .empty, slotB := .empty,
    current := some { cur with prog := { cur.prog with fault := true } } }).releaseReservations cur.desc

section
variable {w : State} {c : ChannelId} {cur : Current} (current : (w.channel c).current = some cur)
include current

theorem channelReadDone_faulted (faulted : cur.prog.fault = true) (target : Target) (out : ReadOutcome) :
    w.channelReadDone c target out = w.afterCompletion c := by
  unfold State.channelReadDone
  rw [current]
  exact if_pos faulted

theorem channelReadDone_of_data (sound : cur.prog.fault = false) {out : ReadOutcome} {bytes : List Byte}
    (good : out.data? = some bytes) (target : Target) :
    w.channelReadDone c target out = (w.deliver c target bytes).afterCompletion c := by
  unfold State.channelReadDone
  rw [current]
  dsimp only
  rw [if_neg (by rw [sound]; exact Bool.false_ne_true), good]

theorem channelReadDone_of_none (sound : cur.prog.fault = false) {out : ReadOutcome} (bad : out.data? = none)
    (active : (w.channel c).state = .running ∨ (w.channel c).state = .stopping) (target : Target) :
    w.channelReadDone c target out = w.channelFault c cur := by
  have faults : (w.channel c).state.active = true := by rcases active with running | stopping <;> simp [*, ChannelState.active]
  unfold State.channelReadDone
  rw [current]
  dsimp only
  rw [if_neg (by rw [sound]; exact Bool.false_ne_true), bad]
  exact if_pos faults

theorem channelFault_eq : w.channelFault c cur = (faultRecorded c cur w).afterCompletion c := by
  unfold State.channelFault State.modChannel faultRecorded
  rw [faulted_of_current current]

theorem deliver_playout {k : PlayoutId} {pos : Nat} (bytes : List Byte) :
    w.deliver c (.playout k pos) bytes = (w.setPlayout k ((w.playout k).delivered pos bytes)).setChannel c
      { w.channel c with current := some { cur with prog :=
        { cur.prog with done := cur.prog.done + (w.playout k).appended pos bytes } } } :=
  modProg_of_current (s := w.setPlayout k ((w.playout k).delivered pos bytes)) current _

end

theorem deliver_slotA {w : State} {c : ChannelId} {pos : Nat} (reserved : (w.channel c).slotA = .reserved pos)
    (bytes : List Byte) :
    w.deliver c (.copySlot .a) bytes = w.setChannel c { w.channel c with slotA := .full pos bytes } := by
  show w.setChannel c ((w.channel c).fillSlot .a bytes) = _
  unfold Channel.fillSlot
  rw [reserved]

theorem deliver_slotB {w : State} {c : ChannelId} {pos : Nat} (reserved : (w.channel c).slotB = .reserved pos)
    (bytes : List Byte) :
    w.deliver c (.copySlot .b) bytes = w.setChannel c { w.channel c with slotB := .full pos bytes } := by
  show w.setChannel c ((w.channel c).fillSlot .b bytes) = _
  unfold Channel.fillSlot
  rw [reserved]

end Sys2Proof.Proofs


/-! # A channel's completions (O44): the clauses -/

namespace Sys2Proof.Proofs

open Sys2Proof.Machine Sys2Proof.Laws

theorem completeRun_eq {s : State} {c : ChannelId} {cur : Current} {ended : State}
    (counted : s.endRun c cur.desc = ended) :
    s.completeRun c cur =
      if cur.desc.goesOn (satAdd 65535 1 cur.prog.runsCompleted) (s.channel c).stop = true then
        ended.modProg c Progress.nextRun
      else (ended.retire c .done).moveOn c := by
  rw [← counted]
  rfl

/-- Writing back the fields a fault, a copy slot or a count changes leaves the waiter lists alone. -/
theorem waitsForNoClaim_of_same {c : ChannelId} {s t : State} {cur cur' : Current}
    (before : (s.channel c).current = some cur) (after : (t.channel c).current = some cur')
    (desc : cur'.desc = cur.desc) (regions : t.regions = s.regions) (off : WaitsForNoClaim c s) : WaitsForNoClaim c t := by
  intro role r g named
  refine off role r g ?_
  rw [roleRing_of_current after, desc] at named
  rw [roleRing_of_current before]
  have rings : ∀ q, t.ring? q = s.ring? q := fun q => by
    unfold State.ring? State.region
    rw [regions]
  simp only [rings] at named
  exact named

section
variable {w : State} {c : ChannelId} {cur : Current}

theorem faultRecorded_channel : (faultRecorded c cur w).channel c = { w.channel c with
    state := .halted .fault, stop := .none, slotA := .empty, slotB := .empty,
    current := some { cur with prog := { cur.prog with fault := true } } } := by
  unfold faultRecorded State.releaseReservations
  cases cur.desc.dest <;> exact channel_setChannel_self ..

theorem faultRecorded_same : (faultRecorded c cur w).regions = w.regions ∧ (faultRecorded c cur w).notices = w.notices ∧
    (faultRecorded c cur w).sched = w.sched ∧ (faultRecorded c cur w).lau = w.lau := by
  unfold faultRecorded State.releaseReservations
  cases cur.desc.dest <;> exact ⟨rfl, rfl, rfl, rfl⟩

theorem faultRecorded_current : ((faultRecorded c cur w).channel c).current =
    some { cur with prog := { cur.prog with fault := true } } := by
  rw [faultRecorded_channel]

theorem faultRecorded_waitsForNoClaim (current : (w.channel c).current = some cur) (off : WaitsForNoClaim c w) :
    WaitsForNoClaim c (faultRecorded c cur w) := by
  obtain ⟨regions, -, -, -⟩ := faultRecorded_same (w := w) (c := c) (cur := cur)
  exact waitsForNoClaim_of_same current faultRecorded_current rfl regions off

theorem afterCompletion_faultRecorded : (faultRecorded c cur w).afterCompletion c =
    if w.entriesOf (.ch c) = 0 then (faultRecorded c cur w).retire c .dataError else faultRecorded c cur w := by
  obtain ⟨-, -, sched, -⟩ := faultRecorded_same (w := w) (c := c) (cur := cur)
  have entries : (faultRecorded c cur w).entriesOf (.ch c) = w.entriesOf (.ch c) := by rw [State.entriesOf, sched]; rfl
  rw [afterCompletion_halted faultRecorded_current (by rw [faultRecorded_channel]), entries]

/-- A fault with other entries of the channel left waits for them (R114). -/
theorem fault_of_entries (left : w.entriesOf (.ch c) ≠ 0) :
    (faultRecorded c cur w).afterCompletion c = faultRecorded c cur w := by
  rw [afterCompletion_faultRecorded, if_neg left]

/-- A fault at the channel's last entry retires its descriptor at once (R114). -/
theorem fault_of_last (current : (w.channel c).current = some cur) (off : WaitsForNoClaim c w)
    (last : w.entriesOf (.ch c) = 0) :
    ((faultRecorded c cur w).afterCompletion c).channel c = { w.channel c with
        state := .halted .fault, stop := .none, slotA := .empty, slotB := .empty, current := none } ∧
      ((faultRecorded c cur w).afterCompletion c).notices =
        w.notices.post (.descriptorDone c cur.desc.tag .dataError cur.prog.done cur.prog.runsCompleted) := by
  obtain ⟨-, notices, -, -⟩ := faultRecorded_same (w := w) (c := c) (cur := cur)
  rw [afterCompletion_faultRecorded, if_pos last,
    retire_channel_self (faultRecorded_waitsForNoClaim current off) .dataError faultRecorded_current,
    retire_notices .dataError faultRecorded_current, faultRecorded_channel, notices]
  exact ⟨rfl, rfl⟩

/-- A completion within a run ends nothing (R93). -/
theorem afterCompletion_midRun {x : Channel} {now : Current} (current : x.current = some now) (running : x.state = .running)
    (more : now.prog.done ≠ now.desc.length) : (w.setChannel c x).afterCompletion c = w.setChannel c x := by
  rw [afterCompletion_running (cur := now) (by rw [channel_setChannel_self, current])
    (by rw [channel_setChannel_self, running]), if_neg more]

end

/-- The check unit's part of a READ leaves the requesters, the regions and the list. -/
theorem readMade_same (e : BurstEntry) (flips : BurstBits) (u : State) :
    (readMade e flips u).channels = u.channels ∧ (readMade e flips u).playouts = u.playouts ∧
      (readMade e flips u).regions = u.regions ∧ (readMade e flips u).lau = u.lau ∧ (readMade e flips u).sched = u.sched := by
  rw [readMade_fields e flips u]
  exact ⟨rfl, rfl, rfl, rfl, rfl⟩

/-- What a ring read that is not given back leaves of a state, as the region table's record says (R13). -/
theorem onRef_consumes {u w : State} {ringRef : Option RingRef} (linear : ringRef = none → w = u)
    (ring : ∀ ref, ringRef = some ref → (u.ring? ref.region = none → w = u) ∧
      ∀ x g, u.ring? ref.region = some (x, g) →
        w = u.setRing ref.region { g with readReserved := g.readReserved - 32 }) :
    u.onRef ringRef (fun ref v => v.ringReadDone ref false) = w := by
  cases ringRef with
  | none => exact (linear rfl).symm
  | some ref =>
    obtain ⟨free, held⟩ := ring ref rfl
    cases known : u.ring? ref.region with
    | none => exact (ringReadDone_of_none known false).trans (free known).symm
    | some p => exact (ringReadDone_consumes known).trans (held p.1 p.2 known).symm

theorem onRef_ringReadDone_same (u : State) (ringRef : Option RingRef) (back : Bool) :
    (u.onRef ringRef fun ref v => v.ringReadDone ref back).channels = u.channels ∧
      (u.onRef ringRef fun ref v => v.ringReadDone ref back).playouts = u.playouts := by
  cases ringRef with
  | none => exact ⟨rfl, rfl⟩
  | some ref =>
    dsimp only [State.onRef]
    unfold State.ringReadDone State.ringRose
    dsimp only
    split
    · exact ⟨rfl, rfl⟩
    · split
      · split <;> exact ⟨rfl, rfl⟩
      · exact ⟨rfl, rfl⟩

theorem lau_workMoves (x : Lau) : WorkMoves fun u => u.lau = x where
  ring := fun _ _ _ _ _ _ _ h => h
  goes := fun _ _ _ _ h => h
  arb := fun _ _ h => h
  post := fun _ _ h => h
  raise := fun _ _ _ h => h
  served := fun _ _ h => h
  waiters := fun _ _ _ h => h
  refs := fun _ _ _ h => h
  channel := fun _ _ _ h => h
  reservations := fun _ _ h => h

/-- What a channel's completion leaves, with no service of the LAU to shorten. -/
theorem afterAccess_sameBut {v : State} (idle : v.lau.service = none) :
    afterAccess v = { v with sched := v.sched.testLazy, arb := (afterAccess v).arb } := by
  rw [afterAccess_of_idle idle]
  rfl

section
variable {w : State} {c : ChannelId} {cur : Current} (current : (w.channel c).current = some cur)
  (running : (w.channel c).state = .running) (sound : cur.prog.fault = false) {out : ReadOutcome}
include current running sound

/-- Data for the first copy slot, within a run. -/
theorem slotA_filled {pos : Nat} {bytes : List Byte} (reserved : (w.channel c).slotA = .reserved pos)
    (more : cur.prog.done < cur.desc.length) (idle : w.lau.service = none) (good : out.data? = some bytes) :
    (afterAccess (w.channelReadDone c (.copySlot .a) out)).channel c = { w.channel c with slotA := .full pos bytes } ∧
      (afterAccess (w.channelReadDone c (.copySlot .a) out)).notices = w.notices := by
  rw [channelReadDone_of_data current sound good, deliver_slotA reserved,
    afterCompletion_midRun (x := { w.channel c with slotA := .full pos bytes }) current running (Nat.ne_of_lt more),
    afterAccess_sameBut (by exact idle)]
  exact ⟨channel_setChannel_self .., rfl⟩

/-- An uncorrectable read faults its channel, whose descriptor retires if that was its last entry (R112, R114). -/
theorem read_faults (off : WaitsForNoClaim c w) (idle : w.lau.service = none) (bad : out.data? = none) (target : Target) :
    let t := afterAccess (w.channelReadDone c target out)
    (t.channel c).state = .halted .fault ∧ (t.channel c).stop = .none ∧ (t.channel c).slotA = .empty ∧
      (t.channel c).slotB = .empty ∧ (t.channel c).pending = (w.channel c).pending ∧
      (w.entriesOf (.ch c) = 0 → (t.channel c).current = none ∧
        t.notices = w.notices.post (.descriptorDone c cur.desc.tag .dataError cur.prog.done cur.prog.runsCompleted)) ∧
      (w.entriesOf (.ch c) ≠ 0 →
        (t.channel c).current = some { cur with prog := { cur.prog with fault := true } } ∧ t.notices = w.notices) := by
  obtain ⟨-, notices, -, lau⟩ := faultRecorded_same (w := w) (c := c) (cur := cur)
  have still : ((faultRecorded c cur w).afterCompletion c).lau.service = none := by
    rw [afterCompletion_keeps (lau_workMoves w.lau) c lau, idle]
  rw [channelReadDone_of_none current sound bad (Or.inl running), channelFault_eq current, afterAccess_sameBut still]
  by_cases last : w.entriesOf (.ch c) = 0
  · obtain ⟨cleared, posted⟩ := fault_of_last current off last
    refine ⟨?_, ?_, ?_, ?_, ?_, fun _ => ⟨?_, posted⟩, absurd last⟩ <;> exact (congrArg _ cleared : _)
  · rw [fault_of_entries last]
    have faulted := faultRecorded_channel (w := w) (c := c) (cur := cur)
    refine ⟨?_, ?_, ?_, ?_, ?_, (absurd · last), fun _ => ⟨?_, notices⟩⟩ <;> exact (congrArg _ faulted : _)

end

/-- Settles O44: a channel's part of a completion, case by case of what the completion brings. -/
theorem channelCompletions : Obligations.ChannelCompletions := by
  refine ⟨?after, ?writes, ?reads, ?written, ?read⟩
  case after =>
    intro s u ended goesOn c cur entries p current entriesAre posted progress endedIs goesOnIs
    obtain rfl : entries = s.entriesOf (.ch c) := entriesAre
    have counted : s.endRun c cur.desc = ended := by
      rw [endRun_eq current, endedIs, progress, show u = runPosted cur.desc s from posted]
    have nextRun : ended.modProg c Progress.nextRun = goesOn := by
      rw [modProg_of_current (cur := { cur with prog := p }) (by rw [endedIs, channel_setChannel_self]), goesOnIs, endedIs,
        channel_setChannel_self, setChannel_setChannel]
      rfl
    refine ⟨fun running => ⟨fun more => ?_, fun last => ⟨fun again going => ?_, fun ends => ?_⟩⟩,
      fun stopping => ⟨fun left => ?_, fun none_left part => ?_, fun none_left whole => ?_⟩,
      fun why halted => ⟨fun left => ?_, fun none_left => ?_⟩⟩
    · rw [afterCompletion_running current running, if_neg more]
    · rw [afterCompletion_running current running, if_pos last, completeRun_eq counted,
        if_pos ((goesOn_iff ..).mpr ⟨again, going⟩), nextRun]
    · rw [afterCompletion_running current running, if_pos last, completeRun_eq counted, if_neg]
      exact fun goes => ends.elim (· ((goesOn_iff ..).mp goes).1) (· ((goesOn_iff ..).mp goes).2)
    · rw [afterCompletion_stopping current stopping, if_neg (left)]
    · rw [afterCompletion_stopping current stopping, if_pos (none_left), State.retireStopped, if_neg part]
    · rw [afterCompletion_stopping current stopping, if_pos (none_left), State.retireStopped, if_pos whole,
        counted]
    · rw [afterCompletion_halted current halted, if_neg (left)]
    · rw [afterCompletion_halted current halted, if_pos (none_left)]
  case writes =>
    intro s start e data flips c cur began accessing transfer aligned inside owner current
    refine ⟨(accessEnded e start s).dieWrite e.addr data, rfl, ?_⟩
    have done := exec_channelWrite (flips := flips) began accessing transfer aligned inside owner
    intro out outIs
    have reaches : ∀ (w : State) (n : Nat), w.channel c = s.channel c →
        ((accessEnded e start s).dieWrite e.addr data).onRef e.ringRef State.ringWriteDone = w →
        ((accessEnded e start s).dieWrite e.addr data).committedBy e.ringRef = n → out w n := by
      rintro w n same rfl rfl
      refine (outIs _ _).mpr ⟨_, rfl, ?_⟩
      rw [done, channelWriteDone_eq same current]
      rfl
    refine ⟨fun linear => reaches _ 32 rfl (by rw [linear]; rfl) (by rw [linear]; rfl),
      fun ref x g h ringRef ring commits high highIs => ?_⟩
    have rose := ringWriteDone_eq (s := (accessEnded e start s).dieWrite e.addr data) ring commits high (by
      rw [highIs, highWater_iff, commits]
      exact Iff.rfl)
    obtain ⟨posts, quiet, committed⟩ := rose
    exact ⟨fun is => reaches _ _ rfl (by rw [ringRef]; exact posts is) (by rw [ringRef]; exact committed),
      fun is => reaches _ _ rfl (by rw [ringRef]; exact quiet is) (by rw [ringRef]; exact committed)⟩
  case reads =>
    intro s start e target flips m read c cur began accessing transfer aligned inside owner current bits readIs
    have outcome : (accessEnded e start s).outcomeAt e.addr flips = read := by rw [readIs, bits]; rfl
    have done := exec_channelRead (flips := flips) began accessing transfer aligned inside owner
    rw [outcome] at done
    obtain ⟨good, bad⟩ := readOutcome_data (readBytes s.mem e.addr 32) m
    rw [← readIs] at good bad
    have fields := readMade_fields e flips (accessEnded e start s)
    refine ⟨good, bad, readMade e flips (accessEnded e start s), ?base, ?told, ?untold, ?_⟩
    case base => rw [fields]; rfl
    case told =>
      intro delivers
      exact countOutcome_notices_of_data (outcome ▸ delivers) e.addr e.owner _
    case untold =>
      intro fails
      rw [readMade, owner]
      exact countOutcome_notices_of_none (outcome ▸ fails) e.addr (.ch c) _
    intro w linear ring out outIs
    obtain ⟨channels, ports, regions, -, -⟩ := readMade_same e flips (accessEnded e start s)
    have rings : ∀ q, (readMade e flips (accessEnded e start s)).ring? q = s.ring? q := fun q => by
      unfold State.ring? State.region
      rw [regions]
      rfl
    have consumed := onRef_consumes linear (by simpa only [rings] using ring)
    obtain ⟨channelsLeft, portsLeft⟩ := onRef_ringReadDone_same (readMade e flips (accessEnded e start s)) e.ringRef false
    rw [consumed] at channelsLeft portsLeft
    have same : w.channel c = s.channel c := congrArg (getAt · c) (channelsLeft.trans channels)
    have playouts : ∀ k, w.playout k = s.playout k := fun k => congrArg (getAt · k) (portsLeft.trans ports)
    have here : (w.channel c).current = some cur := by rw [same, current]
    rw [consumed] at done
    have reaches : ∀ u, w.channelReadDone c target read = u.afterCompletion c → out u := by
      intro u is
      rw [outIs, done, is]
      rfl
    refine ⟨fun faulted => reaches _ (channelReadDone_faulted here faulted ..), fun bytes sound data => ?_,
      fun sound fails active f fIs => ?_⟩
    · have placed := channelReadDone_of_data here sound data target
      refine ⟨fun pos slot reserved => reaches _ ?_, fun pos slot reserved => reaches _ ?_,
        fun k pos arrived kept appended port split all first bytesAre => reaches _ ?_⟩
      · rw [placed, slot, deliver_slotA (by rw [same]; exact reserved), same]
      · rw [placed, slot, deliver_slotB (by rw [same]; exact reserved), same]
      · obtain ⟨delivered, count⟩ := delivered_eq (s.playout k) pos bytes appended arrived kept split all first bytesAre
        rw [placed, port, deliver_playout here, playouts, delivered, count, same]
    · have faults := channelReadDone_of_none here sound fails (by rw [same]; exact active) target
      rw [channelFault_eq here] at faults
      refine ⟨fun r off dest => reaches _ ?_, fun k dest => reaches _ ?_⟩
      · rw [faults, faultRecorded, State.releaseReservations, dest, same, fIs]
      · rw [faults, faultRecorded, State.releaseReservations, dest, same, fIs, ← playouts k]
        rfl
  case written =>
    intro s start e data flips c cur began accessing transfer aligned inside owner linear current running more idle
    have done := exec_channelWrite (flips := flips) began accessing transfer aligned inside owner
    let base := (accessEnded e start s).dieWrite e.addr data
    let counted := { s.channel c with current := some { cur with prog := { cur.prog with done := cur.prog.done + 32 } } }
    have goesOn : base.channelWriteDone c 32 = base.setChannel c counted := by
      rw [channelWriteDone_eq (w := base) (s := s) rfl current]
      exact afterCompletion_midRun rfl running more
    rw [linear] at done
    have result := done.trans (congrArg (fun v => Host.Outcome.next (afterAccess v)) goesOn)
    have fields := afterAccess_sameBut (v := base.setChannel c counted) idle
    refine ⟨_, result, ?_⟩
    rw [fields]
    exact ⟨channel_setChannel_self .., fun b other => channel_setChannel_ne _ _ other, rfl, rfl, rfl, rfl, rfl, rfl⟩
  case read =>
    intro s start pos e flips m c cur began accessing transfer aligned inside owner linear current running sound reserved more
      idle off bits
    let base := readMade e flips (accessEnded e start s)
    have outcome : (accessEnded e start s).outcomeAt e.addr flips = readOutcome (readBytes s.mem e.addr 32) m := by
      rw [bits]; rfl
    have done := exec_channelRead (flips := flips) began accessing transfer aligned inside owner
    rw [outcome, linear] at done
    obtain ⟨good, bad⟩ := readOutcome_data (readBytes s.mem e.addr 32) m
    obtain ⟨channels, -, regions, lau, sched⟩ := readMade_same e flips (accessEnded e start s)
    have same : base.channel c = s.channel c := congrArg (getAt · c) channels
    have here : (base.channel c).current = some cur := by rw [same, current]
    have still : base.lau.service = none := (congrArg Lau.service lau).trans idle
    refine ⟨_, done, fun count => ?_, fun count => ?_⟩
    · have filled := slotA_filled here (by rw [same]; exact running) sound (by rw [same]; exact reserved) more still (good count)
      rw [same] at filled
      exact ⟨filled.1, filled.2.trans
        (countOutcome_notices_of_data (by rw [outcome, good count]; exact Option.some_ne_none _) e.addr e.owner _)⟩
    · have told : base.notices = s.notices.post (.checkFault e.addr (.ch c)) := by
        show (readMade _ _ _).notices = _
        rw [readMade, owner]
        exact countOutcome_notices_of_none (by rw [outcome]; exact bad count) e.addr (.ch c) _
      have entries : base.entriesOf (.ch c) + 1 = s.entriesOf (.ch c) := by
        rw [← entriesOf_accessEnded start accessing owner]
        exact congrArg (fun d : Scheduler => List.countP _ d.list + 1) sched
      have faults := read_faults here (by rw [same]; exact running) sound (waitsForNoClaim_of_same current here rfl regions off)
        still (bad count) (.copySlot .a)
      rw [same, told] at faults
      obtain ⟨state, stop, slotA, slotB, pending, last, others⟩ := faults
      exact ⟨state, stop, slotA, slotB, pending, fun one => last (Nat.succ.inj (entries.trans one)),
        fun two => others (by rw [Nat.succ.inj (entries.trans two)]; exact one_ne_zero)⟩

end Sys2Proof.Proofs


/-! # The service of the LAU: its steps, said once -/

namespace Sys2Proof.Proofs

open Sys2Proof.Machine Sys2Proof.Laws

/-! ## The end of service (R152) -/

theorem releaseClaim_of_no_ring {s : State} {role : Role} {r : RegionId} (noRing : s.ring? r = none) :
    s.releaseClaim role r = s := by
  unfold State.releaseClaim
  rw [noRing]

theorem releaseClaim_of_no_waiter {s : State} {role : Role} {r : RegionId} {x : RegionRecord} {g : Ring}
    (ring : s.ring? r = some (x, g)) (unwanted : g.waiters role = []) :
    s.releaseClaim role r = s.setRing r (g.setHolder role none) := by
  unfold State.releaseClaim Ring.release
  rw [ring]
  dsimp only
  rw [unwanted]

theorem releaseClaim_of_waiter {s : State} {role : Role} {r : RegionId} {x : RegionRecord} {g : Ring} {c : ChannelId}
    {rest : List ChannelId} (ring : s.ring? r = some (x, g)) (wanted : g.waiters role = c :: rest) :
    s.releaseClaim role r =
      (s.setRing r ((g.setHolder role (some (.ch c))).setWaiters role rest)).takeClaims c := by
  unfold State.releaseClaim Ring.release
  rw [ring]
  dsimp only
  rw [wanted]

theorem releaseClaim_lau (role : Role) (r : RegionId) (s : State) : (s.releaseClaim role r).lau = s.lau :=
  releaseClaim_keeps (lau_workMoves s.lau).toClaimMoves role r rfl

/-- The claim of a service is given up. -/
def claimReleased (sv : LauService) (s : State) : State :=
  match sv.claim with
  | some role => s.releaseClaim role sv.request.region
  | none => s

theorem claimReleased_of_none {sv : LauService} (unclaimed : sv.claim = none) (s : State) : claimReleased sv s = s := by
  unfold claimReleased
  rw [unclaimed]

theorem claimReleased_of_some {sv : LauService} {role : Role} (claim : sv.claim = some role) (s : State) :
    claimReleased sv s = s.releaseClaim role sv.request.region := by
  unfold claimReleased
  rw [claim]

theorem claimReleased_lau (sv : LauService) (s : State) : (claimReleased sv s).lau = s.lau := by
  unfold claimReleased
  split
  · exact releaseClaim_lau ..
  · rfl

section
variable {s : State} {sv : LauService} (service : s.lau.service = some sv)
include service

theorem lauFinish_eq : s.lauFinish =
    ((claimReleased sv s).handOver sv.request.tag (sv.response s.lau.buffer).1 (sv.response s.lau.buffer).2).setLau
      { s.lau with service := none, buffer := Vector.replicate 8 none } := by
  have finished : s.lauFinish = ((claimReleased sv s).handOver sv.request.tag (sv.response s.lau.buffer).1
      (sv.response s.lau.buffer).2).setLau { ((claimReleased sv s).handOver sv.request.tag (sv.response s.lau.buffer).1
        (sv.response s.lau.buffer).2).lau with service := none, buffer := Lau.noBuffer } := by
    unfold State.lauFinish
    rw [service]
    rfl
  rw [finished, handOver_lau, claimReleased_lau]
  rfl

theorem endService_eq : s.endService = State.serveQueue s.lau.queue s.lauFinish := by
  unfold State.endService
  rw [lauFinish_eq service]
  rfl

theorem lauWriteDone_eq (n : Nat) : s.lauWriteDone n = s.lauCounted { sv with completed := sv.completed + n } := by
  unfold State.lauWriteDone
  rw [service]

end

theorem lauCounted_of_more {s : State} {sv : LauService} (more : sv.completed ≠ sv.toAdmit) :
    s.lauCounted sv = s.setLau { s.lau with service := some sv } := if_neg more

theorem lauCounted_of_all {s : State} {sv : LauService} (all : sv.completed = sv.toAdmit) :
    s.lauCounted sv = (s.setLau { s.lau with service := some sv }).endService := if_pos all

/-! ## Service start (R145) -/

/-- What a request that passed its checks starts its service with: the number of bytes it asks for, the claim, and the state with
that claim taken. -/
def BeginsWith (r : LauRequest) (d : RegionRecord) (total : Nat) (claim : Option Role) (t claimed : State) : Prop :=
  (∃ off data, r.op = .put off data ∧ total = data.length ∧ claim = none ∧ claimed = t) ∨
  (∃ off n, r.op = .get off n ∧ total = n ∧ claim = none ∧ claimed = t) ∨
  (∃ data g, r.op = .append data ∧ d.kind = .ring g ∧ total = data.length ∧ claim = some .writer ∧
    claimed = t.setRing r.region { g with writerClaim := some .lau }) ∨
  (∃ n g, r.op = .take n ∧ d.kind = .ring g ∧ total = min n g.committedFill ∧ claim = some .reader ∧
    claimed = t.setRing r.region { g with readerClaim := some .lau })

/-- The record of a service that starts. -/
def freshService (r : LauRequest) (d : RegionRecord) (total : Nat) (claim : Option Role) : LauService where
  request := r
  base := d.base
  length := d.length
  toAdmit := total
  admitted := 0
  completed := 0
  claim := claim
  firstFailure := none
  discarded := 0
  dropped := 0
  cutShort := false

theorem lauTakeClaim_of_no_role {r : LauRequest} (noRole : r.op.role = none) (t : State) : t.lauTakeClaim r = t := by
  unfold State.lauTakeClaim
  rw [noRole]

theorem lauTakeClaim_of_role {r : LauRequest} {t : State} {role : Role} {d : RegionRecord} {g : Ring}
    (hasRole : r.op.role = some role) (record : (t.region r.region).record = some d) (kind : d.kind = .ring g) :
    t.lauTakeClaim r = t.setRing r.region (g.setHolder role (some .lau)) := by
  unfold State.lauTakeClaim
  rw [hasRole, ring_eq record kind]

theorem lauBegin_eq {r : LauRequest} {t claimed : State} {d : RegionRecord} {total : Nat} {claim : Option Role}
    (record : (t.region r.region).record = some d) (how : BeginsWith r d total claim t claimed) :
    t.lauBegin r = claimed.setLau
      { t.lau with service := some (freshService r d total claim), buffer := Vector.replicate 8 none } := by
  have starts : t.lauBegin r = (t.lauTakeClaim r).setLau
      { t.lau with service := some (lauNewService r d), buffer := Lau.noBuffer } := by
    unfold State.lauBegin
    rw [record]
  rw [starts]
  obtain ⟨off, data, op, rfl, rfl, rfl⟩ | ⟨off, n, op, rfl, rfl, rfl⟩ | ⟨data, g, op, kind, rfl, rfl, rfl⟩ |
    ⟨n, g, op, kind, rfl, rfl, rfl⟩ := how
  · rw [lauTakeClaim_of_no_role (by rw [op]; rfl), lauNewService, op]
    rfl
  · rw [lauTakeClaim_of_no_role (by rw [op]; rfl), lauNewService, op]
    rfl
  · rw [lauTakeClaim_of_role (role := .writer) (by rw [op]; rfl) record kind, lauNewService, op]
    rfl
  · rw [lauTakeClaim_of_role (role := .reader) (by rw [op]; rfl) record kind, lauNewService, op, kind]
    rfl

theorem serveQueue_refused {r : LauRequest} {rest : List LauRequest} {s : State} {st : Status}
    (refused : lauCheck r (s.setLau { s.lau with queue := rest }) = some st) :
    State.serveQueue (r :: rest) s =
      State.serveQueue rest ((s.setLau { s.lau with queue := rest }).handOver r.tag st []) := by
  show (match lauCheck r _ with | some st => _ | none => _) = _
  rw [refused]

/-- The LAU as a service starts, with these requests behind it. -/
def freshLau (rest : List LauRequest) (sv : LauService) : Lau where
  queue := rest
  service := some sv
  buffer := Vector.replicate 8 none

theorem serveQueue_begins {r : LauRequest} {rest : List LauRequest} {s claimed : State} {d : RegionRecord} {total : Nat}
    {claim : Option Role} (passes : lauCheck r (s.setLau { s.lau with queue := rest }) = none)
    (record : (s.region r.region).record = some d)
    (how : BeginsWith r d total claim (s.setLau { s.lau with queue := rest }) claimed) :
    State.serveQueue (r :: rest) s =
      if total = 0 then State.serveQueue rest (claimed.setLau (freshLau rest (freshService r d total claim))).lauFinish
      else claimed.setLau (freshLau rest (freshService r d total claim)) := by
  have begins : (s.setLau { s.lau with queue := rest }).lauBegin r =
      claimed.setLau (freshLau rest (freshService r d total claim)) := lauBegin_eq record how
  show (match lauCheck r _ with | some st => _ | none => _) = _
  rw [passes]
  dsimp only
  rw [begins]
  show (if some total = some 0 then _ else _) = _
  simp only [Option.some.injEq]

/-! ## Shortening (R150) -/

section
variable {s : State} {sv : LauService}

theorem lauShorten_of_none (idle : s.lau.service = none) : s.lauShorten = s := by
  unfold State.lauShorten
  rw [idle]

theorem lauShorten_of_other (service : s.lau.service = some sv) (other : ∀ n, sv.request.op ≠ .take n) :
    s.lauShorten = s := by
  unfold State.lauShorten
  rw [service]
  dsimp only
  cases op : sv.request.op with
  | take n => exact absurd op (other n)
  | put off data => rfl
  | get off n => rfl
  | append data => rfl

theorem lauShorten_take {n : Nat} (service : s.lau.service = some sv) (op : sv.request.op = .take n) :
    s.lauShorten = match s.ring? sv.request.region with
      | some (_, g) => if sv.admitted < sv.toAdmit && g.committedFill < 32 then
          let t := s.setService { sv with toAdmit := sv.admitted }
          if s.entriesOf .lau = 0 then t.endService else t
        else s
      | none => s := by
  unfold State.lauShorten
  rw [service]
  dsimp only
  rw [op]
  cases s.ring? sv.request.region <;> rfl

end

end Sys2Proof.Proofs


/-! # The LAU's completions: what each does (R147 to R151) -/

namespace Sys2Proof.Proofs

open Sys2Proof.Machine Sys2Proof.Laws

/-! ## The response buffer -/

theorem fillBuffer_eq {v filled : Vector (Option (List Byte)) 8} {pos : Nat} {data : List Byte}
    (is : ∀ k, getAt filled k = if k.val = pos / 32 then some data else getAt v k) : fillBuffer v pos data = filled := by
  refine table_ext fun k => ?_
  rw [is k]
  unfold fillBuffer
  cases place : idx? 8 (pos / 32) with
  | none =>
    have beyond : k.val ≠ pos / 32 := fun same => by rw [← same, idx_val] at place; cases place
    rw [if_neg beyond]
  | some i =>
    have here := idx_some place
    dsimp only
    rw [getAt_setAt]
    by_cases same : k = i
    · rw [if_pos same, if_pos (by rw [same, here])]
    · rw [if_neg same, if_neg fun equal => same (Fin.ext (equal.trans here))]

theorem emptyAfter_eq {v emptied : Vector (Option (List Byte)) 8} {pos : Nat}
    (is : ∀ k, getAt emptied k = if pos < 32 * k.val then none else getAt v k) : emptyAfter v pos = emptied := by
  refine table_ext fun k => ?_
  rw [is k]
  show (Vector.ofFn _)[k.val] = _
  rw [Vector.getElem_ofFn]

/-! ## A failure (R148, R151) -/

theorem afterFailure_iff (sv : LauService) (pos : Nat) :
    sv.afterFailure pos = true ↔ ∃ f, sv.firstFailure = some f ∧ f.pos < pos := by
  unfold LauService.afterFailure
  cases sv.firstFailure with
  | none => simp
  | some f => simp

theorem afterFailure_eq_false {sv : LauService} {pos : Nat} (first : ¬ ∃ f, sv.firstFailure = some f ∧ f.pos < pos) :
    sv.afterFailure pos = false :=
  Bool.eq_false_iff.mpr fun after => first ((afterFailure_iff sv pos).mp after)

theorem fail_of_after {sv : LauService} {pos : Nat} (after : sv.afterFailure pos = true) (off : Nat) :
    sv.fail pos off = { sv with toAdmit := sv.admitted } := if_pos after

theorem fail_of_first {sv : LauService} {pos : Nat} (first : sv.afterFailure pos = false) (off : Nat) :
    sv.fail pos off = { sv with firstFailure := some { pos := pos, offset := off }, toAdmit := sv.admitted } :=
  if_neg (by rw [first]; exact Bool.false_ne_true)

/-! ## The LAU's part of a READ -/

section
variable {w : State} {sv : LauService} {e : BurstEntry} {pos off n : Nat} {out : ReadOutcome} {bytes : List Byte}
  (service : w.lau.service = some sv)
include service

theorem lauReadDone_get (op : sv.request.op = .get off n) (back : Bool) :
    w.lauReadDone e pos out back = w.lauGetDone pos (lauOffset sv e) out.data? := by
  unfold State.lauReadDone
  rw [service]
  dsimp only
  rw [op]

theorem lauReadDone_take (op : sv.request.op = .take n) (back : Bool) :
    w.lauReadDone e pos out back = w.lauTakeDone pos (lauOffset sv e) out.data? back := by
  unfold State.lauReadDone
  rw [service]
  dsimp only
  rw [op]

theorem lauGetDone_of_data (off : Nat) : w.lauGetDone pos off (some bytes) =
    (w.setLau { w.lau with buffer := fillBuffer w.lau.buffer pos bytes }).lauCounted
      { sv with completed := sv.completed + 32 } := by
  unfold State.lauGetDone
  rw [service]

theorem lauGetDone_of_none (off : Nat) : w.lauGetDone pos off none =
    w.lauCounted { sv.fail pos off with completed := sv.completed + 32 } := by
  unfold State.lauGetDone
  rw [service]

theorem lauTakeDone_of_data (first : sv.afterFailure pos = false) (off : Nat) (back : Bool) :
    w.lauTakeDone pos off (some bytes) back =
      (w.setLau { w.lau with buffer := fillBuffer w.lau.buffer pos bytes }).lauCounted
        { sv with completed := sv.completed + 32 } := by
  unfold State.lauTakeDone
  rw [service]
  dsimp only
  rw [if_neg (by rw [first]; exact Bool.false_ne_true)]

theorem lauTakeDone_of_dropped (after : sv.afterFailure pos = true) (off : Nat) (back : Bool) :
    w.lauTakeDone pos off (some bytes) back = w.lauCounted { sv with
      completed := sv.completed + 32, discarded := sv.discarded + (if back then 0 else 32) } := by
  unfold State.lauTakeDone
  rw [service]
  dsimp only
  rw [if_pos after]

theorem lauTakeDone_of_later_failure (after : sv.afterFailure pos = true) (off : Nat) (back : Bool) :
    w.lauTakeDone pos off none back = w.lauCounted { sv with
      completed := sv.completed + 32, toAdmit := sv.admitted, discarded := sv.discarded + 32 } := by
  unfold State.lauTakeDone LauService.newlyDiscarded
  rw [service]
  dsimp only
  rw [if_pos after, if_pos after, fail_of_after after]
  rfl

theorem lauTakeDone_of_first_failure (first : sv.afterFailure pos = false) (off : Nat) (back : Bool) :
    w.lauTakeDone pos off none back =
      (w.setLau { w.lau with buffer := emptyAfter w.lau.buffer pos }).lauCounted { sv with
        completed := sv.completed + 32, toAdmit := sv.admitted,
        firstFailure := some { pos := pos, offset := off },
        discarded := sv.discarded + (32 * filledAfter w.lau.buffer pos + (if sv.firstFailure.isSome then 32 else 0)) } := by
  have notAfter : ¬ sv.afterFailure pos = true := by rw [first]; exact Bool.false_ne_true
  unfold State.lauTakeDone LauService.newlyDiscarded
  rw [service]
  dsimp only
  rw [if_neg notAfter, if_neg notAfter, fail_of_first first]

theorem asksBack_of_take (owner : e.owner = .requester .lau) (op : sv.request.op = .take n) (good : Bool) :
    w.asksBack e (.lauBuffer pos) good = (good && sv.afterFailure pos) := by
  unfold State.asksBack
  rw [owner]
  show w.lauAsksBack pos good = _
  unfold State.lauAsksBack
  rw [service]
  dsimp only
  rw [op]

end

/-! ## The accesses of the LAU -/

section
variable {s : State} {start : Nat} {e : BurstEntry} {flips : BurstBits} {sv : LauService}
  (began : s.sched.accessStart = some start)
  (accessing : s.sched.list.find? (fun x => x.state = .accessing) = some e)
  (aligned : e.addr % 32 = 0) (inside : e.addr + 32 ≤ 67108864) (owner : e.owner = .requester .lau)
include began accessing aligned inside owner

theorem exec_lauWrite {data : List Byte} (transfer : e.transfer = .write data) :
    exec (.accessCompletion flips) s = .next (afterAccess
      ((((accessEnded e start s).dieWrite e.addr data).onRef e.ringRef State.ringWriteDone).lauWriteDone
        (((accessEnded e start s).dieWrite e.addr data).committedBy e.ringRef))) := by
  rw [exec_accessCompletion_of_burst began accessing aligned inside, completeAccess_write transfer]
  unfold State.writeCompletes
  rw [owner]
  rfl

/-- A READ of a LINEAR region. -/
theorem exec_lauGet {pos : Nat} (transfer : e.transfer = .read (.lauBuffer pos)) (linear : e.ringRef = none) :
    exec (.accessCompletion flips) s = .next (afterAccess ((readMade e flips (accessEnded e start s)).lauReadDone e pos
      ((accessEnded e start s).outcomeAt e.addr flips) false)) := by
  rw [exec_accessCompletion_of_burst began accessing aligned inside, completeAccess_read transfer, readCompletes_eq]
  unfold State.reportRead readConsumed
  rw [owner, linear]
  rfl

/-- A READ of a ring: given back where the LAU asks for it and the ring can take it. -/
theorem exec_lauTake {pos : Nat} {ref : RingRef} {back : Bool} (transfer : e.transfer = .read (.lauBuffer pos))
    (ringRef : e.ringRef = some ref)
    (gives : (readMade e flips (accessEnded e start s)).givesBack ref ((readMade e flips (accessEnded e start s)).asksBack e
      (.lauBuffer pos) ((accessEnded e start s).outcomeAt e.addr flips).data?.isSome) = back) :
    exec (.accessCompletion flips) s = .next (afterAccess
      (((readMade e flips (accessEnded e start s)).ringReadDone ref back).lauReadDone e pos
        ((accessEnded e start s).outcomeAt e.addr flips) back)) := by
  rw [exec_accessCompletion_of_burst began accessing aligned inside, completeAccess_read transfer, readCompletes_eq]
  unfold State.reportRead readConsumed
  rw [owner, ringRef]
  dsimp only [State.onRef]
  rw [gives]

end

theorem givesBack_of_ring {u : State} {ref : RingRef} {x : RegionRecord} {g : Ring}
    (ring : u.ring? ref.region = some (x, g)) (ask : Bool) :
    u.givesBack ref ask = (ask && g.canGiveBack x.length ref.offset) := by
  unfold State.givesBack
  rw [ring]

/-- A burst given back raises the fill, which may reach the threshold (R14, R15). -/
theorem ringReadDone_gives {u : State} {ref : RingRef} {x : RegionRecord} {g : Ring}
    (ring : u.ring? ref.region = some (x, g)) :
    u.ringReadDone ref true = u.ringRose ref.region (g.giveBack ref.offset) := by
  unfold State.ringReadDone
  rw [ring]
  exact if_pos rfl

theorem ringRose_of_high {u : State} {r : RegionId} {h : Ring} (high : h.highWater = true) :
    u.ringRose r h = (u.setRing r { h with armed := false }).setNotices
      (u.notices.post (.ringHighWater r h.committedFill)) := by
  unfold State.ringRose Ring.disarm
  rw [if_pos high, if_pos high]
  rfl

theorem ringRose_of_low {u : State} {r : RegionId} {h : Ring} (low : ¬ h.highWater = true) :
    u.ringRose r h = u.setRing r h := by
  unfold State.ringRose Ring.disarm
  rw [if_neg low, if_neg low]

end Sys2Proof.Proofs


/-! # The LAU's completions (O57) -/

namespace Sys2Proof.Proofs

open Sys2Proof.Machine Sys2Proof.Laws

/-! ## The response (R147 to R151, R154) -/

section
variable (sv : LauService) (buf : Vector (Option (List Byte)) 8)

theorem response_put {off : Nat} {data : List Byte} (op : sv.request.op = .put off data) :
    sv.response buf = if sv.cutShort then (.restarted, u32 sv.completed) else (.ok, []) := by
  unfold LauService.response
  rw [op]

theorem response_append {data : List Byte} (op : sv.request.op = .append data) :
    sv.response buf =
      if sv.cutShort then (.restarted, u32 sv.completed ++ u32 sv.dropped) else (.ok, u32 sv.dropped) := by
  unfold LauService.response
  rw [op]

theorem response_get {off n : Nat} (op : sv.request.op = .get off n) :
    sv.response buf = match sv.firstFailure with
      | some f => (.dataError, u32 f.offset ++ bufferBytes buf f.pos)
      | none => (if sv.cutShort then .restarted else .ok, bufferBytes buf 256) := by
  unfold LauService.response
  rw [op]
  cases sv.firstFailure <;> rfl

theorem response_take {n : Nat} (op : sv.request.op = .take n) :
    sv.response buf = match sv.firstFailure with
      | some f => (.dataError, u32 f.offset ++ bufferBytes buf f.pos ++ u32 sv.discarded)
      | none => (if sv.cutShort then .restarted else .ok, bufferBytes buf 256) := by
  unfold LauService.response
  rw [op]
  cases sv.firstFailure <;> rfl

end

/-! ## What a completion leads to -/

/-- The event ends, from the state the requester's part left, with the service counted on. -/
def Counts (flips : BurstBits) (s w : State) (sw : LauService) : Prop :=
  exec (.accessCompletion flips) s = .next (afterAccess (w.lauCounted sw))

theorem counts_iff (flips : BurstBits) (s w : State) (sw : LauService) :
    Counts flips s w sw ↔ ∃ t v, t = w.setLau { w.lau with service := some sw } ∧
      v = (if sw.completed = sw.toAdmit then t.endService else t) ∧
      exec (.accessCompletion flips) s = .next (v.setSched v.sched.testLazy).report := by
  constructor
  · exact fun counts => ⟨_, _, rfl, rfl, counts⟩
  · rintro ⟨t, v, rfl, rfl, ends⟩
    exact ends

section
variable {s : State} {start : Nat} {e : BurstEntry} {flips : BurstBits} {sv : LauService}
  (began : s.sched.accessStart = some start)
  (accessing : s.sched.list.find? (fun x => x.state = .accessing) = some e)
  (aligned : e.addr % 32 = 0) (inside : e.addr + 32 ≤ 67108864) (owner : e.owner = .requester .lau)
  (service : s.lau.service = some sv)
include began accessing aligned inside owner service

/-- A WRITE counts the bytes written, or committed to the ring. -/
theorem lauWrite_counts {data : List Byte} (transfer : e.transfer = .write data) {w : State} {n : Nat}
    (ringPart : ((accessEnded e start s).dieWrite e.addr data).onRef e.ringRef State.ringWriteDone = w)
    (committed : ((accessEnded e start s).dieWrite e.addr data).committedBy e.ringRef = n) :
    Counts flips s w { sv with completed := sv.completed + n } := by
  have serving : w.lau.service = some sv := by
    rw [← ringPart, ← service]
    exact congrArg Lau.service (onRef_keeps (P := fun u => u.lau = s.lau) e.ringRef (fun ref u kept => by
      unfold State.ringWriteDone State.ringRose
      dsimp only
      split
      · exact kept
      · split
        · exact kept
        · split <;> exact kept) rfl)
  unfold Counts
  rw [exec_lauWrite began accessing aligned inside owner transfer, ringPart, committed, lauWriteDone_eq serving]

omit began accessing aligned inside owner in
theorem readMade_service : (readMade e flips (accessEnded e start s)).lau.service = some sv := by
  obtain ⟨-, -, -, lau, -⟩ := readMade_same e flips (accessEnded e start s)
  exact (congrArg Lau.service lau).trans service

/-- A GET's burst fills its position. -/
theorem lauGet_counts_of_data {pos off n : Nat} {bytes : List Byte} (transfer : e.transfer = .read (.lauBuffer pos))
    (linear : e.ringRef = none) (op : sv.request.op = .get off n)
    (good : ((accessEnded e start s).outcomeAt e.addr flips).data? = some bytes) :
    Counts flips s ((readMade e flips (accessEnded e start s)).setLau
      { s.lau with buffer := fillBuffer s.lau.buffer pos bytes }) { sv with completed := sv.completed + 32 } := by
  obtain ⟨-, -, -, lau, -⟩ := readMade_same e flips (accessEnded e start s)
  have serving := readMade_service (e := e) (start := start) (flips := flips) service
  unfold Counts
  rw [exec_lauGet began accessing aligned inside owner transfer linear, lauReadDone_get serving op, good,
    lauGetDone_of_data serving, lau]
  rfl

/-- A GET's burst that cannot be read. -/
theorem lauGet_counts_of_none {pos off n : Nat} (transfer : e.transfer = .read (.lauBuffer pos))
    (linear : e.ringRef = none) (op : sv.request.op = .get off n)
    (bad : ((accessEnded e start s).outcomeAt e.addr flips).data? = none) :
    Counts flips s (readMade e flips (accessEnded e start s))
      { sv.fail pos (e.addr - sv.base) with completed := sv.completed + 32 } := by
  have serving := readMade_service (e := e) (start := start) (flips := flips) service
  unfold Counts
  rw [exec_lauGet began accessing aligned inside owner transfer linear, lauReadDone_get serving op, bad,
    lauGetDone_of_none serving, lauOffset, linear]

end

/-! ## A TAKE's burst -/

section
variable {s : State} {start : Nat} {e : BurstEntry} {flips : BurstBits} {sv : LauService}
  (began : s.sched.accessStart = some start)
  (accessing : s.sched.list.find? (fun x => x.state = .accessing) = some e)
  (aligned : e.addr % 32 = 0) (inside : e.addr + 32 ≤ 67108864) (owner : e.owner = .requester .lau)
  (service : s.lau.service = some sv) {pos n : Nat} (transfer : e.transfer = .read (.lauBuffer pos))
  {ref : RingRef} (ringRef : e.ringRef = some ref) (op : sv.request.op = .take n)
  {x : RegionRecord} {g : Ring} (ring : s.ring? ref.region = some (x, g))
include began accessing aligned inside owner service transfer ringRef op ring

omit began accessing aligned inside owner service transfer ringRef op in
theorem readMade_ring : (readMade e flips (accessEnded e start s)).ring? ref.region = some (x, g) := by
  obtain ⟨-, -, regions, -, -⟩ := readMade_same e flips (accessEnded e start s)
  rw [← ring]
  unfold State.ring? State.region
  rw [regions]
  rfl

/-- A burst of a TAKE that is not asked back is consumed. -/
theorem exec_lauTake_consumes
    (unasked : (((accessEnded e start s).outcomeAt e.addr flips).data?.isSome && sv.afterFailure pos) = false ∨
      g.canGiveBack x.length ref.offset = false) :
    exec (.accessCompletion flips) s = .next (afterAccess
      (((readMade e flips (accessEnded e start s)).setRing ref.region
        { g with readReserved := g.readReserved - 32 }).lauTakeDone pos ref.offset
        ((accessEnded e start s).outcomeAt e.addr flips).data? false)) := by
  have serving := readMade_service (e := e) (start := start) (flips := flips) service
  have rings := readMade_ring (e := e) (start := start) (flips := flips) ring
  have kept : ((readMade e flips (accessEnded e start s)).setRing ref.region
      { g with readReserved := g.readReserved - 32 }).lau.service = some sv := serving
  rw [exec_lauTake (back := false) began accessing aligned inside owner transfer ringRef, ringReadDone_consumes rings,
    lauReadDone_take kept op, lauOffset, ringRef]
  rw [asksBack_of_take serving owner op, givesBack_of_ring rings]
  rcases unasked with unasked | refused
  · rw [unasked, Bool.false_and]
  · rw [refused, Bool.and_false]

/-- A burst of a TAKE behind its failure goes back to the ring. -/
theorem exec_lauTake_gives (good : ((accessEnded e start s).outcomeAt e.addr flips).data? ≠ none)
    (after : sv.afterFailure pos = true) (back : g.canGiveBack x.length ref.offset = true) :
    exec (.accessCompletion flips) s = .next (afterAccess
      (((readMade e flips (accessEnded e start s)).ringRose ref.region (g.giveBack ref.offset)).lauTakeDone pos ref.offset
        ((accessEnded e start s).outcomeAt e.addr flips).data? true)) := by
  have serving := readMade_service (e := e) (start := start) (flips := flips) service
  have rings := readMade_ring (e := e) (start := start) (flips := flips) ring
  have rose : ((readMade e flips (accessEnded e start s)).ringRose ref.region (g.giveBack ref.offset)).lau.service =
      some sv := by
    unfold State.ringRose
    dsimp only
    split <;> exact serving
  rw [exec_lauTake (back := true) began accessing aligned inside owner transfer ringRef, ringReadDone_gives rings,
    lauReadDone_take rose op, lauOffset, ringRef]
  rw [asksBack_of_take serving owner op, givesBack_of_ring rings, Option.isSome_iff_ne_none.mpr good, after, back]
  rfl

/-- The state in which a TAKE's burst has been consumed. -/
def burstConsumed (e : BurstEntry) (start : Nat) (flips : BurstBits) (r : RegionId) (g : Ring) (s : State) : State :=
  (readMade e flips (accessEnded e start s)).setRing r { g with readReserved := g.readReserved - 32 }

omit began accessing aligned inside owner transfer ringRef op ring in
theorem burstConsumed_service (r : RegionId) (h : Ring) : (burstConsumed e start flips r h s).lau.service = some sv :=
  readMade_service (e := e) (start := start) (flips := flips) service

omit began accessing aligned inside owner service transfer ringRef op ring in
theorem burstConsumed_lau (r : RegionId) (h : Ring) : (burstConsumed e start flips r h s).lau = s.lau := by
  obtain ⟨-, -, -, lau, -⟩ := readMade_same e flips (accessEnded e start s)
  exact lau

/-- A good burst before any failure fills its position. -/
theorem lauTake_fills {bytes : List Byte} (first : sv.afterFailure pos = false)
    (good : ((accessEnded e start s).outcomeAt e.addr flips).data? = some bytes) :
    Counts flips s ((burstConsumed e start flips ref.region g s).setLau
      { s.lau with buffer := fillBuffer s.lau.buffer pos bytes }) { sv with completed := sv.completed + 32 } := by
  have filled := lauTakeDone_of_data (bytes := bytes)
    (burstConsumed_service (e := e) (start := start) (flips := flips) service ref.region g) first ref.offset false
  rw [burstConsumed_lau] at filled
  unfold Counts
  rw [exec_lauTake_consumes began accessing aligned inside owner service transfer ringRef op ring
    (Or.inl (by rw [first, Bool.and_false])), good, ← filled]
  rfl

/-- A good burst behind a failure that the ring cannot take back is discarded. -/
theorem lauTake_discards (after : sv.afterFailure pos = true) (stays : g.canGiveBack x.length ref.offset = false)
    (good : ((accessEnded e start s).outcomeAt e.addr flips).data? ≠ none) :
    Counts flips s (burstConsumed e start flips ref.region g s)
      { sv with completed := sv.completed + 32, discarded := sv.discarded + 32 } := by
  obtain ⟨bytes, data⟩ := Option.ne_none_iff_exists'.mp good
  have dropped := lauTakeDone_of_dropped (bytes := bytes)
    (burstConsumed_service (e := e) (start := start) (flips := flips) service ref.region g) after ref.offset false
  unfold Counts
  rw [exec_lauTake_consumes began accessing aligned inside owner service transfer ringRef op ring (Or.inr stays), data]
  exact congrArg (fun v => Host.Outcome.next (afterAccess v)) dropped

/-- A good burst behind a failure goes back to the ring where it can. -/
theorem lauTake_givesBack (after : sv.afterFailure pos = true) (back : g.canGiveBack x.length ref.offset = true)
    (good : ((accessEnded e start s).outcomeAt e.addr flips).data? ≠ none) :
    Counts flips s ((readMade e flips (accessEnded e start s)).ringRose ref.region (g.giveBack ref.offset))
      { sv with completed := sv.completed + 32 } := by
  have serving : ((readMade e flips (accessEnded e start s)).ringRose ref.region (g.giveBack ref.offset)).lau.service =
      some sv := by
    have before := readMade_service (e := e) (start := start) (flips := flips) service
    unfold State.ringRose
    dsimp only
    split <;> exact before
  unfold Counts
  rw [exec_lauTake_gives began accessing aligned inside owner service transfer ringRef op ring good after back]
  obtain ⟨bytes, data⟩ := Option.ne_none_iff_exists'.mp good
  rw [data, lauTakeDone_of_dropped serving after]
  rfl

/-- A failure behind another: the burst itself is lost. -/
theorem lauTake_failsLater (after : sv.afterFailure pos = true)
    (bad : ((accessEnded e start s).outcomeAt e.addr flips).data? = none) :
    Counts flips s (burstConsumed e start flips ref.region g s)
      { sv with completed := sv.completed + 32, toAdmit := sv.admitted, discarded := sv.discarded + 32 } := by
  have lost := lauTakeDone_of_later_failure
    (burstConsumed_service (e := e) (start := start) (flips := flips) service ref.region g) after ref.offset false
  unfold Counts
  rw [exec_lauTake_consumes began accessing aligned inside owner service transfer ringRef op ring
    (Or.inl (by rw [bad]; rfl)), bad]
  exact congrArg (fun v => Host.Outcome.next (afterAccess v)) lost

/-- A failure before all others: what had come in behind it is lost. -/
theorem lauTake_failsFirst (first : sv.afterFailure pos = false)
    (bad : ((accessEnded e start s).outcomeAt e.addr flips).data? = none) :
    Counts flips s ((burstConsumed e start flips ref.region g s).setLau
      { s.lau with buffer := emptyAfter s.lau.buffer pos })
      { sv with
        completed := sv.completed + 32, toAdmit := sv.admitted,
        firstFailure := some { pos := pos, offset := ref.offset },
        discarded := sv.discarded + (32 * filledAfter s.lau.buffer pos + (if sv.firstFailure.isSome then 32 else 0)) } := by
  have lost := lauTakeDone_of_first_failure
    (burstConsumed_service (e := e) (start := start) (flips := flips) service ref.region g) first ref.offset false
  rw [burstConsumed_lau] at lost
  unfold Counts
  rw [exec_lauTake_consumes began accessing aligned inside owner service transfer ringRef op ring
    (Or.inl (by rw [bad]; rfl)), bad, ← lost]
  rfl

end

end Sys2Proof.Proofs


/-! # The LAU's completions (O57): the end of the event -/

namespace Sys2Proof.Proofs

open Sys2Proof.Machine Sys2Proof.Laws

/-- The event leaves the LAU, the link and the notices where the report shortens nothing. -/
theorem afterAccess_quiet {v : State}
    (whole : (v.setSched v.sched.testLazy).lauShorten = v.setSched v.sched.testLazy) :
    (afterAccess v).lau = v.lau ∧ (afterAccess v).link = v.link ∧ (afterAccess v).notices = v.notices := by
  unfold afterAccess State.report
  rw [whole]
  exact ⟨rfl, rfl, rfl⟩

/-- A service that is not a TAKE's goes on. -/
theorem afterAccess_goesOn {w : State} {sw : LauService} (more : sw.completed ≠ sw.toAdmit)
    (other : ∀ n, sw.request.op ≠ .take n) :
    (afterAccess (w.lauCounted sw)).lau = { w.lau with service := some sw } ∧
      (afterAccess (w.lauCounted sw)).link = w.link ∧ (afterAccess (w.lauCounted sw)).notices = w.notices := by
  rw [lauCounted_of_more more]
  exact afterAccess_quiet (lauShorten_of_other (sv := sw) rfl other)

/-- The last service of an unclaimed request is answered (R152). -/
theorem afterAccess_answers {w : State} {sw : LauService} {x : OutEntry} {st : Status} {data : List Byte}
    (response : sw.response w.lau.buffer = (st, data)) (all : sw.completed = sw.toAdmit)
    (unclaimed : sw.claim = none) (alone : w.lau.queue = []) (waits : w.link.working? sw.request.tag = some x)
    (kept : x.orphaned = false) :
    (afterAccess (w.lauCounted sw)).lau = { queue := [], service := none, buffer := Vector.replicate 8 none } ∧
      (afterAccess (w.lauCounted sw)).link = { w.link with
        table := w.link.table.map fun y => if y.tag = x.tag then { y with stage := .answered } else y,
        readyList := w.link.readyList ++ [{ tag := x.tag, kind := x.kind, status := st, data := data }] } ∧
      (afterAccess (w.lauCounted sw)).notices = w.notices := by
  have service : (w.setLau { w.lau with service := some sw }).lau.service = some sw := rfl
  have waiting : (w.setLau { w.lau with service := some sw }).link.working? sw.request.tag = some x := waits
  have queue : (w.setLau { w.lau with service := some sw }).lau.queue = [] := alone
  rw [lauCounted_of_all all, endService_eq service, lauFinish_eq service, claimReleased_of_none unclaimed,
    handOver_answers waiting kept, queue, show (w.setLau { w.lau with service := some sw }).lau.buffer = w.lau.buffer from rfl,
    response]
  refine afterAccess_quiet ?_
  exact lauShorten_of_none rfl

section
variable {s : State} {sv : LauService} (service : s.lau.service = some sv)
include service

theorem lauShorten_of_whole (whole : (∀ n, sv.request.op ≠ .take n) ∨ sv.toAdmit ≤ sv.admitted ∨
    (∀ x g, s.ring? sv.request.region = some (x, g) → 32 ≤ g.committedFill)) : s.lauShorten = s := by
  by_cases take : ∃ n, sv.request.op = .take n
  · obtain ⟨n, op⟩ := take
    rw [lauShorten_take service op]
    cases ring : s.ring? sv.request.region with
    | none => rfl
    | some p =>
      have long : ¬ (decide (sv.admitted < sv.toAdmit) && decide (p.2.committedFill < 32)) = true := by
        rw [Bool.and_eq_true, decide_eq_true_iff, decide_eq_true_iff]
        rintro ⟨short, low⟩
        rcases whole with other | all | filled
        · exact other n op
        · omega
        · exact absurd (filled p.1 p.2 ring) (by omega)
      exact if_neg long
  · exact lauShorten_of_other service fun n op => take ⟨n, op⟩

theorem lauShorten_of_short {n : Nat} {x : RegionRecord} {g : Ring} (op : sv.request.op = .take n)
    (ring : s.ring? sv.request.region = some (x, g)) (short : sv.admitted < sv.toAdmit) (low : g.committedFill < 32) :
    s.lauShorten = if s.entriesOf .lau = 0 then (s.setService { sv with toAdmit := sv.admitted }).endService
      else s.setService { sv with toAdmit := sv.admitted } := by
  rw [lauShorten_take service op, ring]
  exact if_pos (by rw [decide_eq_true short, decide_eq_true low]; rfl)

end

/-- The earlier of a service's failure and one at this position (R148). -/
def earliestFailure (sv : LauService) (pos off : Nat) : LauFailure :=
  match sv.firstFailure with
  | none => { pos := pos, offset := off }
  | some g => if g.pos < pos then g else { pos := pos, offset := off }

theorem fail_eq (sv : LauService) (pos off : Nat) :
    sv.fail pos off = { sv with toAdmit := sv.admitted, firstFailure := some (earliestFailure sv pos off) } := by
  by_cases after : ∃ f, sv.firstFailure = some f ∧ f.pos < pos
  · obtain ⟨f, failed, before⟩ := after
    rw [fail_of_after ((afterFailure_iff sv pos).mpr ⟨f, failed, before⟩), earliestFailure, failed]
    simp only [if_pos before]
  · rw [fail_of_first (afterFailure_eq_false after), earliestFailure]
    cases failed : sv.firstFailure with
    | none => rfl
    | some g => simp only [if_neg fun before => after ⟨g, failed, before⟩]

/-- A buffer with one position filled. -/
theorem exists_filled (v : Vector (Option (List Byte)) 8) (pos : Nat) (data : List Byte) :
    ∃ b : Vector (Option (List Byte)) 8, ∀ k, getAt b k = if k.val = pos / 32 then some data else getAt v k := by
  refine ⟨Vector.ofFn fun k => if k.val = pos / 32 then some data else getAt v k, fun k => ?_⟩
  show (Vector.ofFn _)[k.val] = _
  rw [Vector.getElem_ofFn]

theorem Counts.eq {flips : BurstBits} {s w t : State} {sw : LauService} (counts : Counts flips s w sw)
    (ends : exec (.accessCompletion flips) s = .next t) : t = afterAccess (w.lauCounted sw) := by
  rw [show exec (.accessCompletion flips) s = _ from counts] at ends
  cases ends
  rfl

/-- Settles O57: the link's and the service's steps by their branches, then the completions by the LAU's part of each. -/
theorem lauCompletions : Obligations.LauCompletions := by
  refine ⟨?handOver, ?response, ?finish, ?noQueue, ?queue, ?report, ?counted, ?answered⟩
  case handOver =>
    refine fun s tag st data => ⟨fun free => handOver_of_none free st data,
      fun x entry kept => handOver_answers entry kept st data, fun x l entry orphan dropped => ?_⟩
    have leaves := handOver_orphan entry orphan st data
    exact ⟨fun other => leaves.trans (by rw [entryLeaves_of_other other, dropped]; rfl),
      fun restart => leaves.trans (by rw [entryLeaves_of_restart restart, dropped]; rfl)⟩
  case response =>
    intro sv buf bytes kept bytesAre keptIs
    obtain rfl : bytes = bufferBytes buf := funext bytesAre
    subst keptIs
    refine ⟨fun off data op => ?_, fun data op => ?_, fun off n op => ⟨fun sound => ?_, fun f failed => ?_⟩,
      fun n op => ⟨fun sound => ?_, fun f failed => ?_⟩⟩
    · rw [response_put sv buf op]
      cases sv.cutShort <;> rfl
    · rw [response_append sv buf op]
      cases sv.cutShort <;> rfl
    · rw [response_get sv buf op, sound]
    · rw [response_get sv buf op, failed]
    · rw [response_take sv buf op, sound]
    · rw [response_take sv buf op, failed]
  case finish =>
    intro s released sv service unclaimed claimed
    have is : claimReleased sv s = released := by
      cases claim : sv.claim with
      | none => exact (claimReleased_of_none claim s).trans (unclaimed (Or.inl claim)).symm
      | some role =>
        rw [claimReleased_of_some claim]
        cases ring : s.ring? sv.request.region with
        | none => exact (releaseClaim_of_no_ring ring).trans (unclaimed (Or.inr ring)).symm
        | some p =>
          obtain ⟨toNone, toWaiter⟩ := claimed role p.1 p.2 claim ring
          cases waiting : p.2.waiters role with
          | nil => exact (releaseClaim_of_no_waiter ring waiting).trans (toNone waiting).symm
          | cons c rest => exact (releaseClaim_of_waiter ring waiting).trans (toWaiter c rest waiting).symm
    exact ⟨is ▸ lauFinish_eq service, endService_eq service⟩
  case noQueue => exact fun s => rfl
  case queue =>
    rintro s t r rest rfl
    refine ⟨fun st refused => serveQueue_refused refused, fun d total claim claimed u passes record how begun => ?_⟩
    have begins := serveQueue_begins passes record how
    rw [show claimed.setLau (freshLau rest (freshService r d total claim)) = u from begun.symm] at begins
    exact ⟨fun some => begins.trans (if_neg some), fun none => begins.trans (if_pos none)⟩
  case report =>
    refine fun s => ⟨rfl, lauShorten_of_none, fun sv service => ⟨?_, fun n x g t op ring short low shortened => ?_⟩⟩
    · exact lauShorten_of_whole service
    · have shortens := lauShorten_of_short service op ring short low
      subst shortened
      exact ⟨fun left => shortens.trans (if_neg left), fun last => shortens.trans (if_pos last)⟩
  case counted =>
    intro s start now e flips m sv out began accessing aligned inside owner service bits nowIs outIs
    subst nowIs
    obtain rfl : out = Counts flips s := by
      funext w sw
      exact propext ((outIs w sw).trans (counts_iff flips s w sw).symm)
    refine ⟨fun data transfer _ => ?_, fun pos read transfer readIs => ?_⟩
    · refine ⟨(accessEnded e start s).dieWrite e.addr data, rfl, fun linear => ?_, fun ref x g h ringRef ring commits high highIs
        sw swIs => ?_⟩
      · exact lauWrite_counts began accessing aligned inside owner service transfer (by rw [linear]; rfl)
          (by rw [linear]; rfl)
      · obtain ⟨posts, quiet, committed⟩ := ringWriteDone_eq (s := (accessEnded e start s).dieWrite e.addr data) ring commits
          high (by rw [highIs, highWater_iff, commits]; exact Iff.rfl)
        subst swIs
        exact ⟨fun is => lauWrite_counts began accessing aligned inside owner service transfer
            (by rw [ringRef]; exact posts is) (by rw [ringRef]; exact committed),
          fun is => lauWrite_counts began accessing aligned inside owner service transfer
            (by rw [ringRef]; exact quiet is) (by rw [ringRef]; exact committed)⟩
    · obtain ⟨good, bad⟩ := readOutcome_data (readBytes s.mem e.addr 32) m
      have outcome : (accessEnded e start s).outcomeAt e.addr flips = read := by rw [readIs, bits]; rfl
      rw [← readIs] at good bad
      refine ⟨good, bad, readMade e flips (accessEnded e start s), ?base, ?told, ?untold, ?_⟩
      case base => rw [readMade_fields]; rfl
      case told =>
        intro delivers
        exact countOutcome_notices_of_data (outcome ▸ delivers) e.addr e.owner _
      case untold =>
        intro fails
        rw [readMade, owner]
        exact countOutcome_notices_of_none (outcome ▸ fails) e.addr .lau _
      intro after filled emptied afterIs filledIs emptiedIs
      have later : after → sv.afterFailure pos = true := fun is => (afterFailure_iff sv pos).mpr (afterIs.mp is)
      have first : ¬ after → sv.afterFailure pos = false := fun is => afterFailure_eq_false fun f => is (afterIs.mpr f)
      refine ⟨fun off n op linear => ⟨fun delivers => ?_, fun fails is => ?_, fun fails is => ?_⟩,
        fun n ref x g taken op ringRef ring takenIs => ⟨fun delivers is => ?_, fun back backIs delivers is =>
          ⟨fun stays => ?_, fun h gives hIs high highIs => ?_⟩, fun fails is => ?_, fun lost lostIs fails is => ?_⟩⟩
      · obtain ⟨bytes, data⟩ := Option.ne_none_iff_exists'.mp delivers
        rw [← fillBuffer_eq (v := s.lau.buffer) (filled := filled) (data := bytes) (by rw [← data]; exact filledIs)]
        exact lauGet_counts_of_data began accessing aligned inside owner service transfer linear op (outcome ▸ data)
      · have counts := lauGet_counts_of_none (flips := flips) began accessing aligned inside owner service transfer linear op
          (outcome ▸ fails)
        rwa [fail_of_after (later is)] at counts
      · have counts := lauGet_counts_of_none (flips := flips) began accessing aligned inside owner service transfer linear op
          (outcome ▸ fails)
        rwa [fail_of_first (first is)] at counts
      · obtain ⟨bytes, data⟩ := Option.ne_none_iff_exists'.mp delivers
        rw [← fillBuffer_eq (v := s.lau.buffer) (filled := filled) (data := bytes) (by rw [← data]; exact filledIs), takenIs]
        exact lauTake_fills began accessing aligned inside owner service transfer ringRef op ring (first is) (outcome ▸ data)
      · rw [takenIs]
        exact lauTake_discards began accessing aligned inside owner service transfer ringRef op ring (later is)
          (decide_eq_false fun fits => stays (backIs.mpr fits)) (outcome ▸ delivers)
      · have given := lauTake_givesBack (flips := flips) began accessing aligned inside owner service transfer ringRef op ring
          (later is) (decide_eq_true (backIs.mp gives)) (outcome ▸ delivers)
        have highest : high ↔ (g.giveBack ref.offset).highWater = true := by rw [highIs, highWater_iff, hIs]; exact Iff.rfl
        subst hIs
        have untold : (readMade e flips (accessEnded e start s)).notices = s.notices :=
          countOutcome_notices_of_data (outcome ▸ delivers) e.addr e.owner _
        refine ⟨fun is => ?_, fun is => ?_⟩
        · rw [ringRose_of_high (highest.mp is), untold] at given
          exact given
        · rw [ringRose_of_low fun high => is (highest.mpr high)] at given
          exact given
      · rw [takenIs]
        exact lauTake_failsLater began accessing aligned inside owner service transfer ringRef op ring (later is)
          (outcome ▸ fails)
      · have lostAre : lost = 32 * filledAfter s.lau.buffer pos + (if sv.firstFailure.isSome then 32 else 0) := by
          rw [lostIs]
          cases sv.firstFailure <;> rfl
        rw [lostAre, ← emptyAfter_eq emptiedIs, takenIs]
        exact lauTake_failsFirst began accessing aligned inside owner service transfer ringRef op ring (first is)
          (outcome ▸ fails)
  case answered =>
    intro s start e flips m sv x began accessing aligned inside owner linear service unclaimed whole alone waits kept bits answers
      answersIs
    have ends := exec_accessCompletion_of_burst (flips := flips) began accessing aligned inside
    obtain ⟨-, -, -, lau, -⟩ := readMade_same e flips (accessEnded e start s)
    have fields := readMade_fields e flips (accessEnded e start s)
    have link : (readMade e flips (accessEnded e start s)).link = s.link := by rw [fields]; rfl
    have outcome : (accessEnded e start s).outcomeAt e.addr flips = readOutcome (readBytes s.mem e.addr 32) m := by
      rw [bits]; rfl
    obtain ⟨good, bad⟩ := readOutcome_data (readBytes s.mem e.addr 32) m
    refine ⟨_, ends, fun off data bytes op transfer => ?_, fun off n pos op transfer _ => ?_⟩
    · have counts := lauWrite_counts (flips := flips) (n := 32) began accessing aligned inside owner service transfer
        (w := (accessEnded e start s).dieWrite e.addr bytes) (by rw [linear]; rfl) (by rw [linear]; rfl)
      rw [counts.eq ends]
      refine ⟨fun more => ?_, fun all => (answersIs ..).mpr ?_⟩
      · obtain ⟨lau, link, -⟩ := afterAccess_goesOn (w := (accessEnded e start s).dieWrite e.addr bytes)
          (sw := { sv with completed := sv.completed + 32 }) more (fun n is => nomatch op.symm.trans is)
        exact ⟨lau, link⟩
      · have response : { sv with completed := sv.completed + 32 }.response s.lau.buffer = (.ok, []) := by
          rw [response_put { sv with completed := sv.completed + 32 } _ op]
          exact if_neg (by rw [whole]; exact Bool.false_ne_true)
        obtain ⟨lau, link, -⟩ := afterAccess_answers (w := (accessEnded e start s).dieWrite e.addr bytes) response all unclaimed
          alone waits kept
        exact ⟨link, lau⟩
    · obtain ⟨b, filled⟩ := exists_filled s.lau.buffer pos (readBytes s.mem e.addr 32)
      refine ⟨b, filled, fun count => ?_, fun count f fIs => ?_⟩
      · have data := good count
        have counts := lauGet_counts_of_data began accessing aligned inside owner service transfer linear op (outcome ▸ data)
        rw [fillBuffer_eq filled] at counts
        have told : (readMade e flips (accessEnded e start s)).notices = s.notices :=
          countOutcome_notices_of_data (by rw [outcome, data]; exact Option.some_ne_none _) e.addr e.owner _
        rw [counts.eq ends]
        by_cases all : sv.completed + 32 = sv.toAdmit
        · have answered := fun st data response => afterAccess_answers (st := st) (data := data)
            (w := (readMade e flips (accessEnded e start s)).setLau { s.lau with buffer := b })
            (sw := { sv with completed := sv.completed + 32 }) (x := x) response all unclaimed alone
            (by rw [← waits, ← link]; rfl) kept
          refine ⟨(answered _ _ rfl).2.2.trans told, (absurd all ·), fun _ sound => (answersIs ..).mpr ?_⟩
          have response : { sv with completed := sv.completed + 32 }.response b = (.ok, bufferBytes b 256) := by
            rw [response_get { sv with completed := sv.completed + 32 } b op, sound, whole]
            rfl
          obtain ⟨ended, linked, -⟩ := answered _ _ response
          rw [setLau_link, link] at linked
          exact ⟨linked, ended⟩
        · obtain ⟨lau, linked, notices⟩ := afterAccess_goesOn
            (w := (readMade e flips (accessEnded e start s)).setLau { s.lau with buffer := b })
            (sw := { sv with completed := sv.completed + 32 }) all (fun n is => nomatch op.symm.trans is)
          exact ⟨notices.trans told, fun _ => ⟨linked.trans link, lau⟩, (absurd · all)⟩
      · have fails := bad count
        have counts := lauGet_counts_of_none began accessing aligned inside owner service transfer linear op (outcome ▸ fails)
        rw [fail_eq, show earliestFailure sv pos (e.addr - sv.base) = f from fIs.symm] at counts
        have told : (readMade e flips (accessEnded e start s)).notices = s.notices.post (.checkFault e.addr .lau) := by
          rw [readMade, owner]
          exact countOutcome_notices_of_none (by rw [outcome]; exact fails) e.addr .lau _
        rw [counts.eq ends]
        by_cases all : sv.completed + 32 = sv.admitted
        · have response : { sv with completed := sv.completed + 32, toAdmit := sv.admitted, firstFailure := some f }.response
              (readMade e flips (accessEnded e start s)).lau.buffer =
              (.dataError, u32 f.offset ++ bufferBytes s.lau.buffer f.pos) := by
            rw [lau, response_get { sv with
              completed := sv.completed + 32, toAdmit := sv.admitted, firstFailure := some f } _ op]
            rfl
          obtain ⟨ended, linked, notices⟩ := afterAccess_answers response all unclaimed (by rw [lau]; exact alone)
            (by rw [link]; exact waits) kept
          rw [link] at linked
          exact ⟨notices.trans told, (absurd all ·), fun _ => (answersIs ..).mpr ⟨linked, ended⟩⟩
        · obtain ⟨counted, linked, notices⟩ := afterAccess_goesOn (w := readMade e flips (accessEnded e start s))
            (sw := { sv with completed := sv.completed + 32, toAdmit := sv.admitted, firstFailure := some f }) all
            (fun n is => nomatch op.symm.trans is)
          rw [lau] at counted
          exact ⟨notices.trans told, fun _ => ⟨linked.trans link, counted⟩, (absurd · all)⟩

end Sys2Proof.Proofs


/-! # Readiness (O46): the burst a channel can form, and the causes -/

namespace Sys2Proof.Proofs

open Sys2Proof.Machine Sys2Proof.Laws

/-! ## The burst a channel can form (R83, R85, R89) -/

theorem oldestFull_iff (x : Channel) (slot : CopySlotId) (pos : Nat) (data : List Byte) :
    x.oldestFull = some (slot, pos, data) ↔ x.OldestFull slot pos data := by
  unfold Channel.oldestFull Channel.OldestFull
  cases x.slotA with
  | empty => cases x.slotB <;> cases slot <;> simp
  | reserved p => cases x.slotB <;> cases slot <;> grind
  | full p d =>
    cases x.slotB with
    | empty => cases slot <;> simp
    | reserved q => cases slot <;> grind
    | full q e =>
      by_cases older : p < q
      · cases slot <;> grind
      · cases slot <;> grind

section
variable {s : State} {c : ChannelId} {cur : Current}

theorem nextBurst_capture {p : CaptureId} {r : RegionId} {off : Nat} (source : cur.desc.source = .capture p)
    (dest : cur.desc.dest = .region r off) : s.nextBurst c cur =
      if cur.prog.admitted < cur.desc.length && 32 ≤ (s.capture p).fifo.length && s.regionWritable (.ch c) r then
        some (.captureWrite p)
      else none := by
  unfold State.nextBurst
  rw [source, dest]

theorem nextBurst_pattern {v : BitVec 32} {r : RegionId} {off : Nat} (source : cur.desc.source = .pattern v)
    (dest : cur.desc.dest = .region r off) : s.nextBurst c cur =
      if cur.prog.admitted < cur.desc.length && s.regionWritable (.ch c) r then some (.patternWrite v) else none := by
  unfold State.nextBurst
  rw [source, dest]

theorem nextBurst_playout {p : PlayoutId} {r : RegionId} {off : Nat} (source : cur.desc.source = .region r off)
    (dest : cur.desc.dest = .playout p) : s.nextBurst c cur =
      if cur.prog.admitted < cur.desc.length && 32 ≤ (s.playout p).room && s.regionReadable (.ch c) r then
        some (.playoutRead p)
      else none := by
  unfold State.nextBurst
  rw [source, dest]

theorem nextBurst_copy {r q : RegionId} {off away : Nat} (source : cur.desc.source = .region r off)
    (dest : cur.desc.dest = .region q away) :
    s.nextBurst c cur = (s.copyWriteBurst c cur q).or (s.copyReadBurst c cur r) := by
  unfold State.nextBurst
  rw [source, dest]
  dsimp only
  cases s.copyWriteBurst c cur q <;> rfl

theorem nextBurst_of_no_region (none_named : ∀ r off, cur.desc.source ≠ .region r off ∧ cur.desc.dest ≠ .region r off) :
    s.nextBurst c cur = none := by
  unfold State.nextBurst
  cases source : cur.desc.source with
  | region r off => exact absurd source (none_named r off).1
  | capture p =>
    cases dest : cur.desc.dest with
    | region r off => exact absurd dest (none_named r off).2
    | playout k => rfl
  | pattern v =>
    cases dest : cur.desc.dest with
    | region r off => exact absurd dest (none_named r off).2
    | playout k => rfl

/-- The WRITE of a copy needs a full oldest slot, bytes not yet admitted and a destination that takes them. -/
theorem copyWriteBurst_of_writes {q : RegionId} {slot : CopySlotId} {pos : Nat} {data : List Byte}
    (full : (s.channel c).OldestFull slot pos data) (more : cur.prog.admitted < cur.desc.length) (may : s.MayWrite (.ch c) q) :
    s.copyWriteBurst c cur q = some (.copyWrite slot pos data) := by
  unfold State.copyWriteBurst
  rw [(oldestFull_iff ..).mpr full]
  exact if_pos (by rw [Bool.and_eq_true, decide_eq_true_iff]; exact ⟨more, (regionWritable_iff ..).mpr may⟩)

theorem copyWriteBurst_of_not {q : RegionId} (idle : ¬ ((∃ slot pos data, (s.channel c).OldestFull slot pos data) ∧
    cur.prog.admitted < cur.desc.length ∧ s.MayWrite (.ch c) q)) : s.copyWriteBurst c cur q = none := by
  unfold State.copyWriteBurst
  cases full : (s.channel c).oldestFull with
  | none => rfl
  | some x =>
    obtain ⟨slot, pos, data⟩ := x
    refine if_neg fun can => idle ?_
    rw [Bool.and_eq_true, decide_eq_true_iff] at can
    exact ⟨⟨slot, pos, data, (oldestFull_iff ..).mp full⟩, can.1, (regionWritable_iff ..).mp can.2⟩

theorem copyReadBurst_eq {r : RegionId} {reads : Prop} [Decidable reads]
    (readsIs : reads ↔ cur.prog.sourceAdmitted < cur.desc.length ∧ s.MayRead (.ch c) r) :
    s.copyReadBurst c cur r = if reads then (s.channel c).emptySlot.map Burst.copyRead else none := by
  have test : (decide (cur.prog.sourceAdmitted < cur.desc.length) && s.regionReadable (.ch c) r) = true ↔ reads := by
    rw [Bool.and_eq_true, decide_eq_true_iff, regionReadable_iff, readsIs]
  unfold State.copyReadBurst
  cases (s.channel c).emptySlot with
  | none => exact (ite_self none).symm
  | some slot => exact if_congr test rfl rfl

theorem emptySlot_a {x : Channel} (empty : x.slotA = .empty) : x.emptySlot = some .a := if_pos empty

theorem emptySlot_b {x : Channel} (taken : x.slotA ≠ .empty) (empty : x.slotB = .empty) : x.emptySlot = some .b := by
  unfold Channel.emptySlot
  rw [if_neg taken, if_pos empty]

theorem emptySlot_none {x : Channel} (takenA : x.slotA ≠ .empty) (takenB : x.slotB ≠ .empty) : x.emptySlot = none := by
  unfold Channel.emptySlot
  rw [if_neg takenA, if_neg takenB]

theorem nextBurst_spec (s : State) (c : ChannelId) (cur : Current) : s.NextBurst c cur (s.nextBurst c cur) := by
  classical
  refine ⟨fun p r off source dest can canIs => ?_, fun v r off source dest can canIs => ?_,
    fun r off p source dest can canIs => ?_, fun r off q away source dest writes reads writesIs readsIs => ?_,
    nextBurst_of_no_region⟩
  · have test : (decide (cur.prog.admitted < cur.desc.length) && decide (32 ≤ (s.capture p).fifo.length) &&
        s.regionWritable (.ch c) r) = true ↔ can := by
      rw [Bool.and_eq_true, Bool.and_eq_true, decide_eq_true_iff, decide_eq_true_iff, regionWritable_iff, canIs, and_assoc]
    rw [nextBurst_capture source dest]
    exact ⟨fun is => if_pos (test.mpr is), fun is => if_neg (is ∘ test.mp)⟩
  · have test : (decide (cur.prog.admitted < cur.desc.length) && s.regionWritable (.ch c) r) = true ↔ can := by
      rw [Bool.and_eq_true, decide_eq_true_iff, regionWritable_iff, canIs]
    rw [nextBurst_pattern source dest]
    exact ⟨fun is => if_pos (test.mpr is), fun is => if_neg (is ∘ test.mp)⟩
  · have test : (decide (cur.prog.admitted < cur.desc.length) && decide (32 ≤ (s.playout p).room) &&
        s.regionReadable (.ch c) r) = true ↔ can := by
      rw [Bool.and_eq_true, Bool.and_eq_true, decide_eq_true_iff, decide_eq_true_iff, regionReadable_iff, canIs, and_assoc]
      exact Iff.rfl
    rw [nextBurst_playout source dest]
    exact ⟨fun is => if_pos (test.mpr is), fun is => if_neg (is ∘ test.mp)⟩
  · rw [nextBurst_copy source dest, copyReadBurst_eq readsIs]
    refine ⟨fun is slot pos data full => ?_, fun no yes empty => ?_, fun no yes taken empty => ?_, fun no cannot => ?_⟩
    · obtain ⟨-, more, may⟩ := writesIs.mp is
      rw [copyWriteBurst_of_writes full more may]
      rfl
    · rw [copyWriteBurst_of_not (no ∘ writesIs.mpr), if_pos yes, emptySlot_a empty]
      rfl
    · rw [copyWriteBurst_of_not (no ∘ writesIs.mpr), if_pos yes, emptySlot_b taken empty]
      rfl
    · rw [copyWriteBurst_of_not (no ∘ writesIs.mpr)]
      rcases cannot with no | ⟨takenA, takenB⟩
      · rw [if_neg no]
        rfl
      · rw [emptySlot_none takenA takenB]
        exact ite_self none

end

/-! ## The causes of readiness (R64, R65, R146) -/

section
variable {s : State} {c : ChannelId} {cur : Current}

theorem channelReadiness_inactive (inactive : (s.channel c).current = none ∨ (s.channel c).state ≠ .running ∨
    ∃ cur, (s.channel c).current = some cur ∧ cur.prog.fault = true) : s.channelReadiness c = .inactive := by
  unfold State.channelReadiness
  cases current : (s.channel c).current with
  | none => rfl
  | some cur =>
    refine if_pos ?_
    rw [Bool.or_eq_true, decide_eq_true_iff]
    rcases inactive with absent | stopped | ⟨x, here, faulted⟩
    · rw [current] at absent; cases absent
    · exact Or.inl stopped
    · rw [current] at here; cases here; exact Or.inr faulted

theorem channelReadiness_running (current : (s.channel c).current = some cur) (running : (s.channel c).state = .running)
    (sound : cur.prog.fault = false) : s.channelReadiness c =
      if 2 ≤ s.entriesOf (.ch c) || cur.desc.length ≤ cur.prog.admitted then .limit
      else if (s.nextBurst c cur).isSome then .ready
      else .endpoint := by
  unfold State.channelReadiness
  rw [current]
  exact if_neg (by rw [running, sound]; decide)

theorem lauReadiness_of_none (idle : s.lau.service = none) : s.lauReadiness = .inactive := by
  unfold State.lauReadiness
  rw [idle]

theorem lauReadiness_eq {sv : LauService} (service : s.lau.service = some sv) : s.lauReadiness =
    if 2 ≤ s.entriesOf .lau || sv.toAdmit ≤ sv.admitted then .limit
    else if s.lauAllows sv then .ready
    else .endpoint := by
  unfold State.lauReadiness
  rw [service]
  rfl

theorem lauAllows_iff (sv : LauService) : s.lauAllows sv = true ↔
    (∀ data, sv.request.op = .append data → s.MayWrite .lau sv.request.region) ∧
      ∀ n, sv.request.op = .take n → s.MayRead .lau sv.request.region := by
  unfold State.lauAllows
  cases sv.request.op with
  | put off data => simp
  | get off n => simp
  | append data => simp [regionWritable_iff]
  | take n => simp [regionReadable_iff]

end

end Sys2Proof.Proofs


/-! # The arbiter (O46): its choice and its records -/

namespace Sys2Proof.Proofs

open Sys2Proof.Machine Sys2Proof.Laws

/-! ## The cycle (R67) -/

theorem code_lt (r : Requester) : r.code < 7 := by
  rw [← requester_index_val]
  exact r.index.isLt

theorem code_at {n : Nat} (inside : n < 7) : (Requester.at n).code = n := by
  unfold Requester.at idx?
  by_cases channel : n < 6
  · rw [dif_pos channel]
    rfl
  · rw [dif_neg channel]
    show 6 = n
    omega

/-- How many places a requester stands behind another in the cycle. -/
def placesFrom (p r : Requester) : Nat := (r.code + 7 - p.code) % 7

theorem placesFrom_lt (p r : Requester) : placesFrom p r < 7 := Nat.mod_lt _ (by decide)

theorem placesFrom_at {p : Requester} {i : Nat} (inside : i < 7) :
    placesFrom p (Requester.at ((p.code + i) % 7)) = i := by
  have bound := code_lt p
  unfold placesFrom
  rw [code_at (Nat.mod_lt _ (by decide))]
  omega

theorem at_placesFrom (p r : Requester) : Requester.at ((p.code + placesFrom p r) % 7) = r := by
  have here := code_lt p
  have there := code_lt r
  have code : (p.code + placesFrom p r) % 7 = r.code := by
    unfold placesFrom
    omega
  rw [code, requester_at_code]

/-- The first of the cycle that satisfies a test. -/
theorem cycle_find?_eq_some {p r : Requester} {test : Requester → Bool} :
    (cycleFrom p).find? test = some r ↔ test r = true ∧ ∀ x, test x = true → placesFrom p r ≤ placesFrom p x := by
  unfold cycleFrom
  rw [List.find?_map, Option.map_eq_some_iff]
  simp only [List.find?_range_eq_some]
  constructor
  · rintro ⟨i, ⟨holds, inside, before⟩, rfl⟩
    rw [List.mem_range] at inside
    refine ⟨holds, fun x isX => ?_⟩
    rw [placesFrom_at inside]
    by_contra earlier
    have fails := before _ (not_le.mp earlier)
    rw [Function.comp, at_placesFrom, isX] at fails
    cases fails
  · rintro ⟨holds, first⟩
    refine ⟨placesFrom p r, ⟨?_, List.mem_range.mpr (placesFrom_lt p r), fun j before => ?_⟩, at_placesFrom p r⟩
    · rw [Function.comp, at_placesFrom]
      exact holds
    · have inside := Nat.lt_trans before (placesFrom_lt p r)
      rw [Function.comp, Bool.not_eq_true', Bool.eq_false_iff]
      intro isJ
      have later := first _ isJ
      rw [placesFrom_at inside] at later
      omega

/-! ## The choice (R67, R72) -/

/-- A requester that is ready, and not excluded by a hold. -/
def Choosable (a : Arbiter) (r : Requester) : Prop :=
  a.readinessOf r = .ready ∧ ∀ o, a.holdOwner = some o → r = .ch o ∨ a.classOf r < a.classOf (.ch o)

theorem choosable_iff (a : Arbiter) (r : Requester) : a.choosable r = true ↔ Choosable a r := by
  unfold Arbiter.choosable Arbiter.eligible Choosable
  rw [Bool.and_eq_true, decide_eq_true_iff]
  cases a.holdOwner with
  | none => simp
  | some o => simp

theorem chooseIn_eq_some {a : Arbiter} {k : ClassId} {r : Requester} :
    a.chooseIn k = some r ↔ (a.classOf r = k ∧ Choosable a r) ∧
      ∀ x, a.classOf x = k → Choosable a x → placesFrom (a.positionOf k) r ≤ placesFrom (a.positionOf k) x := by
  unfold Arbiter.chooseIn
  rw [cycle_find?_eq_some]
  simp only [Bool.and_eq_true, decide_eq_true_iff, choosable_iff, and_imp]

theorem chooseIn_eq_none {a : Arbiter} {k : ClassId} :
    a.chooseIn k = none ↔ ∀ x, a.classOf x = k → ¬ Choosable a x := by
  unfold Arbiter.chooseIn cycleFrom
  rw [List.find?_eq_none]
  constructor
  · intro all x inClass can
    refine all x (List.mem_map.mpr ⟨_, List.mem_range.mpr (placesFrom_lt (a.positionOf k) x), at_placesFrom _ x⟩) ?_
    rw [Bool.and_eq_true, decide_eq_true_iff, choosable_iff]
    exact ⟨inClass, can⟩
  · intro all x _ test
    rw [Bool.and_eq_true, decide_eq_true_iff, choosable_iff] at test
    exact all x test.1 test.2

theorem choose_eq_some {a : Arbiter} {r : Requester} :
    a.choose = some r ↔ ∃ k, a.chooseIn k = some r ∧ ∀ j < k, a.chooseIn j = none := by
  unfold Arbiter.choose
  constructor
  · intro chosen
    obtain ⟨before, k, after, split, found, empty⟩ := List.findSome?_eq_some_iff.mp chosen
    refine ⟨k, found, fun j earlier => empty j ?_⟩
    have sorted : [(0 : ClassId), 1, 2, 3].Pairwise (· < ·) := by decide
    have mem : j ∈ [(0 : ClassId), 1, 2, 3] := by fin_cases j <;> decide
    rw [split] at sorted mem
    rcases List.mem_append.mp mem with here | there
    · exact here
    · rcases List.mem_cons.mp there with same | later
      · exact absurd earlier (by rw [same]; exact lt_irrefl k)
      · have above := (List.pairwise_cons.mp (List.pairwise_append.mp sorted).2.1).1 j later
        exact absurd earlier (not_lt_of_gt above)
  · rintro ⟨k, found, empty⟩
    fin_cases k <;> simp_all [List.findSome?]

theorem choose_eq_none {a : Arbiter} : a.choose = none ↔ ∀ x, ¬ Choosable a x := by
  unfold Arbiter.choose
  rw [List.findSome?_eq_none_iff]
  constructor
  · intro all x
    have mem : a.classOf x ∈ [(0 : ClassId), 1, 2, 3] := by generalize a.classOf x = k; fin_cases k <;> decide
    exact chooseIn_eq_none.mp (all _ mem) x rfl
  · exact fun all k _ => chooseIn_eq_none.mpr fun x _ => all x

/-- The choice: of the highest class there is, the first of the cycle. -/
theorem choose_spec {a : Arbiter} {r : Requester} : a.choose = some r ↔ Choosable a r ∧
    (∀ x, Choosable a x → a.classOf r ≤ a.classOf x) ∧
    ∀ x, Choosable a x → a.classOf x = a.classOf r →
      placesFrom (a.positionOf (a.classOf r)) r ≤ placesFrom (a.positionOf (a.classOf r)) x := by
  rw [choose_eq_some]
  constructor
  · rintro ⟨k, found, empty⟩
    obtain ⟨⟨rfl, can⟩, first⟩ := chooseIn_eq_some.mp found
    refine ⟨can, fun x canX => ?_, fun x canX same => first x same canX⟩
    exact not_lt.mp fun higher => chooseIn_eq_none.mp (empty _ higher) x rfl canX
  · rintro ⟨can, highest, first⟩
    refine ⟨a.classOf r, chooseIn_eq_some.mpr ⟨⟨rfl, can⟩, fun x same canX => first x canX same⟩, fun j higher => ?_⟩
    refine chooseIn_eq_none.mpr fun x inClass canX => ?_
    exact absurd higher (not_lt.mpr (inClass ▸ highest x canX))

/-! ## The records (R69 to R71, R73) -/

theorem code_next (r : Requester) : r.next.code = (r.code + 1) % 7 := code_at (Nat.mod_lt _ (by decide))

theorem positionOf_setPosition (a : Arbiter) (k c : ClassId) (r : Requester) :
    (a.setPosition k r).positionOf c = if c = k then r else a.positionOf c :=
  getAt_setAt a.position k c r

theorem afterSingle_positionOf (a : Arbiter) (r : Requester) (k : ClassId) :
    (a.afterSingle r).positionOf k = if k = a.classOf r then r.next else a.positionOf k :=
  positionOf_setPosition a (a.classOf r) k r.next

theorem afterSingle_runOf (a : Arbiter) (r : Requester) (k : ClassId) :
    (a.afterSingle r).runOf k = if k = a.classOf r then 0 else a.runOf k :=
  runOf_setRun (a.setPosition (a.classOf r) r.next) (a.classOf r) k 0

theorem afterRun_of_last {a : Arbiter} {r : Requester} {n : Nat} (last : a.runAfter r = n) :
    a.afterRun r n = a.afterSingle r := if_pos last

theorem afterRun_of_more {a : Arbiter} {r : Requester} {n : Nat} (more : a.runAfter r ≠ n) :
    a.afterRun r n = (a.setPosition (a.classOf r) r).setRun (a.classOf r) (a.runAfter r) := if_neg more

/-- A retirement ends the channel's hold, and clears the run count of the class the channel stands at the position of. -/
theorem onRetire_eq (a : Arbiter) (c : ChannelId) : a.onRetire c = { a with
    holdOwner := if a.holdOwner = some c then none else a.holdOwner,
    runCount := if a.positionOf (a.classOf (.ch c)) = .ch c then setAt a.runCount (a.classOf (.ch c)) 0 else a.runCount } := by
  unfold Arbiter.onRetire
  by_cases holds : a.holdOwner = some c
  · rw [if_pos holds, if_pos holds]
    dsimp only
    split <;> rename_i stands
    · exact congrArg (fun v => { a with holdOwner := none, runCount := v }) (if_pos stands).symm
    · exact congrArg (fun v => { a with holdOwner := none, runCount := v }) (if_neg stands).symm
  · rw [if_neg holds, if_neg holds]
    dsimp only
    split <;> rename_i stands
    · rfl
    · rfl

/-- A hold ends where its owner reports that it is INACTIVE or at ENDPOINT (R73). -/
theorem record_eq (a : Arbiter) (v : Vector Readiness 7) : a.record v = { a with
    readiness := v,
    holdOwner := a.holdOwner.filter fun c => decide (getAt v (Requester.ch c).index = .ready) ||
      decide (getAt v (Requester.ch c).index = .limit) } := by
  unfold Arbiter.record
  cases owner : a.holdOwner with
  | none => rfl
  | some c =>
    have reads : ∀ h, ({ a with readiness := v, holdOwner := h } : Arbiter).readinessOf (.ch c) =
      getAt v (Requester.ch c).index := fun _ => rfl
    dsimp only
    rw [reads, Option.filter_some]
    cases getAt v (Requester.ch c).index <;> rfl

theorem readinessTable_eq (s : State) (r : Requester) : getAt s.readinessTable r.index = s.readinessOf r := by
  show (Vector.ofFn _)[r.index.val] = _
  rw [Vector.getElem_ofFn]
  show s.readinessOf (Requester.at r.index.val) = _
  rw [requester_index_val, requester_at_code]

/-- Settles O46: readiness by its causes, the choice by the search of the classes, the records by their entries. -/
theorem arbiterRules : Obligations.ArbiterRules := by
  refine ⟨fun s entries is entriesAre isIff => ?readiness, fun a E eIff => ?choice, fun a => ?records⟩
  case readiness =>
    obtain rfl : entries = fun r => s.entriesOf r := funext entriesAre
    refine ⟨nextBurst_spec s, fun c inactive => (isIff ..).mpr (channelReadiness_inactive inactive),
      fun c cur current running sound => ?_, fun idle => (isIff ..).mpr (lauReadiness_of_none idle), fun sv service => ?_,
      ⟨s.readinessTable, readinessTable_eq s, rfl⟩, rfl,
      fun c => ⟨setAt s.arb.readiness (Requester.ch c).index (s.channelReadiness c), getAt_setAt_self .., fun r other =>
        getAt_setAt_ne _ _ fun same => other (requester_index_injective same), rfl⟩⟩
    · have answer := channelReadiness_running current running sound
      refine ⟨fun limit => (isIff ..).mpr ?_, fun room more => ⟨fun some => (isIff ..).mpr ?_, fun none => (isIff ..).mpr ?_⟩⟩
      · exact answer.trans (if_pos (by rwa [Bool.or_eq_true, decide_eq_true_iff, decide_eq_true_iff]))
      · refine answer.trans ((if_neg ?_).trans (if_pos (Option.isSome_iff_ne_none.mpr some)))
        rw [Bool.or_eq_true, decide_eq_true_iff, decide_eq_true_iff]
        exact not_or.mpr ⟨not_le.mpr room, not_le.mpr more⟩
      · refine answer.trans ((if_neg ?_).trans (if_neg (by rw [none]; exact Bool.false_ne_true)))
        rw [Bool.or_eq_true, decide_eq_true_iff, decide_eq_true_iff]
        exact not_or.mpr ⟨not_le.mpr room, not_le.mpr more⟩
    · have answer := lauReadiness_eq service
      refine ⟨fun limit => (isIff ..).mpr ?_, fun allows allowsIff room more =>
        ⟨fun yes => (isIff ..).mpr ?_, fun no => (isIff ..).mpr ?_⟩⟩
      · exact answer.trans (if_pos (by rwa [Bool.or_eq_true, decide_eq_true_iff, decide_eq_true_iff]))
      · refine answer.trans ((if_neg ?_).trans (if_pos ((lauAllows_iff sv).mpr (allowsIff.mp yes))))
        rw [Bool.or_eq_true, decide_eq_true_iff, decide_eq_true_iff]
        exact not_or.mpr ⟨not_le.mpr room, not_le.mpr more⟩
      · refine answer.trans ((if_neg ?_).trans (if_neg fun yes => no (allowsIff.mpr ((lauAllows_iff sv).mp yes))))
        rw [Bool.or_eq_true, decide_eq_true_iff, decide_eq_true_iff]
        exact not_or.mpr ⟨not_le.mpr room, not_le.mpr more⟩
  case choice =>
    obtain rfl : E = Choosable a := funext fun r => propext (eIff r)
    exact ⟨fun r => choose_spec, choose_eq_none⟩
  case records =>
    refine ⟨fun r b single => ?_, fun c n run b afterRun runIs => ?_, fun c => rfl, fun c d => ?_, fun c b retired => ?_,
      fun v b recorded => ?_⟩
    · subst single
      refine ⟨fun k => ?_, afterSingle_runOf a r, rfl, rfl, rfl⟩
      rw [afterSingle_positionOf]
      split
      · exact code_next r
      · rfl
    · subst afterRun
      obtain rfl : run = a.runAfter (.ch c) := runIs
      refine ⟨afterRun_of_last, fun more => ?_⟩
      rw [afterRun_of_more more]
      exact ⟨fun k => positionOf_setPosition a _ k _, fun k => runOf_setRun (a.setPosition _ _) _ k _, rfl, rfl, rfl⟩
    · unfold Arbiter.afterChannel
      exact ⟨fun grant => by rw [grant], fun grant => by rw [grant], fun grant => by rw [grant]⟩
    · rw [retired, onRetire_eq]
      refine ⟨rfl, fun k => ?_, rfl, rfl, rfl⟩
      by_cases stands : a.positionOf (a.classOf (.ch c)) = .ch c
      · rw [if_congr (and_iff_left stands) rfl rfl, if_pos stands]
        exact getAt_setAt a.runCount _ k 0
      · rw [if_neg stands]
        exact (if_neg fun both => stands both.2).symm
    · rw [recorded, record_eq]
      exact ⟨rfl, rfl, rfl, rfl, rfl⟩

end Sys2Proof.Proofs


/-! # ADMISSION (O47): the burst list, and when nothing is admitted -/

namespace Sys2Proof.Proofs

open Sys2Proof.Machine Sys2Proof.Laws

/-! ## The list of an admission (R21, R23, R36) -/

theorem entryState_cases {x y : EntryState} (accessing : x = .accessing ↔ y = .accessing)
    (ready : y ≠ .accessing → (x = .ready ↔ y = .ready)) : x = y := by
  cases x <;> cases y <;> simp_all

/-- A list that R23 holds of is settled. -/
theorem settleList_of_entryLaw {d : Scheduler} (law : d.EntryLaw) : settleList d.banks [] d.list = d.list := by
  refine List.ext_getElem (settleList_length ..) fun k inSettled inList => ?_
  rw [settleList_getElem d.banks [] d.list k inList inSettled]
  have same : entryStateOf d.banks (((d.list.take k).map BurstEntry.bank).reverse ++ []) d.list[k] = d.list[k].state := by
    refine entryState_cases (entryStateOf_accessing ..) fun other => ?_
    rw [entryStateOf_ready other, law k inList other, List.append_nil, List.mem_reverse, mem_take_banks inList]
    exact Iff.rfl
  rw [same]

theorem entryStateOf_congr {banks banks' : Vector Bank 8}
    (same : ∀ b row, (getAt banks b).isOpenOn row = (getAt banks' b).isOpenOn row) (seen : List BankId) (e : BurstEntry) :
    entryStateOf banks seen e = entryStateOf banks' seen e := by
  unfold entryStateOf
  rw [same]

theorem settleList_congr {banks banks' : Vector Bank 8}
    (same : ∀ b row, (getAt banks b).isOpenOn row = (getAt banks' b).isOpenOn row) :
    ∀ (seen : List BankId) (l : List BurstEntry), settleList banks seen l = settleList banks' seen l
  | _, [] => rfl
  | seen, e :: rest => by
    rw [settleList, settleList, entryStateOf_congr same, settleList_congr same (e.bank :: seen) rest]

theorem isOpenOn_iff (x : Bank) (row : Nat) : x.isOpenOn row = true ↔ ∃ o, x = .opened o ∧ o.row = row := by
  cases x <;> simp [Bank.isOpenOn]

theorem isOpenOn_admitHead (x : Bank) (row q : Nat) : (x.admitHead row).isOpenOn q = x.isOpenOn q := by
  cases x with
  | opened o =>
    show (if o.row = row then Bank.opened _ else Bank.opened o).isOpenOn q = _
    split <;> rfl
  | closed => rfl
  | opening r t => rfl
  | closing t => rfl

theorem admitBanks_of_alone {d : Scheduler} {e : BurstEntry} (alone : ∀ x ∈ d.list, x.bank ≠ e.bank) :
    admitBanks e d = d.setBank e.bank ((d.bank e.bank).admitHead e.row) := by
  unfold admitBanks
  rw [(head?_none_iff d e.bank).mpr alone]

theorem admitBanks_of_others {d : Scheduler} {e : BurstEntry} (others : ¬ ∀ x ∈ d.list, x.bank ≠ e.bank) :
    admitBanks e d = d := by
  unfold admitBanks
  cases head : d.head? e.bank with
  | none => exact absurd ((head?_none_iff d e.bank).mp head) others
  | some x => rfl

theorem admitBanks_isOpenOn (e : BurstEntry) (d : Scheduler) (b : BankId) (row : Nat) :
    ((admitBanks e d).bank b).isOpenOn row = (d.bank b).isOpenOn row := by
  by_cases alone : ∀ x ∈ d.list, x.bank ≠ e.bank
  · rw [admitBanks_of_alone alone, bank_setBank]
    split
    case isTrue same => rw [isOpenOn_admitHead, same]
    case isFalse => rfl
  · rw [admitBanks_of_others alone]

theorem admitEntry_list {d : Scheduler} (law : d.EntryLaw) (e : BurstEntry) : (d.admitEntry e).list =
    d.list ++ [{ e with state := if (∀ x ∈ d.list, x.bank ≠ e.bank) ∧ (d.bank e.bank).isOpenOn e.row = true then .ready
      else .waitingBank }] := by
  have listed : (d.admitEntry e).list = settleList (admitBanks e d).banks [] (d.list ++ [{ e with state := .waitingBank }]) := by
    rw [admitEntry_eq]
    rfl
  rw [listed, settleList_congr (banks' := d.banks) (admitBanks_isOpenOn e d), settleList_append, settleList_of_entryLaw law,
    List.append_nil]
  congr 3
  have ready := entryStateOf_ready (banks := d.banks) (seen := (d.list.map BurstEntry.bank).reverse)
    (e := { e with state := .waitingBank }) (by exact EntryState.noConfusion)
  have unseen : e.bank ∉ (d.list.map BurstEntry.bank).reverse ↔ ∀ x ∈ d.list, x.bank ≠ e.bank := by
    simp [List.mem_reverse, List.mem_map]
  split
  case isTrue both => exact ready.mpr ⟨unseen.mpr both.1, both.2⟩
  case isFalse not_both =>
    refine entryState_cases ?_ fun _ => ?_
    · rw [entryStateOf_accessing]
    · rw [ready]
      refine iff_of_false (fun both => not_both ⟨unseen.mp both.1, both.2⟩) (by decide)

theorem admitEntry_bank (d : Scheduler) (e : BurstEntry) (b : BankId) :
    (d.admitEntry e).bank b = (admitBanks e d).bank b := by
  rw [admitEntry_eq]
  rfl

/-! ## No admission (R22, R61, R62) -/

section
variable {s : State}

theorem opportunity_iff (d : Scheduler) :
    d.opportunity = true ↔ (d.mode ≠ .bringup ∧ d.mode ≠ .failed) ∧ d.list.length < 8 := by
  unfold Scheduler.opportunity
  rw [Bool.and_eq_true, decide_eq_true_iff]
  cases d.mode <;> simp [SchedMode.admits, Config.listPlaces]

theorem chosen_eq_some {r : Requester} (opportunity : s.sched.opportunity = true) (ready : s.link.readiness = .ready)
    (choice : s.arb.choose = some r) (places : s.entriesOf r < 2) : s.chosen = some r := by
  unfold State.chosen State.admissionOpen
  rw [opportunity, decide_eq_true ready, choice, Bool.and_self, if_pos rfl, Option.filter_some, if_pos]
  exact decide_eq_true places

theorem exec_admission_of_none (unchosen : s.chosen = none) : exec .admission s = .next s := by
  show execAdmission s = _
  unfold execAdmission
  rw [unchosen]

theorem exec_admission_of_channel {c : ChannelId} (chosen : s.chosen = some (.ch c)) :
    exec .admission s = .next (s.admitChannel c) := by
  show execAdmission s = _
  unfold execAdmission
  rw [chosen]

theorem exec_admission_of_lau (chosen : s.chosen = some .lau) : exec .admission s = .next s.admitLau := by
  show execAdmission s = _
  unfold execAdmission
  rw [chosen]

theorem admitChannel_of_no_burst {c : ChannelId}
    (nothing : ∀ cur, (s.channel c).current = some cur → s.nextBurst c cur = none) : s.admitChannel c = s := by
  unfold State.admitChannel
  cases current : (s.channel c).current with
  | none => rfl
  | some cur =>
    dsimp only
    rw [nothing cur current]

theorem exec_admission_of_nothing (nothing : s.sched.mode = .bringup ∨ s.sched.mode = .failed ∨ 8 ≤ s.sched.list.length ∨
      s.link.readiness ≠ .ready ∨ s.arb.choose = none ∨
      (∃ r, s.arb.choose = some r ∧ 2 ≤ s.entriesOf r) ∨
      (∃ c, s.arb.choose = some (.ch c) ∧ ∀ cur, (s.channel c).current = some cur → s.nextBurst c cur = none) ∨
      (s.arb.choose = some .lau ∧ s.lauReadiness ≠ .ready)) : exec .admission s = .next s := by
  cases chosen : s.chosen with
  | none => exact exec_admission_of_none chosen
  | some r =>
    obtain ⟨opportunity, ready, choice, places⟩ := chosen_some chosen
    obtain ⟨⟨notBringup, notFailed⟩, room⟩ := (opportunity_iff s.sched).mp opportunity
    rcases nothing with bringup | failed | full | busy | none_ | ⟨x, is, two⟩ | ⟨c, is, noBurst⟩ | ⟨is, unready⟩
    · exact absurd bringup notBringup
    · exact absurd failed notFailed
    · omega
    · exact absurd ready busy
    · rw [none_] at choice; cases choice
    · rw [is] at choice; cases choice; omega
    · rw [is] at choice; cases choice
      rw [exec_admission_of_channel chosen, admitChannel_of_no_burst noBurst]
    · rw [is] at choice; cases choice
      rw [exec_admission_of_lau chosen, State.admitLau, if_neg unready]

end

end Sys2Proof.Proofs


/-! # ADMISSION (O47): the entry a channel forms -/

namespace Sys2Proof.Proofs

open Sys2Proof.Machine Sys2Proof.Laws

/-! ## The place of a burst (R86) -/

/-- A WRITE's place: a byte of a LINEAR region, or a ring's back with its reservation made. -/
def WritesAt (u : State) (r : RegionId) (d : RegionRecord) (pos : Nat) (p : Place) : Prop :=
  (d.kind = .linear → p = { addr := d.base + pos, ref := none, after := u }) ∧
  ∀ g, d.kind = .ring g → p = Place.mk (d.base + g.back) (some { region := r, offset := g.back })
    (u.setRing r (g.reserveWrite d.length))

/-- A READ's place: a byte of a LINEAR region, or a ring's front with its reservation made. -/
def ReadsAt (u : State) (r : RegionId) (d : RegionRecord) (pos : Nat) (p : Place) : Prop :=
  (d.kind = .linear → p = { addr := d.base + pos, ref := none, after := u }) ∧
  ∀ g, d.kind = .ring g → p = Place.mk (d.base + g.front) (some { region := r, offset := g.front })
    (u.setRing r (g.reserveRead d.length))

theorem exists_writePlace {u : State} {r : RegionId} {d : RegionRecord} (record : (u.region r).record = some d)
    (pos : Nat) : ∃ p, u.writePlace r pos = some p ∧ WritesAt u r d pos p := by
  unfold State.writePlace
  rw [record]
  dsimp only
  cases kind : d.kind with
  | linear => exact ⟨_, rfl, fun _ => rfl, fun g is => by rw [kind] at is; cases is⟩
  | ring g => exact ⟨_, rfl, fun is => (by rw [kind] at is; cases is), fun h is => by rw [kind] at is; cases is; rfl⟩

theorem exists_readPlace {u : State} {r : RegionId} {d : RegionRecord} (record : (u.region r).record = some d)
    (pos : Nat) : ∃ p, u.readPlace r pos = some p ∧ ReadsAt u r d pos p := by
  unfold State.readPlace
  rw [record]
  dsimp only
  cases kind : d.kind with
  | linear => exact ⟨_, rfl, fun _ => rfl, fun g is => by rw [kind] at is; cases is⟩
  | ring g => exact ⟨_, rfl, fun is => (by rw [kind] at is; cases is), fun h is => by rw [kind] at is; cases is; rfl⟩

/-- A place's state differs from the one it was formed in by its region's record alone. -/
theorem WritesAt.after_regions {u : State} {r : RegionId} {d : RegionRecord} {pos : Nat} {p : Place}
    (at_ : WritesAt u r d pos p) : p.after = { u with regions := p.after.regions } := by
  cases kind : d.kind with
  | linear => rw [at_.1 kind]
  | ring g => rw [at_.2 g kind]; rfl

theorem ReadsAt.after_regions {u : State} {r : RegionId} {d : RegionRecord} {pos : Nat} {p : Place}
    (at_ : ReadsAt u r d pos p) : p.after = { u with regions := p.after.regions } := by
  cases kind : d.kind with
  | linear => rw [at_.1 kind]
  | ring g => rw [at_.2 g kind]; rfl

section
variable {u : State} {c : ChannelId} {d : Descriptor} {r : RegionId} {off : Nat} {x : RegionRecord}

theorem exists_channelWrite (dest : d.dest = .region r off) (record : (u.region r).record = some x) (pos : Nat)
    (data : List Byte) : ∃ p, WritesAt u r x (off + pos) p ∧
      u.channelWrite c d pos data =
        some (p.entry (.ch c) (.write data) d.closeAfter, p.after.modProg c Progress.addAdmitted) := by
  obtain ⟨p, place, at_⟩ := exists_writePlace record (off + pos)
  refine ⟨p, at_, ?_⟩
  unfold State.channelWrite Descriptor.endpointRegion Descriptor.destOffset
  rw [dest]
  dsimp only
  rw [place]
  rfl

theorem exists_channelRead (source : d.source = .region r off) (record : (u.region r).record = some x) (pos : Nat)
    (target : Target) (f : Progress → Progress) : ∃ p, ReadsAt u r x (off + pos) p ∧
      u.channelRead c d pos target f =
        some (p.entry (.ch c) (.read target) d.closeAfter, p.after.modProg c f) := by
  obtain ⟨p, place, at_⟩ := exists_readPlace record (off + pos)
  refine ⟨p, at_, ?_⟩
  unfold State.channelRead Descriptor.endpointRegion Descriptor.sourceOffset
  rw [source]
  dsimp only
  rw [place]
  rfl

end

/-! ## Where the next burst goes (R85) -/

section
variable {s : State} {c : ChannelId} {cur : Current} {b : Burst}

theorem regionWritable_record {who : Requester} {r : RegionId} (may : s.regionWritable who r = true) :
    ∃ d, (s.region r).record = some d := by
  obtain ⟨d, record, -⟩ := (regionWritable_iff s who r).mp may
  exact ⟨d, record⟩

theorem regionReadable_record {who : Requester} {r : RegionId} (may : s.regionReadable who r = true) :
    ∃ d, (s.region r).record = some d := by
  obtain ⟨d, record, -⟩ := (regionReadable_iff s who r).mp may
  exact ⟨d, record⟩

/-- A burst that can be formed has a DEFINED region: its destination where it is a WRITE, else its source. -/
theorem nextBurst_region (next : s.nextBurst c cur = some b) : ∃ r off d, (s.region r).record = some d ∧
    (b.writes = true → cur.desc.dest = .region r off) ∧ (b.writes = false → cur.desc.source = .region r off) := by
  cases source : cur.desc.source with
  | capture p =>
    cases dest : cur.desc.dest with
    | playout k => rw [State.nextBurst, source, dest] at next; cases next
    | region r off =>
      rw [nextBurst_capture source dest, Option.ite_none_right_eq_some, Bool.and_eq_true] at next
      obtain ⟨⟨-, may⟩, is⟩ := next
      cases is
      obtain ⟨d, record⟩ := regionWritable_record may
      exact ⟨r, off, d, record, fun _ => rfl, nofun⟩
  | pattern v =>
    cases dest : cur.desc.dest with
    | playout k => rw [State.nextBurst, source, dest] at next; cases next
    | region r off =>
      rw [nextBurst_pattern source dest, Option.ite_none_right_eq_some, Bool.and_eq_true] at next
      obtain ⟨⟨-, may⟩, is⟩ := next
      cases is
      obtain ⟨d, record⟩ := regionWritable_record may
      exact ⟨r, off, d, record, fun _ => rfl, nofun⟩
  | region r off =>
    cases dest : cur.desc.dest with
    | playout k =>
      rw [nextBurst_playout source dest, Option.ite_none_right_eq_some, Bool.and_eq_true] at next
      obtain ⟨⟨-, may⟩, is⟩ := next
      cases is
      obtain ⟨d, record⟩ := regionReadable_record may
      exact ⟨r, off, d, record, nofun, fun _ => rfl⟩
    | region q away =>
      rw [nextBurst_copy source dest, Option.or_eq_some_iff] at next
      rcases next with write | ⟨-, read⟩
      · unfold State.copyWriteBurst at write
        cases full : (s.channel c).oldestFull with
        | none => rw [full] at write; cases write
        | some x =>
          rw [full] at write
          dsimp only at write
          rw [Option.ite_none_right_eq_some, Bool.and_eq_true] at write
          obtain ⟨⟨-, may⟩, is⟩ := write
          cases is
          obtain ⟨d, record⟩ := regionWritable_record may
          exact ⟨q, away, d, record, fun _ => rfl, nofun⟩
      · unfold State.copyReadBurst at read
        cases empty : (s.channel c).emptySlot with
        | none => rw [empty] at read; cases read
        | some x =>
          rw [empty] at read
          dsimp only at read
          rw [Option.ite_none_right_eq_some, Bool.and_eq_true] at read
          obtain ⟨⟨-, may⟩, is⟩ := read
          cases is
          obtain ⟨d, record⟩ := regionReadable_record may
          exact ⟨r, off, d, record, nofun, fun _ => rfl⟩

end

end Sys2Proof.Proofs


/-! # ADMISSION (O47): the clauses -/

namespace Sys2Proof.Proofs

open Sys2Proof.Machine Sys2Proof.Laws

/-! ## A channel's admission (R63, R86 to R90) -/

/-- What a burst takes of ports and channel `c` before its place is found: nothing else of the state, and not the
channel's descriptor. -/
structure TakenFrom (c : ChannelId) (s u : State) : Prop where
  fields : u = { s with captures := u.captures, playouts := u.playouts, channels := u.channels }
  others : ∀ x, x ≠ c → u.channel x = s.channel x
  current : (u.channel c).current = (s.channel c).current

theorem takenFrom_refl (c : ChannelId) (s : State) : TakenFrom c s s := ⟨rfl, fun _ _ => rfl, rfl⟩

theorem takenFrom_setCapture (c : ChannelId) (s : State) (k : CaptureId) (x : CapturePort) :
    TakenFrom c s (s.setCapture k x) := ⟨rfl, fun _ _ => rfl, rfl⟩

theorem takenFrom_setPlayout (c : ChannelId) (s : State) (k : PlayoutId) (x : PlayoutPort) :
    TakenFrom c s (s.setPlayout k x) := ⟨rfl, fun _ _ => rfl, rfl⟩

theorem takenFrom_setSlot (c : ChannelId) (s : State) (slot : CopySlotId) (x : CopySlot) :
    TakenFrom c s (s.modChannel c (Channel.setSlot slot x)) := by
  refine ⟨rfl, fun b other => channel_modChannel_ne _ other _, ?_⟩
  rw [channel_modChannel_self]
  cases slot <;> rfl

/-- What an admission of a channel's burst gives, but for what the burst takes of ports and channel. -/
def AdmitsBurst (s : State) (c : ChannelId) (cur : Current) (b : Burst) (e : BurstEntry) (v : State) : Prop :=
  exec .admission s = .next ((v.setSched (s.sched.admitEntry e)).setArb (s.arb.afterChannel c cur.desc)).report ∧
  e.owner = .requester (.ch c) ∧ e.closeAfter = decide (cur.desc.rowPolicy = .closeAfter) ∧
  v.link = s.link ∧ v.lau = s.lau ∧ v.notices = s.notices ∧ v.marks = s.marks ∧ v.mem = s.mem ∧
  (∀ x, x ≠ c → v.channel x = s.channel x) ∧
  ∀ r p d, b.place cur = some (r, p) → (s.region r).record = some d →
    (d.kind = .linear → e.addr = d.base + p ∧ e.ringRef = none ∧ v.regions = s.regions) ∧
    (∀ g, d.kind = .ring g → b.writes = true → e.addr = d.base + g.back ∧
      e.ringRef = some { region := r, offset := g.back } ∧ v.regions = (s.setRing r (g.reserveWrite d.length)).regions) ∧
    (∀ g, d.kind = .ring g → b.writes = false → e.addr = d.base + g.front ∧
      e.ringRef = some { region := r, offset := g.front } ∧
      v.regions = (s.setRing r (g.reserveRead d.length)).regions)

theorem regions_setRing_of_same {s u : State} (same : u.regions = s.regions) (r : RegionId) (g : Ring) :
    (u.setRing r g).regions = (s.setRing r g).regions := by
  unfold State.setRing State.setRegion State.region
  rw [same]

section
variable {s u : State} {c : ChannelId} {cur : Current} {b : Burst}
  (chosen : s.chosen = some (.ch c)) (current : (s.channel c).current = some cur) (next : s.nextBurst c cur = some b)
  (taken : TakenFrom c s u)

section
include chosen current next

theorem exec_admission_formed {e : BurstEntry} {v : State} (formed : s.formChannel c cur b = some (e, v))
    (sched : v.sched = s.sched) (arb : v.arb = s.arb) : exec .admission s =
      .next ((v.setSched (s.sched.admitEntry e)).setArb (s.arb.afterChannel c cur.desc)).report := by
  rw [exec_admission_of_channel chosen]
  unfold State.admitChannel
  rw [current]
  dsimp only
  rw [next]
  dsimp only
  rw [formed]
  unfold State.admitted
  dsimp only
  rw [sched]
  exact congrArg (fun a : Arbiter => Host.Outcome.next ((v.setSched (s.sched.admitEntry e)).setArb
    (a.afterChannel c cur.desc)).report) arb

end

theorem counted_channel (current : (s.channel c).current = some cur) (taken : TakenFrom c s u) {w : State}
    (after : w = { u with regions := w.regions }) (f : Progress → Progress) :
    (w.modProg c f).channel c = { u.channel c with current := some { cur with prog := f cur.prog } } := by
  have same : w.channel c = u.channel c := by rw [after]; rfl
  have here : (w.channel c).current = some cur := by rw [same, taken.current, current]
  rw [modProg_of_current here, channel_setChannel_self, same]

theorem counted_channel_ne (taken : TakenFrom c s u) {w : State} (after : w = { u with regions := w.regions })
    (f : Progress → Progress) {x : ChannelId} (other : x ≠ c) : (w.modProg c f).channel x = s.channel x := by
  have same : w.channel x = u.channel x := by rw [after]; rfl
  rw [State.modProg, channel_modChannel_ne _ other, same, taken.others x other]

include chosen current next taken

theorem admitsBurst_of_place {p : Place} {t : Transfer} {f : Progress → Progress}
    (after : p.after = { u with regions := p.after.regions })
    (formed : s.formChannel c cur b = some (p.entry (.ch c) t cur.desc.closeAfter, p.after.modProg c f))
    (place : ∀ r q d, b.place cur = some (r, q) → (s.region r).record = some d →
      (b.writes = true → WritesAt u r d q p) ∧ (b.writes = false → ReadsAt u r d q p)) :
    AdmitsBurst s c cur b (p.entry (.ch c) t cur.desc.closeAfter) (p.after.modProg c f) := by
  have fields : p.after = { s with
      regions := p.after.regions, captures := u.captures, playouts := u.playouts, channels := u.channels } := by
    rw [after, taken.fields]
  have regions : u.regions = s.regions := by rw [taken.fields]
  have leaves : (p.after.modProg c f).link = s.link ∧ (p.after.modProg c f).lau = s.lau ∧
      (p.after.modProg c f).notices = s.notices ∧ (p.after.modProg c f).marks = s.marks ∧
      (p.after.modProg c f).mem = s.mem ∧ (p.after.modProg c f).sched = s.sched ∧ (p.after.modProg c f).arb = s.arb := by
    rw [fields]
    exact ⟨rfl, rfl, rfl, rfl, rfl, rfl, rfl⟩
  obtain ⟨link, lau, notices, marks, mem, sched, arb⟩ := leaves
  refine ⟨exec_admission_formed chosen current next formed sched arb, rfl, rfl, link, lau, notices, marks, mem,
    fun x other => counted_channel_ne taken after f other, fun r q d is record => ?_⟩
  obtain ⟨writes, reads⟩ := place r q d is record
  refine ⟨fun linear => ?_, fun g ring isWrite => ?_, fun g ring isRead => ?_⟩
  · have at_ : p = { addr := d.base + q, ref := none, after := u } := by
      cases isWrite : b.writes with
      | true => exact (writes isWrite).1 linear
      | false => exact (reads isWrite).1 linear
    subst at_
    exact ⟨rfl, rfl, regions⟩
  · have at_ := (writes isWrite).2 g ring
    subst at_
    exact ⟨rfl, rfl, regions_setRing_of_same regions ..⟩
  · have at_ := (reads isRead).2 g ring
    subst at_
    exact ⟨rfl, rfl, regions_setRing_of_same regions ..⟩

/-- A WRITE of a channel: the entry with its data, and the state with the bytes counted as admitted. -/
theorem exists_admitsBurst_write {pos : Nat} {data : List Byte} (isWrite : b.writes = true)
    (forms : s.formChannel c cur b = u.channelWrite c cur.desc pos data)
    (placed : ∀ r off, cur.desc.dest = .region r off → b.place cur = some (r, off + pos)) :
    ∃ e v, AdmitsBurst s c cur b e v ∧ e.transfer = .write data ∧ v.captures = u.captures ∧ v.playouts = u.playouts ∧
      v.channel c = (u.channel c).counts cur 32 0 := by
  obtain ⟨r, off, d, record, toDest, -⟩ := nextBurst_region next
  have dest := toDest isWrite
  have regions : u.regions = s.regions := by rw [taken.fields]
  have record' : (u.region r).record = some d := by rw [← record]; unfold State.region; rw [regions]
  obtain ⟨p, at_, formed⟩ := exists_channelWrite (c := c) dest record' pos data
  refine ⟨_, _, admitsBurst_of_place chosen current next taken at_.after_regions (forms.trans formed) ?_, rfl, ?_, ?_,
    counted_channel current taken at_.after_regions _⟩
  · intro r' q d' is record''
    rw [placed r off dest] at is
    cases is
    rw [record] at record''
    cases record''
    exact ⟨fun _ => at_, fun isRead => Bool.noConfusion (isWrite.symm.trans isRead)⟩
  · rw [at_.after_regions]; rfl
  · rw [at_.after_regions]; rfl

/-- A READ of a channel: the entry with its target, and the state with the bytes counted. -/
theorem exists_admitsBurst_read {pos : Nat} {target : Target} {f : Progress → Progress} (isRead : b.writes = false)
    (forms : s.formChannel c cur b = u.channelRead c cur.desc pos target f)
    (placed : ∀ r off, cur.desc.source = .region r off → b.place cur = some (r, off + pos)) :
    ∃ e v, AdmitsBurst s c cur b e v ∧ e.transfer = .read target ∧ v.captures = u.captures ∧ v.playouts = u.playouts ∧
      v.channel c = { u.channel c with current := some { cur with prog := f cur.prog } } := by
  obtain ⟨r, off, d, record, -, toSource⟩ := nextBurst_region next
  have source := toSource isRead
  have regions : u.regions = s.regions := by rw [taken.fields]
  have record' : (u.region r).record = some d := by rw [← record]; unfold State.region; rw [regions]
  obtain ⟨p, at_, formed⟩ := exists_channelRead (c := c) source record' pos target f
  refine ⟨_, _, admitsBurst_of_place chosen current next taken at_.after_regions (forms.trans formed) ?_, rfl, ?_, ?_,
    counted_channel current taken at_.after_regions _⟩
  · intro r' q d' is record''
    rw [placed r off source] at is
    cases is
    rw [record] at record''
    cases record''
    exact ⟨fun isWrite => Bool.noConfusion (isWrite.symm.trans isRead), fun _ => at_⟩
  · rw [at_.after_regions]; rfl
  · rw [at_.after_regions]; rfl

end

/-! ## The LAU's admission (R146) -/

section
variable {s : State} {sv : LauService} (chosen : s.chosen = some .lau) (service : s.lau.service = some sv)
  (ready : s.lauReadiness = .ready)
include chosen service ready

theorem exec_admission_lauFormed {e : BurstEntry} {v : State} (formed : s.formLau sv = some (e, v))
    (sched : v.sched = s.sched) (arb : v.arb = s.arb) : exec .admission s =
      .next ((v.setSched (s.sched.admitEntry e)).setArb (s.arb.afterSingle .lau)).report := by
  rw [exec_admission_of_lau chosen]
  unfold State.admitLau
  rw [if_pos ready, service]
  dsimp only
  rw [formed]
  unfold State.admitted
  dsimp only
  rw [sched]
  exact congrArg (fun a : Arbiter => Host.Outcome.next ((v.setSched (s.sched.admitEntry e)).setArb
    (a.afterSingle .lau)).report) arb

end

theorem dropsAt_of_ring {s : State} {r : RegionId} {d : RegionRecord} {g : Ring} (ring : s.ring? r = some (d, g)) :
    s.dropsAt r = decide (g.space d.length < 32) := by
  unfold State.dropsAt
  rw [ring]
  rfl

theorem admitHead_of_not_open {x : Bank} {row : Nat} (shut : x.isOpenOn row = false) : x.admitHead row = x := by
  cases x with
  | opened o => exact if_neg (decide_eq_false_iff_not.mp shut)
  | closed => rfl
  | opening r t => rfl
  | closing t => rfl

/-- Settles O47: the list by R23's law, no admission by the checks, and the entries by the bursts that form them. -/
theorem admission : Obligations.Admission := by
  refine ⟨fun d e alone open_ law aloneIs openIs => ?list, fun s nothing => exec_admission_of_nothing nothing,
    fun s notBringup notFailed room ready => ?_⟩
  case list =>
    have aloneIff : alone ↔ ∀ x ∈ d.list, x.bank ≠ e.bank := aloneIs
    have openIff : open_ ↔ (d.bank e.bank).isOpenOn e.row = true := openIs.trans (isOpenOn_iff ..).symm
    refine ⟨fun both => ?_, fun not_both => ?_, fun o is opened row => ?_, fun b away => ?_, ?_⟩
    · rw [admitEntry_list law, if_pos (by rw [← aloneIff, ← openIff]; exact both)]
    · rw [admitEntry_list law, if_neg (by rw [← aloneIff, ← openIff]; exact not_both)]
    · rw [admitEntry_bank, admitBanks_of_alone (aloneIff.mp is)]
      show (d.setBank e.bank _).bank e.bank = _
      rw [bank_setBank, if_pos rfl, show d.bank e.bank = _ from opened]
      exact if_pos row
    · rw [admitEntry_bank]
      by_cases is : alone
      · rw [admitBanks_of_alone (aloneIff.mp is), bank_setBank]
        split
        case isTrue same =>
          have shut : ¬ open_ := fun opened => away.elim (· same) (· ⟨is, opened⟩)
          rw [admitHead_of_not_open (by rw [Bool.eq_false_iff]; exact fun opened => shut (openIff.mpr opened)), same]
        case isFalse => rfl
      · rw [admitBanks_of_others (is ∘ aloneIff.mpr)]
    · rw [admitEntry_eq]
      unfold admitBanks
      split <;> rfl
  have opportunity : s.sched.opportunity = true := (opportunity_iff s.sched).mpr ⟨⟨notBringup, notFailed⟩, room⟩
  refine ⟨fun c cur b choice places current next => ?channel, fun sv choice places service lauReady out outIs => ?lau⟩
  case channel =>
    have chosen := chosen_eq_some opportunity ready choice places
    cases b with
    | captureWrite p =>
      obtain ⟨e, v, admits, transfer, captures, -, channel⟩ := exists_admitsBurst_write chosen current next
        (takenFrom_setCapture c s p (s.capture p).taken) rfl rfl
        (fun r off dest => by simp only [Burst.place, Burst.writes, dest, if_true])
      obtain ⟨exec, owner, closeAfter, link, lau, notices, marks, mem, others, place⟩ := admits
      refine ⟨e, v, exec, owner, closeAfter, link, lau, notices, marks, mem, others, place, transfer, ?_, channel⟩
      rw [State.capture, captures]
      exact getAt_setAt_self ..
    | patternWrite w =>
      obtain ⟨e, v, admits, transfer, -, -, channel⟩ := exists_admitsBurst_write chosen current next
        (takenFrom_refl c s) rfl rfl (fun r off dest => by simp only [Burst.place, Burst.writes, dest, if_true])
      obtain ⟨exec, owner, closeAfter, link, lau, notices, marks, mem, others, place⟩ := admits
      exact ⟨e, v, exec, owner, closeAfter, link, lau, notices, marks, mem, others, place, transfer, channel⟩
    | playoutRead p =>
      obtain ⟨e, v, admits, transfer, -, playouts, channel⟩ := exists_admitsBurst_read chosen current next
        (takenFrom_setPlayout c s p ((s.playout p).reserve cur.prog.admitted)) rfl rfl
        (fun r off source => by simp [Burst.place, Burst.writes, source])
      obtain ⟨exec, owner, closeAfter, link, lau, notices, marks, mem, others, place⟩ := admits
      refine ⟨e, v, exec, owner, closeAfter, link, lau, notices, marks, mem, others, place, transfer, ?_, channel⟩
      rw [State.playout, playouts]
      exact getAt_setAt_self ..
    | copyWrite slot pos data =>
      obtain ⟨e, v, admits, transfer, -, -, channel⟩ := exists_admitsBurst_write chosen current next
        (takenFrom_setSlot c s slot .empty) rfl rfl (fun r off dest => by simp only [Burst.place, Burst.writes, dest, if_true])
      obtain ⟨exec, owner, closeAfter, link, lau, notices, marks, mem, others, place⟩ := admits
      rw [channel_modChannel_self] at channel
      exact ⟨e, v, exec, owner, closeAfter, link, lau, notices, marks, mem, others, place, transfer, channel⟩
    | copyRead slot =>
      obtain ⟨e, v, admits, transfer, -, -, channel⟩ := exists_admitsBurst_read chosen current next
        (takenFrom_setSlot c s slot (.reserved cur.prog.sourceAdmitted)) rfl rfl
        (fun r off source => by simp [Burst.place, Burst.writes, source])
      obtain ⟨exec, owner, closeAfter, link, lau, notices, marks, mem, others, place⟩ := admits
      rw [channel_modChannel_self] at channel
      exact ⟨e, v, exec, owner, closeAfter, link, lau, notices, marks, mem, others, place, transfer, channel⟩
  case lau =>
    have chosen := chosen_eq_some opportunity ready choice places
    refine ⟨fun off data op => ?_, fun off n op => ?_, fun data d g op ring => ?_, fun n d g op ring => ?_⟩
    · rw [outIs]
      refine exec_admission_lauFormed chosen service lauReady ?_ rfl rfl
      rw [State.formLau, op]
      rfl
    · rw [outIs]
      refine exec_admission_lauFormed chosen service lauReady ?_ rfl rfl
      rw [State.formLau, op]
      rfl
    · obtain ⟨record, kind⟩ := ring_some_iff.mp ring
      rw [outIs]
      refine exec_admission_lauFormed chosen service lauReady ?_ rfl rfl
      rw [State.formLau, op]
      dsimp only
      rw [State.writePlace, record]
      dsimp only
      rw [kind, dropsAt_of_ring ring]
      by_cases drops : g.space d.length < 32
      · rw [decide_eq_true drops, if_pos drops]; rfl
      · rw [decide_eq_false drops, if_neg drops]; rfl
    · obtain ⟨record, kind⟩ := ring_some_iff.mp ring
      rw [outIs]
      refine exec_admission_lauFormed chosen service lauReady ?_ rfl rfl
      rw [State.formLau, op]
      dsimp only
      rw [State.readPlace, record]
      dsimp only
      rw [kind]
      rfl

end Sys2Proof.Proofs


/-! # The ENQUEUE payload (O48) -/

namespace Sys2Proof.Proofs

open Sys2Proof.Machine Sys2Proof.Laws

theorem byte_le_two {b : Byte} (small : b.toNat ≤ 2) : b = 0#8 ∨ b = 1#8 ∨ b = 2#8 := by
  have cases : b.toNat = 0 ∨ b.toNat = 1 ∨ b.toNat = 2 := by omega
  exact cases.imp BitVec.eq_of_toNat_eq (Or.imp BitVec.eq_of_toNat_eq BitVec.eq_of_toNat_eq)

/-! ## The fields (R184) -/

section
variable {kind index b0 b1 b2 b3 : Byte}

theorem readSource_none (bad : 2 < kind.toNat ∨ (kind = 0#8 ∧ 3 < index.toNat) ∨ (kind = 1#8 ∧ 15 < index.toNat)) :
    readSource kind index b0 b1 b2 b3 = none := by
  rcases bad with beyond | ⟨rfl, beyond⟩ | ⟨rfl, beyond⟩
  · unfold readSource
    split
    case h_4 => rfl
    all_goals omega
  · exact congrArg (Option.map Source.capture) (idx_none beyond)
  · exact congrArg (Option.map fun r => Source.region r (nat32 b0 b1 b2 b3)) (idx_none beyond)

theorem readSource_some (known : kind.toNat ≤ 2) (capture : kind = 0#8 → index.toNat ≤ 3)
    (region : kind = 1#8 → index.toNat ≤ 15) : ∃ x, readSource kind index b0 b1 b2 b3 = some x ∧
      (∀ q : CaptureId, kind = 0#8 → q.val = index.toNat → x = .capture q) ∧
      (∀ r : RegionId, kind = 1#8 → r.val = index.toNat → x = .region r (nat32 b0 b1 b2 b3)) ∧
      (kind = 2#8 → x = .pattern (BitVec.ofNat 32 (nat32 b0 b1 b2 b3))) := by
  rcases byte_le_two known with rfl | rfl | rfl
  · obtain ⟨k, number⟩ : ∃ k : CaptureId, k.val = index.toNat := ⟨⟨index.toNat, Nat.lt_succ_of_le (capture rfl)⟩, rfl⟩
    refine ⟨.capture k, ?_, fun q _ is => congrArg _ (Fin.ext (number.trans is.symm)), nofun, nofun⟩
    exact congrArg (Option.map Source.capture) (number ▸ idx_val k)
  · obtain ⟨k, number⟩ : ∃ k : RegionId, k.val = index.toNat := ⟨⟨index.toNat, Nat.lt_succ_of_le (region rfl)⟩, rfl⟩
    refine ⟨.region k (nat32 b0 b1 b2 b3), ?_, nofun, fun q _ is => ?_, nofun⟩
    · exact congrArg (Option.map fun r => Source.region r (nat32 b0 b1 b2 b3)) (number ▸ idx_val k)
    · rw [Fin.ext (number.trans is.symm)]
  · exact ⟨_, rfl, nofun, nofun, fun _ => rfl⟩

theorem readDestination_none (bad : 1 < kind.toNat ∨ (kind = 0#8 ∧ 1 < index.toNat) ∨ (kind = 1#8 ∧ 15 < index.toNat)) :
    readDestination kind index b0 b1 b2 b3 = none := by
  rcases bad with beyond | ⟨rfl, beyond⟩ | ⟨rfl, beyond⟩
  · unfold readDestination
    split
    case h_3 => rfl
    all_goals omega
  · exact congrArg (Option.map Destination.playout) (idx_none beyond)
  · exact congrArg (Option.map fun r => Destination.region r (nat32 b0 b1 b2 b3)) (idx_none beyond)

theorem readDestination_some (known : kind.toNat ≤ 1) (playout : kind = 0#8 → index.toNat ≤ 1)
    (region : kind = 1#8 → index.toNat ≤ 15) : ∃ x, readDestination kind index b0 b1 b2 b3 = some x ∧
      (∀ q : PlayoutId, kind = 0#8 → q.val = index.toNat → x = .playout q) ∧
      (∀ r : RegionId, kind = 1#8 → r.val = index.toNat → x = .region r (nat32 b0 b1 b2 b3)) := by
  rcases byte_le_one known with rfl | rfl
  · obtain ⟨k, number⟩ : ∃ k : PlayoutId, k.val = index.toNat := ⟨⟨index.toNat, Nat.lt_succ_of_le (playout rfl)⟩, rfl⟩
    refine ⟨.playout k, ?_, fun q _ is => congrArg _ (Fin.ext (number.trans is.symm)), nofun⟩
    exact congrArg (Option.map Destination.playout) (number ▸ idx_val k)
  · obtain ⟨k, number⟩ : ∃ k : RegionId, k.val = index.toNat := ⟨⟨index.toNat, Nat.lt_succ_of_le (region rfl)⟩, rfl⟩
    refine ⟨.region k (nat32 b0 b1 b2 b3), ?_, nofun, fun q _ is => ?_⟩
    · exact congrArg (Option.map fun r => Destination.region r (nat32 b0 b1 b2 b3)) (number ▸ idx_val k)
    · rw [Fin.ext (number.trans is.symm)]

end

theorem readGrant_none {b : Byte} (beyond : 2 < b.toNat) : readGrant b = none := by
  unfold readGrant
  split
  case h_4 => rfl
  all_goals omega

theorem readGrant_eq {b : Byte} (known : b.toNat ≤ 2) : readGrant b = [GrantPolicy.single, .run, .hold][b.toNat]? := by
  rcases byte_le_two known with rfl | rfl | rfl <;> rfl

theorem readRowPolicy_none {b : Byte} (beyond : 1 < b.toNat) : readRowPolicy b = none := by
  unfold readRowPolicy
  split
  case h_3 => rfl
  all_goals omega

theorem readRowPolicy_eq {b : Byte} (known : b.toNat ≤ 1) :
    readRowPolicy b = [RowPolicy.keepOpen, .closeAfter][b.toNat]? := by
  rcases byte_le_one known with rfl | rfl <;> rfl

theorem readWait_none {mark count : Byte} (named : mark ≠ 0xFF#8) (bad : 15 < mark.toNat ∨ count = 0#8) :
    readWait mark count = none := by
  unfold readWait
  rw [if_neg named]
  cases number : idx? 16 mark.toNat with
  | none => rfl
  | some m =>
    rcases bad with beyond | zero
    · rw [idx_none beyond] at number; cases number
    · exact if_pos zero

theorem readWait_some {mark count : Byte} (good : mark ≠ 0xFF#8 → mark.toNat ≤ 15 ∧ count ≠ 0#8) :
    ∃ x, readWait mark count = some x ∧ (mark = 0xFF#8 → x = none) ∧
      (mark ≠ 0xFF#8 → ∃ w, x = some w ∧ w.mark.val = mark.toNat ∧ w.count = count.toNat) := by
  unfold readWait
  by_cases absent : mark = 0xFF#8
  · exact ⟨none, if_pos absent, fun _ => rfl, absurd absent⟩
  · obtain ⟨number, counts⟩ := good absent
    refine ⟨some { mark := ⟨mark.toNat, Nat.lt_succ_of_le number⟩, count := count.toNat }, ?_, (absurd · absent),
      fun _ => ⟨_, rfl, rfl, rfl⟩⟩
    rw [if_neg absent, show idx? 16 mark.toNat = some ⟨mark.toNat, Nat.lt_succ_of_le number⟩ from dif_pos _]
    exact if_neg counts

theorem readPost_none {mark : Byte} (named : mark ≠ 0xFF#8) (beyond : 15 < mark.toNat) : readPost mark = none := by
  unfold readPost
  rw [if_neg named, idx_none beyond]
  rfl

theorem readPost_some {mark : Byte} (good : mark ≠ 0xFF#8 → mark.toNat ≤ 15) :
    ∃ x, readPost mark = some x ∧ (mark = 0xFF#8 → x = none) ∧
      (mark ≠ 0xFF#8 → ∃ m, x = some m ∧ m.val = mark.toNat) := by
  unfold readPost
  by_cases absent : mark = 0xFF#8
  · exact ⟨none, if_pos absent, fun _ => rfl, absurd absent⟩
  · refine ⟨some ⟨mark.toNat, Nat.lt_succ_of_le (good absent)⟩, ?_, (absurd · absent), fun _ => ⟨_, rfl, rfl⟩⟩
    rw [if_neg absent, show idx? 16 mark.toNat = some ⟨mark.toNat, Nat.lt_succ_of_le (good absent)⟩ from dif_pos _]
    rfl

theorem runLengthOk_iff (n : Nat) : runLengthOk n = true ↔ 32 ≤ n ∧ n ≤ 16777216 ∧ n % 32 = 0 := by
  unfold runLengthOk
  rw [Bool.and_eq_true, Bool.and_eq_true, decide_eq_true_iff, decide_eq_true_iff, decide_eq_true_iff, and_assoc]
  exact Iff.rfl

theorem runBurstOk_iff (g : GrantPolicy) (n : Nat) : runBurstOk g n = true ↔ (g = .run → 2 ≤ n ∧ n ≤ 16) := by
  unfold runBurstOk
  cases g <;> simp

/-! ## The payload -/

/-- The bytes of an ENQUEUE, by its fields. -/
def enqueueBytes (fmt ch sk si dk di runs gr rb rp wm wc pm nt : Byte) (dtag so doff length : Nat) : List Byte :=
  [fmt, ch] ++ u16 dtag ++ [sk, si] ++ u32 so ++ [dk, di] ++ u32 doff ++ u32 length ++ [runs, gr, rb, rp, wm, wc, pm, nt]

section
variable {fmt ch sk si dk di runs gr rb rp wm wc pm nt : Byte} {dtag so doff length : Nat}

/-- The source field, its offset written in four bytes. -/
def sourceField (kind index : Byte) (n : Nat) : Option Source :=
  readSource kind index (BitVec.ofNat 8 n) (BitVec.ofNat 8 (n / 256)) (BitVec.ofNat 8 (n / 65536))
    (BitVec.ofNat 8 (n / 16777216))

/-- The destination field, its offset written in four bytes. -/
def destField (kind index : Byte) (n : Nat) : Option Destination :=
  readDestination kind index (BitVec.ofNat 8 n) (BitVec.ofNat 8 (n / 256)) (BitVec.ofNat 8 (n / 65536))
    (BitVec.ofNat 8 (n / 16777216))

theorem readEnqueue_eq_some (tagFits : dtag < 65536) (lengthFits : length < 4294967296) {c : ChannelId} {d : Descriptor} :
    readEnqueue (enqueueBytes fmt ch sk si dk di runs gr rb rp wm wc pm nt dtag so doff length) = some (c, d) ↔
      fmt = 1#8 ∧ idx? 6 ch.toNat = some c ∧ sourceField sk si so = some d.source ∧ destField dk di doff = some d.dest ∧
      readGrant gr = some d.grant ∧ readRowPolicy rp = some d.rowPolicy ∧ readWait wm wc = some d.wait ∧
      readPost pm = some d.post ∧ readFlag nt = some d.notify ∧
      ((runLengthOk length && runs ≠ 0#8 && runBurstOk d.grant rb.toNat) = true) ∧
      d.tag = BitVec.ofNat 16 dtag ∧ d.length = length ∧ d.runs = runs.toNat ∧ d.runBurst = rb.toNat := by
  have reads : readEnqueue (enqueueBytes fmt ch sk si dk di runs gr rb rp wm wc pm nt dtag so doff length) =
      if fmt ≠ 1#8 then none
      else (idx? 6 ch.toNat).bind fun c => (sourceField sk si so).bind fun source => (destField dk di doff).bind fun dest =>
        (readGrant gr).bind fun grant => (readRowPolicy rp).bind fun rowPolicy => (readWait wm wc).bind fun wait =>
        (readPost pm).bind fun post => (readFlag nt).bind fun notify =>
        if runLengthOk length && runs ≠ 0#8 && runBurstOk grant rb.toNat then
          some (c, Descriptor.mk (BitVec.ofNat 16 dtag) source dest length runs.toNat grant rb.toNat rowPolicy wait post
            notify)
        else none := by
    unfold enqueueBytes u16 u32
    simp only [List.cons_append, List.nil_append, readEnqueue, nat16_u16 tagFits, nat32_u32 lengthFits]
    rfl
  rw [reads]
  by_cases version : fmt = 1#8
  · rw [if_neg (not_not.mpr version)]
    simp only [Option.bind_eq_some_iff, Option.ite_none_right_eq_some, Option.some.injEq, Prod.mk.injEq]
    constructor
    · rintro ⟨c', number, source, src, dest, dst, grant, gra, rowPolicy, row, wait, wai, post, pos, notify, noti, ok, rfl,
        rfl⟩
      exact ⟨version, number, src, dst, gra, row, wai, pos, noti, ok, rfl, rfl, rfl, rfl⟩
    · rintro ⟨-, number, src, dst, gra, row, wai, pos, noti, ok, tag, len, runsIs, burst⟩
      refine ⟨c, number, _, src, _, dst, _, gra, _, row, _, wai, _, pos, _, noti, ok, rfl, ?_⟩
      rw [← tag, ← len, ← runsIs, ← burst]
  · rw [if_pos version]
    exact iff_of_false nofun fun both => version both.1

end

/-- An ENQUEUE's response where its owner answers it (R78, R79). -/
theorem exec_enqueue {s t : State} {tag : Byte} {p data : List Byte} {st : Status} (taken : s.takes 0x20#8 tag p = true)
    (serving : s.serving = true) (len : p.length = 28)
    (reply : enqueue p (s.working 0x20#8 tag) = (st, data, t.setLink (s.working 0x20#8 tag).link)) :
    exec (.enqueue tag p) s = .next (t.setLink (s.link.answered 0x20#8 tag st data)) :=
  repliesServing (ok := decide (p.length = 28)) (g := .whenReady) (f := enqueue p) taken serving (decide_eq_true len) reply

/-- Settles O48: the payload field by field. -/
theorem enqueuePayload : Obligations.EnqueuePayload := by
  intro fmt ch sk si dk di runs gr rb rp wm wc pm nt dtag so doff length p tagFits soFits doffFits lengthFits pIs bad badIs
  have reads := fun c d => readEnqueue_eq_some (fmt := fmt) (ch := ch) (sk := sk) (si := si) (dk := dk) (di := di) (runs := runs)
    (gr := gr) (rb := rb) (rp := rp) (wm := wm) (wc := wc) (pm := pm) (nt := nt) (so := so) (doff := doff) tagFits lengthFits
    (c := c) (d := d)
  rw [show enqueueBytes fmt ch sk si dk di runs gr rb rp wm wc pm nt dtag so doff length = p from pIs.symm] at reads
  refine ⟨fun isBad tag s taken serving => ?refused, fun good => ?accepted⟩
  case refused =>
    have unread : readEnqueue p = none := by
      refine Option.eq_none_iff_forall_ne_some.mpr fun x is => ?_
      obtain ⟨version, number, src, dst, gra, row, wai, pos, noti, ok, -, -, -, -⟩ := (reads x.1 x.2).mp is
      rw [Bool.and_eq_true, Bool.and_eq_true, runLengthOk_iff, runBurstOk_iff, decide_eq_true_iff] at ok
      obtain ⟨⟨⟨least, most, whole⟩, someRuns⟩, burst⟩ := ok
      rcases badIs.mp isBad with h | h | h | h | h | h | h | h | h | h | h | h | h | h | h | h | h | h
      · exact h version
      · rw [idx_none h] at number; cases number
      · rw [sourceField, readSource_none (.inl h)] at src; cases src
      · rw [sourceField, readSource_none (.inr (.inl h))] at src; cases src
      · rw [sourceField, readSource_none (.inr (.inr h))] at src; cases src
      · rw [destField, readDestination_none (.inl h)] at dst; cases dst
      · rw [destField, readDestination_none (.inr (.inl h))] at dst; cases dst
      · rw [destField, readDestination_none (.inr (.inr h))] at dst; cases dst
      · omega
      · omega
      · exact h whole
      · exact someRuns h
      · rw [readGrant_none h] at gra; cases gra
      · obtain ⟨rfl, outside⟩ := h
        have bounds := burst (Option.some.inj gra).symm
        omega
      · rw [readRowPolicy_none h] at row; cases row
      · rw [readWait_none h.1 h.2] at wai; cases wai
      · rw [readPost_none h.1 h.2] at pos; cases pos
      · rw [readFlag_of_one_lt h] at noti; cases noti
    have len : p.length = 28 := by rw [pIs]; rfl
    refine exec_enqueue (t := s) taken serving len ?_
    rw [Machine.enqueue, unread]
    rfl
  case accepted =>
    simp only [badIs, not_or, not_and, not_lt, not_not] at good
    obtain ⟨version, chIs, skIs, siCapture, siRegion, dkIs, diPlayout, diRegion, least, most, whole, someRuns, grIs, burst, rpIs,
      waits, posts, ntIs⟩ := good
    obtain ⟨source, src, sourceCapture, sourceRegion, sourcePattern⟩ := readSource_some (b0 := BitVec.ofNat 8 so)
      (b1 := BitVec.ofNat 8 (so / 256)) (b2 := BitVec.ofNat 8 (so / 65536)) (b3 := BitVec.ofNat 8 (so / 16777216)) skIs
      siCapture siRegion
    obtain ⟨dest, dst, destPlayout, destRegion⟩ := readDestination_some (b0 := BitVec.ofNat 8 doff)
      (b1 := BitVec.ofNat 8 (doff / 256)) (b2 := BitVec.ofNat 8 (doff / 65536)) (b3 := BitVec.ofNat 8 (doff / 16777216)) dkIs
      diPlayout diRegion
    rw [nat32_u32 soFits] at sourceRegion sourcePattern
    rw [nat32_u32 doffFits] at destRegion
    obtain ⟨wait, wai, noWait, someWait⟩ := readWait_some waits
    obtain ⟨post, pos, noPost, somePost⟩ := readPost_some posts
    obtain ⟨grant, gra⟩ : ∃ grant, readGrant gr = some grant := by rcases byte_le_two grIs with rfl | rfl | rfl <;> exact ⟨_, rfl⟩
    obtain ⟨rowPolicy, row⟩ : ∃ rowPolicy, readRowPolicy rp = some rowPolicy := by
      rcases byte_le_one rpIs with rfl | rfl <;> exact ⟨_, rfl⟩
    have grantRuns : grant = .run → gr = 1#8 := by
      rintro rfl
      rcases byte_le_two grIs with rfl | rfl | rfl
      · cases gra
      · rfl
      · cases gra
    have ok : (runLengthOk length && runs ≠ 0#8 && runBurstOk grant rb.toNat) = true := by
      rw [Bool.and_eq_true, Bool.and_eq_true, runLengthOk_iff, runBurstOk_iff, decide_eq_true_iff]
      exact ⟨⟨⟨least, most, whole⟩, someRuns⟩, fun is => burst (grantRuns is)⟩
    refine ⟨⟨ch.toNat, Nat.lt_succ_of_le chIs⟩, Descriptor.mk (BitVec.ofNat 16 dtag) source dest length runs.toNat grant
      rb.toNat rowPolicy wait post (decide (nt = 1#8)), ?_, rfl, ?_, rfl, rfl, rfl, rfl, sourceCapture,
      sourceRegion, sourcePattern, destPlayout, destRegion, (readGrant_eq grIs).symm.trans gra,
      (readRowPolicy_eq rpIs).symm.trans row, noWait, someWait, noPost, somePost⟩
    · exact (reads _ _).mpr ⟨version, dif_pos _, src, dst, gra, row, wai, pos, readFlag_of_le_one ntIs, ok, rfl, rfl, rfl, rfl⟩
    · rw [BitVec.toNat_ofNat]
      exact Nat.mod_eq_of_lt tagFits

end Sys2Proof.Proofs


/-! # ENQUEUE (O49) -/

namespace Sys2Proof.Proofs

open Sys2Proof.Machine Sys2Proof.Laws

/-! ## The checks (R78) -/

theorem reportAll_setLink (l : Link) (s : State) : (s.setLink l).reportAll = s.reportAll.setLink l := rfl

section
variable {c : ChannelId} {d : Descriptor} {s : State}

theorem mem_endpoints_iff {r : RegionId} {off : Nat} :
    (r, off) ∈ d.endpoints ↔ d.source = .region r off ∨ d.dest = .region r off := by
  unfold Descriptor.endpoints
  cases d.source <;> cases d.dest <;> simp [@eq_comm RegionId r, @eq_comm Nat off]

/-- A check of every endpoint fails where one of them fails it. -/
theorem not_all_endpoints {test : RegionId × Nat → Bool} :
    (!d.endpoints.all test) = true ↔
      ∃ r off, (d.source = .region r off ∨ d.dest = .region r off) ∧ test (r, off) = false := by
  rw [Bool.not_eq_true', List.all_eq_false]
  constructor
  · rintro ⟨⟨r, off⟩, mem, fails⟩
    exact ⟨r, off, mem_endpoints_iff.mp mem, by simpa using fails⟩
  · rintro ⟨r, off, mem, fails⟩
    exact ⟨(r, off), mem_endpoints_iff.mpr mem, by simpa using fails⟩

theorem endpoints_isEmpty : d.endpoints.isEmpty = true ↔ ∀ r off, ¬ (d.source = .region r off ∨ d.dest = .region r off) := by
  rw [List.isEmpty_iff, List.eq_nil_iff_forall_not_mem]
  constructor
  · exact fun none r off names => none (r, off) (mem_endpoints_iff.mpr names)
  · exact fun none ⟨r, off⟩ mem => none r off (mem_endpoints_iff.mp mem)

theorem isDefined_eq_false {r : RegionId} : s.isDefined r = false ↔ (s.region r).record = none := by
  simp [State.isDefined]

theorem ringOffsetOk_eq_false {r : RegionId} {off : Nat} : s.ringOffsetOk (r, off) = false ↔ s.ring? r ≠ none ∧ off ≠ 0 := by
  simp [State.ringOffsetOk, ← Option.ne_none_iff_isSome]

theorem linearAligned_eq_false {r : RegionId} {off : Nat} :
    s.linearAligned (r, off) = false ↔ s.ring? r = none ∧ off % 32 ≠ 0 := by
  simp [State.linearAligned]

theorem linearInside_eq_false {r : RegionId} {off length : Nat} (defined : (s.region r).record ≠ none) :
    s.linearInside length (r, off) = false ↔
      ∃ x, (s.region r).record = some x ∧ x.kind = .linear ∧ x.length < off + length := by
  unfold State.linearInside
  cases record : (s.region r).record with
  | none => exact absurd record defined
  | some x => cases kind : x.kind <;> simp [kind]

theorem sameRing_iff : d.sameRing s = true ↔
    ∃ r x y, d.source = .region r x ∧ d.dest = .region r y ∧ s.ring? r ≠ none := by
  unfold Descriptor.sameRing Descriptor.endpointRegion
  cases d.source with
  | capture k => simp
  | pattern v => simp
  | region r x =>
    cases d.dest with
    | playout k => simp
    | region q y =>
      by_cases same : r = q
      · simp [same, Option.isSome_iff_ne_none]
      · have back : ¬ q = r := fun is => same is.symm
        simp [same, back]

theorem linearStart_eq_some {r : RegionId} {off n : Nat} : s.linearStart (r, off) = some n ↔
    ∃ x, (s.region r).record = some x ∧ x.kind = .linear ∧ x.base + off = n := by
  unfold State.linearStart
  cases record : (s.region r).record with
  | none => simp
  | some x => cases kind : x.kind <;> simp [kind]

theorem copyOverlaps_iff : d.copyOverlaps s = true ↔
    ∃ r x y q z w, d.source = .region r x ∧ d.dest = .region q y ∧ (s.region r).record = some z ∧
      (s.region q).record = some w ∧ z.kind = .linear ∧ w.kind = .linear ∧ z.base + x < w.base + y + d.length ∧
      w.base + y < z.base + x + d.length := by
  unfold Descriptor.copyOverlaps Descriptor.endpoints
  cases source : d.source with
  | capture k => cases d.dest <;> simp
  | pattern v => cases d.dest <;> simp
  | region r x =>
    cases dest : d.dest with
    | playout k => simp
    | region q y =>
      simp only [List.cons_append, List.nil_append]
      cases first : s.linearStart (r, x) with
      | none =>
        refine iff_of_false Bool.false_ne_true ?_
        rintro ⟨_, _, _, _, z, w, is, -, record, -, linear, -, -, -⟩
        cases is
        rw [linearStart_eq_some.mpr ⟨z, record, linear, rfl⟩] at first
        cases first
      | some m =>
        cases second : s.linearStart (q, y) with
        | none =>
          refine iff_of_false Bool.false_ne_true ?_
          rintro ⟨_, _, _, _, z, w, -, is, -, record, -, linear, -, -⟩
          cases is
          rw [linearStart_eq_some.mpr ⟨w, record, linear, rfl⟩] at second
          cases second
        | some n =>
          obtain ⟨z, record, linear, rfl⟩ := linearStart_eq_some.mp first
          obtain ⟨w, record', linear', rfl⟩ := linearStart_eq_some.mp second
          simp only [Bool.and_eq_true, decide_eq_true_iff]
          constructor
          · exact fun meets => ⟨r, x, y, q, z, w, rfl, rfl, record, record', linear, linear', meets.1, meets.2⟩
          · rintro ⟨_, _, _, _, z', w', is, is', at_, at_', -, -, meets⟩
            cases is; cases is'
            rw [record] at at_; rw [record'] at at_'
            cases at_; cases at_'
            exact meets

theorem portsBound_eq_false : d.portsBound c s = false ↔
    (∃ k, d.source = .capture k ∧ (s.capture k).binding ≠ some c) ∨
      ∃ k, d.dest = .playout k ∧ (s.playout k).binding ≠ some c := by
  unfold Descriptor.portsBound
  cases d.source <;> cases d.dest <;> simp [imp_iff_not_or]

end

/-! ## The order of the checks -/

/-- The first of the checks that fails, with its status. -/
theorem enqueueCheck_eq (c : ChannelId) (d : Descriptor) (s : State) : enqueueCheck c d s =
    if d.endpoints.isEmpty = true then some .badValue
    else if (!d.endpoints.all fun e => s.isDefined e.1) = true then some .noRegion
    else if (!d.endpoints.all fun e => s.ringOffsetOk e) = true ∨ d.sameRing s = true then some .badValue
    else if (!d.endpoints.all fun e => s.linearAligned e) = true then some .alignment
    else if (!d.endpoints.all fun e => s.linearInside d.length e) = true then some .outOfBounds
    else if d.copyOverlaps s = true then some .overlap
    else if d.portsBound c s = false then some .portNotBound
    else if (s.channel c).state ≠ .idle ∧ 4 ≤ (s.channel c).pending.length then some .queueFull
    else none := by
  unfold enqueueCheck
  simp only [Bool.or_eq_true, Bool.and_eq_true, Bool.not_eq_true', decide_eq_true_iff]
  rfl

section
variable {s : State} {tag : Byte} {p : List Byte} {c : ChannelId} {d : Descriptor}

theorem enqueue_of_refused (read : readEnqueue p = some (c, d)) {st : Status} (refused : enqueueCheck c d s = some st) :
    enqueue p s = (st, [], s) := by
  unfold enqueue
  rw [read]
  dsimp only
  rw [refused]

theorem enqueue_of_accepted (read : readEnqueue p = some (c, d)) (passes : enqueueCheck c d s = none) :
    enqueue p s = (.ok, u8 ((s.acceptDescriptor c d).channel c).pending.length, s.acceptDescriptor c d) := by
  unfold enqueue
  rw [read]
  dsimp only
  rw [passes]

theorem readEnqueue_length (read : readEnqueue p = some (c, d)) : p.length = 28 := by
  unfold readEnqueue at read
  split at read
  case h_1 => rfl
  case h_2 => cases read

theorem exec_enqueue_of_refused (taken : s.takes 0x20#8 tag p = true) (serving : s.serving = true)
    (read : readEnqueue p = some (c, d)) {st : Status} (refused : enqueueCheck c d s = some st) :
    exec (.enqueue tag p) s = .next (s.answered 0x20#8 tag st []) :=
  exec_enqueue (t := s) taken serving (readEnqueue_length read)
    (enqueue_of_refused (s := s.working 0x20#8 tag) read refused)

/-- A descriptor accepted while the channel is busy joins the queue. -/
theorem acceptDescriptor_of_busy {v : Vector Region 16} (added : s.addRefs d = s.setRegions v)
    (busy : (s.channel c).state ≠ .idle) : s.acceptDescriptor c d =
      ((s.setRegions v).setChannel c { s.channel c with pending := (s.channel c).pending ++ [d] }).reportAll := by
  unfold State.acceptDescriptor
  rw [added]
  dsimp only
  rw [if_neg]
  · rfl
  · rw [channel_modChannel_self]
    exact busy

end

/-- Settles O49: the checks in their order, then the descriptor at the tail of the queue. -/
theorem enqueue : Obligations.Enqueue := by
  intro tag p s c d taken serving read names b2 b3 b4 b5 b6 b7 b8 b9 namesIs b2Is b3Is b4Is b5Is b6Is b7Is b8Is b9Is refused refusedIs
  obtain rfl : names = fun r off => d.source = .region r off ∨ d.dest = .region r off :=
    funext fun r => funext fun off => propext (namesIs r off)
  have t2 : d.endpoints.isEmpty = true ↔ b2 := endpoints_isEmpty.trans b2Is.symm
  have t3 : (!d.endpoints.all fun e => s.isDefined e.1) = true ↔ b3 := by
    rw [not_all_endpoints, b3Is]
    simp only [isDefined_eq_false]
  have t4 : ((!d.endpoints.all fun e => s.ringOffsetOk e) = true ∨ d.sameRing s = true) ↔ b4 := by
    rw [not_all_endpoints, sameRing_iff, b4Is]
    simp only [ringOffsetOk_eq_false]
  have t5 : (!d.endpoints.all fun e => s.linearAligned e) = true ↔ b5 := by
    rw [not_all_endpoints, b5Is]
    simp only [linearAligned_eq_false]
  have t6 : ¬ b3 → ((!d.endpoints.all fun e => s.linearInside d.length e) = true ↔ b6) := by
    intro defined
    rw [not_all_endpoints, b6Is]
    refine exists₂_congr fun r off => ?_
    exact Iff.trans (and_congr_right fun named => linearInside_eq_false fun free => defined (b3Is.mpr ⟨r, off, named, free⟩))
      exists_and_left.symm
  have t7 : d.copyOverlaps s = true ↔ b7 := copyOverlaps_iff.trans b7Is.symm
  have t8 : d.portsBound c s = false ↔ b8 := portsBound_eq_false.trans b8Is.symm
  have check := enqueueCheck_eq c d s
  have answers : ∀ st, enqueueCheck c d s = some st → refused st := fun st fails =>
    (refusedIs st).mpr (exec_enqueue_of_refused taken serving read fails)
  refine ⟨fun y2 => answers _ ?_, fun n2 y3 => answers _ ?_, fun n2 n3 y4 => answers _ ?_, fun n2 n3 n4 y5 => answers _ ?_,
    fun n2 n3 n4 n5 y6 => answers _ ?_, fun n2 n3 n4 n5 n6 y7 => answers _ ?_, fun n2 n3 n4 n5 n6 n7 y8 => answers _ ?_,
    fun n2 n3 n4 n5 n6 n7 n8 y9 => answers _ ?_, fun n2 n3 n4 n5 n6 n7 n8 n9 => ?_⟩
  · rw [check, if_pos (t2.mpr y2)]
  · rw [check, if_neg (n2 ∘ t2.mp), if_pos (t3.mpr y3)]
  · rw [check, if_neg (n2 ∘ t2.mp), if_neg (n3 ∘ t3.mp), if_pos (t4.mpr y4)]
  · rw [check, if_neg (n2 ∘ t2.mp), if_neg (n3 ∘ t3.mp), if_neg (n4 ∘ t4.mp), if_pos (t5.mpr y5)]
  · rw [check, if_neg (n2 ∘ t2.mp), if_neg (n3 ∘ t3.mp), if_neg (n4 ∘ t4.mp), if_neg (n5 ∘ t5.mp), if_pos ((t6 n3).mpr y6)]
  · rw [check, if_neg (n2 ∘ t2.mp), if_neg (n3 ∘ t3.mp), if_neg (n4 ∘ t4.mp), if_neg (n5 ∘ t5.mp), if_neg (n6 ∘ (t6 n3).mp),
      if_pos (t7.mpr y7)]
  · rw [check, if_neg (n2 ∘ t2.mp), if_neg (n3 ∘ t3.mp), if_neg (n4 ∘ t4.mp), if_neg (n5 ∘ t5.mp), if_neg (n6 ∘ (t6 n3).mp),
      if_neg (n7 ∘ t7.mp), if_pos (t8.mpr y8)]
  · rw [check, if_neg (n2 ∘ t2.mp), if_neg (n3 ∘ t3.mp), if_neg (n4 ∘ t4.mp), if_neg (n5 ∘ t5.mp), if_neg (n6 ∘ (t6 n3).mp),
      if_neg (n7 ∘ t7.mp), if_neg (n8 ∘ t8.mp), if_pos (b9Is.mp y9)]
  · have passes : enqueueCheck c d s = none := by
      rw [check, if_neg (n2 ∘ t2.mp), if_neg (n3 ∘ t3.mp), if_neg (n4 ∘ t4.mp), if_neg (n5 ∘ t5.mp), if_neg (n6 ∘ (t6 n3).mp),
        if_neg (n7 ∘ t7.mp), if_neg (n8 ∘ t8.mp), if_neg (n9 ∘ b9Is.mpr)]
    refine ⟨passes, fun busy => ?_⟩
    obtain ⟨v, counts, added⟩ := addRefs_eq d s
    refine ⟨v, fun r => ⟨by rw [counts r], fun off named => ?_, fun unnamed => ?_⟩, ?_⟩
    · rw [counts r, mem_endpoints.mpr ⟨off, mem_endpoints_iff.mpr named⟩]
      rfl
    · have absent : d.namesRegion r = false := by
        rw [Bool.eq_false_iff, ne_eq, mem_endpoints]
        exact fun ⟨off, mem⟩ => unnamed off (mem_endpoints_iff.mp mem)
      rw [counts r, absent]
      rfl
    · refine exec_enqueue (t := ((s.setRegions v).setChannel c { s.channel c with
        pending := (s.channel c).pending ++ [d] }).reportAll) taken serving (readEnqueue_length read) ?_
      have added' : (s.working 0x20#8 tag).addRefs d = (s.working 0x20#8 tag).setRegions v := by
        rw [State.working, (beside_setLink _).addRefs, added]
        rfl
      rw [enqueue_of_accepted (s := s.working 0x20#8 tag) read passes, acceptDescriptor_of_busy added' busy]
      refine Prod.ext rfl (Prod.ext (congrArg u8 ?_) rfl)
      show (((_ : State).setChannel c _).channel c).pending.length = _
      rw [channel_setChannel_self, List.length_append]
      rfl

end Sys2Proof.Proofs


/-! # Promotion (O50): the claims -/

namespace Sys2Proof.Proofs

open Sys2Proof.Machine Sys2Proof.Laws

/-! ## The claims a promoted channel takes, by the rings its descriptor names (R17, R82) -/

/-- The channel takes the claim of its destination, where that is a ring, and goes on to RUNNING. -/
def claimWriter (c : ChannelId) (t : State) : State := t.takeClaim .writer c fun u => u.enterRunning c

section
variable {s : State} {c : ChannelId} {cur : Current}

theorem takeClaims_of_no_current (idle : (s.channel c).current = none) :
    s.takeClaims c = s.setChannel c { s.channel c with state := .running } := by
  have noRing : ∀ role, s.roleRing role c = none := fun role => by rw [State.roleRing, idle]
  exact takeClaims_of_no_ring (noRing .reader) (noRing .writer)

theorem roleRing_reader_none (current : (s.channel c).current = some cur)
    (none_ : ∀ r x g, ¬ ((∃ off, cur.desc.source = .region r off) ∧ s.ring? r = some (x, g))) :
    s.roleRing .reader c = none := by
  refine Option.eq_none_iff_forall_ne_some.mpr fun p named => ?_
  obtain ⟨x, source, ring⟩ := (roleRing_reader_iff current p.1 p.2).mp named
  exact none_ p.1 x p.2 ⟨source, ring⟩

theorem roleRing_writer_none (current : (s.channel c).current = some cur)
    (none_ : ∀ r x g, ¬ ((∃ off, cur.desc.dest = .region r off) ∧ s.ring? r = some (x, g))) :
    s.roleRing .writer c = none := by
  refine Option.eq_none_iff_forall_ne_some.mpr fun p named => ?_
  obtain ⟨x, dest, ring⟩ := (roleRing_writer_iff current p.1 p.2).mp named
  exact none_ p.1 x p.2 ⟨dest, ring⟩

theorem claimWriter_of_no_ring (noRing : s.roleRing .writer c = none) :
    claimWriter c s = s.setChannel c { s.channel c with state := .running } := takeClaim_of_no_ring noRing

theorem claimWriter_of_free {q : RegionId} {h : Ring} (ring : s.roleRing .writer c = some (q, h))
    (free : h.writerClaim = none ∨ h.writerClaim = some (.ch c)) : claimWriter c s =
      (s.setRing q { h with writerClaim := some (.ch c) }).setChannel c { s.channel c with state := .running } :=
  takeClaim_free ring free

theorem claimWriter_of_held {q : RegionId} {h : Ring} (ring : s.roleRing .writer c = some (q, h))
    (taken : h.writerClaim ≠ none) (foreign : h.writerClaim ≠ some (.ch c)) : claimWriter c s =
      (s.setRing q { h with writerWaiters := h.writerWaiters ++ [c] }).setChannel c
        { s.channel c with state := .waiting .claim } :=
  takeClaim_held ring taken foreign

theorem takeClaims_of_no_reader (noRing : s.roleRing .reader c = none) : s.takeClaims c = claimWriter c s :=
  takeClaim_of_no_ring noRing

theorem takeClaims_of_reader {r : RegionId} {g : Ring} (ring : s.roleRing .reader c = some (r, g))
    (free : g.readerClaim = none ∨ g.readerClaim = some (.ch c)) :
    s.takeClaims c = claimWriter c (s.setRing r { g with readerClaim := some (.ch c) }) :=
  takeClaim_free ring free

theorem takeClaims_of_reader_held {r : RegionId} {g : Ring} (ring : s.roleRing .reader c = some (r, g))
    (taken : g.readerClaim ≠ none) (foreign : g.readerClaim ≠ some (.ch c)) : s.takeClaims c =
      (s.setRing r { g with readerWaiters := g.readerWaiters ++ [c] }).setChannel c
        { s.channel c with state := .waiting .claim } :=
  takeClaim_held ring taken foreign

/-- A ring at the destination, once the source's claim is taken. -/
theorem roleRing_writer_setRing {r q : RegionId} {off : Nat} {x y : RegionRecord} {g h k : Ring}
    (current : (s.channel c).current = some cur) (source : s.ring? r = some (x, g)) (dest : cur.desc.dest = .region q off)
    (other : r ≠ q) (ring : s.ring? q = some (y, h)) : (s.setRing r k).roleRing .writer c = some (q, h) := by
  refine (roleRing_writer_iff (s := s.setRing r k) current q h).mpr ⟨y, ⟨off, dest⟩, ?_⟩
  rw [ring_setRing source, if_neg other.symm, ring]

/-- No ring at the destination, the source being one. -/
theorem roleRing_writer_setRing_none {r : RegionId} {x : RegionRecord} {g k : Ring}
    (current : (s.channel c).current = some cur) (source : s.ring? r = some (x, g))
    (none_ : ∀ q y h, ¬ ((∃ off, cur.desc.dest = .region q off) ∧ s.ring? q = some (y, h))) :
    (s.setRing r k).roleRing .writer c = none := by
  refine roleRing_writer_none (s := s.setRing r k) current fun q y h ⟨dest, ring⟩ => ?_
  rw [ring_setRing source] at ring
  by_cases same : q = r
  · subst same
    exact none_ q x g ⟨dest, source⟩
  · rw [if_neg same] at ring
    exact none_ q y h ⟨dest, ring⟩

end

/-! ## Promotion to the wait or the claims (R80, R81) -/

/-- A channel with the head of its queue current, its progress record new (R81). -/
def freshCurrent (d : Descriptor) : Current where
  desc := d
  prog := { sourceAdmitted := 0, admitted := 0, done := 0, runsCompleted := 0, fault := false }

/-- The state in which the head of a queue is current. -/
def headCurrent (c : ChannelId) (d : Descriptor) (rest : List Descriptor) (s : State) : State :=
  s.setChannel c { s.channel c with pending := rest, slotA := .empty, slotB := .empty, current := some (freshCurrent d) }

section
variable {s : State} {c : ChannelId} {d : Descriptor} {rest : List Descriptor}
  (pending : (s.channel c).pending = d :: rest)
include pending

theorem promote_of_no_wait (wait : d.wait = none) : s.promote c = (headCurrent c d rest s).takeClaims c := by
  rw [promote_cons pending, wait]
  rfl

theorem promote_of_wait {w : MarkWait} (wait : d.wait = some w) : s.promote c =
    (((headCurrent c d rest s).setChannel c { (headCurrent c d rest s).channel c with state := .waiting .mark }).setMark
      w.mark { s.mark w.mark with
        waiters := (s.mark w.mark).waiters ++ [{ channel := c, count := w.count }] }).serveMark w.mark := by
  rw [promote_cons pending, wait]
  rfl

end

end Sys2Proof.Proofs


/-! # Promotion (O50): by an ENQUEUE in IDLE -/

namespace Sys2Proof.Proofs

open Sys2Proof.Machine Sys2Proof.Laws

/-! ## Serving a mark's list (R119) -/

theorem serveWaiters_of_short {v : Nat} {ws : List MarkWaiter} (short : ∀ w rest, ws = w :: rest → v < w.count) :
    serveWaiters v ws = (v, ws, []) := by
  cases ws with
  | nil => rfl
  | cons w rest => exact if_neg (Nat.not_le.mpr (short w rest rfl))

theorem serveWaiters_single {v : Nat} {w : MarkWaiter} (enough : w.count ≤ v) :
    serveWaiters v [w] = (v - w.count, [], [w.channel]) := if_pos enough

/-- A mark whose value its oldest waiter's count exceeds serves no one. -/
theorem serveMark_setMark_of_short {s : State} {m : MarkId} {k : Mark}
    (short : ∀ w rest, k.waiters = w :: rest → k.value < w.count) : (s.setMark m k).serveMark m = s.setMark m k := by
  have served := serveMark_eq (s := s.setMark m k) (m := m) (left := k.value) (kept := k.waiters) (chs := [])
    (by rw [mark_setMark_self]; exact serveWaiters_of_short short)
  rw [mark_setMark_self, setMark_setMark] at served
  exact served

/-- A mark with one waiter, whose count it covers: the waiter takes the claims its descriptor needs. -/
theorem serveMark_setMark_of_single {s : State} {m : MarkId} {k : Mark} {w : MarkWaiter} (single : k.waiters = [w])
    (enough : w.count ≤ k.value) : (s.setMark m k).serveMark m =
      (s.setMark m { k with value := k.value - w.count, waiters := [] }).takeClaims w.channel := by
  have served := serveMark_eq (s := s.setMark m k) (m := m) (left := k.value - w.count) (kept := []) (chs := [w.channel])
    (by rw [mark_setMark_self, single]; exact serveWaiters_single enough)
  rw [mark_setMark_self, setMark_setMark] at served
  exact served

/-! ## What a promotion leaves -/

theorem ring_of_records {s t : State} (same : ∀ r, (t.region r).record = (s.region r).record) (r : RegionId) :
    t.ring? r = s.ring? r := by
  unfold State.ring?
  rw [same r]

/-- A promotion changes channel states, rings' claims and waiter lists, and the mark waited for. -/
theorem promote_leaves {s : State} {c : ChannelId} {d : Descriptor} {rest : List Descriptor}
    (pending : (s.channel c).pending = d :: rest) : s.promote c = { s with
        channels := (s.promote c).channels, regions := (s.promote c).regions, marks := (s.promote c).marks } ∧
      ∀ b, bareChannel ((s.promote c).channel b) = bareChannel ((headCurrent c d rest s).channel b) := by
  cases wait : d.wait with
  | none =>
    rw [promote_of_no_wait pending wait]
    have P := promotes_takeClaims c (headCurrent c d rest s)
    exact ⟨by rw [P.fields]; rfl, P.channels⟩
  | some w =>
    rw [promote_of_wait pending wait]
    have P := promotes_serveMark w.mark (((headCurrent c d rest s).setChannel c
      { (headCurrent c d rest s).channel c with state := .waiting .mark }).setMark w.mark { s.mark w.mark with
        waiters := (s.mark w.mark).waiters ++ [{ channel := c, count := w.count }] })
    refine ⟨by rw [P.fields]; rfl, fun b => (P.channels b).trans ?_⟩
    show bareChannel (((headCurrent c d rest s).setChannel c _).channel b) = _
    rw [channel_setChannel]
    split
    case isTrue same => rw [same]; rfl
    case isFalse => rfl

theorem takeClaims_marks (c : ChannelId) (s : State) : (s.takeClaims c).marks = s.marks := by
  rw [(promotes_takeClaims c s).fields]

/-! ## A descriptor accepted in IDLE (R79) -/

section
variable {s : State} {c : ChannelId} {d : Descriptor}

theorem acceptDescriptor_of_idle {v : Vector Region 16} (added : s.addRefs d = s.setRegions v)
    (idle : (s.channel c).state = .idle) : s.acceptDescriptor c d =
      (((s.setRegions v).setChannel c
        { s.channel c with pending := (s.channel c).pending ++ [d] }).promote c).reportAll := by
  unfold State.acceptDescriptor
  rw [added]
  dsimp only
  rw [if_pos]
  · rfl
  · rw [channel_modChannel_self]
    exact idle

/-- The state in which a descriptor that finds the channel IDLE is current. -/
def accepted (c : ChannelId) (d : Descriptor) (v : Vector Region 16) (s : State) : State :=
  (s.setRegions v).setChannel c { s.channel c with slotA := .empty, slotB := .empty, current := some (freshCurrent d) }

theorem headCurrent_accepted (empty : (s.channel c).pending = []) (v : Vector Region 16) :
    headCurrent c d [] ((s.setRegions v).setChannel c { s.channel c with pending := [d] }) = accepted c d v s := by
  unfold headCurrent accepted
  rw [channel_setChannel_self, setChannel_setChannel]
  dsimp only
  rw [← empty]

theorem accepted_channel (v : Vector Region 16) : (accepted c d v s).channel c =
    { s.channel c with slotA := .empty, slotB := .empty, current := some (freshCurrent d) } :=
  channel_setChannel_self ..

theorem accepted_current (v : Vector Region 16) :
    ((accepted c d v s).channel c).current = some (freshCurrent d) := by rw [accepted_channel]

theorem accepted_ring {v : Vector Region 16} (records : ∀ r, (getAt v r).record = (s.region r).record) (r : RegionId) :
    (accepted c d v s).ring? r = s.ring? r := ring_of_records (t := accepted c d v s) records r

end

end Sys2Proof.Proofs


/-! # Promotion (O50): the obligation -/

namespace Sys2Proof.Proofs

open Sys2Proof.Machine Sys2Proof.Laws

/-! ## The claims, the descriptor's rings given in the state that takes them -/

section
variable {s : State} {c : ChannelId} {cur : Current} (current : (s.channel c).current = some cur)
include current

/-- The channel runs where neither end of its descriptor is a ring. -/
theorem takeClaims_of_no_rings
    (noRing : ∀ r off, cur.desc.source = .region r off ∨ cur.desc.dest = .region r off → s.ring? r = none) :
    s.takeClaims c = s.setChannel c { s.channel c with state := .running } := by
  refine takeClaims_of_no_ring (roleRing_reader_none current fun r x g ⟨⟨off, source⟩, ring⟩ => ?_)
    (roleRing_writer_none current fun r x g ⟨⟨off, dest⟩, ring⟩ => ?_)
  · rw [noRing r off (.inl source)] at ring
    cases ring
  · rw [noRing r off (.inr dest)] at ring
    cases ring

theorem roleRing_reader_of_source {r : RegionId} {off : Nat} {x : RegionRecord} {g : Ring}
    (source : cur.desc.source = .region r off) (ring : s.ring? r = some (x, g)) : s.roleRing .reader c = some (r, g) :=
  (roleRing_reader_iff current r g).mpr ⟨x, ⟨off, source⟩, ring⟩

theorem roleRing_writer_of_dest {r : RegionId} {off : Nat} {x : RegionRecord} {g : Ring}
    (dest : cur.desc.dest = .region r off) (ring : s.ring? r = some (x, g)) : s.roleRing .writer c = some (r, g) :=
  (roleRing_writer_iff current r g).mpr ⟨x, ⟨off, dest⟩, ring⟩

theorem roleRing_reader_of_no_source (noSource : ∀ q y, cur.desc.source = .region q y → s.ring? q = none) :
    s.roleRing .reader c = none :=
  roleRing_reader_none current fun q x g ⟨⟨y, source⟩, ring⟩ => by rw [noSource q y source] at ring; cases ring

end

/-! ## An ENQUEUE in IDLE -/

/-- The descriptor's references raised and the descriptor alone in its queue, before its promotion. -/
def queued (c : ChannelId) (d : Descriptor) (v : Vector Region 16) (s : State) : State :=
  (s.setRegions v).setChannel c { s.channel c with pending := [d] }

section
variable {s : State} {c : ChannelId} {d : Descriptor} {v : Vector Region 16}

theorem queued_pending : ((queued c d v s).channel c).pending = d :: [] := by
  unfold queued
  rw [channel_setChannel_self]

/-- What the promotion of a descriptor accepted in IDLE leaves. -/
theorem promote_queued_leaves (empty : (s.channel c).pending = []) :
    (queued c d v s).promote c = { s with
      channels := ((queued c d v s).promote c).channels, regions := ((queued c d v s).promote c).regions,
      marks := ((queued c d v s).promote c).marks } ∧
    ∀ b, bareChannel (((queued c d v s).promote c).channel b) = bareChannel ((accepted c d v s).channel b) := by
  obtain ⟨fields, bare⟩ := promote_leaves (queued_pending (s := s) (c := c) (d := d) (v := v))
  exact ⟨fields, fun b => (bare b).trans (by rw [queued, headCurrent_accepted empty])⟩

theorem promote_queued_setLink (l : Link) :
    (queued c d v (s.setLink l)).promote c = ((queued c d v s).promote c).setLink l :=
  (beside_setLink l).promote c (queued c d v s)

theorem exec_enqueue_of_idle {tag : Byte} {p : List Byte} (taken : s.takes 0x20#8 tag p = true) (serving : s.serving = true)
    (read : readEnqueue p = some (c, d)) (passes : enqueueCheck c d s = none) (idle : (s.channel c).state = .idle)
    (empty : (s.channel c).pending = []) (added : s.addRefs d = s.setRegions v) :
    exec (.enqueue tag p) s = .next ((((queued c d v s).promote c).reportAll).answered 0x20#8 tag .ok (u8 0)) := by
  obtain ⟨fields, bare⟩ := promote_queued_leaves (d := d) (v := v) empty
  have link : ((queued c d v s).promote c).link = s.link := (congrArg State.link fields).trans rfl
  have left : (((queued c d v s).promote c).channel c).pending = [] := by
    have same := congrArg Channel.pending (bare c)
    rw [accepted_channel] at same
    exact same.trans empty
  have accepts : (s.working 0x20#8 tag).acceptDescriptor c d =
      (((queued c d v s).promote c).reportAll).setLink (s.working 0x20#8 tag).link := by
    have added' : (s.working 0x20#8 tag).addRefs d = (s.working 0x20#8 tag).setRegions v := by
      rw [State.working, (beside_setLink _).addRefs, added]
      rfl
    rw [acceptDescriptor_of_idle added' idle, show ((s.working 0x20#8 tag).channel c).pending = [] from empty,
      List.nil_append]
    exact (congrArg State.reportAll (promote_queued_setLink _)).trans (reportAll_setLink _ _)
  have reply : Machine.enqueue p (s.working 0x20#8 tag) =
      (.ok, u8 0, (((queued c d v s).promote c).reportAll).setLink (s.working 0x20#8 tag).link) := by
    rw [enqueue_of_accepted (s := s.working 0x20#8 tag) read passes, accepts]
    exact Prod.ext rfl (Prod.ext (congrArg (fun q : List Descriptor => u8 q.length) left) rfl)
  rw [exec_enqueue taken serving (readEnqueue_length read) reply, ← link]
  rfl

end

/-! ## The wait and the claims of a descriptor accepted in IDLE -/

section
variable {s : State} {c : ChannelId} {d : Descriptor} {v : Vector Region 16} (empty : (s.channel c).pending = [])
include empty

theorem promote_queued_of_no_wait (wait : d.wait = none) :
    (queued c d v s).promote c = (accepted c d v s).takeClaims c := by
  rw [promote_of_no_wait queued_pending wait, queued, headCurrent_accepted empty]

/-- The state in which the channel waits for the mark, before the mark's list is served. -/
def marking (c : ChannelId) (d : Descriptor) (v : Vector Region 16) (s : State) : State :=
  (accepted c d v s).setChannel c { (accepted c d v s).channel c with state := .waiting .mark }

theorem promote_queued_of_wait {w : MarkWait} (wait : d.wait = some w) : (queued c d v s).promote c =
    ((marking c d v s).setMark w.mark { s.mark w.mark with
      waiters := (s.mark w.mark).waiters ++ [{ channel := c, count := w.count }] }).serveMark w.mark := by
  rw [promote_of_wait queued_pending wait, queued, headCurrent_accepted empty]
  rfl

/-- The count at the head of the list is not covered: the channel waits. -/
theorem promote_queued_waits {w : MarkWait} (wait : d.wait = some w)
    (short : ∀ x rest, (s.mark w.mark).waiters ++ [{ channel := c, count := w.count }] = x :: rest →
      (s.mark w.mark).value < x.count) :
    (queued c d v s).promote c = (marking c d v s).setMark w.mark { s.mark w.mark with
      waiters := (s.mark w.mark).waiters ++ [{ channel := c, count := w.count }] } := by
  rw [promote_queued_of_wait empty wait]
  exact serveMark_setMark_of_short short

/-- No one waits and the value covers the count: the channel goes on to its claims. -/
theorem promote_queued_served {w : MarkWait} (wait : d.wait = some w) (alone : (s.mark w.mark).waiters = [])
    (enough : w.count ≤ (s.mark w.mark).value) : (queued c d v s).promote c =
      ((marking c d v s).setMark w.mark { s.mark w.mark with
        value := (s.mark w.mark).value - w.count, waiters := [] }).takeClaims c := by
  rw [promote_queued_of_wait empty wait, alone, List.nil_append]
  exact serveMark_setMark_of_single (k := { s.mark w.mark with waiters := [{ channel := c, count := w.count }] }) rfl enough

end

/-! ## The fields of the state after -/

theorem serveMark_mark_ne (s : State) {m k : MarkId} (other : m ≠ k) : (s.serveMark k).mark m = s.mark m := by
  have same := congrArg (fun t : State => t.mark m) (promotes_serveMark k s).fields
  exact same.trans (mark_setMark_ne _ _ other)

theorem takeClaims_mark (c : ChannelId) (s : State) (m : MarkId) : (s.takeClaims c).mark m = s.mark m :=
  congrArg (fun ms => getAt ms m) (takeClaims_marks c s)

section
variable {s : State} {c : ChannelId} {d : Descriptor} {v : Vector Region 16}

theorem marking_current : ((marking c d v s).channel c).current = some (freshCurrent d) := by
  unfold marking
  rw [channel_setChannel_self, accepted_channel]

theorem marking_channel : (marking c d v s).channel c =
    { s.channel c with state := .waiting .mark, slotA := .empty, slotB := .empty, current := some (freshCurrent d) } := by
  unfold marking
  rw [channel_setChannel_self, accepted_channel]

/-- The channel's record where the claims it needs leave it in `st`. -/
theorem claimed_channel {t u : State} {st : ChannelState}
    (took : u = t.setChannel c { (accepted c d v s).channel c with state := st }) : u.channel c =
      { s.channel c with state := st, slotA := .empty, slotB := .empty, current := some (freshCurrent d) } := by
  rw [took, channel_setChannel_self, accepted_channel]

end

/-- Settles O50: the wait, then the claims, the reader's first. -/
theorem promotion : Obligations.Promotion := by
  refine ⟨fun s c empty => promote_nil empty, ?head, fun s c idle => takeClaims_of_no_current idle, ?claims, ?enqueue⟩
  case head =>
    rintro s t c d rest pending rfl
    exact ⟨promote_of_no_wait pending, fun w => promote_of_wait pending⟩
  case claims =>
    intro s c cur current reads writes is readsIs writesIs isIs
    obtain rfl : reads = fun r x g => (∃ off, cur.desc.source = .region r off) ∧ s.ring? r = some (x, g) :=
      funext fun r => funext fun x => funext fun g => propext (readsIs r x g)
    obtain rfl : writes = fun r x g => (∃ off, cur.desc.dest = .region r off) ∧ s.ring? r = some (x, g) :=
      funext fun r => funext fun x => funext fun g => propext (writesIs r x g)
    refine ⟨fun noSource noDest => ?neither, fun r x g ⟨⟨off, source⟩, ring⟩ taken foreign => ?readerHeld,
      fun r x g ⟨⟨off, source⟩, ring⟩ free noDest => ?readerOnly, fun q y h ⟨⟨off, dest⟩, ring⟩ noSource => ?writerOnly,
      fun r x g q y h ⟨⟨off, source⟩, ring⟩ ⟨⟨off', dest⟩, ring'⟩ other free => ?both⟩
    case neither =>
      rw [isIs, takeClaims_of_no_reader (roleRing_reader_none current noSource),
        claimWriter_of_no_ring (roleRing_writer_none current noDest)]
    case readerHeld =>
      rw [isIs, takeClaims_of_reader_held (roleRing_reader_of_source current source ring) taken foreign]
    case readerOnly =>
      exact (isIs _ _).mpr ((takeClaims_of_reader (roleRing_reader_of_source current source ring) free).trans
        (claimWriter_of_no_ring (roleRing_writer_setRing_none current ring noDest)))
    case writerOnly =>
      have noReader := takeClaims_of_no_reader (roleRing_reader_none current noSource)
      have writer := roleRing_writer_of_dest current dest ring
      exact ⟨fun taken foreign => by rw [isIs, noReader, claimWriter_of_held writer taken foreign],
        fun free => by rw [isIs, noReader, claimWriter_of_free writer free]⟩
    case both =>
      have reader := takeClaims_of_reader (roleRing_reader_of_source current source ring) free
      have writer := roleRing_writer_setRing (k := { g with readerClaim := some (.ch c) }) current ring dest other ring'
      exact ⟨fun taken foreign => (isIs _ _).mpr (reader.trans (claimWriter_of_held writer taken foreign)),
        fun free' => (isIs _ _).mpr (reader.trans (claimWriter_of_free writer free'))⟩
  case enqueue =>
    intro tag p s c d taken serving read passes idle empty
    obtain ⟨v, counts, added⟩ := addRefs_eq d s
    have records : ∀ r, (getAt v r).record = (s.region r).record := fun r => by rw [counts r]
    obtain ⟨fields, bare⟩ := promote_queued_leaves (d := d) (v := v) empty
    refine ⟨(queued c d v s).promote c, exec_enqueue_of_idle taken serving read passes idle empty added,
      ⟨v, fun r => ⟨records r, by rw [counts r]⟩, rfl⟩, fun b other => ?_, by rw [fields], by rw [fields], by rw [fields],
      by rw [fields], by rw [fields], fun is isIs => ⟨fun w wait => ⟨fun m others => ?_, fun short => ?waits,
        fun alone enough => ?served⟩, fun wait => ?noWait⟩⟩
    · have same : (accepted c d v s).channel b = s.channel b := channel_setChannel_ne _ _ other
      have kept := (bare b).trans (congrArg bareChannel same)
      exact ⟨(congrArg Channel.current kept :), (congrArg Channel.pending kept :)⟩
    · rw [promote_queued_of_wait empty wait, serveMark_mark_ne _ others]
      exact mark_setMark_ne _ _ others
    case waits =>
      have went := promote_queued_waits (v := v) empty wait ?_
      · rw [went] at isIs ⊢
        exact ⟨(isIs _).mpr marking_channel, mark_setMark_self ..⟩
      · intro x rest first
        cases waiters : (s.mark w.mark).waiters with
        | nil =>
          rw [waiters] at short first
          cases first
          exact short
        | cons y ys =>
          rw [waiters] at short first
          cases first
          exact short
    case served =>
      rw [promote_queued_served empty wait alone enough] at isIs ⊢
      refine ⟨?_, fun noRing => (isIs _).mpr ?_⟩
      · rw [takeClaims_mark, mark_setMark_self, ← alone]
      · have took := takeClaims_of_no_rings (s := (marking c d v s).setMark w.mark { s.mark w.mark with
            value := (s.mark w.mark).value - w.count, waiters := [] }) marking_current
          fun r off names => (accepted_ring (c := c) (d := d) records r).trans (noRing r off names)
        rw [took, channel_setChannel_self]
        exact congrArg (fun x : Channel => { x with state := .running }) marking_channel
    case noWait =>
      rw [promote_queued_of_no_wait empty wait] at isIs ⊢
      have current : ((accepted c d v s).channel c).current = some (freshCurrent d) := accepted_current v
      refine ⟨takeClaims_marks .., fun noRing => (isIs _).mpr (claimed_channel (takeClaims_of_no_rings current
        fun r off names => (accepted_ring records r).trans (noRing r off names))), fun r off x g source ring noDest => ?reads,
        fun r off x g dest ring noSource => ?writes⟩
      case reads =>
        have ring' := (accepted_ring (c := c) (d := d) records r).trans ring
        have reader := roleRing_reader_of_source current source ring'
        refine ⟨fun free => ?_, fun taken foreign => ?_⟩
        · have took := (takeClaims_of_reader reader (.inl free)).trans (claimWriter_of_no_ring
            (roleRing_writer_setRing_none current ring' fun q y h ⟨⟨off', dest⟩, named⟩ => by
              rw [accepted_ring records q, noDest q off' dest] at named
              cases named))
          exact ⟨(isIs _).mpr (claimed_channel took), by rw [took]; exact ring_setRing_self ring' _⟩
        · have took := takeClaims_of_reader_held reader taken foreign
          exact ⟨(isIs _).mpr (claimed_channel took), by
            rw [took]
            exact congrArg (Option.map Prod.snd) (ring_setRing_self ring' _)⟩
      case writes =>
        have ring' := (accepted_ring (c := c) (d := d) records r).trans ring
        have writer := roleRing_writer_of_dest current dest ring'
        have noReader := takeClaims_of_no_reader (roleRing_reader_of_no_source current fun q y source =>
          (accepted_ring records q).trans (noSource q y source))
        refine ⟨fun free => ?_, fun taken foreign => ?_⟩
        · have took := noReader.trans (claimWriter_of_free writer (.inl free))
          exact ⟨(isIs _).mpr (claimed_channel took), by
            rw [took]
            exact congrArg (Option.map Prod.snd) (ring_setRing_self ring' _)⟩
        · have took := noReader.trans (claimWriter_of_held writer taken foreign)
          exact ⟨(isIs _).mpr (claimed_channel took), by
            rw [took]
            exact congrArg (Option.map Prod.snd) (ring_setRing_self ring' _)⟩

end Sys2Proof.Proofs


/-! # CHANNEL_STOP (O51): its steps -/

namespace Sys2Proof.Proofs

open Sys2Proof.Machine Sys2Proof.Laws

/-! ## A stop leaves the link alone -/

section
variable (l : Link) (c : ChannelId) (s : State)

theorem leaveWait_setLink (why : WaitReason) : (s.setLink l).leaveWait c why = (s.leaveWait c why).setLink l := by
  have B := beside_setLink l
  unfold State.leaveWait
  cases why with
  | claim =>
    dsimp only
    rw [B.leaveClaimList, B.leaveClaimList]
  | mark =>
    dsimp only
    rw [B.channel]
    cases (s.channel c).current with
    | none => rfl
    | some cur =>
      dsimp only
      cases cur.desc.wait with
      | none => rfl
      | some w => exact B.leaveMark w.mark c s

theorem abortWait_setLink (why : WaitReason) : (s.setLink l).abortWait c why = (s.abortWait c why).setLink l := by
  unfold State.abortWait
  rw [leaveWait_setLink, (beside_setLink l).retire]

theorem stopRunning_setLink (r : StopRequest) : (s.setLink l).stopRunning c r = (s.stopRunning c r).setLink l := by
  have B := beside_setLink l
  unfold State.stopRunning
  rw [B.channel]
  cases (s.channel c).current with
  | none => rfl
  | some cur =>
    dsimp only
    unfold State.enterStopping
    rw [B.modChannel, B.afterCompletion]
    rw [apply_ite (State.setLink l)]
    rfl

theorem stopAfterCurrent_setLink : (s.setLink l).stopAfterCurrent c = (s.stopAfterCurrent c).setLink l := by
  unfold State.stopAfterCurrent
  rw [(beside_setLink l).channel]
  cases (s.channel c).state with
  | running =>
    dsimp only
    rw [apply_ite (State.setLink l)]
    rfl
  | _ => rfl

theorem stopNow_setLink : (s.setLink l).stopNow c = (s.stopNow c).setLink l := by
  unfold State.stopNow
  rw [(beside_setLink l).channel]
  cases (s.channel c).state with
  | waiting why =>
    dsimp only
    rw [abortWait_setLink]
    rfl
  | running =>
    dsimp only
    rw [stopRunning_setLink, apply_ite (State.setLink l)]
  | _ => rfl

theorem stopFlush_setLink : (s.setLink l).stopFlush c = (s.stopFlush c).setLink l := by
  have B := beside_setLink l
  unfold State.stopFlush
  rw [B.channel]
  cases (s.channel c).state with
  | idle => rfl
  | waiting why =>
    dsimp only
    rw [abortWait_setLink, B.discardPending]
    rfl
  | running =>
    dsimp only
    rw [B.discardPending, stopRunning_setLink]
  | stopping =>
    dsimp only
    rw [B.discardPending]
    rfl
  | halted why =>
    dsimp only
    rw [B.discardPending]
    rw [apply_ite (State.setLink l)]
    rfl

theorem stopChannel_setLink (m : StopRequest) : (s.setLink l).stopChannel c m = (s.stopChannel c m).setLink l := by
  cases m with
  | none => rfl
  | afterCurrent => exact stopAfterCurrent_setLink l c s
  | now => exact stopNow_setLink l c s
  | flush => exact stopFlush_setLink l c s

theorem stopChannel_link (m : StopRequest) : (s.stopChannel c m).link = s.link :=
  (congrArg State.link (stopChannel_setLink s.link c s m) :)

end

/-! ## The request -/

theorem readStopMode_none {m : Byte} (beyond : 2 < m.toNat) : readStopMode m = none := by
  unfold readStopMode
  split
  case h_1 zero => omega
  case h_2 one => omega
  case h_3 two => omega
  case h_4 => rfl

section
variable {s : State} {tag b m : Byte} (taken : s.takes 0x21#8 tag [b, m] = true) (serving : s.serving = true)
include taken serving

theorem exec_channelStop {t : State} {st : Status} {data : List Byte}
    (reply : channelStop [b, m] (s.working 0x21#8 tag) = (st, data, t.setLink (s.working 0x21#8 tag).link)) :
    exec (.channelStop tag [b, m]) s = .next (t.setLink (s.link.answered 0x21#8 tag st data)) :=
  repliesServing (ok := decide ([b, m].length = 2)) (g := .whenReady) (f := channelStop [b, m]) taken serving rfl reply

theorem exec_channelStop_badValue (bad : 5 < b.toNat ∨ 2 < m.toNat) :
    exec (.channelStop tag [b, m]) s = .next (s.answered 0x21#8 tag .badValue []) := by
  refine exec_channelStop (t := s) taken serving ?_
  unfold channelStop
  dsimp only
  obtain beyond | beyond := bad
  · rw [idx_none (show 6 ≤ b.toNat from beyond)]
    rfl
  · rw [readStopMode_none beyond]
    cases idx? 6 b.toNat <;> rfl

theorem exec_channelStop_ok {c : ChannelId} (number : c.val = b.toNat) {mode : StopRequest}
    (read : readStopMode m = some mode) : exec (.channelStop tag [b, m]) s =
      .next (((s.stopChannel c mode).reportAll).answered 0x21#8 tag .ok
        (u8 ((s.stopChannel c mode).channel c).state.code ++ u8 ((s.channel c).discards mode))) := by
  have reply : channelStop [b, m] (s.working 0x21#8 tag) = (.ok,
      u8 ((s.stopChannel c mode).channel c).state.code ++ u8 ((s.channel c).discards mode),
      ((s.stopChannel c mode).reportAll).setLink (s.working 0x21#8 tag).link) := by
    unfold channelStop
    dsimp only
    rw [← number, idx_val, read]
    dsimp only
    rw [State.working, stopChannel_setLink]
    rfl
  rw [exec_channelStop taken serving reply, ← stopChannel_link c s mode]
  rfl

end

/-! ## The channels and the notices after each step -/

/-- A retirement takes the current descriptor and the copy slots away; of the channels' records it changes no more than
their states. -/
theorem retire_leaves {s : State} {c : ChannelId} {cur : Current} (st : DoneStatus)
    (current : (s.channel c).current = some cur) : bareChannel ((s.retire c st).channel c) =
      bareChannel { s.channel c with current := none, slotA := .empty, slotB := .empty } ∧
      ∀ a, a ≠ c → bareChannel ((s.retire c st).channel a) = bareChannel (s.channel a) := by
  obtain ⟨u, v, rfl, -, retired⟩ := retire_eq st current
  have P := (promotes_releaseHeld .reader c s).trans (promotes_releaseHeld .writer c _)
  rw [retired]
  refine ⟨?_, fun a other => ?_⟩
  · rw [channel_setChannel_self]
    exact congrArg (fun x : Channel => { x with current := none, slotA := .empty, slotB := .empty }) (P.channels c)
  · rw [channel_setChannel_ne _ _ other]
    exact P.channels a

theorem retire_aborted_notices {s : State} {c : ChannelId} {cur : Current} (current : (s.channel c).current = some cur) :
    (s.retire c .aborted).notices =
      s.notices.post (.descriptorDone c cur.desc.tag .aborted cur.prog.done cur.prog.runsCompleted) := by
  rw [retire_notices .aborted current, if_pos (.inl (by decide))]

theorem discardPending_notices (s : State) (c : ChannelId) : (s.discardPending c).notices =
    (s.channel c).pending.foldl (fun q d => q.post (.descriptorDone c d.tag .discarded 0 0)) s.notices := by
  obtain ⟨v, -, discards⟩ := discardPending_eq s c
  rw [discards]
  rfl

theorem discardPending_channel_ne (s : State) {a c : ChannelId} (other : a ≠ c) :
    (s.discardPending c).channel a = s.channel a := by
  obtain ⟨v, -, discards⟩ := discardPending_eq s c
  rw [discards, channel_setChannel_ne _ _ other]
  rfl

theorem discardPending_sched (s : State) (c : ChannelId) : (s.discardPending c).sched = s.sched := by
  obtain ⟨v, -, discards⟩ := discardPending_eq s c
  rw [discards]
  rfl

theorem leaveWait_leaves (s : State) (c : ChannelId) (why : WaitReason) :
    (∀ a, bareChannel ((s.leaveWait c why).channel a) = bareChannel (s.channel a)) ∧
      (s.leaveWait c why).notices = s.notices := by
  obtain ⟨v, P⟩ := promotes_leaveWait s c why
  exact ⟨P.channels, by rw [P.fields]⟩

/-- A channel's record from its state and what its promotion leaves. -/
theorem eq_of_bareChannel {x y : Channel} (same : bareChannel x = bareChannel y) : x = { y with state := x.state } :=
  congrArg (fun z : Channel => { z with state := x.state }) same

/-- The end of a wait: ABORTED. -/
theorem abortWait_leaves {s : State} {c : ChannelId} {cur : Current} (why : WaitReason)
    (current : (s.channel c).current = some cur) : bareChannel ((s.abortWait c why).channel c) =
      bareChannel { s.channel c with current := none, slotA := .empty, slotB := .empty } ∧
      (∀ a, a ≠ c → bareChannel ((s.abortWait c why).channel a) = bareChannel (s.channel a)) ∧
      (s.abortWait c why).notices =
        s.notices.post (.descriptorDone c cur.desc.tag .aborted cur.prog.done cur.prog.runsCompleted) := by
  obtain ⟨bare, notices⟩ := leaveWait_leaves s c why
  have current' : ((s.leaveWait c why).channel c).current = some cur := by
    have same := congrArg Channel.current (bare c)
    exact same.trans current
  obtain ⟨own, others⟩ := retire_leaves .aborted current'
  refine ⟨own.trans ?_, fun a other => (others a other).trans (bare a), ?_⟩
  · exact congrArg (fun x : Channel => { x with current := none, slotA := .empty, slotB := .empty }) (bare c)
  · exact (retire_aborted_notices current').trans (by rw [notices])

end Sys2Proof.Proofs


/-! # CHANNEL_STOP (O51): the obligation -/

namespace Sys2Proof.Proofs

open Sys2Proof.Machine Sys2Proof.Laws

/-! ## What a stop is made of: the claim lists -/

section
variable {s : State} {c : ChannelId} {role : Role}

theorem leaveClaimList_of_no_ring (noRing : s.roleRing role c = none) : s.leaveClaimList role c = s := by
  unfold State.leaveClaimList
  rw [noRing]

theorem releaseHeld_of_no_ring (noRing : s.roleRing role c = none) : s.releaseHeld role c = s := by
  unfold State.releaseHeld
  rw [noRing]

section
variable {r : RegionId} {g : Ring} (named : s.roleRing role c = some (r, g))
include named

theorem leaveClaimList_of_ring :
    s.leaveClaimList role c = s.setRing r (g.setWaiters role ((g.waiters role).filter fun y => y ≠ c)) := by
  unfold State.leaveClaimList
  rw [named]

theorem releaseHeld_of_foreign (foreign : g.holder role ≠ some (.ch c)) : s.releaseHeld role c = s := by
  unfold State.releaseHeld
  rw [named]
  exact if_neg foreign

theorem releaseHeld_of_held (held : g.holder role = some (.ch c)) : s.releaseHeld role c = s.releaseClaim role r := by
  unfold State.releaseHeld
  rw [named]
  exact if_pos held

end

theorem leaveWait_mark {cur : Current} {w : MarkWait} (current : (s.channel c).current = some cur)
    (wait : cur.desc.wait = some w) : s.leaveWait c .mark = s.leaveMark w.mark c := by
  unfold State.leaveWait
  dsimp only
  rw [current]
  dsimp only
  rw [wait]

/-- The ring a role of the current descriptor names, by the descriptor's two ends. -/
theorem roleRing_iff {cur : Current} (current : (s.channel c).current = some cur) (r : RegionId) (g : Ring) :
    s.roleRing role c = some (r, g) ↔ ∃ x, ((role = .reader ∧ ∃ off, cur.desc.source = .region r off) ∨
      (role = .writer ∧ ∃ off, cur.desc.dest = .region r off)) ∧ s.ring? r = some (x, g) := by
  cases role with
  | reader =>
    rw [roleRing_reader_iff current]
    simp
  | writer =>
    rw [roleRing_writer_iff current]
    simp

end

/-! ## A stop in RUNNING -/

theorem lastBurst_iff (cur : Current) : cur.lastBurst = true ↔ cur.prog.admitted = cur.desc.length ∧
    cur.desc.runs ≠ 255 ∧ cur.prog.runsCompleted + 1 = cur.desc.runs := by
  simp only [Current.lastBurst, Bool.and_eq_true, decide_eq_true_iff, and_assoc]
  rfl

section
variable {s : State} {c : ChannelId} {cur : Current} {r : StopRequest} (current : (s.channel c).current = some cur)
include current

theorem stopRunning_of_last (last : cur.lastBurst = true) :
    s.stopRunning c r = s.setChannel c { s.channel c with stop := r } := by
  unfold State.stopRunning
  rw [current]
  exact if_pos last

theorem stopRunning_of_more (more : ¬ cur.lastBurst = true) : s.stopRunning c r =
    (s.setChannel c { s.channel c with state := .stopping, stop := r }).afterCompletion c := by
  unfold State.stopRunning
  rw [current]
  exact if_neg more

theorem stopRunning_of_entries (more : ¬ cur.lastBurst = true) (entries : s.entriesOf (.ch c) ≠ 0) :
    s.stopRunning c r = s.setChannel c { s.channel c with state := .stopping, stop := r } := by
  rw [stopRunning_of_more current more]
  exact (afterCompletion_stopping (cur := cur) (by rw [channel_setChannel_self, ← current])
    (by rw [channel_setChannel_self])).trans (if_neg entries)

theorem stopRunning_of_none (more : ¬ cur.lastBurst = true) (none_ : s.entriesOf (.ch c) = 0)
    (midRun : cur.prog.done ≠ cur.desc.length) : s.stopRunning c r =
      ((s.setChannel c { s.channel c with state := .stopping, stop := r }).retire c .aborted).moveOn c := by
  rw [stopRunning_of_more current more]
  refine (afterCompletion_stopping (cur := cur) (by rw [channel_setChannel_self, ← current])
    (by rw [channel_setChannel_self])).trans ((if_pos none_).trans ?_)
  unfold State.retireStopped
  rw [if_neg midRun]

end

/-- The retirement of a stopped channel. -/
theorem retire_stopping_leaves {s : State} {c : ChannelId} {cur : Current} {x : Channel} (own : x.current = some cur) :
    bareChannel (((s.setChannel c x).retire c .aborted).channel c) =
      bareChannel { x with current := none, slotA := .empty, slotB := .empty } ∧
    (∀ a, a ≠ c → bareChannel (((s.setChannel c x).retire c .aborted).channel a) = bareChannel (s.channel a)) ∧
    ((s.setChannel c x).retire c .aborted).notices =
      s.notices.post (.descriptorDone c cur.desc.tag .aborted cur.prog.done cur.prog.runsCompleted) := by
  have current' : ((s.setChannel c x).channel c).current = some cur := by rw [channel_setChannel_self, own]
  obtain ⟨mine, others⟩ := retire_leaves .aborted current'
  refine ⟨?_, fun a other => ?_, retire_aborted_notices current'⟩
  · rw [mine, channel_setChannel_self]
  · rw [others a other, channel_setChannel_ne _ _ other]

/-! ## A channel that moves on stopped -/

section
variable {s : State} {c : ChannelId}

theorem moveOn_of_halts (stop : (s.channel c).stop = .afterCurrent ∨ (s.channel c).stop = .now) :
    s.moveOn c = s.setChannel c { s.channel c with state := .halted .stopped, stop := .none } := by
  unfold State.moveOn
  obtain stop | stop := stop <;> rw [stop] <;> rfl

theorem moveOn_of_flush (stop : (s.channel c).stop = .flush) :
    s.moveOn c = (s.setChannel c { s.channel c with state := .idle, stop := .none }).promote c := by
  unfold State.moveOn
  rw [stop]
  rfl

theorem moveOn_of_none (stop : (s.channel c).stop = .none) :
    s.moveOn c = (s.setChannel c { s.channel c with state := .idle, stop := .none }).promote c := by
  have kept : ({ s.channel c with state := .idle } : Channel) = { s.channel c with state := .idle, stop := .none } :=
    congrArg (fun r => ({ s.channel c with state := .idle, stop := r } : Channel)) stop
  unfold State.moveOn
  rw [stop]
  exact congrArg (fun x => (s.setChannel c x).promote c) kept

/-- A flushed channel with an empty queue becomes IDLE. -/
theorem moveOn_of_flushed (stop : (s.channel c).stop = .flush) (empty : (s.channel c).pending = []) :
    s.moveOn c = s.setChannel c { s.channel c with state := .idle, stop := .none } := by
  rw [moveOn_of_flush stop, promote_nil (by rw [channel_setChannel_self, ← empty])]

end

end Sys2Proof.Proofs


/-! # CHANNEL_STOP (O51): the obligation -/

namespace Sys2Proof.Proofs

open Sys2Proof.Machine Sys2Proof.Laws

/-! ## AFTER_CURRENT, by the channel's state (R103) -/

section
variable {s : State} {c : ChannelId}

theorem stopAfterCurrent_idle (idle : (s.channel c).state = .idle) :
    s.stopAfterCurrent c = s.setChannel c { s.channel c with state := .halted .stopped, stop := .none } := by
  unfold State.stopAfterCurrent
  rw [idle]
  rfl

theorem stopAfterCurrent_running (running : (s.channel c).state = .running) : s.stopAfterCurrent c =
    if (s.channel c).stop = .none then s.setChannel c { s.channel c with stop := .afterCurrent } else s := by
  unfold State.stopAfterCurrent
  rw [running]
  rfl

theorem stopAfterCurrent_waiting {why : WaitReason} (waits : (s.channel c).state = .waiting why) :
    s.stopAfterCurrent c = s.setChannel c { s.channel c with stop := .afterCurrent } := by
  unfold State.stopAfterCurrent
  rw [waits]
  rfl

theorem stopAfterCurrent_stopping (stopping : (s.channel c).state = .stopping) : s.stopAfterCurrent c = s := by
  unfold State.stopAfterCurrent
  rw [stopping]

theorem stopAfterCurrent_halted {why : HaltReason} (halted : (s.channel c).state = .halted why) :
    s.stopAfterCurrent c = s := by
  unfold State.stopAfterCurrent
  rw [halted]

/-! ## NOW (R104, R107, R108) -/

theorem stopNow_idle (idle : (s.channel c).state = .idle) :
    s.stopNow c = s.setChannel c { s.channel c with state := .halted .stopped, stop := .none } := by
  unfold State.stopNow
  rw [idle]
  rfl

theorem stopNow_waiting {why : WaitReason} (waits : (s.channel c).state = .waiting why) :
    s.stopNow c = (s.abortWait c why).haltStopped c := by
  unfold State.stopNow
  rw [waits]

theorem stopNow_running (running : (s.channel c).state = .running) : s.stopNow c =
    if (s.channel c).stop = .now ∨ (s.channel c).stop = .flush then s else s.stopRunning c .now := by
  unfold State.stopNow
  rw [running]
  simp only [Bool.or_eq_true, decide_eq_true_iff]

theorem stopNow_stopping (stopping : (s.channel c).state = .stopping) : s.stopNow c = s := by
  unfold State.stopNow
  rw [stopping]

theorem stopNow_halted {why : HaltReason} (halted : (s.channel c).state = .halted why) : s.stopNow c = s := by
  unfold State.stopNow
  rw [halted]

/-! ## FLUSH (R109) -/

theorem stopFlush_idle (idle : (s.channel c).state = .idle) : s.stopFlush c = s := by
  unfold State.stopFlush
  rw [idle]

theorem stopFlush_waiting {why : WaitReason} (waits : (s.channel c).state = .waiting why) :
    s.stopFlush c = ((s.abortWait c why).discardPending c).becomeIdle c := by
  unfold State.stopFlush
  rw [waits]

theorem stopFlush_running (running : (s.channel c).state = .running) :
    s.stopFlush c = (s.discardPending c).stopRunning c .flush := by
  unfold State.stopFlush
  rw [running]

theorem stopFlush_stopping (stopping : (s.channel c).state = .stopping) :
    s.stopFlush c = (s.discardPending c).setChannel c { s.channel c with stop := .flush, pending := [] } := by
  unfold State.stopFlush
  rw [stopping]
  exact congrArg (fun x : Channel => (s.discardPending c).setChannel c { x with stop := .flush })
    (discardPending_channel s c)

theorem stopFlush_halted_free {why : HaltReason} (halted : (s.channel c).state = .halted why)
    (free : (s.channel c).current = none) : s.stopFlush c =
      (s.discardPending c).setChannel c { s.channel c with state := .idle, stop := .none, pending := [] } := by
  unfold State.stopFlush
  rw [halted, free]
  exact congrArg (fun x : Channel => (s.discardPending c).setChannel c { x with state := .idle, stop := .none })
    (discardPending_channel s c)

theorem stopFlush_halted_held {why : HaltReason} {cur : Current} (halted : (s.channel c).state = .halted why)
    (current : (s.channel c).current = some cur) :
    s.stopFlush c = (s.discardPending c).setChannel c { s.channel c with pending := [] } := by
  unfold State.stopFlush
  rw [halted, current, ← discardPending_channel s c]
  exact (setChannel_channel_self (s := s.discardPending c) c).symm

end

/-! ## The states a retirement by a stop leaves -/

/-- The channel's record, the notices, and of the other channels no more than their states changed. -/
def StopLeaves (s : State) (c : ChannelId) (u : State) (y : Channel) (q : NoticeQueue) : Prop :=
  u.channel c = y ∧ u.notices = q ∧ ∀ a, a ≠ c → u.channel a = { s.channel a with state := (u.channel a).state }

section
variable {s w : State} {c : ChannelId} {y : Channel} {q : NoticeQueue}

theorem stopLeaves_setChannel (others : ∀ a, a ≠ c → bareChannel (w.channel a) = bareChannel (s.channel a))
    (notices : w.notices = q) : StopLeaves s c (w.setChannel c y) y q := by
  refine ⟨channel_setChannel_self .., notices, fun a other => ?_⟩
  rw [channel_setChannel_ne _ _ other]
  exact eq_of_bareChannel (others a other)

/-- The record of a channel that a retirement leaves, once its state and its stop request are set. -/
theorem setRecord_of_bareChannel {x : Channel} (bare : bareChannel (w.channel c) = bareChannel x) (st : ChannelState)
    (r : StopRequest) :
    w.setChannel c { w.channel c with state := st, stop := r } = w.setChannel c { x with state := st, stop := r } :=
  (congrArg (fun z : Channel => w.setChannel c { z with state := st, stop := r }) bare :)

end

section
variable {s : State} {c : ChannelId} {cur : Current} (current : (s.channel c).current = some cur)
include current

/-- NOW in WAITING: ABORTED, then HALTED. -/
theorem stopNow_waiting_leaves {why : WaitReason} (waits : (s.channel c).state = .waiting why) {y : Channel}
    (yIs : y = { s.channel c with
      state := .halted .stopped, stop := .none, current := none, slotA := .empty, slotB := .empty }) :
    s.stopNow c = (s.abortWait c why).setChannel c y ∧ StopLeaves s c ((s.abortWait c why).setChannel c y) y
      (s.notices.post (.descriptorDone c cur.desc.tag .aborted cur.prog.done cur.prog.runsCompleted)) := by
  subst yIs
  obtain ⟨own, others, notices⟩ := abortWait_leaves why current
  exact ⟨(stopNow_waiting waits).trans (setRecord_of_bareChannel own (.halted .stopped) .none),
    stopLeaves_setChannel others notices⟩

/-- FLUSH in WAITING: ABORTED, then the queue discarded, then IDLE. -/
theorem stopFlush_waiting_leaves {why : WaitReason} (waits : (s.channel c).state = .waiting why) {y : Channel}
    (yIs : y = { s.channel c with
      state := .idle, stop := .none, current := none, slotA := .empty, slotB := .empty, pending := [] }) :
    s.stopFlush c = ((s.abortWait c why).discardPending c).setChannel c y ∧
      StopLeaves s c (((s.abortWait c why).discardPending c).setChannel c y) y
        ((s.channel c).pending.foldl (fun q d => q.post (.descriptorDone c d.tag .discarded 0 0))
          (s.notices.post (.descriptorDone c cur.desc.tag .aborted cur.prog.done cur.prog.runsCompleted))) := by
  subst yIs
  obtain ⟨own, others, notices⟩ := abortWait_leaves why current
  have pending : ((s.abortWait c why).channel c).pending = (s.channel c).pending := (congrArg Channel.pending own :)
  have emptied : bareChannel (((s.abortWait c why).discardPending c).channel c) = bareChannel { s.channel c with
      current := none, slotA := .empty, slotB := .empty, pending := [] } := by
    rw [discardPending_channel]
    exact congrArg (fun x : Channel => { x with pending := [] }) own
  refine ⟨(stopFlush_waiting waits).trans (setRecord_of_bareChannel emptied .idle .none),
    stopLeaves_setChannel (fun a other => ?_) ?_⟩
  · rw [discardPending_channel_ne _ other]
    exact others a other
  · rw [discardPending_notices, pending, notices]

/-- NOW in RUNNING with no entry left: ABORTED, then HALTED. -/
theorem stopped_now_leaves : StopLeaves s c
    (((s.setChannel c { s.channel c with state := .stopping, stop := .now }).retire c .aborted).moveOn c)
    { s.channel c with state := .halted .stopped, stop := .none, current := none, slotA := .empty, slotB := .empty }
    (s.notices.post (.descriptorDone c cur.desc.tag .aborted cur.prog.done cur.prog.runsCompleted)) := by
  obtain ⟨own, others, notices⟩ := retire_stopping_leaves (s := s) (c := c)
    (x := { s.channel c with state := .stopping, stop := .now }) current
  rw [moveOn_of_halts (.inr (congrArg Channel.stop own :)), setRecord_of_bareChannel own]
  exact stopLeaves_setChannel others notices

/-- FLUSH in RUNNING with no entry left: the queue is empty, so the channel stays IDLE after ABORTED. -/
theorem stopped_flush_leaves (empty : (s.channel c).pending = []) : StopLeaves s c
    (((s.setChannel c { s.channel c with state := .stopping, stop := .flush }).retire c .aborted).moveOn c)
    { s.channel c with state := .idle, stop := .none, current := none, slotA := .empty, slotB := .empty }
    (s.notices.post (.descriptorDone c cur.desc.tag .aborted cur.prog.done cur.prog.runsCompleted)) := by
  obtain ⟨own, others, notices⟩ := retire_stopping_leaves (s := s) (c := c)
    (x := { s.channel c with state := .stopping, stop := .flush }) current
  rw [moveOn_of_flushed (congrArg Channel.stop own :) ((congrArg Channel.pending own :).trans empty),
    setRecord_of_bareChannel own]
  exact stopLeaves_setChannel others notices

end

end Sys2Proof.Proofs


/-! # CHANNEL_STOP (O51): the obligation's theorem -/

namespace Sys2Proof.Proofs

open Sys2Proof.Machine Sys2Proof.Laws

section
variable {s : State} {c : ChannelId} {cur : Current}

/-- FLUSH in RUNNING with no entry left, the queue discarded first. -/
theorem flushed_leaves (current : (s.channel c).current = some cur) : StopLeaves s c
    ((((s.discardPending c).setChannel c { s.channel c with state := .stopping, stop := .flush, pending := [] }).retire
      c .aborted).moveOn c)
    { s.channel c with
      state := .idle, stop := .none, current := none, slotA := .empty, slotB := .empty, pending := [] }
    (((s.channel c).pending.foldl (fun q d => q.post (.descriptorDone c d.tag .discarded 0 0)) s.notices).post
      (.descriptorDone c cur.desc.tag .aborted cur.prog.done cur.prog.runsCompleted)) := by
  have left := stopped_flush_leaves (s := s.discardPending c) (c := c) (cur := cur)
    (by rw [discardPending_channel]; exact current) (by rw [discardPending_channel])
  rw [discardPending_channel, discardPending_notices] at left
  obtain ⟨own, notices, others⟩ := left
  refine ⟨own, notices, fun a other => ?_⟩
  rw [← discardPending_channel_ne s other]
  exact others a other

/-- FLUSH in RUNNING: the queue goes, then the last-burst test (R104, R109). -/
theorem stopFlush_running_last (current : (s.channel c).current = some cur) (running : (s.channel c).state = .running)
    (last : cur.lastBurst = true) : s.stopFlush c =
      (s.discardPending c).setChannel c { s.channel c with stop := .flush, pending := [] } := by
  have current' : ((s.discardPending c).channel c).current = some cur := by rw [discardPending_channel]; exact current
  rw [stopFlush_running running, stopRunning_of_last current' last, discardPending_channel]

theorem stopFlush_running_entries (current : (s.channel c).current = some cur) (running : (s.channel c).state = .running)
    (more : ¬ cur.lastBurst = true) (entries : s.entriesOf (.ch c) ≠ 0) : s.stopFlush c =
      (s.discardPending c).setChannel c { s.channel c with state := .stopping, stop := .flush, pending := [] } := by
  have current' : ((s.discardPending c).channel c).current = some cur := by rw [discardPending_channel]; exact current
  have entries' : (s.discardPending c).entriesOf (.ch c) ≠ 0 := by
    unfold State.entriesOf
    rw [discardPending_sched]
    exact entries
  rw [stopFlush_running running, stopRunning_of_entries current' more entries', discardPending_channel]

theorem stopFlush_running_none (current : (s.channel c).current = some cur) (running : (s.channel c).state = .running)
    (more : ¬ cur.lastBurst = true) (none_ : s.entriesOf (.ch c) = 0) (midRun : cur.prog.done ≠ cur.desc.length) :
    s.stopFlush c = (((s.discardPending c).setChannel c
      { s.channel c with state := .stopping, stop := .flush, pending := [] }).retire c .aborted).moveOn c := by
  have current' : ((s.discardPending c).channel c).current = some cur := by rw [discardPending_channel]; exact current
  have none' : (s.discardPending c).entriesOf (.ch c) = 0 := by
    unfold State.entriesOf
    rw [discardPending_sched]
    exact none_
  rw [stopFlush_running running, stopRunning_of_none current' more none' midRun, discardPending_channel]

end

/-- Settles O51: by the mode and the channel's state. -/
theorem channelStop : Obligations.ChannelStop := by
  refine ⟨?lists, ?retire, fun s c => discardPending_eq s c, ?request⟩
  case lists =>
    intro s c cur current
    refine ⟨fun w wait => leaveWait_mark current wait, rfl, fun role ring ringIs => ⟨fun none_ => ?_, fun r x g named => ?_⟩⟩
    · have noRing : s.roleRing role c = none := Option.eq_none_iff_forall_ne_some.mpr fun p named => by
        obtain ⟨x, named⟩ := (roleRing_iff current p.1 p.2).mp named
        exact none_ p.1 x p.2 ((ringIs ..).mpr named)
      exact ⟨leaveClaimList_of_no_ring noRing, releaseHeld_of_no_ring noRing⟩
    · obtain ⟨ends, ring⟩ := (ringIs r x g).mp named
      have named := (roleRing_iff current r g).mpr ⟨x, ends, ring⟩
      exact ⟨leaveClaimList_of_ring named, releaseHeld_of_foreign named,
        fun held unwanted => (releaseHeld_of_held named held).trans (releaseClaim_of_no_waiter ring unwanted),
        fun y rest held wanted => (releaseHeld_of_held named held).trans (releaseClaim_of_waiter ring wanted)⟩
  case retire =>
    rintro s u c cur st current rfl
    obtain ⟨u, v, rfl, counts, retired⟩ := retire_eq st current
    exact ⟨v, counts, retired⟩
  case request =>
    intro tag b m s taken serving
    refine ⟨exec_channelStop_badValue taken serving, fun c x number xIs ends becomes flushes retires dropped endsIs becomesIs
      flushesIs retiresIs droppedIs => ?_⟩
    subst xIs
    have answer : ∀ {mode : StopRequest} {u : State} {code : Nat}, readStopMode m = some mode → s.stopChannel c mode = u →
        (u.channel c).state.code = code → ends code ((s.channel c).discards mode) u := by
      rintro mode u code read stops rfl
      rw [endsIs, exec_channelStop_ok taken serving number read, stops]
    have record : ∀ {t : State} {y : Channel} {code : Nat}, y.state.code = code →
        ((t.setChannel c y).channel c).state.code = code := by
      rintro t y code rfl
      rw [channel_setChannel_self]
    have left : ∀ {mode : StopRequest} {u : State} {y : Channel} {q : NoticeQueue} {code : Nat},
        readStopMode m = some mode → s.stopChannel c mode = u → StopLeaves s c u y q → y.state.code = code →
        retires code ((s.channel c).discards mode) u y q := by
      rintro mode u y q code read stops ⟨own, notices, others⟩ rfl
      exact (retiresIs ..).mpr ⟨answer read stops (by rw [own]), own, notices, others⟩
    have codeOf : ∀ {st : ChannelState}, (s.channel c).state = st → (s.channel c).state.code = st.code := congrArg _
    refine ⟨?after, ?now, ?settled, ?flush, ?running⟩
    case after =>
      rintro rfl
      refine ⟨fun idle => ?_, fun running fresh => ?_, fun why waits => ?_, fun running stops => ?_⟩
      · exact (becomesIs ..).mpr (answer rfl (stopAfterCurrent_idle idle) (record rfl))
      · exact (becomesIs ..).mpr (answer rfl ((stopAfterCurrent_running running).trans (if_pos fresh)) (record (codeOf running)))
      · exact (becomesIs ..).mpr (answer rfl (stopAfterCurrent_waiting waits) (record (codeOf waits)))
      · exact answer (mode := .afterCurrent) rfl ((stopAfterCurrent_running running).trans (if_neg stops)) (codeOf running)
    case now =>
      rintro rfl
      refine ⟨fun idle => ?_, fun why cur u y waits current uIs yIs => ?_, fun running stops => ?_⟩
      · exact (becomesIs ..).mpr (answer rfl (stopNow_idle idle) (record rfl))
      · obtain ⟨stops, leaves⟩ := stopNow_waiting_leaves current waits yIs
        rw [uIs]
        exact left (mode := .now) rfl stops leaves (by rw [yIs]; rfl)
      · exact answer (mode := .now) rfl ((stopNow_running running).trans (if_pos stops)) (codeOf running)
    case settled =>
      intro small
      obtain rfl | rfl := byte_le_one small
      · exact ⟨fun stopping => answer (mode := .afterCurrent) rfl (stopAfterCurrent_stopping stopping) (codeOf stopping),
          fun why halted => answer (mode := .afterCurrent) rfl (stopAfterCurrent_halted halted) (codeOf halted)⟩
      · exact ⟨fun stopping => answer (mode := .now) rfl (stopNow_stopping stopping) (codeOf stopping),
          fun why halted => answer (mode := .now) rfl (stopNow_halted halted) (codeOf halted)⟩
    case flush =>
      rintro rfl
      have read : readStopMode 2#8 = some .flush := rfl
      refine ⟨fun idle empty => ?_, fun why cur u y waits current uIs yIs => ?_, fun stopping => ?_,
        fun why halted free => ?_, fun why cur halted current => ?_⟩
      · have none_ : (s.channel c).discards .flush = 0 := congrArg List.length empty
        have same := answer read (stopFlush_idle idle) (codeOf idle)
        rw [none_] at same
        exact same
      · obtain ⟨stops, leaves⟩ := stopFlush_waiting_leaves current waits yIs
        rw [uIs, droppedIs]
        exact left read stops leaves (by rw [yIs]; rfl)
      · exact (flushesIs ..).mpr (answer read (stopFlush_stopping stopping) (record (codeOf stopping)))
      · exact (flushesIs ..).mpr (answer read (stopFlush_halted_free halted free) (record rfl))
      · exact (flushesIs ..).mpr (answer read (stopFlush_halted_held halted current) (record (codeOf halted)))
    case running =>
      rintro cur last running current fresh lastIs entries rfl
      have last_ : last ↔ cur.lastBurst = true := lastIs.trans (lastBurst_iff cur).symm
      refine ⟨?_, ?_⟩
      · rintro rfl
        obtain ⟨notNow, notFlush⟩ := fresh rfl
        have runs := (stopNow_running running).trans (if_neg (not_or.mpr ⟨notNow, notFlush⟩))
        refine ⟨fun is => ?_, fun more some_ => ?_, fun u more none_ midRun uIs => ?_⟩
        · exact (becomesIs ..).mpr (answer (mode := .now) rfl
            (runs.trans (stopRunning_of_last current (last_.mp is))) (record (codeOf running)))
        · exact (becomesIs ..).mpr (answer (mode := .now) rfl
            (runs.trans (stopRunning_of_entries current (more ∘ last_.mpr) some_)) (record rfl))
        · rw [uIs]
          exact left (mode := .now) rfl (runs.trans (stopRunning_of_none current (more ∘ last_.mpr) none_ midRun))
            (stopped_now_leaves current) rfl
      · rintro rfl
        have read : readStopMode 2#8 = some .flush := rfl
        refine ⟨fun is => ?_, fun more some_ => ?_, fun u more none_ midRun uIs => ?_⟩
        · exact (flushesIs ..).mpr (answer read (stopFlush_running_last current running (last_.mp is)) (record (codeOf running)))
        · exact (flushesIs ..).mpr (answer read (stopFlush_running_entries current running (more ∘ last_.mpr) some_)
            (record rfl))
        · rw [uIs, droppedIs]
          exact left read (stopFlush_running_none current running (more ∘ last_.mpr) none_ midRun) (flushed_leaves current) rfl

end Sys2Proof.Proofs


/-! # CHANNEL_RESUME (O52) -/

namespace Sys2Proof.Proofs

open Sys2Proof.Machine Sys2Proof.Laws

section
variable (l : Link) (c : ChannelId) (s : State)

theorem resume_setLink : (s.setLink l).resume c = (s.resume c).setLink l := by
  unfold State.resume
  rw [(beside_setLink l).modChannel, (beside_setLink l).promote]

theorem resume_link : (s.resume c).link = s.link := (congrArg State.link (resume_setLink s.link c s) :)

end

section
variable {s : State} {c : ChannelId}

theorem resume_of_empty (empty : (s.channel c).pending = []) :
    s.resume c = s.setChannel c { s.channel c with state := .idle } :=
  promote_nil (s := s.setChannel c { s.channel c with state := .idle }) (by rw [channel_setChannel_self, ← empty])

/-- A head that waits for no mark and names no ring goes straight to RUNNING. -/
theorem resume_of_no_rings {d : Descriptor} {rest : List Descriptor} (pending : (s.channel c).pending = d :: rest)
    (wait : d.wait = none) (noRing : ∀ r off, d.source = .region r off ∨ d.dest = .region r off → s.ring? r = none) :
    s.resume c = s.setChannel c { s.channel c with
      state := .running, pending := rest, slotA := .empty, slotB := .empty, current := some (freshCurrent d) } := by
  have head : ((s.setChannel c { s.channel c with state := .idle }).channel c).pending = d :: rest := by
    rw [channel_setChannel_self, ← pending]
  have current : ((headCurrent c d rest (s.setChannel c { s.channel c with state := .idle })).channel c).current =
      some (freshCurrent d) := by
    unfold headCurrent
    rw [channel_setChannel_self]
  refine (promote_of_no_wait head wait).trans ((takeClaims_of_no_rings current noRing).trans ?_)
  unfold headCurrent
  rw [setChannel_setChannel, setChannel_setChannel, channel_setChannel_self, channel_setChannel_self]

section
variable {tag b : Byte} (taken : s.takes 0x22#8 tag [b] = true) (serving : s.serving = true)
include taken serving

theorem exec_channelResume {t : State} {st : Status} {data : List Byte}
    (reply : onChannel [b] channelResume (s.working 0x22#8 tag) = (st, data, t.setLink (s.working 0x22#8 tag).link)) :
    exec (.channelResume tag [b]) s = .next (t.setLink (s.link.answered 0x22#8 tag st data)) :=
  repliesServing (ok := decide ([b].length = 1)) (g := .whenReady) (f := onChannel [b] channelResume) taken serving rfl reply

variable (number : c.val = b.toNat)
include number

theorem exec_channelResume_ok (resumable : (s.channel c).resumable = true) : exec (.channelResume tag [b]) s =
    .next (((s.resume c).reportAll).answered 0x22#8 tag .ok (u8 ((s.resume c).channel c).state.code)) := by
  have reply : onChannel [b] channelResume (s.working 0x22#8 tag) = (.ok, u8 ((s.resume c).channel c).state.code,
      ((s.resume c).reportAll).setLink (s.working 0x22#8 tag).link) := by
    rw [onChannel_of_number number]
    unfold Machine.channelResume
    refine (if_pos resumable).trans ?_
    rw [State.working, resume_setLink]
    rfl
  rw [exec_channelResume taken serving reply, ← resume_link c s]
  rfl

theorem exec_channelResume_wrongState (not_ : ¬ (s.channel c).resumable = true) :
    exec (.channelResume tag [b]) s = .next (s.answered 0x22#8 tag .wrongState []) := by
  refine exec_channelResume (t := s) taken serving ?_
  rw [onChannel_of_number number]
  exact if_neg not_

end

end

/-- Settles O52: WRONG_STATE, or the promotion of the head of the queue. -/
theorem channelResume : Obligations.ChannelResume := by
  refine ⟨fun s c => ⟨moveOn_of_halts, fun stop => stop.elim moveOn_of_none moveOn_of_flush⟩,
    fun tag b s taken serving => ⟨fun beyond => exec_channelResume (t := s) taken serving (onChannel_of_beyond beyond _ _),
      fun c number => ⟨fun cannot => ?refused, fun why halted free => ?resumed⟩⟩⟩
  case refused =>
    refine exec_channelResume_wrongState taken serving number fun resumable => ?_
    obtain ⟨⟨why, halted⟩, free⟩ := (resumable_iff _).mp resumable
    exact cannot.elim (· free) fun never => never why halted
  case resumed =>
    have answer := exec_channelResume_ok taken serving number ((resumable_iff _).mpr ⟨⟨why, halted⟩, free⟩)
    refine ⟨⟨s.resume c, _, rfl, rfl, ?_⟩, fun empty => ?_, fun d rest pending wait noRing => ?_⟩
    · rw [answer]
      rfl
    · rw [answer, resume_of_empty empty, channel_setChannel_self]
      rfl
    · rw [answer, resume_of_no_rings pending wait noRing, channel_setChannel_self]
      rfl

end Sys2Proof.Proofs


/-! # Marks (O53) -/

namespace Sys2Proof.Proofs

open Sys2Proof.Machine Sys2Proof.Laws

/-! ## What a serving leaves (R119, R120) -/

section
variable {s : State} {m : MarkId} {left : Nat} {kept : List MarkWaiter} {chs : List ChannelId}
  (served : serveWaiters (s.mark m).value (s.mark m).waiters = (left, kept, chs))
include served

theorem serveMark_mark_self : (s.serveMark m).mark m = { s.mark m with value := left, waiters := kept } := by
  rw [serveMark_eq served]
  have same := congrArg (fun t : State => t.mark m) (promotes_foldClaims chs
    (s.setMark m { s.mark m with value := left, waiters := kept })).fields
  exact same.trans (mark_setMark_self ..)

theorem serveMark_channel {c : ChannelId} (unserved : c ∉ chs) : (s.serveMark m).channel c = s.channel c := by
  rw [serveMark_eq served, foldClaims_channel_ne chs _ unserved]
  rfl

end

theorem serveMark_notices (m : MarkId) (s : State) : (s.serveMark m).notices = s.notices := by
  rw [(promotes_serveMark m s).fields]
  rfl

theorem serveMark_link (m : MarkId) (s : State) : (s.serveMark m).link = s.link := by
  rw [(promotes_serveMark m s).fields]
  rfl

/-! ## A waiter that leaves (R126) -/

section
variable {s : State} {m : MarkId} {c : ChannelId}

theorem leaveMark_of_first {w : MarkWaiter} {rest : List MarkWaiter} (waiters : (s.mark m).waiters = w :: rest)
    (own : w.channel = c) : s.leaveMark m c =
      (s.setMark m { s.mark m with waiters := (s.mark m).waiters.filter fun w => w.channel ≠ c }).serveMark m := by
  unfold State.leaveMark
  dsimp only
  split
  case h_1 empty => rw [waiters] at empty; cases empty
  case h_2 x xs is =>
    rw [waiters] at is
    cases is
    exact if_pos own

theorem leaveMark_of_later (later : ∀ w rest, (s.mark m).waiters = w :: rest → w.channel ≠ c) : s.leaveMark m c =
    s.setMark m { s.mark m with waiters := (s.mark m).waiters.filter fun w => w.channel ≠ c } := by
  unfold State.leaveMark
  dsimp only
  split
  case h_1 => rfl
  case h_2 w rest is => exact if_neg (later w rest is)

end

/-! ## MARK_SET and MARK_ADD -/

/-- An addition's value, flag and notice, before the list is served. -/
def markRaised (m : MarkId) (k : Nat) (s : State) : State :=
  (s.setMark m { s.mark m with
    value := min 255 ((s.mark m).value + k),
    saturated := (s.mark m).saturated || decide (255 < (s.mark m).value + k) }).setNotices
      (if 255 < (s.mark m).value + k ∧ (s.mark m).saturated = false then s.notices.post (.markSaturated m) else s.notices)

theorem markRaised_mark (m : MarkId) (k : Nat) (s : State) : (markRaised m k s).mark m = { s.mark m with
    value := min 255 ((s.mark m).value + k),
    saturated := (s.mark m).saturated || decide (255 < (s.mark m).value + k) } := mark_setMark_self ..

section
variable {s : State} {tag b v : Byte}

/-- MARK_SET's value and list, before the list is served. -/
def markAssigned (m : MarkId) (v : Byte) (s : State) : State :=
  s.setMark m { value := v.toNat, saturated := false, waiters := (s.mark m).waiters }

theorem exec_markSet (taken : s.takes 0x24#8 tag [b, v] = true) (serving : s.serving = true) {t : State} {st : Status}
    {data : List Byte} (reply : Machine.markSet [b, v] (s.working 0x24#8 tag) =
      (st, data, t.setLink (s.working 0x24#8 tag).link)) :
    exec (.markSet tag [b, v]) s = .next (t.setLink (s.link.answered 0x24#8 tag st data)) :=
  repliesServing (ok := decide ([b, v].length = 2)) (g := .whenReady) (f := Machine.markSet [b, v]) taken serving rfl reply

theorem exec_markAdd (taken : s.takes 0x25#8 tag [b, v] = true) (serving : s.serving = true) {t : State} {st : Status}
    {data : List Byte} (reply : Machine.markAdd [b, v] (s.working 0x25#8 tag) =
      (st, data, t.setLink (s.working 0x25#8 tag).link)) :
    exec (.markAdd tag [b, v]) s = .next (t.setLink (s.link.answered 0x25#8 tag st data)) :=
  repliesServing (ok := decide ([b, v].length = 2)) (g := .whenReady) (f := Machine.markAdd [b, v]) taken serving rfl reply

theorem exec_markSet_badValue (taken : s.takes 0x24#8 tag [b, v] = true) (serving : s.serving = true)
    (beyond : 15 < b.toNat) : exec (.markSet tag [b, v]) s = .next (s.answered 0x24#8 tag .badValue []) := by
  refine exec_markSet (t := s) taken serving ?_
  unfold Machine.markSet
  dsimp only
  rw [idx_none (show 16 ≤ b.toNat from beyond)]
  rfl

theorem exec_markAdd_badValue (taken : s.takes 0x25#8 tag [b, v] = true) (serving : s.serving = true)
    (bad : 15 < b.toNat ∨ v = 0#8) : exec (.markAdd tag [b, v]) s = .next (s.answered 0x25#8 tag .badValue []) := by
  refine exec_markAdd (t := s) taken serving ?_
  unfold Machine.markAdd
  dsimp only
  cases number : idx? 16 b.toNat with
  | none => rfl
  | some m =>
    have inside : b.toNat < 16 := (idx_some number) ▸ m.isLt
    exact if_pos (bad.resolve_left (by omega))

section
variable {m : MarkId} {left : Nat} {kept : List MarkWaiter} {chs : List ChannelId} (number : m.val = b.toNat)
include number

theorem exec_markSet_ok (taken : s.takes 0x24#8 tag [b, v] = true) (serving : s.serving = true)
    (served : serveWaiters v.toNat (s.mark m).waiters = (left, kept, chs)) : exec (.markSet tag [b, v]) s =
      .next ((((markAssigned m v s).serveMark m).reportAll).answered 0x24#8 tag .ok
        (u8 (s.mark m).value ++ u8 left ++ u8 chs.length)) := by
  have link : ((markAssigned m v s).serveMark m).link = s.link := serveMark_link ..
  have same : ∀ l, (markAssigned m v (s.setLink l)).serveMark m = ((markAssigned m v s).serveMark m).setLink l :=
    fun l => (beside_setLink l).serveMark m (markAssigned m v s)
  have reply : Machine.markSet [b, v] (s.working 0x24#8 tag) = (.ok,
      u8 (s.mark m).value ++ u8 left ++ u8 chs.length,
      (((markAssigned m v s).serveMark m).reportAll).setLink (s.working 0x24#8 tag).link) := by
    have values : ((s.mark m).assigned v.toNat).served.value = left := congrArg Prod.fst served
    have count : ((s.mark m).assigned v.toNat).satisfied = chs := congrArg (fun q => q.2.2) served
    unfold Machine.markSet
    dsimp only
    rw [← number, idx_val]
    show (Status.ok, u8 (s.mark m).value ++ u8 ((s.mark m).assigned v.toNat).served.value ++
      u8 ((s.mark m).assigned v.toNat).satisfied.length, State.reportAll _) = _
    rw [values, count]
    exact Prod.ext rfl (Prod.ext rfl (congrArg State.reportAll (same _)))
  rw [exec_markSet taken serving reply, ← link]
  rfl

theorem exec_markAdd_ok (taken : s.takes 0x25#8 tag [b, v] = true) (serving : s.serving = true) (some_ : v ≠ 0#8)
    (served : serveWaiters (min 255 ((s.mark m).value + v.toNat)) (s.mark m).waiters = (left, kept, chs)) :
    exec (.markAdd tag [b, v]) s = .next (((s.addMark m v.toNat).reportAll).answered 0x25#8 tag .ok
      (u8 left ++ flagByte ((s.mark m).saturated || decide (255 < (s.mark m).value + v.toNat)) ++ u8 chs.length)) := by
  have link : (s.addMark m v.toNat).link = s.link := by
    rw [addMark_eq, serveMark_link]
    rfl
  have reply : Machine.markAdd [b, v] (s.working 0x25#8 tag) = (.ok,
      u8 left ++ flagByte ((s.mark m).saturated || decide (255 < (s.mark m).value + v.toNat)) ++ u8 chs.length,
      ((s.addMark m v.toNat).reportAll).setLink (s.working 0x25#8 tag).link) := by
    have values : ((s.mark m).raised v.toNat).served.value = left := by rw [raised_eq]; exact congrArg Prod.fst served
    have count : ((s.mark m).raised v.toNat).satisfied = chs := by rw [raised_eq]; exact congrArg (fun q => q.2.2) served
    have flag : ((s.mark m).raised v.toNat).saturated =
        ((s.mark m).saturated || decide (255 < (s.mark m).value + v.toNat)) := by rw [raised_eq]
    unfold Machine.markAdd
    dsimp only
    rw [← number, idx_val]
    refine (if_neg some_).trans ?_
    show (Status.ok, u8 ((s.mark m).raised v.toNat).served.value ++ flagByte ((s.mark m).raised v.toNat).saturated ++
      u8 ((s.mark m).raised v.toNat).satisfied.length, State.reportAll _) = _
    rw [values, count, flag]
    exact Prod.ext rfl (Prod.ext rfl (congrArg State.reportAll ((beside_setLink _).addMark m v.toNat s)))
  rw [exec_markAdd taken serving reply, ← link]
  rfl

end

end

/-- Settles O53: the serving of a list, and the two requests that bring it about. -/
theorem marks : Obligations.Marks := by
  refine ⟨fun v ws => serveWaiters_eq ws v, fun s m left kept chs => serveMark_eq, addMark_eq, ?leaves, ?set, ?add⟩
  case leaves =>
    rintro s t m c rfl
    exact ⟨fun w rest => leaveMark_of_first, leaveMark_of_later⟩
  case set =>
    intro tag b v s taken serving
    refine ⟨exec_markSet_badValue taken serving, fun m left kept chs number served =>
      ⟨(markAssigned m v s).serveMark m, exec_markSet_ok number taken serving served, ?_⟩⟩
    have served' : serveWaiters ((markAssigned m v s).mark m).value ((markAssigned m v s).mark m).waiters =
        (left, kept, chs) := by
      rw [markAssigned, mark_setMark_self]
      exact served
    refine ⟨?_, fun k other => ?_, serveMark_notices .., fun c unserved => serveMark_channel served' unserved, rfl, ?_⟩
    · rw [serveMark_mark_self served', markAssigned, mark_setMark_self]
    · rw [serveMark_mark_ne _ other]
      exact mark_setMark_ne _ _ other
    · rintro rfl
      rw [serveMark_eq served', markAssigned, setMark_setMark, mark_setMark_self]
      rfl
  case add =>
    intro tag b k s taken serving
    refine ⟨exec_markAdd_badValue taken serving, fun m left kept chs flag number some_ served flagIs =>
      ⟨s.addMark m k.toNat, ?_, ?_⟩⟩
    · rw [flagIs]
      exact exec_markAdd_ok number taken serving some_ served
    · have served' : serveWaiters ((markRaised m k.toNat s).mark m).value ((markRaised m k.toNat s).mark m).waiters =
          (left, kept, chs) := by
        rw [markRaised_mark]
        exact served
      rw [addMark_eq]
      refine ⟨?_, fun x other => ?_, serveMark_notices .., rfl, fun c unserved => serveMark_channel served' unserved⟩
      · refine (serveMark_mark_self served').trans ?_
        rw [markRaised_mark, flagIs]
      · rw [serveMark_mark_ne _ other]
        exact mark_setMark_ne _ _ other

end Sys2Proof.Proofs


/-! # The ports' requests (O54) -/

namespace Sys2Proof.Proofs

open Sys2Proof.Machine Sys2Proof.Laws

/-! ## Their fields -/

section
variable {kind n : Byte}

theorem readPort_none (bad : 1 < kind.toNat ∨ (kind = 0#8 ∧ 3 < n.toNat) ∨ (kind = 1#8 ∧ 1 < n.toNat)) :
    readPort kind n = none := by
  obtain unknown | ⟨rfl, beyond⟩ | ⟨rfl, beyond⟩ := bad
  · unfold readPort
    split
    case h_1 zero => omega
    case h_2 one => omega
    case h_3 => rfl
  · exact congrArg (Option.map PortName.capture) (idx_none (show 4 ≤ n.toNat from beyond))
  · exact congrArg (Option.map PortName.playout) (idx_none (show 2 ≤ n.toNat from beyond))

theorem readPort_capture {k : CaptureId} (number : k.val = n.toNat) : readPort 0#8 n = some (.capture k) := by
  show (idx? 4 n.toNat).map PortName.capture = _
  rw [← number, idx_val]
  rfl

theorem readPort_playout {k : PlayoutId} (number : k.val = n.toNat) : readPort 1#8 n = some (.playout k) := by
  show (idx? 2 n.toNat).map PortName.playout = _
  rw [← number, idx_val]
  rfl

theorem readBinding_none {b : Byte} (beyond : 5 < b.toNat) (notNone : b ≠ 0xFF#8) : readBinding b = none := by
  unfold readBinding
  rw [if_neg notNone, idx_none (show 6 ≤ b.toNat from beyond)]
  rfl

theorem readBinding_some {b : Byte} {c : ChannelId} (number : c.val = b.toNat) : readBinding b = some (some c) := by
  have notNone : b ≠ 0xFF#8 := by
    rintro rfl
    exact absurd number (Nat.ne_of_lt (Nat.lt_trans c.isLt (by decide)))
  unfold readBinding
  rw [if_neg notNone, ← number, idx_val]
  rfl

theorem bindingReport_eq (b : Option ChannelId) : bindingReport b = match b with
    | none => [0#8, 0#8]
    | some c => [1#8] ++ u8 c.val := by
  cases b <;> rfl

end

/-! ## Their dispatch -/

theorem reportBound_setLink (l : Link) (b : Option ChannelId) (s : State) :
    (s.setLink l).reportBound b = (s.reportBound b).setLink l := by
  cases b <;> rfl

theorem reportBound_link (b : Option ChannelId) (s : State) : (s.reportBound b).link = s.link := by
  cases b <;> rfl

section
variable {s t : State} {tag kind n x : Byte} {st : Status} {data : List Byte} (serving : s.serving = true)
include serving

theorem exec_portEnable (taken : s.takes 0x28#8 tag [kind, n] = true) (reply : Machine.portEnable [kind, n]
      (s.working 0x28#8 tag) = (st, data, t.setLink (s.working 0x28#8 tag).link)) :
    exec (.portEnable tag [kind, n]) s = .next (t.setLink (s.link.answered 0x28#8 tag st data)) :=
  repliesServing (ok := decide ([kind, n].length = 2)) (g := .whenReady) (f := Machine.portEnable [kind, n]) taken serving
    rfl reply

theorem exec_portDisable (taken : s.takes 0x29#8 tag [kind, n] = true) (reply : Machine.portDisable [kind, n]
      (s.working 0x29#8 tag) = (st, data, t.setLink (s.working 0x29#8 tag).link)) :
    exec (.portDisable tag [kind, n]) s = .next (t.setLink (s.link.answered 0x29#8 tag st data)) :=
  repliesServing (ok := decide ([kind, n].length = 2)) (g := .whenReady) (f := Machine.portDisable [kind, n]) taken serving
    rfl reply

theorem exec_portBind (taken : s.takes 0x2A#8 tag [kind, n, x] = true) (reply : Machine.portBind [kind, n, x]
      (s.working 0x2A#8 tag) = (st, data, t.setLink (s.working 0x2A#8 tag).link)) :
    exec (.portBind tag [kind, n, x]) s = .next (t.setLink (s.link.answered 0x2A#8 tag st data)) :=
  repliesServing (ok := decide ([kind, n, x].length = 3)) (g := .whenReady) (f := Machine.portBind [kind, n, x]) taken
    serving rfl reply

theorem exec_portQuery (taken : s.takes 0x2B#8 tag [kind, n, x] = true) (reply : Machine.portQuery [kind, n, x]
      (s.working 0x2B#8 tag) = (st, data, t.setLink (s.working 0x2B#8 tag).link)) :
    exec (.portQuery tag [kind, n, x]) s = .next (t.setLink (s.link.answered 0x2B#8 tag st data)) :=
  repliesServing (ok := decide ([kind, n, x].length = 3)) (g := .whenReady) (f := Machine.portQuery [kind, n, x]) taken
    serving rfl reply

end

/-! ## Their replies, by the port named -/

section
variable {kind n x : Byte} (s : State)

theorem portEnable_none (unread : readPort kind n = none) : Machine.portEnable [kind, n] s = (.badValue, [], s) := by
  unfold Machine.portEnable
  dsimp only
  rw [unread]

theorem portDisable_none (unread : readPort kind n = none) : Machine.portDisable [kind, n] s = (.badValue, [], s) := by
  unfold Machine.portDisable
  dsimp only
  rw [unread]

theorem portBind_none (unread : readPort kind n = none ∨ readBinding x = none) :
    Machine.portBind [kind, n, x] s = (.badValue, [], s) := by
  unfold Machine.portBind
  dsimp only
  obtain unread | unread := unread
  · rw [unread]
  · rw [unread]
    cases readPort kind n with
    | none => rfl
    | some port => cases port <;> rfl

theorem portQuery_none (unread : readPort kind n = none ∨ readFlag x = none) :
    Machine.portQuery [kind, n, x] s = (.badValue, [], s) := by
  unfold Machine.portQuery
  dsimp only
  obtain unread | unread := unread
  · rw [unread]
  · rw [unread]
    cases readPort kind n with
    | none => rfl
    | some port => cases port <;> rfl

theorem portEnable_capture {k : CaptureId} (number : k.val = n.toNat) : Machine.portEnable [0#8, n] s =
    (.ok, u32 (s.capture k).enable.fifo.length,
      (s.setCapture k (s.capture k).enable).reportBound (s.capture k).binding) := by
  unfold Machine.portEnable
  dsimp only
  rw [readPort_capture number]

theorem portEnable_playout {k : PlayoutId} (number : k.val = n.toNat) : Machine.portEnable [1#8, n] s =
    (.ok, u32 (s.playout k).fifo.length, s.setPlayout k { s.playout k with enabled := true }) := by
  unfold Machine.portEnable
  dsimp only
  rw [readPort_playout number]
  rfl

theorem portDisable_capture {k : CaptureId} (number : k.val = n.toNat) : Machine.portDisable [0#8, n] s =
    (.ok, u32 (s.capture k).fifo.length, s.setCapture k { s.capture k with enabled := false }) := by
  unfold Machine.portDisable
  dsimp only
  rw [readPort_capture number]

theorem portDisable_playout {k : PlayoutId} (number : k.val = n.toNat) : Machine.portDisable [1#8, n] s =
    (.ok, u32 (s.playout k).fifo.length, s.setPlayout k { s.playout k with enabled := false }) := by
  unfold Machine.portDisable
  dsimp only
  rw [readPort_playout number]

theorem portQuery_capture {k : CaptureId} (number : k.val = n.toNat) {clear : Bool} (flag : readFlag x = some clear) :
    Machine.portQuery [0#8, n, x] s =
      (.ok, (s.capture k).report, if clear = true then s.setCapture k (s.capture k).cleared else s) := by
  unfold Machine.portQuery
  dsimp only
  rw [readPort_capture number, flag]

theorem portQuery_playout {k : PlayoutId} (number : k.val = n.toNat) {clear : Bool} (flag : readFlag x = some clear) :
    Machine.portQuery [1#8, n, x] s =
      (.ok, (s.playout k).report, if clear = true then s.setPlayout k (s.playout k).cleared else s) := by
  unfold Machine.portQuery
  dsimp only
  rw [readPort_playout number, flag]

theorem portBind_capture {k : CaptureId} (number : k.val = n.toNat) {new : Option ChannelId}
    (binding : readBinding x = some new) : Machine.portBind [0#8, n, x] s = bindPort (.capture k) (s.capture k).binding new
      (fun t => t.setCapture k { t.capture k with binding := new }) s := by
  unfold Machine.portBind
  dsimp only
  rw [readPort_capture number, binding]

theorem portBind_playout {k : PlayoutId} (number : k.val = n.toNat) {new : Option ChannelId}
    (binding : readBinding x = some new) : Machine.portBind [1#8, n, x] s = bindPort (.playout k) (s.playout k).binding new
      (fun t => t.setPlayout k { t.playout k with binding := new }) s := by
  unfold Machine.portBind
  dsimp only
  rw [readPort_playout number, binding]

end

/-! ## The binding that moves (R141) -/

section
variable {s : State} {port : PortName} {bound new : Option ChannelId} {move : State → State}

theorem bindPort_same (same : bound = new) : bindPort port bound new move s = (.ok, ownerByte bound, s) := if_pos same

theorem bindPort_inUse (other : bound ≠ new) (needed : s.portInUse port bound = true) :
    bindPort port bound new move s = (.inUse, [], s) := (if_neg other).trans (if_pos needed)

theorem bindPort_moved (other : bound ≠ new) (free : ¬ s.portInUse port bound = true) :
    bindPort port bound new move s = (.ok, ownerByte bound, move s) := (if_neg other).trans (if_neg free)

theorem channelNames_iff {named : Descriptor → Prop} (names : ∀ d, d.names port = true ↔ named d) (x : Channel) :
    x.names port = true ↔ (∃ cur, x.current = some cur ∧ named cur.desc) ∨ ∃ d ∈ x.pending, named d := by
  obtain ⟨_, current, _, _, _, _⟩ := x
  cases current <;> simp [Channel.names, names]

theorem portInUse_iff {named : Descriptor → Prop} (names : ∀ d, d.names port = true ↔ named d) :
    s.portInUse port bound = true ↔ ∃ c, bound = some c ∧
      ((∃ cur, (s.channel c).current = some cur ∧ named cur.desc) ∨ ∃ d ∈ (s.channel c).pending, named d) := by
  cases bound with
  | none => simp [State.portInUse]
  | some c => exact (channelNames_iff names _).trans (by simp)

end

/-! ## The obligation -/

theorem setCapture_capture_self (s : State) (k : CaptureId) : s.setCapture k (s.capture k) = s := by
  unfold State.setCapture State.capture
  rw [setAt_getAt]

theorem captureReport_eq (p : CapturePort) : p.report = flagByte p.enabled ++ (match p.binding with
    | none => [0#8, 0#8]
    | some c => [1#8] ++ u8 c.val) ++ u32 p.fifo.length ++ u16 p.overflowCount ++ flagByte p.armed := by
  unfold CapturePort.report
  rw [bindingReport_eq]

theorem playoutReport_eq (p : PlayoutPort) : p.report = flagByte p.enabled ++ (match p.binding with
    | none => [0#8, 0#8]
    | some c => [1#8] ++ u8 c.val) ++ u32 p.fifo.length ++ u8 p.reservations.length ++
      u8 (p.reservations.countP fun r => r.data.isSome) ++ u32 (256 - p.fifo.length - 32 * p.reservations.length) ++
      u16 p.lastWord.toNat ++ u16 p.underrunCount ++ flagByte p.armed := by
  unfold PlayoutPort.report
  rw [bindingReport_eq]
  rfl

theorem capture_enable_of_enabled {p : CapturePort} (enabled : p.enabled = true) : p.enable = p := if_pos enabled

theorem capture_enable_of_disabled {p : CapturePort} (disabled : p.enabled = false) :
    p.enable = { p with enabled := true, fifo := [] } := if_neg (by rw [disabled]; decide)

section
variable {s : State} {tag n : Byte} (serving : s.serving = true)
include serving

theorem exec_portEnable_capture {k : CaptureId} (number : k.val = n.toNat) (taken : s.takes 0x28#8 tag [0#8, n] = true) :
    exec (.portEnable tag [0#8, n]) s = .next (((s.setCapture k (s.capture k).enable).reportBound
      (s.capture k).binding).answered 0x28#8 tag .ok (u32 (s.capture k).enable.fifo.length)) := by
  have reply := portEnable_capture (s.working 0x28#8 tag) number
  rw [exec_portEnable serving taken (t := (s.setCapture k (s.capture k).enable).reportBound (s.capture k).binding)
    (reply.trans (Prod.ext rfl (Prod.ext rfl (reportBound_setLink _ _ (s.setCapture k (s.capture k).enable)))))]
  rw [State.answered, reportBound_link]
  rfl

/-- PORT_BIND by its port's record: the old binding, what needs it, and the move. -/
theorem exec_portBind_of_bindPort {kind b : Byte} {port : PortName} {bound new : Option ChannelId} {move : State → State}
    {after : State} {named : Descriptor → Prop} (taken : s.takes 0x2A#8 tag [kind, n, b] = true)
    (binds : Machine.portBind [kind, n, b] (s.working 0x2A#8 tag) = bindPort port bound new move (s.working 0x2A#8 tag))
    (moves : move (s.working 0x2A#8 tag) = after.setLink (s.working 0x2A#8 tag).link) (link : after.link = s.link)
    (names : ∀ d, d.names port = true ↔ named d) {old : List Byte} (oldIs : old = ownerByte bound) {needed : Prop}
    (neededIs : needed ↔ ∃ c, bound = some c ∧
      ((∃ cur, (s.channel c).current = some cur ∧ named cur.desc) ∨ ∃ d ∈ (s.channel c).pending, named d)) :
    (bound = new → exec (.portBind tag [kind, n, b]) s = .next (s.answered 0x2A#8 tag .ok old)) ∧
    (bound ≠ new → needed → exec (.portBind tag [kind, n, b]) s = .next (s.answered 0x2A#8 tag .inUse [])) ∧
    (bound ≠ new → ¬ needed → exec (.portBind tag [kind, n, b]) s = .next (after.answered 0x2A#8 tag .ok old)) := by
  subst oldIs
  have inUse : (s.working 0x2A#8 tag).portInUse port bound = true ↔ needed := (portInUse_iff names).trans neededIs.symm
  refine ⟨fun same => ?_, fun other is => ?_, fun other free => ?_⟩
  · exact exec_portBind (t := s) serving taken (binds.trans (bindPort_same same))
  · exact exec_portBind (t := s) serving taken (binds.trans (bindPort_inUse other (inUse.mpr is)))
  · rw [State.answered, link]
    exact exec_portBind serving taken (binds.trans ((bindPort_moved other (free ∘ inUse.mp)).trans (by rw [moves])))

end

/-- Settles O54: each request by its port. -/
theorem portRequests : Obligations.PortRequests := by
  refine ⟨?unknown, ?capture, ?playout, ?bind⟩
  case unknown =>
    intro tag kind n s x bad serving
    have unread := readPort_none bad
    exact ⟨fun taken => exec_portEnable (t := s) serving taken (portEnable_none _ unread),
      fun taken => exec_portDisable (t := s) serving taken (portDisable_none _ unread),
      fun taken => exec_portBind (t := s) serving taken (portBind_none _ (.inl unread)),
      fun taken => exec_portQuery (t := s) serving taken (portQuery_none _ (.inl unread))⟩
  case capture =>
    rintro tag n s k p number rfl serving
    refine ⟨fun taken => ⟨fun enabled => ?_, fun disabled => ?_⟩, fun taken => exec_portDisable serving taken
      (t := s.setCapture k { s.capture k with enabled := false }) (portDisable_capture _ number), fun b taken =>
        ⟨(s.capture k).report, captureReport_eq _, ?_, ?_, fun beyond => exec_portQuery (t := s) serving taken
          (portQuery_none _ (.inr (readFlag_of_one_lt beyond)))⟩⟩
    · rw [exec_portEnable_capture serving number taken, capture_enable_of_enabled enabled, setCapture_capture_self]
    · rw [exec_portEnable_capture serving number taken, capture_enable_of_disabled disabled]
      rfl
    · rintro rfl
      exact exec_portQuery (t := s) serving taken (portQuery_capture _ number (clear := false) rfl)
    · rintro rfl
      exact exec_portQuery (t := s.setCapture k { s.capture k with overflowCount := 0, armed := true }) serving taken
        (portQuery_capture _ number (clear := true) rfl)
  case playout =>
    rintro tag n s k p number rfl serving
    refine ⟨fun taken => exec_portEnable serving taken (t := s.setPlayout k { s.playout k with enabled := true })
      (portEnable_playout _ number), fun taken => exec_portDisable serving taken
        (t := s.setPlayout k { s.playout k with enabled := false }) (portDisable_playout _ number), fun b taken =>
        ⟨(s.playout k).report, playoutReport_eq _, ?_, ?_, fun beyond => exec_portQuery (t := s) serving taken
          (portQuery_none _ (.inr (readFlag_of_one_lt beyond)))⟩⟩
    · rintro rfl
      exact exec_portQuery (t := s) serving taken (portQuery_playout _ number (clear := false) rfl)
    · rintro rfl
      exact exec_portQuery (t := s.setPlayout k { s.playout k with underrunCount := 0, armed := true }) serving taken
        (portQuery_playout _ number (clear := true) rfl)
  case bind =>
    intro tag kind n b s taken serving
    refine ⟨fun ⟨beyond, notNone⟩ => exec_portBind (t := s) serving taken
      (portBind_none _ (.inr (readBinding_none beyond notNone))), fun new newIs bound named after port old needed oldIs neededIs => ?_⟩
    have binding : readBinding b = some new := by
      cases new with
      | none => exact if_pos newIs
      | some c => exact readBinding_some newIs
    have oldIs' : old = ownerByte bound := oldIs.trans (ownerByte_eq bound).symm
    obtain ⟨k, rfl, number, rfl, namedIs, rfl⟩ | ⟨k, rfl, number, rfl, namedIs, rfl⟩ := port
    · exact exec_portBind_of_bindPort (after := s.setCapture k { s.capture k with binding := new }) serving taken
        (portBind_capture _ number binding) rfl rfl
        (fun d => decide_eq_true_iff.trans (namedIs d).symm) oldIs' neededIs
    · exact exec_portBind_of_bindPort (after := s.setPlayout k { s.playout k with binding := new }) serving taken
        (portBind_playout _ number binding) rfl rfl
        (fun d => decide_eq_true_iff.trans (namedIs d).symm) oldIs' neededIs

end Sys2Proof.Proofs


/-! # STROBE and PULL (O55) -/

namespace Sys2Proof.Proofs

open Sys2Proof.Machine Sys2Proof.Laws

theorem wordBytes_eq (w : Word16) : wordBytes w = [BitVec.ofNat 8 w.toNat, BitVec.ofNat 8 (w.toNat / 256)] := by
  unfold wordBytes lowByte highByte
  congr 1
  congr 1
  exact BitVec.eq_of_toNat_eq (by simp [Nat.shiftRight_eq_div_pow])

theorem exec_strobe (k : CaptureId) (w : Word16) (s : State) : exec (.strobe k w) s =
    .next (((s.setCapture k ((s.capture k).strobed w)).postOverflow k (s.capture k)).reportBound (s.capture k).binding) :=
  rfl

theorem exec_pull (k : PlayoutId) (s : State) : exec (.pull k) s =
    .next (((s.setPlayout k (s.playout k).pulled).postUnderrun k (s.playout k)).reportBound (s.playout k).binding) := rfl

/-! ## A strobe (R130, R131) -/

section
variable {p : CapturePort} {w : Word16}

theorem strobed_of_disabled (disabled : p.enabled = false) : p.strobed w = p ∧ p.overflows = false := by
  simp [CapturePort.strobed, CapturePort.overflows, disabled]

theorem strobed_of_room (enabled : p.enabled = true) (room : p.fifo.length < 256) :
    p.strobed w = { p with fifo := p.fifo ++ wordBytes w } ∧ p.overflows = false := by
  simp [CapturePort.strobed, CapturePort.overflows, enabled, Config.fifoBytes, room, Nat.not_le.mpr room]

theorem strobed_of_full (enabled : p.enabled = true) (full : 256 ≤ p.fifo.length) :
    p.strobed w = { p with overflowCount := satAdd 65535 1 p.overflowCount, armed := false } ∧ p.overflows = true := by
  simp [CapturePort.strobed, CapturePort.overflows, enabled, Config.fifoBytes, Config.max16, full, Nat.not_lt.mpr full]

end

theorem capture_setCapture_self (s : State) (k : CaptureId) (p : CapturePort) : (s.setCapture k p).capture k = p :=
  getAt_setAt_self ..



theorem postOverflow_of_kept {s : State} {k : CaptureId} {before : CapturePort} (kept : before.overflows = false) :
    s.postOverflow k before = s := by
  unfold State.postOverflow
  rw [kept]
  rfl

theorem postOverflow_of_lost {s : State} {k : CaptureId} {before : CapturePort} (lost : before.overflows = true) :
    s.postOverflow k before = s.setNotices (if before.armed = true then
      s.notices.post (.portOverflow k (s.capture k).overflowCount) else s.notices) := by
  unfold State.postOverflow
  rw [lost, Bool.true_and]
  exact (apply_ite s.setNotices ..).symm

/-! ## A pull (R137, R138) -/

section
variable {p : PlayoutPort}

theorem pulled_of_disabled (disabled : p.enabled = false) : p.pulled = { p with outputs := 0 } ∧ p.underruns = false := by
  simp [PlayoutPort.pulled, PlayoutPort.underruns, disabled]

theorem pulled_of_word {lo hi : Byte} {rest : List Byte} (enabled : p.enabled = true) (fifo : p.fifo = lo :: hi :: rest) :
    p.pulled = { p with fifo := rest, lastWord := hi ++ lo, outputs := hi ++ lo } ∧ p.underruns = false := by
  simp [PlayoutPort.pulled, PlayoutPort.underruns, enabled, fifo, word16]

theorem pulled_of_empty (enabled : p.enabled = true) (fifo : p.fifo = []) :
    p.pulled = { p with outputs := p.lastWord, underrunCount := satAdd 65535 1 p.underrunCount, armed := false } ∧
      p.underruns = true := by
  simp [PlayoutPort.pulled, PlayoutPort.underruns, enabled, fifo, Config.max16]

end

theorem postUnderrun_of_kept {s : State} {k : PlayoutId} {before : PlayoutPort} (kept : before.underruns = false) :
    s.postUnderrun k before = s := by
  unfold State.postUnderrun
  rw [kept]
  rfl

theorem postUnderrun_of_lost {s : State} {k : PlayoutId} {before : PlayoutPort} (lost : before.underruns = true) :
    s.postUnderrun k before = s.setNotices (if before.armed = true then
      s.notices.post (.portUnderrun k (s.playout k).underrunCount) else s.notices) := by
  unfold State.postUnderrun
  rw [lost, Bool.true_and]
  exact (apply_ite s.setNotices ..).symm

/-- Settles O55: by whether the port is enabled, and by its FIFO. -/
theorem strobeAndPull : Obligations.StrobeAndPull := by
  refine ⟨?strobe, ?pull⟩
  case strobe =>
    rintro s k w p rfl out outIs
    refine ⟨fun disabled => ?_, fun enabled room => ?_, fun enabled full => ?_⟩
    · obtain ⟨same, kept⟩ := strobed_of_disabled (w := w) disabled
      rw [outIs, exec_strobe, same, postOverflow_of_kept kept, setCapture_capture_self]
    · obtain ⟨taken, kept⟩ := strobed_of_room (w := w) enabled room
      rw [outIs, exec_strobe, taken, postOverflow_of_kept kept, wordBytes_eq]
    · obtain ⟨counted, lost⟩ := strobed_of_full (w := w) enabled full
      rw [outIs, exec_strobe, counted, postOverflow_of_lost lost, capture_setCapture_self]
      rfl
  case pull =>
    rintro s k p rfl out outIs
    refine ⟨fun disabled => ?_, fun lo hi rest enabled fifo => ?_, fun enabled fifo => ?_⟩
    · obtain ⟨driven, kept⟩ := pulled_of_disabled disabled
      rw [outIs, exec_pull, driven, postUnderrun_of_kept kept]
    · obtain ⟨driven, kept⟩ := pulled_of_word enabled fifo
      rw [outIs, exec_pull, driven, postUnderrun_of_kept kept]
    · obtain ⟨driven, lost⟩ := pulled_of_empty enabled fifo
      rw [outIs, exec_pull, driven, postUnderrun_of_lost lost, playout_setPlayout_self]
      rfl

end Sys2Proof.Proofs


/-! # The LAU's requests (O56): the checks of service start -/

namespace Sys2Proof.Proofs

open Sys2Proof.Machine Sys2Proof.Laws

/-! ## The checks, by the region's record (R145) -/

section
variable {r : LauRequest} {s : State}

theorem lauCheck_of_free (free : (s.region r.region).record = none) : lauCheck r s = some .noRegion := by
  unfold lauCheck
  rw [free]

theorem lauCheck_of_linear {d : RegionRecord} (record : (s.region r.region).record = some d) (linear : d.kind = .linear) :
    lauCheck r s = lauLinearCheck r.op d := by
  unfold lauCheck
  rw [record]
  dsimp only
  rw [linear]

theorem lauCheck_of_ring {d : RegionRecord} {g : Ring} (record : (s.region r.region).record = some d)
    (ring : d.kind = .ring g) : lauCheck r s = lauRingCheck r.op d g := by
  unfold lauCheck
  rw [record]
  dsimp only
  rw [ring]

end

section
variable {d : RegionRecord} {off n : Nat} {data : List Byte}

theorem lauLinearCheck_put : lauLinearCheck (.put off data) d =
    if d.linkWrite = false then some .protected_
    else if d.length < off + data.length then some .outOfBounds else none := by
  cases link : d.linkWrite <;> simp [lauLinearCheck, link]

theorem lauLinearCheck_get :
    lauLinearCheck (.get off n) d = if d.length < off + n then some .outOfBounds else none := rfl

theorem lauRingCheck_append {g : Ring} : lauRingCheck (.append data) d g =
    if d.linkWrite = false then some .protected_
    else if g.writerClaim ≠ none then some .regionBusy
    else if g.policy = .stop ∧ g.space d.length < data.length then some .ringFull else none := by
  cases link : d.linkWrite <;> simp [lauRingCheck, link, Option.isSome_iff_ne_none]

theorem lauRingCheck_take {g : Ring} :
    lauRingCheck (.take n) d g = if g.readerClaim ≠ none then some .regionBusy else none := by
  simp [lauRingCheck, Option.isSome_iff_ne_none]

end

/-- The checks of service start, stated of any request. -/
theorem lauChecks (r : LauRequest) (s : State) :
    ((s.region r.region).record = none → lauCheck r s = some .noRegion) ∧
    (∀ d, (s.region r.region).record = some d → d.kind = .linear →
      (∀ off data, r.op = .put off data → (d.linkWrite = false → lauCheck r s = some .protected_) ∧
        (d.linkWrite = true → d.length < off + data.length → lauCheck r s = some .outOfBounds) ∧
        (d.linkWrite = true → off + data.length ≤ d.length → lauCheck r s = none)) ∧
      (∀ off n, r.op = .get off n → (d.length < off + n → lauCheck r s = some .outOfBounds) ∧
        (off + n ≤ d.length → lauCheck r s = none)) ∧
      ((∃ data, r.op = .append data) ∨ (∃ n, r.op = .take n) → lauCheck r s = some .badValue)) ∧
    (∀ d g, (s.region r.region).record = some d → d.kind = .ring g →
      ((∃ off data, r.op = .put off data) ∨ (∃ off n, r.op = .get off n) → lauCheck r s = some .badValue) ∧
      (∀ data, r.op = .append data → (d.linkWrite = false → lauCheck r s = some .protected_) ∧
        (d.linkWrite = true → g.writerClaim ≠ none → lauCheck r s = some .regionBusy) ∧
        (d.linkWrite = true → g.writerClaim = none →
          (g.policy = .stop → g.space d.length < data.length → lauCheck r s = some .ringFull) ∧
          (g.policy = .overwrite ∨ data.length ≤ g.space d.length → lauCheck r s = none))) ∧
      (∀ n, r.op = .take n → (g.readerClaim ≠ none → lauCheck r s = some .regionBusy) ∧
        (g.readerClaim = none → lauCheck r s = none))) := by
  refine ⟨lauCheck_of_free, fun d record linear => ?linear, fun d g record ring => ?ring⟩
  case linear =>
    rw [lauCheck_of_linear record linear]
    refine ⟨fun off data op => ?_, fun off n op => ?_, ?_⟩
    · rw [op, lauLinearCheck_put]
      refine ⟨fun refuses => if_pos refuses, fun allows beyond => ?_, fun allows inside => ?_⟩
      · rw [if_neg (by rw [allows]; decide), if_pos beyond]
      · rw [if_neg (by rw [allows]; decide), if_neg (Nat.not_lt.mpr inside)]
    · rw [op, lauLinearCheck_get]
      exact ⟨fun beyond => if_pos beyond, fun inside => if_neg (Nat.not_lt.mpr inside)⟩
    · rintro (⟨data, op⟩ | ⟨n, op⟩) <;> rw [op] <;> rfl
  case ring =>
    rw [lauCheck_of_ring record ring]
    refine ⟨?_, fun data op => ?_, fun n op => ?_⟩
    · rintro (⟨off, data, op⟩ | ⟨off, n, op⟩) <;> rw [op] <;> rfl
    · rw [op, lauRingCheck_append]
      refine ⟨fun refuses => if_pos refuses, fun allows claimed => ?_, fun allows free => ⟨fun stop full => ?_, fun room => ?_⟩⟩
      · rw [if_neg (by rw [allows]; decide), if_pos claimed]
      · rw [if_neg (by rw [allows]; decide), if_neg (not_not.mpr free), if_pos ⟨stop, full⟩]
      · rw [if_neg (by rw [allows]; decide), if_neg (not_not.mpr free), if_neg]
        rintro ⟨stop, full⟩
        obtain overwrite | fits := room
        · rw [stop] at overwrite
          cases overwrite
        · exact absurd full (Nat.not_lt.mpr fits)
    · rw [op, lauRingCheck_take]
      exact ⟨fun claimed => if_pos claimed, fun free => if_neg (not_not.mpr free)⟩

end Sys2Proof.Proofs


/-! # The LAU's requests (O56): acceptance and service start -/

namespace Sys2Proof.Proofs

open Sys2Proof.Machine Sys2Proof.Laws

/-! ## The frames (R183) -/

/-- A request of the LAU by its frame: the code, the payload with its fields, and the operation. -/
def LauFrame (rb : Byte) (off n : Nat) (data : List Byte) (kind : Byte) (p : List Byte) (op : LauOp) : Prop :=
  (kind = 0x30#8 ∧ p = [rb] ++ u32 off ++ u16 n ++ data ∧ op = .put off data ∧ data.length = n) ∨
  (kind = 0x31#8 ∧ p = [rb] ++ u32 off ++ u16 n ∧ op = .get off n) ∨
  (kind = 0x32#8 ∧ p = [rb] ++ u16 n ++ data ∧ op = .append data ∧ data.length = n) ∨
  (kind = 0x33#8 ∧ p = [rb] ++ u16 n ∧ op = .take n)

/-- The offset that acceptance checks: PUT's and GET's. -/
def checkedOffset (op : LauOp) : Option Nat :=
  match op with
  | .put off _ => some off
  | .get off _ => some off
  | .append _ => none
  | .take _ => none

section
variable {rb : Byte} {off n : Nat} {data : List Byte} (offFits : off < 4294967296) (nFits : n < 65536)
include nFits

theorem readPut_payload (offFits : off < 4294967296) :
    readPut ([rb] ++ u32 off ++ u16 n ++ data) = some (rb.toNat, off, n, data) := by
  show some (rb.toNat, nat32 _ _ _ _, nat16 _ _, data) = _
  rw [nat32_u32 offFits, nat16_u16 nFits]

theorem readGet_payload (offFits : off < 4294967296) :
    readGet ([rb] ++ u32 off ++ u16 n) = some (rb.toNat, off, n) := by
  show some (rb.toNat, nat32 _ _ _ _, nat16 _ _) = _
  rw [nat32_u32 offFits, nat16_u16 nFits]

theorem readAppend_payload : readAppend ([rb] ++ u16 n ++ data) = some (rb.toNat, n, data) := by
  show some (rb.toNat, nat16 _ _, data) = _
  rw [nat16_u16 nFits]

theorem readTake_payload : readTake ([rb] ++ u16 n) = some (rb.toNat, n) := by
  show some (rb.toNat, nat16 _ _) = _
  rw [nat16_u16 nFits]

end

section
variable {s : State} {kind tag : Byte} {p : List Byte} (taken : s.takes kind tag p = true) (serving : s.serving = true)
include taken serving

/-- A request refused in FAILED and else its owner's, in a part that serves. -/
theorem accept_serving {lenOk : Bool} (good : lenOk = true) (g : Gate) (own : State → State) :
    (s.received.accept kind tag lenOk g fun t => t.unlessFailed tag own) = own (s.working kind tag) := by
  rw [accept_works _ taken good (gate_ready serving g)]
  exact unlessFailed_serving (s := s) (t := s.working kind tag) serving rfl tag own

/-- A request of the LAU that passes the dispatch comes to acceptance. -/
theorem exec_lau {i : Instr} {rb : Byte} {off n : Nat} {data : List Byte} {op : LauOp} (offFits : off < 4294967296)
    (nFits : n < 65536) (wellFormed : i.wellFormed = true) (frame : i.frame? = some (kind, tag, p))
    (fields : LauFrame rb off n data kind p op) :
    exec i s = .next ((s.working kind tag).lauTake tag rb.toNat n (checkedOffset op) op) := by
  rw [exec_of_takes wellFormed frame taken]
  obtain ⟨rfl, rfl, rfl, len⟩ | ⟨rfl, rfl, rfl⟩ | ⟨rfl, rfl, rfl, len⟩ | ⟨rfl, rfl, rfl⟩ := fields
  · have read := readPut_payload (rb := rb) (data := data) nFits offFits
    have good : putLengthOk ([rb] ++ u32 off ++ u16 n ++ data) = true := by
      unfold putLengthOk
      rw [read]
      exact decide_eq_true len
    refine congrArg Host.Outcome.next ((accept_serving taken serving good .whenReady _).trans ?_)
    unfold lauPut
    rw [read]
    rfl
  · have read := readGet_payload (rb := rb) nFits offFits
    refine congrArg Host.Outcome.next ((accept_serving taken serving (decide_eq_true rfl) .whenReady _).trans ?_)
    unfold lauGet
    rw [read]
    rfl
  · have read := readAppend_payload (rb := rb) (data := data) nFits
    have good : appendLengthOk ([rb] ++ u16 n ++ data) = true := by
      unfold appendLengthOk
      rw [read]
      exact decide_eq_true len
    refine congrArg Host.Outcome.next ((accept_serving taken serving good .whenReady _).trans ?_)
    unfold lauAppend
    rw [read]
    rfl
  · have read := readTake_payload (rb := rb) nFits
    refine congrArg Host.Outcome.next ((accept_serving taken serving (decide_eq_true rfl) .whenReady _).trans ?_)
    unfold lauTakeRequest
    rw [read]
    rfl

end

/-! ## Acceptance (R144) -/

theorem lauAcceptance_eq (region length : Nat) (offset : Option Nat) : lauAcceptance region length offset =
    if 16 ≤ region then some .badValue
    else if length < 32 ∨ 256 < length ∨ length % 32 ≠ 0 then some .badValue
    else if offset.getD 0 % 32 ≠ 0 then some .alignment else none := by
  unfold lauAcceptance
  simp only [Bool.or_eq_true, decide_eq_true_iff, or_assoc]

section
variable {s : State} {kind tag rb : Byte} {n : Nat} {op : LauOp}

theorem lauTake_of_refused {p : List Byte} (taken : s.takes kind tag p = true) {offset : Option Nat} {st : Status}
    (refused : lauAcceptance rb.toNat n offset = some st) :
    (s.working kind tag).lauTake tag rb.toNat n offset op = s.answered kind tag st [] := by
  unfold State.lauTake
  rw [refused]
  cases idx? 16 rb.toNat <;> exact handOver_working (takes_iff taken).2.1 rfl st []

theorem lauTake_of_accepted {t : State} {r : RegionId} (number : r.val = rb.toNat) {offset : Option Nat}
    (accepted : lauAcceptance rb.toNat n offset = none) :
    t.lauTake tag rb.toNat n offset op = (t.lauEnqueue { tag := tag, region := r, op := op }).report := by
  unfold State.lauTake
  rw [accepted, ← number, idx_val]

end

/-! ## Service start (R145) -/

section
variable {s : State} {kind tag : Byte} {r : LauRequest}

theorem lauEnqueue_of_busy {t : State} (busy : t.lau.service ≠ none) :
    t.lauEnqueue r = t.setLau { t.lau with queue := t.lau.queue ++ [r] } := by
  unfold State.lauEnqueue
  cases service : t.lau.service with
  | none => exact absurd service busy
  | some sv => rfl

theorem lauEnqueue_of_idle {t : State} (idle : t.lau.service = none) (empty : t.lau.queue = []) :
    t.lauEnqueue r = State.serveQueue [r] t := by
  unfold State.lauEnqueue
  rw [idle, empty]
  rfl

theorem setLau_queue_self {t : State} (empty : t.lau.queue = []) : t.setLau { t.lau with queue := [] } = t := by
  rw [← empty]
  rfl

/-- A request that fails a check of service start, none before it: answered at once. -/
theorem lauEnqueue_refused {p : List Byte} (taken : s.takes kind tag p = true) (tagIs : r.tag = tag) {st : Status}
    (idle : s.lau.service = none) (empty : s.lau.queue = []) (refused : lauCheck r s = some st) :
    ((s.working kind tag).lauEnqueue r).report = (s.answered kind tag st []).reportAll := by
  have answered : (s.working kind tag).handOver r.tag st [] = s.answered kind tag st [] := by
    rw [tagIs]
    exact handOver_working (takes_iff taken).2.1 rfl st []
  have serves : (s.working kind tag).lauEnqueue r = s.answered kind tag st [] := by
    rw [lauEnqueue_of_idle (t := s.working kind tag) idle empty,
      serveQueue_refused (s := s.working kind tag) (st := st) refused,
      setLau_queue_self (t := s.working kind tag) empty, answered]
    exact setLau_queue_self (t := s.answered kind tag st []) empty
  rw [serves, report_of_idle (s := s.answered kind tag st []) idle]

/-- Service start beside the link. -/
theorem beginsWith_working {u : State} {d : RegionRecord} {total : Nat} {claim : Option Role}
    (how : BeginsWith r d total claim s u) : BeginsWith r d total claim (s.working kind tag) (u.working kind tag) := by
  obtain ⟨off, data, op, all, none_, rfl⟩ | ⟨off, n, op, all, none_, rfl⟩ | ⟨data, g, op, ring, all, claims, rfl⟩ |
    ⟨n, g, op, ring, all, claims, rfl⟩ := how
  · exact .inl ⟨off, data, op, all, none_, rfl⟩
  · exact .inr (.inl ⟨off, n, op, all, none_, rfl⟩)
  · exact .inr (.inr (.inl ⟨data, g, op, ring, all, claims, rfl⟩))
  · exact .inr (.inr (.inr ⟨n, g, op, ring, all, claims, rfl⟩))

/-- A request that passes them with bytes to move, none before it: its service starts. -/
theorem lauEnqueue_serves {u : State} {d : RegionRecord} {total : Nat} {claim : Option Role}
    (idle : s.lau.service = none) (empty : s.lau.queue = []) (passes : lauCheck r s = none)
    (record : (s.region r.region).record = some d) (how : BeginsWith r d total claim s u) (some_ : total ≠ 0)
    (whole : (∀ n, r.op ≠ .take n) ∨ ∀ x g, u.ring? r.region = some (x, g) → 32 ≤ g.committedFill) :
    ((s.working kind tag).lauEnqueue r).report =
      ((u.working kind tag).setLau (freshLau [] (freshService r d total claim))).reportAll := by
  have how' : BeginsWith r d total claim
      ((s.working kind tag).setLau { (s.working kind tag).lau with queue := [] }) (u.working kind tag) := by
    rw [setLau_queue_self (t := s.working kind tag) empty]
    exact beginsWith_working how
  rw [lauEnqueue_of_idle (t := s.working kind tag) idle empty,
    serveQueue_begins (s := s.working kind tag) passes record how', if_neg some_]
  unfold State.report
  rw [lauShorten_of_whole rfl (whole.imp_right .inr)]

/-- The LAU's claim taken for a TAKE and given up at once: the ring is as it was. -/
theorem claimReleased_emptyTake {d : RegionRecord} {g : Ring} {total : Nat} (record : (s.region r.region).record = some d)
    (kindIs : d.kind = .ring g) (free : g.readerClaim = none) (unwanted : g.readerWaiters = []) :
    claimReleased (freshService r d total (some .reader))
      (((s.setRing r.region { g with readerClaim := some .lau }).working kind tag).setLau
        (freshLau [] (freshService r d total (some .reader)))) =
      (s.working kind tag).setLau (freshLau [] (freshService r d total (some .reader))) := by
  have ring : s.ring? r.region = some (d, g) := ring_eq record kindIs
  have ring' := ring_setRing_self ring { g with readerClaim := some .lau }
  have back : ({ g with readerClaim := some .lau } : Ring).setHolder .reader none = g := by
    show ({ g with readerClaim := none } : Ring) = g
    rw [← free]
  have restored : (s.setRing r.region { g with readerClaim := some .lau }).setRing r.region g = s := by
    rw [setRing_setRing, setRing_self ring]
  rw [claimReleased_of_some rfl]
  refine (releaseClaim_of_no_waiter (s := ((s.setRing r.region { g with readerClaim := some .lau }).working kind tag).setLau
    (freshLau [] (freshService r d total (some .reader)))) (role := .reader) ring' unwanted).trans ?_
  rw [back]
  exact congrArg (fun u : State => (u.setLink (s.working kind tag).link).setLau
    (freshLau [] (freshService r d total (some .reader)))) restored

/-- A TAKE of an empty ring that no one waits for: answered OK at once (R150). -/
theorem lauEnqueue_empty {p : List Byte} (taken : s.takes kind tag p = true) (tagIs : r.tag = tag) {d : RegionRecord}
    {g : Ring} {n : Nat} (op : r.op = .take n) (idle : s.lau.service = none) (empty : s.lau.queue = [])
    (buffer : s.lau.buffer = Vector.replicate 8 none) (record : (s.region r.region).record = some d)
    (kindIs : d.kind = .ring g) (free : g.readerClaim = none) (nothing : g.committedFill = 0)
    (unwanted : g.readerWaiters = []) :
    ((s.working kind tag).lauEnqueue r).report = (s.answered kind tag .ok []).reportAll := by
  have passes : lauCheck r s = none := by
    rw [lauCheck_of_ring record kindIs, op, lauRingCheck_take, if_neg (not_not.mpr free)]
  have how : BeginsWith r d 0 (some .reader) ((s.working kind tag).setLau { (s.working kind tag).lau with queue := [] })
      ((s.setRing r.region { g with readerClaim := some .lau }).working kind tag) := by
    rw [setLau_queue_self (t := s.working kind tag) empty]
    exact beginsWith_working (.inr (.inr (.inr ⟨n, g, op, kindIs, by rw [nothing, Nat.min_zero], rfl, rfl⟩)))
  have released := claimReleased_emptyTake (kind := kind) (tag := tag) (total := 0) record kindIs free unwanted
  have response : (freshService r d 0 (some .reader)).response (Vector.replicate 8 none) = (.ok, []) := by
    rw [response_take _ _ op]
    rfl
  have kept : ({ queue := [], service := none, buffer := Vector.replicate 8 none } : Lau) = s.lau := by
    rw [← idle, ← empty, ← buffer]
  have finished : (((s.setRing r.region { g with readerClaim := some .lau }).working kind tag).setLau
      (freshLau [] (freshService r d 0 (some .reader)))).lauFinish = s.answered kind tag .ok [] := by
    rw [lauFinish_eq (sv := freshService r d 0 (some .reader)) rfl, released]
    show ((((s.working kind tag).setLau _).handOver r.tag ((freshService r d 0 (some .reader)).response
      (Vector.replicate 8 none)).1 ((freshService r d 0 (some .reader)).response (Vector.replicate 8 none)).2).setLau
      { queue := [], service := none, buffer := Vector.replicate 8 none }) = _
    rw [response, kept, tagIs]
    exact congrArg (State.setLau s.lau) (handOver_working (t := (s.working kind tag).setLau
      (freshLau [] (freshService r d 0 (some .reader)))) (takes_iff taken).2.1 rfl .ok [])
  have serves : (s.working kind tag).lauEnqueue r = s.answered kind tag .ok [] := by
    rw [lauEnqueue_of_idle (t := s.working kind tag) idle empty,
      serveQueue_begins (s := s.working kind tag) passes record how, if_pos rfl, finished]
    exact setLau_queue_self (t := s.answered kind tag .ok []) empty
  rw [serves, report_of_idle (s := s.answered kind tag .ok []) idle]

end

end Sys2Proof.Proofs


/-! # The LAU's requests (O56): the obligation -/

namespace Sys2Proof.Proofs

open Sys2Proof.Machine Sys2Proof.Laws

section
variable {rb kind : Byte} {off n : Nat} {data p : List Byte} {op : LauOp} (fields : LauFrame rb off n data kind p op)
include fields

/-- PUT and GET. -/
theorem op_of_linear (is : kind = 0x30#8 ∨ kind = 0x31#8) :
    checkedOffset op = some off ∧ ((∃ off data, op = .put off data) ∨ ∃ off n, op = .get off n) := by
  obtain ⟨rfl, -, rfl, -⟩ | ⟨rfl, -, rfl⟩ | ⟨rfl, -⟩ | ⟨rfl, -⟩ := fields
  · exact ⟨rfl, .inl ⟨off, data, rfl⟩⟩
  · exact ⟨rfl, .inr ⟨off, n, rfl⟩⟩
  · simp at is
  · simp at is

/-- APPEND and TAKE. -/
theorem op_of_ring (is : kind = 0x32#8 ∨ kind = 0x33#8) :
    checkedOffset op = none ∧ ((∃ data, op = .append data) ∨ ∃ n, op = .take n) := by
  obtain ⟨rfl, -⟩ | ⟨rfl, -⟩ | ⟨rfl, -, rfl, -⟩ | ⟨rfl, -, rfl⟩ := fields
  · simp at is
  · simp at is
  · exact ⟨rfl, .inl ⟨data, rfl⟩⟩
  · exact ⟨rfl, .inr ⟨n, rfl⟩⟩

theorem op_of_put (is : kind = 0x30#8) : op = .put off data ∧ data.length = n := by
  obtain ⟨-, -, rfl, len⟩ | ⟨rfl, -⟩ | ⟨rfl, -⟩ | ⟨rfl, -⟩ := fields
  · exact ⟨rfl, len⟩
  · simp at is
  · simp at is
  · simp at is

theorem op_of_get (is : kind = 0x31#8) : op = .get off n := by
  obtain ⟨rfl, -⟩ | ⟨-, -, rfl⟩ | ⟨rfl, -⟩ | ⟨rfl, -⟩ := fields
  · simp at is
  · rfl
  · simp at is
  · simp at is

theorem op_of_append (is : kind = 0x32#8) : op = .append data ∧ data.length = n := by
  obtain ⟨rfl, -⟩ | ⟨rfl, -⟩ | ⟨-, -, rfl, len⟩ | ⟨rfl, -⟩ := fields
  · simp at is
  · simp at is
  · exact ⟨rfl, len⟩
  · simp at is

theorem op_of_take (is : kind = 0x33#8) : op = .take n := by
  obtain ⟨rfl, -⟩ | ⟨rfl, -⟩ | ⟨rfl, -⟩ | ⟨-, -, rfl⟩ := fields
  · simp at is
  · simp at is
  · simp at is
  · rfl

/-- The offset passes acceptance where there is none to check or it is aligned. -/
theorem offset_aligned (fits : kind = 0x32#8 ∨ kind = 0x33#8 ∨ off % 32 = 0) : (checkedOffset op).getD 0 % 32 = 0 := by
  obtain ⟨rfl, -, rfl, -⟩ | ⟨rfl, -, rfl⟩ | ⟨rfl, -, rfl, -⟩ | ⟨rfl, -, rfl⟩ := fields
  · exact fits.resolve_left (by simp) |>.resolve_left (by simp)
  · exact fits.resolve_left (by simp) |>.resolve_left (by simp)
  · rfl
  · rfl

end

/-- Settles O56: acceptance, the queue, the checks of service start, and the service that starts. -/
theorem lauRequests : Obligations.LauRequests := by
  refine ⟨lauChecks, ?_⟩
  intro tag rb kind off n data s i p op offFits nFits wellFormed frame fields taken serving
  have comes := exec_lau taken serving offFits nFits wellFormed frame fields
  have refuses : ∀ {st}, lauAcceptance rb.toNat n (checkedOffset op) = some st → exec i s = .next (s.answered kind tag st []) :=
    fun refused => by rw [comes, lauTake_of_refused taken refused]
  refine ⟨fun bad => refuses ?badValue, fun r number least most whole => ⟨fun is odd => refuses ?alignment, fun fits => ?accepted⟩⟩
  case badValue =>
    rw [lauAcceptance_eq]
    obtain beyond | bad := bad
    · exact if_pos beyond
    · rw [if_pos bad, ite_self]
  case alignment =>
    have inside : ¬ 16 ≤ rb.toNat := by omega
    have good : ¬ (n < 32 ∨ 256 < n ∨ n % 32 ≠ 0) := by omega
    rw [lauAcceptance_eq, if_neg inside, if_neg good, (op_of_linear fields is).1]
    exact if_pos odd
  case accepted =>
    have accepted : lauAcceptance rb.toNat n (checkedOffset op) = none := by
      have inside : ¬ 16 ≤ rb.toNat := by omega
      have good : ¬ (n < 32 ∨ 256 < n ∨ n % 32 ≠ 0) := by omega
      rw [lauAcceptance_eq, if_neg inside, if_neg good, if_neg (not_not.mpr (offset_aligned fields fits))]
    have enqueues : exec i s = .next ((s.working kind tag).lauEnqueue { tag := tag, region := r, op := op }).report := by
      rw [comes, lauTake_of_accepted number accepted]
    refine ⟨fun busy => ?queued, fun idle empty refused serves refusedIs servesIs => ?served⟩
    case queued =>
      rw [enqueues, lauEnqueue_of_busy (t := s.working kind tag) busy]
      rfl
    case served =>
      have answer : ∀ {st}, lauCheck { tag := tag, region := r, op := op } s = some st → refused st := fun fails =>
        (refusedIs _).mpr (by rw [enqueues, lauEnqueue_refused taken rfl idle empty fails])
      have start : ∀ {u : State} {d : RegionRecord} {total : Nat} {claim : Option Role},
          lauCheck { tag := tag, region := r, op := op } s = none → (s.region r).record = some d →
          BeginsWith { tag := tag, region := r, op := op } d total claim s u → total ≠ 0 →
          ((∀ n, op ≠ .take n) ∨ ∀ x g, u.ring? r = some (x, g) → 32 ≤ g.committedFill) → serves u d total claim :=
        fun passes record how some_ low => (servesIs ..).mpr (by
          rw [enqueues, lauEnqueue_serves idle empty passes record how some_ low]
          rfl)
      have some_ : n ≠ 0 := by omega
      obtain ⟨free, linear, ring⟩ := lauChecks { tag := tag, region := r, op := op } s
      refine ⟨fun none_ => answer (free none_), fun d record isLinear => ?linear, fun d g record isRing => ?ring⟩
      case linear =>
        obtain ⟨puts, gets, others⟩ := linear d record isLinear
        refine ⟨fun is => answer (others (op_of_ring fields is).2), fun is link => ?_, fun is => ⟨fun beyond => ?_, fun inside => ?_⟩⟩
        · exact answer ((puts off data (op_of_put fields is).1).1 link)
        · obtain ⟨is, link⟩ | is := is
          · obtain ⟨opIs, rfl⟩ := op_of_put fields is
            exact answer ((puts off data opIs).2.1 link beyond)
          · exact answer ((gets off n (op_of_get fields is)).1 beyond)
        · obtain ⟨is, link⟩ | is := is
          · obtain ⟨opIs, rfl⟩ := op_of_put fields is
            exact start ((puts off data opIs).2.2 link inside) record (.inl ⟨off, data, opIs, rfl, rfl, rfl⟩) some_
              (.inl fun m => by rw [opIs]; exact LauOp.noConfusion)
          · have opIs := op_of_get fields is
            exact start ((gets off n opIs).2 inside) record (.inr (.inl ⟨off, n, opIs, rfl, rfl, rfl⟩)) some_
              (.inl fun m => by rw [opIs]; exact LauOp.noConfusion)
      case ring =>
        obtain ⟨others, appends, takes⟩ := ring d g record isRing
        have ring? : s.ring? r = some (d, g) := ring_eq record isRing
        refine ⟨fun is => answer (others (op_of_linear fields is).2), fun is => ?append, fun is => ?take⟩
        case append =>
          obtain ⟨opIs, rfl⟩ := op_of_append fields is
          obtain ⟨protected_, claimed, room⟩ := appends data opIs
          refine ⟨fun link => answer (protected_ link), fun link held => answer (claimed link held),
            fun link none_ stop full => answer ((room link none_).1 stop full), fun link none_ fits => ?_⟩
          exact start ((room link none_).2 fits) record (.inr (.inr (.inl ⟨data, g, opIs, isRing, rfl, rfl, rfl⟩))) some_
            (.inl fun m => by rw [opIs]; exact LauOp.noConfusion)
        case take =>
          have opIs := op_of_take fields is
          obtain ⟨claimed, passes⟩ := takes n opIs
          refine ⟨fun held => answer (claimed held), fun none_ filled => ?_, fun none_ nothing unwanted buffer => ?_⟩
          · refine start (passes none_) record (.inr (.inr (.inr ⟨n, g, opIs, isRing, rfl, rfl, rfl⟩))) (by omega)
              (.inr fun x h at_ => ?_)
            rw [ring_setRing_self ring?] at at_
            cases at_
            exact filled
          · rw [refusedIs, enqueues, lauEnqueue_empty taken rfl opIs idle empty buffer record isRing none_ nothing unwanted]

end Sys2Proof.Proofs


/-! # RESTART_RESET (O26) -/

namespace Sys2Proof.Proofs

open Sys2Proof.Machine Sys2Proof.Laws

/-! ## The blocks reset (R181) -/

theorem restartedRegion_of_bare {x y : Region} (same : bareRegion y = bareRegion x) : RestartedRegion x y.restarted :=
  ⟨rfl, (congrArg Region.record same :)⟩

/-- A state that differs from `s` in claims, channels, the LAU, the arbiter, the notices and the link only, its LAU idle:
its blocks' reset is that of `s`. -/
theorem blocksReset_of_same {s u : State} (regions : ∀ r, bareRegion (u.region r) = bareRegion (s.region r))
    (sched : u.sched = s.sched) (playouts : u.playouts = s.playouts) (die : u.mem = s.mem ∧ u.wrongBits = s.wrongBits)
    (now : u.now = s.now) (queue : u.lau.queue = []) (service : u.lau.service = none) (l : Link) (q : NoticeQueue) :
    BlocksReset s ((u.resetBlocks.setLink l).setNotices q) where
  regions r := by
    rw [show ((u.resetBlocks.setLink l).setNotices q).region r = (u.region r).restarted from getAt_mapTable ..]
    exact restartedRegion_of_bare (regions r)
  sched := by
    rw [← sched]
    rfl
  check := rfl
  arb := rfl
  channels c := Vector.getElem_replicate ..
  marks m := Vector.getElem_replicate ..
  captures k := Vector.getElem_replicate ..
  playouts k := by
    rw [show s.playout k = u.playout k from congrArg (getAt · k) playouts.symm]
    exact getAt_mapTable ..
  queue := queue
  service := service
  die := by simpa only [setNotices_mem, setNotices_wrongBits, setLink_mem, setLink_wrongBits, State.resetBlocks] using die
  clock := by simpa only [setNotices_now, setLink_now, State.resetBlocks] using now

/-- The part is READY, and READY the first notice of the open queue. -/
theorem readyReturn_eq (s : State) : s.readyReturn =
    (s.setLink { s.link with readiness := .ready, restartTag := none }).setNotices
      (NoticeQueue.post (.ready .restart) { s.notices with isOpen := true }) := rfl

section
variable {s : State} {tag : Byte} {e : OutEntry} (working : s.link.working? tag = some e)
include working

theorem completeRestart_answers (kept : e.orphaned = false) :
    s.completeRestart tag = s.resetBlocks.setLink (s.link.answer e .ok []) :=
  handOver_answers (s := s.resetBlocks) working kept .ok []

/-- The orphaned entry leaves, and the part is READY again. -/
theorem completeRestart_returns (orphaned : e.orphaned = true) (restart : s.link.restartTag = some tag) :
    s.completeRestart tag = (s.resetBlocks.setLink
      { s.link.dropEntry tag with readiness := .ready, restartTag := none }).setNotices
        { held := [{ seq := 0, body := .ready .restart }], nextSeq := 1, sendPos := 0, lost := 0, isOpen := true } := by
  have leaves := handOver_orphan (s := s.resetBlocks) working orphaned .ok []
  rw [entryLeaves_of_restart (s := s.resetBlocks) restart, readyReturn_eq] at leaves
  rw [State.completeRestart, leaves]
  rfl

end

/-! ## The event -/

theorem restartDue_iff {s : State} {tag : Byte} : s.restartDue tag = true ↔
    s.link.readiness = .restarting ∧ s.sched.list = [] ∧ s.link.working? tag ≠ none := by
  simp [State.restartDue, and_assoc, Option.isSome_iff_ne_none]

theorem exec_restartReset_of_due {s : State} {tag : Byte} (restart : s.link.restartTag = some tag)
    (due : s.restartDue tag = true) : exec .restartReset s = .next (s.completeRestart tag) := by
  refine congrArg Host.Outcome.next ?_
  rw [restart]
  exact if_pos due

theorem exec_restartReset_of_not_due {s : State}
    (notDue : ∀ tag, s.link.restartTag = some tag → ¬ s.restartDue tag = true) : exec .restartReset s = .next s := by
  refine congrArg Host.Outcome.next ?_
  cases restart : s.link.restartTag with
  | none => rfl
  | some tag => exact if_neg (notDue tag restart)

/-- Settles O26: due, the blocks are reset and the response handed over; else nothing changes. -/
theorem restartCompletes : Obligations.RestartCompletes := by
  refine ⟨fun s tag e restart restarting empty working queue service => ?due, fun s cannot =>
    exec_restartReset_of_not_due fun tag restart due => ?notDue⟩
  case due =>
    have reset := fun l q => blocksReset_of_same (s := s) (u := s) (fun _ => rfl) rfl rfl ⟨rfl, rfl⟩ rfl queue service l q
    refine ⟨s.completeRestart tag, exec_restartReset_of_due restart
      (restartDue_iff.mpr ⟨restarting, empty, by rw [working]; exact Option.some_ne_none e⟩), ?_, fun kept => ?_,
      fun orphaned => ?_⟩
    · cases orphaned : e.orphaned with
      | false =>
        rw [completeRestart_answers working orphaned]
        exact reset (s.link.answer e .ok []) s.resetBlocks.notices
      | true =>
        rw [completeRestart_returns working orphaned restart]
        exact reset _ _
    · rw [completeRestart_answers working kept]
      exact ⟨rfl, rfl⟩
    · rw [completeRestart_returns working orphaned restart]
      exact ⟨rfl, rfl⟩
  case notDue =>
    obtain ⟨restarting, empty, working⟩ := restartDue_iff.mp due
    obtain none_ | notRestarting | filled | ⟨other, restart', gone⟩ := cannot
    · rw [none_] at restart
      cases restart
    · exact notRestarting restarting
    · exact filled empty
    · rw [restart'] at restart
      cases restart
      exact working gone

end Sys2Proof.Proofs


/-! # RESTART taken (O25): the hand-overs -/

namespace Sys2Proof.Proofs

open Sys2Proof.Machine Sys2Proof.Laws

/-! ## Another entry of the table -/

section
variable {l : Link} {tag q : Byte}

theorem working_setStage_of_other (other : q ≠ tag) (g : Stage) : (l.setStage q g).working? tag = l.working? tag := by
  show (l.table.map _).find? _ = l.table.find? _
  rw [List.find?_map]
  have same : ((fun e : OutEntry => decide (e.tag = tag) && decide (e.stage = .working)) ∘
      fun e : OutEntry => if e.tag = q then { e with stage := g } else e) =
      fun e => decide (e.tag = tag) && decide (e.stage = .working) := by
    funext e
    by_cases is : e.tag = q
    · simp [is, other]
    · simp [is]
  rw [same]
  cases found : l.table.find? fun e => decide (e.tag = tag) && decide (e.stage = .working) with
  | none => rfl
  | some e =>
    have holds := List.find?_some found
    simp only [Bool.and_eq_true, decide_eq_true_iff] at holds
    rw [Option.map_some, if_neg (by rw [holds.1]; exact other.symm)]

theorem working_dropEntry_of_other (other : q ≠ tag) : (l.dropEntry q).working? tag = l.working? tag := by
  show (l.table.filter _).find? _ = l.table.find? _
  rw [List.find?_filter]
  congr 1
  funext e
  by_cases is : e.tag = tag
  · simp [is, other.symm]
  · simp [is]

theorem working_tag {e : OutEntry} (working : l.working? tag = some e) : e.tag = tag ∧ e ∈ l.table := by
  have holds := List.find?_some working
  simp only [Bool.and_eq_true, decide_eq_true_iff] at holds
  exact ⟨holds.1, List.mem_of_find?_eq_some working⟩

end

/-! ## A hand-over while a RESTART is in progress (R169, R177, R181) -/

/-- RESTARTING, with a tag whose entries are not orphaned: no entry that leaves is the RESTART's. -/
structure RestartHeld (tag : Byte) (l : Link) : Prop where
  restarting : l.readiness = .restarting
  restart : l.restartTag = some tag
  kept : ∀ e ∈ l.table, e.tag = tag → e.orphaned = false

theorem restartHeld_setStage {tag q : Byte} {l : Link} (H : RestartHeld tag l) (g : Stage) :
    RestartHeld tag (l.setStage q g) where
  restarting := H.restarting
  restart := H.restart
  kept e mem named := by
    obtain ⟨x, inTable, rfl⟩ := List.mem_map.mp mem
    split at named
    case isTrue is =>
      rw [if_pos is]
      exact H.kept x inTable named
    case isFalse isNot =>
      rw [if_neg isNot]
      exact H.kept x inTable named

theorem restartHeld_dropEntry {tag q : Byte} {l : Link} (H : RestartHeld tag l) : RestartHeld tag (l.dropEntry q) where
  restarting := H.restarting
  restart := H.restart
  kept e mem := H.kept e (List.mem_filter.mp mem).1

/-- A hand-over then changes the link alone, and of the RESTART's own entry no more than its stage. -/
theorem handOver_held {s : State} {tag : Byte} (H : RestartHeld tag s.link) (q : Byte) (st : Status) (data : List Byte) :
    ∃ l, s.handOver q st data = s.setLink l ∧ RestartHeld tag l ∧ (q ≠ tag → l.working? tag = s.link.working? tag) := by
  cases working : s.link.working? q with
  | none => exact ⟨s.link, handOver_of_none working st data, H, fun _ => rfl⟩
  | some e =>
    obtain ⟨named, inTable⟩ := working_tag working
    cases orphaned : e.orphaned with
    | false =>
      refine ⟨s.link.answer e st data, handOver_answers working orphaned st data, ?_, fun other => ?_⟩
      · have staged := restartHeld_setStage (q := e.tag) H .answered
        exact ⟨staged.restarting, staged.restart, staged.kept⟩
      · exact working_setStage_of_other (by rw [named]; exact other) .answered
    | true =>
      have other : q ≠ tag := by
        rintro rfl
        rw [H.kept e inTable named] at orphaned
        cases orphaned
      refine ⟨s.link.dropEntry q, ?_, restartHeld_dropEntry H, fun _ => working_dropEntry_of_other other⟩
      rw [handOver_orphan working orphaned, entryLeaves_of_other]
      rw [H.restart]
      exact fun same => other (Option.some.inj same).symm

/-- The queue's requests answered RESTARTED, in order (R154). -/
def queueAnswered (queue : List LauRequest) (s : State) : State :=
  queue.foldl (fun u r => u.handOver r.tag .restarted []) s

theorem queueAnswered_held {tag : Byte} : ∀ (queue : List LauRequest) {s : State}, RestartHeld tag s.link →
    ∃ l, queueAnswered queue s = s.setLink l ∧ RestartHeld tag l ∧
      ((∀ r ∈ queue, r.tag ≠ tag) → l.working? tag = s.link.working? tag)
  | [], s, H => ⟨s.link, rfl, H, fun _ => rfl⟩
  | r :: rest, s, H => by
    obtain ⟨l, first, H', waits⟩ := handOver_held H r.tag .restarted []
    obtain ⟨k, others, H'', waits'⟩ := queueAnswered_held rest (s := s.setLink l) H'
    refine ⟨k, ?_, H'', fun differ => ?_⟩
    · show queueAnswered rest (s.handOver r.tag .restarted []) = _
      rw [first, others]
      rfl
    · rw [waits' fun q mem => differ q (List.mem_cons_of_mem _ mem)]
      exact waits (differ r (List.mem_cons_self ..))

/-- Their responses, where each waits under its own tag and is not orphaned. -/
theorem queueAnswered_readyList {kind : LauRequest → Byte} : ∀ (queue : List LauRequest) {s : State},
    (queue.map fun r => r.tag).Nodup → (∀ r ∈ queue, s.link.working? r.tag =
      some { tag := r.tag, kind := kind r, stage := .working, orphaned := false }) →
    (queueAnswered queue s).link.readyList = s.link.readyList ++ queue.map fun r =>
      { tag := r.tag, kind := kind r, status := .restarted, data := [] }
  | [], s, _, _ => (List.append_nil _).symm
  | r :: rest, s, distinct, waiting => by
    rw [List.map_cons, List.nodup_cons] at distinct
    obtain ⟨fresh, distinct⟩ := distinct
    have first := handOver_answers (s := s) (waiting r (List.mem_cons_self ..)) rfl .restarted []
    have others := queueAnswered_readyList rest (kind := kind) (s := s.handOver r.tag .restarted []) distinct
      fun q mem => by
        rw [first]
        have differ : r.tag ≠ q.tag := fun same => fresh (by rw [same]; exact List.mem_map_of_mem mem)
        exact (working_setStage_of_other (l := s.link) differ .answered).trans (waiting q (List.mem_cons_of_mem _ mem))
    refine others.trans ?_
    rw [first, List.map_cons]
    simp

end Sys2Proof.Proofs


/-! # RESTART taken (O25): the LAU's part -/

namespace Sys2Proof.Proofs

open Sys2Proof.Machine Sys2Proof.Laws

/-! ## Its steps (R154) -/

theorem queueAnswered_lau (queue : List LauRequest) (s : State) : (queueAnswered queue s).lau = s.lau := by
  induction queue generalizing s with
  | nil => rfl
  | cons r rest ih => exact (ih (s.handOver r.tag .restarted [])).trans (handOver_lau ..)

theorem handOver_sched (s : State) (tag : Byte) (st : Status) (data : List Byte) :
    (s.handOver tag st data).sched = s.sched := by
  cases working : s.link.working? tag with
  | none => rw [handOver_of_none working]
  | some e =>
    cases orphaned : e.orphaned with
    | false =>
      rw [handOver_answers working orphaned]
      rfl
    | true =>
      rw [handOver_orphan working orphaned]
      unfold State.entryLeaves
      dsimp only
      split <;> rfl

theorem queueAnswered_sched (queue : List LauRequest) (s : State) : (queueAnswered queue s).sched = s.sched := by
  induction queue generalizing s with
  | nil => rfl
  | cons r rest ih => exact (ih (s.handOver r.tag .restarted [])).trans (handOver_sched ..)

/-- The queue gone and its requests answered. -/
def queueGone (s : State) : State := queueAnswered s.lau.queue (s.setLau { s.lau with queue := [] })

theorem queueGone_lau (s : State) : (queueGone s).lau = { s.lau with queue := [] } := queueAnswered_lau ..

theorem queueGone_entriesOf (s : State) (r : Requester) : (queueGone s).entriesOf r = s.entriesOf r := by
  unfold State.entriesOf
  rw [show (queueGone s).sched = s.sched from queueAnswered_sched ..]

/-- The service admits nothing more. -/
def stoppedService (sv : LauService) : LauService :=
  { sv with toAdmit := sv.admitted, cutShort := decide (sv.admitted < sv.toAdmit) }

/-- The queue gone, the service in progress stopped. -/
def serviceStopped (sv : LauService) (s : State) : State :=
  (queueGone s).setLau { (queueGone s).lau with service := some (stoppedService sv) }

section
variable {s : State}

theorem lauRestart_of_idle (idle : s.lau.service = none) : s.lauRestart = queueGone s := by
  have idle' : (queueGone s).lau.service = none := by rw [queueGone_lau]; exact idle
  unfold State.lauRestart
  dsimp only
  split
  case h_1 => rfl
  case h_2 sv service => cases service.symm.trans idle'

theorem lauRestart_of_service {sv : LauService} (service : s.lau.service = some sv) : s.lauRestart =
    if s.entriesOf .lau = 0 then (serviceStopped sv s).endService else serviceStopped sv s := by
  have service' : (queueGone s).lau.service = some sv := by rw [queueGone_lau]; exact service
  rw [← queueGone_entriesOf]
  show (match (queueGone s).lau.service with | none => _ | some sv => _) = _
  rw [service']
  rfl

end

/-! ## What it leaves, RESTARTING -/

/-- The claims and the waiting channels may have moved, the LAU's record and the link; the LAU has no queue, and no
service where it holds no entry; the RESTART's own entry waits on where no request bears its tag. -/
structure LauRestarted (tag : Byte) (s t : State) : Prop where
  fields : t = { s with channels := t.channels, regions := t.regions, lau := t.lau, link := t.link }
  regions : ∀ r, bareRegion (t.region r) = bareRegion (s.region r)
  held : RestartHeld tag t.link
  queue : t.lau.queue = []
  service : s.entriesOf .lau = 0 → t.lau.service = none
  waits : (∀ r ∈ s.lau.queue, r.tag ≠ tag) → (∀ sv, s.lau.service = some sv → sv.request.tag ≠ tag) →
    t.link.working? tag = s.link.working? tag

section
variable {s : State} {tag : Byte} (H : RestartHeld tag s.link)
include H

theorem queueGone_held : ∃ l, queueGone s = (s.setLau { s.lau with queue := [] }).setLink l ∧ RestartHeld tag l ∧
    ((∀ r ∈ s.lau.queue, r.tag ≠ tag) → l.working? tag = s.link.working? tag) :=
  queueAnswered_held s.lau.queue (s := s.setLau { s.lau with queue := [] }) H

/-- The end of a service with no queue behind it. -/
theorem endService_held {sv : LauService} (service : s.lau.service = some sv) (empty : s.lau.queue = []) :
    ∃ y l, Promotes s y ∧ s.endService =
      (y.setLink l).setLau { queue := [], service := none, buffer := Vector.replicate 8 none } ∧
      RestartHeld tag l ∧ (sv.request.tag ≠ tag → l.working? tag = s.link.working? tag) := by
  have P : Promotes s (claimReleased sv s) := by
    unfold claimReleased
    split
    · exact promotes_releaseClaim ..
    · exact Promotes.refl s
  have link : (claimReleased sv s).link = s.link := by rw [P.fields]
  obtain ⟨l, answered, held, waits⟩ := handOver_held (s := claimReleased sv s) (by rw [link]; exact H) sv.request.tag
    (sv.response s.lau.buffer).1 (sv.response s.lau.buffer).2
  refine ⟨claimReleased sv s, l, P, ?_, held, fun other => by rw [waits other, link]⟩
  rw [endService_eq service, lauFinish_eq service, answered, empty]
  rfl

theorem lauRestart_restarted : LauRestarted tag s s.lauRestart := by
  obtain ⟨l, gone, held, waits⟩ := queueGone_held H
  cases service : s.lau.service with
  | none =>
    rw [lauRestart_of_idle service, gone]
    exact { fields := rfl, regions := fun r => rfl, held := held, queue := rfl, service := fun _ => service,
            waits := fun differ _ => waits differ }
  | some sv =>
    have stopped : serviceStopped sv s = (s.setLau { s.lau with queue := [], service := some (stoppedService sv) }).setLink l := by
      unfold serviceStopped
      rw [gone]
      rfl
    rw [lauRestart_of_service service]
    split
    case isTrue none_ =>
      obtain ⟨y, k, P, ends, held', waits'⟩ := endService_held (s := serviceStopped sv s) (sv := stoppedService sv)
        (tag := tag) (by rw [stopped]; exact held) rfl (by rw [stopped]; rfl)
      rw [stopped] at P ends waits'
      rw [stopped, ends]
      exact { fields := by rw [P.fields]; rfl
              regions := fun r => P.regions r
              held := held'
              queue := rfl
              service := fun _ => rfl
              waits := fun differ other => (waits' (other sv service)).trans (waits differ) }
    case isFalse some_ =>
      rw [stopped]
      exact { fields := rfl, regions := fun r => rfl, held := held, queue := rfl, service := fun none_ => absurd none_ some_,
              waits := fun differ _ => waits differ }

end

end Sys2Proof.Proofs


/-! # RESTART taken (O25): the obligation -/

namespace Sys2Proof.Proofs

open Sys2Proof.Machine Sys2Proof.Laws

section
variable {s : State} {tag : Byte}

/-- The state in which a RESTART is in progress, its entry in the table. -/
def restarting (tag : Byte) (s : State) : State :=
  (s.working 0x04#8 tag).setLink { (s.working 0x04#8 tag).link with readiness := .restarting, restartTag := some tag }

variable (taken : s.takes 0x04#8 tag [] = true)
include taken

theorem exec_restart (serving : s.serving = true) :
    exec (.restart tag []) s = .next ((s.working 0x04#8 tag).beginRestart tag) := by
  show onFrame 0x04#8 dispatchRestart tag [] s = _
  rw [onFrame_arrives _ (takes_iff taken).1]
  exact congrArg Host.Outcome.next (accept_serving taken serving (decide_eq_true rfl) .restart _)

theorem restarting_held : RestartHeld tag (restarting tag s).link where
  restarting := rfl
  restart := rfl
  kept e mem named := by
    obtain old | new := List.mem_append.mp mem
    · exact absurd named (tagInUse_false (takes_iff taken).2.1 e old)
    · rw [List.mem_singleton.mp new]

theorem restarting_working : (restarting tag s).link.working? tag =
    some { tag := tag, kind := 0x04#8, stage := .working, orphaned := false } := by
  show (s.link.table ++ [_]).find? _ = _
  rw [List.find?_append, List.find?_eq_none.mpr]
  · simp
  · intro e mem
    simp [tagInUse_false (takes_iff taken).2.1 e mem]

end

/-! ## With the burst list empty -/

theorem beginRestart_of_empty {s : State} {tag : Byte} (empty : s.sched.list = [])
    (same : (restarting tag s).lauRestart.sched = s.sched) :
    (s.working 0x04#8 tag).beginRestart tag = (restarting tag s).lauRestart.reportAll.completeRestart tag := by
  refine if_pos ?_
  show (restarting tag s).lauRestart.sched.list.isEmpty = true
  rw [same, empty]
  rfl

theorem beginRestart_of_entries {s : State} {tag : Byte} (entries : s.sched.list ≠ [])
    (same : (restarting tag s).lauRestart.sched = s.sched) :
    (s.working 0x04#8 tag).beginRestart tag = (restarting tag s).lauRestart.reportAll := by
  refine if_neg ?_
  show ¬ (restarting tag s).lauRestart.sched.list.isEmpty = true
  rw [same, List.isEmpty_iff]
  exact entries

/-! ## What the LAU's part leaves -/

/-- The rest of the state, once the requesters have reported. -/
theorem restarting_rest {tag : Byte} {s t : State} (L : LauRestarted tag (restarting tag s) t) :
    t.reportAll.sched = s.sched ∧ t.reportAll.check = s.check ∧ t.reportAll.marks = s.marks ∧
      t.reportAll.captures = s.captures ∧ t.reportAll.playouts = s.playouts ∧ t.reportAll.notices = s.notices ∧
      t.reportAll.mem = s.mem ∧ t.reportAll.wrongBits = s.wrongBits ∧ t.reportAll.now = s.now := by
  rw [L.fields]
  exact ⟨rfl, rfl, rfl, rfl, rfl, rfl, rfl, rfl, rfl⟩

/-- Where no service ends, the channels and the regions stay as they are. -/
theorem lauRestart_of_quiet {tag : Byte} {s : State} (H : RestartHeld tag s.link)
    (quiet : s.lau.service = none ∨ s.entriesOf .lau ≠ 0) : s.lauRestart =
      (s.setLau { s.lau with queue := [], service := s.lau.service.map stoppedService }).setLink (queueGone s).link := by
  obtain ⟨l, gone, -, -⟩ := queueGone_held H
  cases service : s.lau.service with
  | none =>
    have kept : ({ s.lau with queue := [] } : Lau) = { s.lau with queue := [], service := none } := by rw [← service]
    rw [lauRestart_of_idle service, gone]
    exact congrArg (fun a => (s.setLau a).setLink l) kept
  | some sv =>
    rw [service] at quiet
    rw [lauRestart_of_service service, if_neg (quiet.resolve_left (Option.some_ne_none sv)), serviceStopped, gone]
    rfl

/-- Settles O25: the LAU's part, then with no entry in the burst list the reset of the blocks at once. -/
theorem restartTaken : Obligations.RestartTaken := by
  refine ⟨?lau, ?request⟩
  case lau =>
    rintro s w rfl
    refine ⟨fun idle => lauRestart_of_idle idle, fun sv x service xIs => ?_⟩
    rw [lauRestart_of_service service, xIs]
    exact ⟨fun some_ => if_neg some_, fun none_ => if_pos none_⟩
  case request =>
    intro tag s taken serving
    have H := restarting_held taken
    have L := lauRestart_restarted H
    have sched : (restarting tag s).lauRestart.sched = s.sched := (restarting_rest L).1
    have closed : ∀ {t : State}, t.link.readiness = .restarting → exec .admission t = .next t := fun is =>
      exec_admission_of_nothing (.inr (.inr (.inr (.inl (by rw [is]; exact PartReadiness.noConfusion)))))
    by_cases empty : s.sched.list = []
    case pos =>
      obtain ⟨l, done, held, -⟩ := handOver_held (s := (restarting tag s).lauRestart.reportAll.resetBlocks) L.held tag .ok []
      have done : (restarting tag s).lauRestart.reportAll.completeRestart tag =
        (restarting tag s).lauRestart.reportAll.resetBlocks.setLink l := done
      refine ⟨restarting tag s, (restarting tag s).lauRestart.reportAll.completeRestart tag, ?_, ?_, ?_, ?_, closed ?_, rfl,
        fun is => absurd empty is, fun _ => ⟨?_, ?_, fun differ other => ?_⟩⟩
      · rw [exec_restart taken serving, beginRestart_of_empty empty sched]
      · rw [done]
        exact held.restarting
      · rw [done]
        exact held.restart
      · rw [done]
        exact L.queue
      · rw [done]
        exact held.restarting
      · obtain ⟨sched, -, -, -, playouts, -, mem, wrongBits, now⟩ := restarting_rest L
        have none_ : (restarting tag s).entriesOf .lau = 0 := by
          show s.sched.list.countP _ = 0
          rw [empty, List.countP_nil]
        rw [done]
        exact blocksReset_of_same (s := s) (u := (restarting tag s).lauRestart.reportAll) L.regions sched playouts ⟨mem, wrongBits⟩ now
          L.queue (L.service none_) l (restarting tag s).lauRestart.reportAll.resetBlocks.notices
      · rw [done]
        rfl
      · have working : (restarting tag s).lauRestart.reportAll.link.working? tag =
            some { tag := tag, kind := 0x04#8, stage := .working, orphaned := false } :=
          (L.waits differ other).trans (restarting_working taken)
        rw [completeRestart_answers working rfl]
        exact ⟨⟨_, rfl⟩, List.mem_map.mpr ⟨_, (working_tag working).2, if_pos rfl⟩⟩
    case neg =>
      have taken_ : exec (.restart tag []) s = .next (restarting tag s).lauRestart.reportAll := by
        rw [exec_restart taken serving, beginRestart_of_entries empty sched]
      obtain ⟨-, check, marks, captures, playouts, notices, mem, wrongBits, now⟩ := restarting_rest L
      refine ⟨restarting tag s, (restarting tag s).lauRestart.reportAll, taken_, L.held.restarting, L.held.restart, L.queue,
        closed L.held.restarting, rfl, fun _ => ⟨rfl, sched, check, marks, captures, playouts, notices, mem, wrongBits, now,
          fun quiet => ?quiet⟩, fun is => absurd is empty⟩
      have stays := lauRestart_of_quiet H quiet
      refine ⟨?_, ?_, ?_, ?_, fun kind distinct waiting => ?_⟩
      · rw [stays]
        rfl
      · rw [stays]
        rfl
      · rw [stays]
        rfl
      · rw [stays]
        rfl
      · rw [stays]
        refine queueAnswered_readyList s.lau.queue (s := (restarting tag s).setLau { s.lau with queue := [] }) distinct
          fun r mem => ?_
        show (s.link.table ++ [_]).find? _ = _
        rw [List.find?_append, show s.link.table.find? _ = _ from waiting r mem]
        rfl

end Sys2Proof.Proofs
